-- ==== Sys2Proof/Word.lean ====
section
/-! DEFINITION. The word types of the machine (spec 00 R13) and their plainest arithmetic. -/

namespace Sys2Proof

/-- `Nibble`: 4 bits, the native word size (00 R13, R17). -/
abbrev Nibble := BitVec 4

/-- `Byte`: 0 to 255, a pair of nibbles (00 R13). -/
abbrev Byte := BitVec 8

/-- `Addr`: an address of a cell, 8 bits, so arithmetic wraps modulo 256 (00 R13, 20 R71). -/
abbrev Addr := BitVec 8

/-- A 16-bit timer value (60 R390). -/
abbrev Word16 := BitVec 16

/-- A window of 16 cells, the argument of the rounds (00 R13). -/
abbrev Window := Vector Nibble 16

/-- Bit `i` of a value as a truth value (00 R12). -/
def bitOf {n : Nat} (v : BitVec n) (i : Nat) : Bool := v.getLsbD i

/-- The nibble `0x0` or `0x1` of a bit. -/
def bitNibble (b : Bool) : Nibble := if b then 1 else 0

end Sys2Proof
end

