-- ==== Sys2Proof/Config.lean ====
section
/-! DEFINITION. What an implementation fixes (spec 00 R8 to R11, 20 R80 to R85, 30 R120, R121) and the free values.
An `opaque` constant has no body: it stands for an OPEN parameter, or for a value the spec leaves free. -/

namespace Sys2Proof

/-- A console or chip region (00 R9, R10). -/
inductive Region where
  | ntsc
  | pal
  deriving DecidableEq, Repr, Inhabited

/-- Step of the compare index, `CMP_DIR` = +1 or -1 (00 R9). -/
inductive Direction where
  | up
  | down
  deriving DecidableEq, Repr, Inhabited

/-- Which function stands for a parameter whose DEFAULT is a function: the spec's default, or some other
function of the implementation, left opaque (00 R8, R9; log 29). -/
inductive FnChoice where
  | specDefault
  | other
  deriving DecidableEq, Repr, Inhabited

/-- The plain-data part of `PifConfig` and `CicConfig` (00 R9, R10), and whether the two engines are paired
(41 R176). State carries it and no step writes it (log 10). The types are wider than the ranges of 00 R9; of a value outside
its range the spec says nothing, and the rules then run with it as it is, addresses modulo 256 (DESIGN CHOICE, log 38). -/
structure Params where
  /-- Both engines present: `P_CIC` reads return the peer's latch (41 R176). -/
  paired : Bool
  /-- `REGION_PIF`, OPEN. -/
  regionPif : Region
  /-- `SEED_XFER_LEN`, DEFAULT 16; 20 admitted (42 R206, 90 C1); another length: log 38. -/
  seedXferLen : Byte
  /-- `SEED_WIN_OFF`, DEFAULT 0, range 0 to `SEED_XFER_LEN` - 16 (00 R9); above it: log 38. -/
  seedWinOff : Byte
  /-- `CKS_OFF`, DEFAULT 4, range 0 to 4 (00 R9); above it: log 38. -/
  cksOff : Byte
  /-- `BOOT_TIMER_INIT`, DEFAULT 0, OPEN in claims. -/
  bootTimerInit : Word16
  /-- `RESET_TIMER_INIT`, DEFAULT 0, OPEN in claims. -/
  resetTimerInit : Word16
  /-- `CMP_DIR`, DEFAULT +1. -/
  cmpDir : Direction
  /-- `CompareKeyInit`, DEFAULT the identity pair. -/
  compareKeyInit : FnChoice
  /-- `CompareStart`, DEFAULT of 43 R247. -/
  compareStart : FnChoice
  /-- `ChalVerify`, DEFAULT always true. -/
  chalVerify : FnChoice
  /-- `REGION_CIC`, OPEN. -/
  regionCic : Region
  /-- `VARIANT_T`, OPEN. -/
  variantT : Bool
  /-- `SECRET`, 8 nibbles, OPEN. -/
  secret : Vector Nibble 8
  /-- `SEED_EXTRA`, the nibbles of the seed buffer outside the window in address order, OPEN; the first
  `SEED_XFER_LEN` - 16 of them are used (log 25). -/
  seedExtra : Vector Nibble 16
  /-- `CKS_PLAIN`, 16 nibbles, OPEN. -/
  cksPlain : Window
  /-- `CHAL_CAPABLE`, OPEN. -/
  chalCapable : Bool
  /-- `CHAL_A0`, OPEN. -/
  chalA0 : Nibble
  /-- `CHAL_C0`, 1. -/
  chalC0 : Bool
  /-- `CHAL_ACC_COMPLEMENT`, DEFAULT false. -/
  chalAccComplement : Bool
  /-- `RC_ITERS`, OPEN. -/
  rcIters : Nat
  deriving DecidableEq, Repr

namespace Config

/-! Layout of the PIF memory, internal region (20 R80, R81) -/

/-- `ST_MAIN` (10 R38). -/
def stMain : Addr := 0x00
/-- `OSINFO` (10 R41). -/
def osinfo : Addr := 0x01
/-- `SAVE_A` (10 R43). -/
def saveA : Addr := 0x02
/-- `BOOT_TIMER`, four cells (10 R42). -/
def bootTimer : Addr := 0x04
/-- `RESET_TIMER`, four cells (10 R42). -/
def resetTimer : Addr := 0x08
/-- `SEEDBUF` of either engine (20 R80, R84). -/
def seedBuf : Addr := 0x10
/-- `CKSWIN` of either engine (20 R80, R84). -/
def cksWin : Addr := 0x30
/-- `CKS_CPU`, 12 cells (10 R43). -/
def cksCpu : Addr := 0x40
/-- `CMP0` of either engine (20 R80, R84). -/
def cmp0 : Addr := 0x50
/-- `CMP1` of either engine (20 R80, R84). -/
def cmp1 : Addr := 0x60
/-- The JoyBus channel table, three cells a channel (20 R81). -/
def jbTable : Addr := 0x70
/-- `JBOFF_HI[ch]` (20 R81). -/
def jbOffHi (ch : Nat) : Addr := jbTable + BitVec.ofNat 8 (3 * ch)
/-- `JBOFF_LO[ch]` (20 R81). -/
def jbOffLo (ch : Nat) : Addr := jbTable + BitVec.ofNat 8 (3 * ch + 1)
/-- `JBSTAT[ch]` (20 R81). -/
def jbStat (ch : Nat) : Addr := jbTable + BitVec.ofNat 8 (3 * ch + 2)

/-! Layout of the shared region (20 R82, R83) -/

/-- `SH_BASE`, the window start of the shared region. -/
def shBase : Nat := 0x80
/-- `SH_END`, the address of the command byte's first cell. -/
def shEnd : Nat := 0xFE
/-- `SH_CHAL`, 32 cells. -/
def shChal : Addr := 0xC0
/-- `SH_CKS`, 12 cells. -/
def shCks : Addr := 0xE4
/-- `CMD_STATUS`, the high nibble of the command byte. -/
def cmdStatus : Addr := 0xFE
/-- `CMD_CMD`, the low nibble of the command byte. -/
def cmdCmd : Addr := 0xFF

/-! Layout of the CIC memory (20 R84); `SEEDBUF`, `CKSWIN`, `CMP0` and `CMP1` stand where the PIF's do -/

/-- `CST` (10 R45). -/
def cst : Addr := 0x00
/-- `RC`, four cells (10 R45). -/
def rc : Addr := 0x04
/-- `CHALBUF`, 32 cells (10 R45). -/
def chalBuf : Addr := 0x80

/-! Constants of 00 R9 -/

/-- `CKS_XFER_LEN`, 16. -/
def cksXferLen : Byte := 16
/-- `CHAL_LEN`, 32. -/
def chalLen : Byte := 32
/-- `JB_COUNT_MASK`, DEFAULT 0x3F (30 R116). -/
def jbCountMask : Byte := 0x3F
/-- `JB_ERR_NIBBLE`, DEFAULT 0x8 (44 R298). -/
def jbErrNibble : Nibble := 0x8

/-! OPEN functions (00 R9, R10). Each is a total function; nothing else is known of it. -/

/-- `CompareRound` (45 R322): pure and deterministic, 16 nibbles to 16 nibbles. -/
opaque compareRound : Window → Window
/-- `SeedDerive` (45 R314): the plain seed window from `SECRET`. -/
opaque seedDerive : Vector Nibble 8 → Window
/-- A `CompareKeyInit` that is not the default (00 R9). -/
opaque compareKeyInitOther : Window → Window → Window × Window
/-- A `CompareStart` that is not the default (00 R9). -/
opaque compareStartOther : Window → Nibble
/-- A `ChalVerify` that is not the default (43 R252). -/
opaque chalVerifyOther : List Nibble → List Nibble → Bool

/-! OPEN values of the reset configuration (00 R9, R10) -/

/-- `REGION_PIF`. -/
opaque regionPif : Region
/-- `REGION_CIC`. -/
opaque regionCic : Region
/-- `VARIANT_T`. -/
opaque variantT : Bool
/-- `SECRET`. -/
opaque secret : Vector Nibble 8
/-- `SEED_EXTRA`. -/
opaque seedExtra : Vector Nibble 16
/-- `CKS_PLAIN`. -/
opaque cksPlain : Window
/-- `CHAL_CAPABLE`. -/
opaque chalCapable : Bool
/-- `CHAL_A0`. -/
opaque chalA0 : Nibble
/-- `RC_ITERS`. -/
opaque rcIters : Nat

/-! Free values (00 R14 `draw`): the argument is the counter of draws in State (log 6, log 8) -/

/-- The value the host supplies to a port read for which it has laid nothing ready (41 R170). -/
opaque portValue : Nat → Nibble
/-- Any nibble (10 R51, 44 R297). -/
opaque anyNibble : Nat → Nibble
/-- Any bit (10 R31). -/
opaque anyBit : Nat → Bool

/-- The configuration at reset: the spec's DEFAULT values, and the opaque constants for what is OPEN
(00 R9, R10; log 10). -/
def initial : Params where
  paired := true
  regionPif := regionPif
  seedXferLen := 16
  seedWinOff := 0
  cksOff := 4
  bootTimerInit := 0
  resetTimerInit := 0
  cmpDir := .up
  compareKeyInit := .specDefault
  compareStart := .specDefault
  chalVerify := .specDefault
  regionCic := regionCic
  variantT := variantT
  secret := secret
  seedExtra := seedExtra
  cksPlain := cksPlain
  chalCapable := chalCapable
  chalA0 := chalA0
  chalC0 := true
  chalAccComplement := false
  rcIters := rcIters

end Config
end Sys2Proof
end

