-- ==== Sys2Proof/Syntax.lean ====
section
/-! DEFINITION. The operations of the machine: one constructor of `Instr` per row of spec/opcode_table.json
(spec 00 R2: an operation takes the place of an instruction), and the closed types of their operands. -/

namespace Sys2Proof

/-- The ten ports (20 R86). -/
inductive Port where
  | cic
  | romLock
  | jbCtrl
  | jbStatus
  | jbError
  | jbData
  | jbChSel
  | reset
  | entropy
  | inten
  deriving DecidableEq, Repr

/-- The two timers (60 R390). -/
inductive Timer where
  | boot
  | reset
  deriving DecidableEq, Repr

/-- The two interrupt sources (60 R360, R361). -/
inductive IntSrc where
  | a
  | b
  deriving DecidableEq, Repr

/-- The causes of `Fatal`, in the order of their codes 1 to 7 (60 R371). -/
inductive FatalCause where
  | badVersionCode
  | regionMismatch
  | checksumMismatch
  | challengeMismatch
  | bootTimerExhausted
  | resetTimerExhausted
  | compareMismatch
  deriving DecidableEq, Repr

/-- The four transfer kinds (30 R110). -/
inductive XKind where
  | read4
  | write4
  | read64
  | write64
  deriving DecidableEq, Repr

/-- The formats a pattern is decoded in (30 R100). -/
inductive Format where
  | cmd
  | xkind
  | hello
  | ciccmd
  | jbtx
  | jbrx
  | frame
  | portval
  | op
  deriving DecidableEq, Repr

/-- An item of the JoyBus frame list as its `TX` byte selects it (30 R117). -/
inductive JbItem where
  | skip
  | reset
  | stop
  | nop
  | xfer (tx rx : Byte)
  deriving DecidableEq, Repr

/-- The operations. -/
inductive Instr where
  -- CMD, the flags of the command byte (30 R104)
  | cmdLockout
  | cmdGetChecksum
  | cmdCheckChecksum
  | cmdAck
  | cmdJoybus
  | cmdChallenge
  | cmdBit2
  | cmdTerminate
  -- XKIND, the transfer kinds (30 R110)
  | xkindRead4
  | xkindWrite4
  | xkindRead64
  | xkindWrite64
  -- HELLO, the code T:R (30 R113)
  | hello00
  | hello01
  | hello10
  | hello11
  -- CICCMD, the selector (30 R114)
  | ciccmdCompare
  | ciccmdChallenge
  | ciccmdReset
  | ciccmdReserved
  -- JBTX, the items of the frame list (30 R117); the TX and RX byte of a transfer item
  | jbSkip
  | jbReset
  | jbStop
  | jbNop
  | jbXfer (tx rx : Byte)
  -- JBRX, the second byte of an item (30 R118)
  | jbRx (rx : Byte)
  -- FRAME, a whole frame: TX, RX, data, receive space (30 R116)
  | frame (tx rx : Byte) (data recv : List Byte)
  -- PORTVAL, the command values of P_JB_CTRL (30 R121)
  | jbcIdle
  | jbcTx
  | jbcRx
  | jbcReset
  | jbcXferAck
  -- OP, primitives of the memory and register model (40)
  | read (addr : Addr)
  | write (addr : Addr) (value : Nibble)
  | bitTest (addr : Addr) (bit : BitVec 2)
  | bitSet (addr : Addr) (bit : BitVec 2)
  | bitReset (addr : Addr) (bit : BitVec 2)
  | swap
  | incPage
  | incFull
  | setPointer (addr : Addr)
  | add4 (x y : Nibble)
  | adc4 (x y : Nibble)
  | com4 (x : Nibble)
  | sub4 (x y : Nibble)
  | inc8 (addr : Addr)
  -- OP, ports and link (41)
  | portRead (p : Port)
  | portWrite (p : Port) (v : Nibble)
  | writeBit (v : Bool)
  | readBit
  | readNibble
  | writeNibble (n : Nibble)
  | readBuf (base : Addr) (n : Byte)
  | writeBuf (base : Addr) (n : Byte)
  -- OP, PIF boot (42)
  | pifStartup
  | pifAwaitLockout
  | pifAwaitChecksum
  | pifAwaitAck
  | pifChecksumExchange
  | pifChecksumCompare
  | pifBootTimerGate
  | pifEnterRunning
  -- OP, PIF running (43)
  | pifRunningLoop
  | pifCompareExchange
  | pifChallengeExchange
  | pifResetting
  -- OP, JoyBus (44)
  | pifJoybusParse
  | pifJoybusTransfer
  | jbChannelReset
  | jbChannelExchange (ch : Fin 5)
  | jbWaitReady
  | jbError (rq : Addr)
  -- OP, CIC engine (45)
  | decodeRound (w : Addr)
  | encodeRound (w : Addr)
  | compareRound (w : Addr)
  | challengeTransform (buf : Addr)
  | complementAll (buf : Addr)
  | resetCounter
  | cicMain
  | cicCompare
  | cicChallenge
  | cicReset
  -- OP, interrupts, fatal action, halting, timers (60)
  | poll
  | intEntry (x : IntSrc)
  | intReturn
  | fatal (cause : FatalCause)
  | halt
  | ackTransfer
  | pifIntA
  | pifIntB
  | timerInit (t : Timer) (v : Word16)
  | timerTick (t : Timer)
  deriving DecidableEq, Repr

end Sys2Proof
end

