-- ==== Sys2Proof/WellFormed.lean ====
section
/-! DEFINITION. The checks on an operation that its operands' types do not make (spec 30 R116, R117). -/

namespace Sys2Proof

/-- The four `TX` bytes that are whole items of their own (30 R117). -/
def specialTx (tx : Byte) : Bool :=
  tx == 0x00 || tx == 0xFD || tx == 0xFE || tx == 0xFF

/-- A count of a `TX` or `RX` byte under `JB_COUNT_MASK` (30 R116). -/
def jbCount (b : Byte) : Nat := (b &&& Config.jbCountMask).toNat

/-- A transfer item has a `TX` byte that is not special, and a frame has exactly `txc` bytes of data and
`rxc` bytes of receive space; every other operation is well formed by its type. -/
def Instr.wellFormed : Instr → Bool
  | .jbXfer tx _ => !specialTx tx
  | .frame tx rx data recv =>
    !specialTx tx && data.length == jbCount tx && recv.length == jbCount rx
  | _ => true

end Sys2Proof
end

