-- ==== Sys2Proof/Decode.lean ====
section
/-! DEFINITION. Decoding of the run-time patterns (spec 30), total on any bytes, and the encoder.
Each format is decoded where its rule decodes it, so `decode` takes the format. The operand bytes after an `OP`
number are the model's own (30 R101 gives the number only; log 1). -/

namespace Sys2Proof

/-! ## Operand codes of the notional operation field (log 1) -/

/-- The code of a port: its place in the list of 20 R86. -/
def portCode : Port → Byte
  | .cic => 0
  | .romLock => 1
  | .jbCtrl => 2
  | .jbStatus => 3
  | .jbError => 4
  | .jbData => 5
  | .jbChSel => 6
  | .reset => 7
  | .entropy => 8
  | .inten => 9

/-- The port of a code; none above 9. -/
def portOfCode (b : Byte) : Option Port :=
  match b.toNat with
  | 0 => some .cic
  | 1 => some .romLock
  | 2 => some .jbCtrl
  | 3 => some .jbStatus
  | 4 => some .jbError
  | 5 => some .jbData
  | 6 => some .jbChSel
  | 7 => some .reset
  | 8 => some .entropy
  | 9 => some .inten
  | _ => none

/-- The code of a timer. -/
def timerCode : Timer → Byte
  | .boot => 0
  | .reset => 1

/-- The timer of a code. -/
def timerOfCode (b : Byte) : Option Timer :=
  match b.toNat with
  | 0 => some .boot
  | 1 => some .reset
  | _ => none

/-- The code of an interrupt source. -/
def intSrcCode : IntSrc → Byte
  | .a => 0
  | .b => 1

/-- The interrupt source of a code. -/
def intSrcOfCode (b : Byte) : Option IntSrc :=
  match b.toNat with
  | 0 => some .a
  | 1 => some .b
  | _ => none

/-- The operand code of a fatal cause: its number of 60 R371 less one, so that the codes start at 0 (log 1). -/
def causeCode : FatalCause → Byte
  | .badVersionCode => 0
  | .regionMismatch => 1
  | .checksumMismatch => 2
  | .challengeMismatch => 3
  | .bootTimerExhausted => 4
  | .resetTimerExhausted => 5
  | .compareMismatch => 6

/-- The fatal cause of an operand code. -/
def causeOfCode (b : Byte) : Option FatalCause :=
  match b.toNat with
  | 0 => some .badVersionCode
  | 1 => some .regionMismatch
  | 2 => some .checksumMismatch
  | 3 => some .challengeMismatch
  | 4 => some .bootTimerExhausted
  | 5 => some .resetTimerExhausted
  | 6 => some .compareMismatch
  | _ => none

/-- The number a fatal cause has in 60 R371. -/
def fatalCode (c : FatalCause) : Nat := (causeCode c).toNat + 1

/-- The code of a channel, 0 to 4 (30 R120 `CH`). -/
def channelCode (ch : Fin 5) : Byte := BitVec.ofNat 8 ch.val

/-- The channel of a code: only 0 to 4 name a channel (44 R291). -/
def channelOfCode (b : Byte) : Option (Fin 5) :=
  if h : b.toNat < 5 then some ⟨b.toNat, h⟩ else none

/-- The byte `0` or `1` of a bit. -/
def bitByte (b : Bool) : Byte := if b then 1 else 0

/-- An operation with one operand byte. -/
def operand1 (f : Byte → Instr) : List Byte → Option (Instr × List Byte)
  | x :: bs => some (f x, bs)
  | [] => none

/-- An operation with two operand bytes. -/
def operand2 (f : Byte → Byte → Instr) : List Byte → Option (Instr × List Byte)
  | x :: y :: bs => some (f x y, bs)
  | _ => none

/-- An operation whose operand byte is the code of a closed type: a code outside it is refused. -/
def operandOf {α : Type} (code : Byte → Option α) (f : α → Instr) :
    List Byte → Option (Instr × List Byte)
  | x :: bs => (code x).map fun a => (f a, bs)
  | [] => none

/-- `PortWrite`: a port code and a value byte, of which the low nibble is the value. -/
def opPortWrite : List Byte → Option (Instr × List Byte)
  | x :: y :: bs => (portOfCode x).map fun p => (.portWrite p (y.setWidth 4), bs)
  | _ => none

/-- `TimerInit`: a timer code and the 16-bit value, low byte first. -/
def opTimerInit : List Byte → Option (Instr × List Byte)
  | x :: lo :: hi :: bs => (timerOfCode x).map fun t => (.timerInit t (hi ++ lo), bs)
  | _ => none

/-! ## The formats -/

/-- `OP`: the number `op` of 30 R101, then the operand bytes. A number above 0x3B is no operation. -/
def decodeOp (n : Nat) (bs : List Byte) : Option (Instr × List Byte) :=
  match n with
  | 0x00 => operand1 (fun x => .read x) bs
  | 0x01 => operand2 (fun x y => .write x (y.setWidth 4)) bs
  | 0x02 => operand2 (fun x y => .bitTest x (y.setWidth 2)) bs
  | 0x03 => operand2 (fun x y => .bitSet x (y.setWidth 2)) bs
  | 0x04 => operand2 (fun x y => .bitReset x (y.setWidth 2)) bs
  | 0x05 => some (.swap, bs)
  | 0x06 => some (.incPage, bs)
  | 0x07 => some (.incFull, bs)
  | 0x08 => operand1 (fun x => .setPointer x) bs
  | 0x09 => operand2 (fun x y => .add4 (x.setWidth 4) (y.setWidth 4)) bs
  | 0x0A => operand2 (fun x y => .adc4 (x.setWidth 4) (y.setWidth 4)) bs
  | 0x0B => operand1 (fun x => .com4 (x.setWidth 4)) bs
  | 0x0C => operand2 (fun x y => .sub4 (x.setWidth 4) (y.setWidth 4)) bs
  | 0x0D => operand1 (fun x => .inc8 x) bs
  | 0x0E => operandOf portOfCode (fun p => .portRead p) bs
  | 0x0F => opPortWrite bs
  | 0x10 => operand1 (fun x => .writeBit (bitOf x 0)) bs
  | 0x11 => some (.readBit, bs)
  | 0x12 => some (.readNibble, bs)
  | 0x13 => operand1 (fun x => .writeNibble (x.setWidth 4)) bs
  | 0x14 => operand2 (fun x y => .readBuf x y) bs
  | 0x15 => operand2 (fun x y => .writeBuf x y) bs
  | 0x16 => some (.pifStartup, bs)
  | 0x17 => some (.pifAwaitLockout, bs)
  | 0x18 => some (.pifAwaitChecksum, bs)
  | 0x19 => some (.pifAwaitAck, bs)
  | 0x1A => some (.pifChecksumExchange, bs)
  | 0x1B => some (.pifChecksumCompare, bs)
  | 0x1C => some (.pifBootTimerGate, bs)
  | 0x1D => some (.pifEnterRunning, bs)
  | 0x1E => some (.pifRunningLoop, bs)
  | 0x1F => some (.pifCompareExchange, bs)
  | 0x20 => some (.pifChallengeExchange, bs)
  | 0x21 => some (.pifResetting, bs)
  | 0x22 => some (.pifJoybusParse, bs)
  | 0x23 => some (.pifJoybusTransfer, bs)
  | 0x24 => some (.jbChannelReset, bs)
  | 0x25 => operandOf channelOfCode (fun x => .jbChannelExchange x) bs
  | 0x26 => some (.jbWaitReady, bs)
  | 0x27 => operand1 (fun x => .jbError x) bs
  | 0x28 => operand1 (fun x => .decodeRound x) bs
  | 0x29 => operand1 (fun x => .encodeRound x) bs
  | 0x2A => operand1 (fun x => .compareRound x) bs
  | 0x2B => operand1 (fun x => .challengeTransform x) bs
  | 0x2C => operand1 (fun x => .complementAll x) bs
  | 0x2D => some (.resetCounter, bs)
  | 0x2E => some (.cicMain, bs)
  | 0x2F => some (.cicCompare, bs)
  | 0x30 => some (.cicChallenge, bs)
  | 0x31 => some (.cicReset, bs)
  | 0x32 => some (.poll, bs)
  | 0x33 => operandOf intSrcOfCode (fun x => .intEntry x) bs
  | 0x34 => some (.intReturn, bs)
  | 0x35 => operandOf causeOfCode (fun x => .fatal x) bs
  | 0x36 => some (.halt, bs)
  | 0x37 => some (.ackTransfer, bs)
  | 0x38 => some (.pifIntA, bs)
  | 0x39 => some (.pifIntB, bs)
  | 0x3A => opTimerInit bs
  | 0x3B => operandOf timerOfCode (fun x => .timerTick x) bs
  | _ => none

/-- The `CMD` rows: the mask of a flag, which is also its match, and the flag, in the order of the table of 30 R104. -/
def cmdRows : List (Byte × Instr) :=
  [(0x10, .cmdLockout), (0x20, .cmdGetChecksum), (0x40, .cmdCheckChecksum), (0x80, .cmdAck),
   (0x01, .cmdJoybus), (0x02, .cmdChallenge), (0x04, .cmdBit2), (0x08, .cmdTerminate)]

/-- The `CMD` rows that a byte matches: the bit of the row is set, whatever the other seven are (30 R101, R105). -/
def cmdMatches (b : Byte) : List (Byte × Instr) := cmdRows.filter fun r => b &&& r.1 != 0

/-- The flags that are set in a command byte (30 R104, R105). -/
def cmdFlags (b : Byte) : List Instr := (cmdMatches b).map Prod.snd

/-- `CMD`: the first flag that is set, and the byte without it: the flags are independent, and any subset may be set
(30 R101, R105). That they are taken one after another in the order of 30 R104 is a choice (DESIGN CHOICE, log 34). -/
def decodeCmd (b : Byte) : Option (Instr × Byte) :=
  match cmdMatches b with
  | [] => none
  | r :: _ => some (r.2, b &&& ~~~r.1)

/-- `XKIND`: `XFER_64` is bit 1 and `XFER_WRITE` bit 0 of the value (30 R110, R120); the other bits are not
looked at. -/
def decodeXkind {n : Nat} (v : BitVec n) : XKind :=
  match bitOf v 1, bitOf v 0 with
  | false, false => .read4
  | false, true => .write4
  | true, false => .read64
  | true, true => .write64

/-- The `XKIND` row of a kind. -/
def xkindInstr : XKind → Instr
  | .read4 => .xkindRead4
  | .write4 => .xkindWrite4
  | .read64 => .xkindRead64
  | .write64 => .xkindWrite64

/-- The two bits of a kind (30 R110). -/
def xkindBits : XKind → Nibble
  | .read4 => 0
  | .write4 => 1
  | .read64 => 2
  | .write64 => 3

/-- `HELLO`: the code `T:R` (30 R112, R113). -/
def decodeHello (t r : Bool) : Instr :=
  match t, r with
  | false, false => .hello00
  | false, true => .hello01
  | true, false => .hello10
  | true, true => .hello11

/-- `CICCMD`: first bit, second bit (30 R114). -/
def decodeCicCmd (first second : Bool) : Instr :=
  match first, second with
  | false, false => .ciccmdCompare
  | true, false => .ciccmdChallenge
  | true, true => .ciccmdReset
  | false, true => .ciccmdReserved

/-- `JBTX`: the item a `TX` byte selects, the four special values by the whole byte (30 R117). -/
def decodeJbItem (tx rx : Byte) : JbItem :=
  if tx = 0x00 then .skip
  else if tx = 0xFD then .reset
  else if tx = 0xFF then .nop
  else if tx = 0xFE then .stop
  else .xfer tx rx

/-- `JBTX` from bytes: a special item is one byte, a transfer item goes on with its `RX` byte (30 R117). -/
def decodeJbtx : List Byte → Option (Instr × List Byte)
  | [] => none
  | tx :: bs =>
    if tx = 0x00 then some (.jbSkip, bs)
    else if tx = 0xFD then some (.jbReset, bs)
    else if tx = 0xFF then some (.jbNop, bs)
    else if tx = 0xFE then some (.jbStop, bs)
    else operand1 (fun rx => .jbXfer tx rx) bs

/-- `FRAME`: `TX RX data[txc] recvSpace[rxc]` (30 R116); a special `TX` byte starts no frame. -/
def decodeFrame : List Byte → Option (Instr × List Byte)
  | tx :: rx :: bs =>
    if specialTx tx then none
    else if bs.length < jbCount tx + jbCount rx then none
    else some (.frame tx rx (bs.take (jbCount tx)) ((bs.drop (jbCount tx)).take (jbCount rx)),
      bs.drop (jbCount tx + jbCount rx))
  | _ => none

/-- `PORTVAL`: the command values of `P_JB_CTRL`; 5 to 15 are never written (30 R121). -/
def decodePortVal (v : Nibble) : Option Instr :=
  match v.toNat with
  | 0 => some .jbcIdle
  | 1 => some .jbcTx
  | 2 => some .jbcRx
  | 3 => some .jbcReset
  | 4 => some .jbcXferAck
  | _ => none

/-- One operation from the bytes of a format, and what is left of the bytes: of a command byte the flags still to come,
if there are any, and the bytes after it. None is a refusal. The patterns of `XKIND`, `HELLO` and `CICCMD` are 2 bits
wide and those of `PORTVAL` 4 (30 R100); each comes here in a byte of its own, whose upper bits are not looked at
(DESIGN CHOICE, log 33). -/
def decode (f : Format) (bytes : List Byte) : Option (Instr × List Byte) :=
  match f, bytes with
  | .cmd, b :: bs => (decodeCmd b).map fun x => (x.1, if x.2 = 0 then bs else x.2 :: bs)
  | .xkind, b :: bs => some (xkindInstr (decodeXkind b), bs)
  | .hello, b :: bs => some (decodeHello (bitOf b 1) (bitOf b 0), bs)
  | .ciccmd, b :: bs => some (decodeCicCmd (bitOf b 1) (bitOf b 0), bs)
  | .jbtx, bs => decodeJbtx bs
  | .jbrx, b :: bs => some (.jbRx b, bs)
  | .frame, bs => decodeFrame bs
  | .portval, b :: bs => (decodePortVal (b.setWidth 4)).map fun i => (i, bs)
  | .op, b :: bs => decodeOp b.toNat bs
  | _, [] => none

/-! ## The encoder -/

/-- The format and the bytes of a well-formed operation (30 R100 to R121; operand bytes log 1). -/
def encode : Instr → Format × List Byte
  | .cmdLockout => (.cmd, [0x10])
  | .cmdGetChecksum => (.cmd, [0x20])
  | .cmdCheckChecksum => (.cmd, [0x40])
  | .cmdAck => (.cmd, [0x80])
  | .cmdJoybus => (.cmd, [0x01])
  | .cmdChallenge => (.cmd, [0x02])
  | .cmdBit2 => (.cmd, [0x04])
  | .cmdTerminate => (.cmd, [0x08])
  | .xkindRead4 => (.xkind, [0x0])
  | .xkindWrite4 => (.xkind, [0x1])
  | .xkindRead64 => (.xkind, [0x2])
  | .xkindWrite64 => (.xkind, [0x3])
  | .hello00 => (.hello, [0x0])
  | .hello01 => (.hello, [0x1])
  | .hello10 => (.hello, [0x2])
  | .hello11 => (.hello, [0x3])
  | .ciccmdCompare => (.ciccmd, [0x0])
  | .ciccmdChallenge => (.ciccmd, [0x2])
  | .ciccmdReset => (.ciccmd, [0x3])
  | .ciccmdReserved => (.ciccmd, [0x1])
  | .jbSkip => (.jbtx, [0x00])
  | .jbReset => (.jbtx, [0xFD])
  | .jbStop => (.jbtx, [0xFE])
  | .jbNop => (.jbtx, [0xFF])
  | .jbXfer tx rx => (.jbtx, [tx, rx])
  | .jbRx rx => (.jbrx, [rx])
  | .frame tx rx data recv => (.frame, tx :: rx :: (data ++ recv))
  | .jbcIdle => (.portval, [0x0])
  | .jbcTx => (.portval, [0x1])
  | .jbcRx => (.portval, [0x2])
  | .jbcReset => (.portval, [0x3])
  | .jbcXferAck => (.portval, [0x4])
  | .read x => (.op, [0x00, x])
  | .write x y => (.op, [0x01, x, y.setWidth 8])
  | .bitTest x y => (.op, [0x02, x, y.setWidth 8])
  | .bitSet x y => (.op, [0x03, x, y.setWidth 8])
  | .bitReset x y => (.op, [0x04, x, y.setWidth 8])
  | .swap => (.op, [0x05])
  | .incPage => (.op, [0x06])
  | .incFull => (.op, [0x07])
  | .setPointer x => (.op, [0x08, x])
  | .add4 x y => (.op, [0x09, x.setWidth 8, y.setWidth 8])
  | .adc4 x y => (.op, [0x0A, x.setWidth 8, y.setWidth 8])
  | .com4 x => (.op, [0x0B, x.setWidth 8])
  | .sub4 x y => (.op, [0x0C, x.setWidth 8, y.setWidth 8])
  | .inc8 x => (.op, [0x0D, x])
  | .portRead x => (.op, [0x0E, portCode x])
  | .portWrite x y => (.op, [0x0F, portCode x, y.setWidth 8])
  | .writeBit x => (.op, [0x10, bitByte x])
  | .readBit => (.op, [0x11])
  | .readNibble => (.op, [0x12])
  | .writeNibble x => (.op, [0x13, x.setWidth 8])
  | .readBuf x y => (.op, [0x14, x, y])
  | .writeBuf x y => (.op, [0x15, x, y])
  | .pifStartup => (.op, [0x16])
  | .pifAwaitLockout => (.op, [0x17])
  | .pifAwaitChecksum => (.op, [0x18])
  | .pifAwaitAck => (.op, [0x19])
  | .pifChecksumExchange => (.op, [0x1A])
  | .pifChecksumCompare => (.op, [0x1B])
  | .pifBootTimerGate => (.op, [0x1C])
  | .pifEnterRunning => (.op, [0x1D])
  | .pifRunningLoop => (.op, [0x1E])
  | .pifCompareExchange => (.op, [0x1F])
  | .pifChallengeExchange => (.op, [0x20])
  | .pifResetting => (.op, [0x21])
  | .pifJoybusParse => (.op, [0x22])
  | .pifJoybusTransfer => (.op, [0x23])
  | .jbChannelReset => (.op, [0x24])
  | .jbChannelExchange x => (.op, [0x25, channelCode x])
  | .jbWaitReady => (.op, [0x26])
  | .jbError x => (.op, [0x27, x])
  | .decodeRound x => (.op, [0x28, x])
  | .encodeRound x => (.op, [0x29, x])
  | .compareRound x => (.op, [0x2A, x])
  | .challengeTransform x => (.op, [0x2B, x])
  | .complementAll x => (.op, [0x2C, x])
  | .resetCounter => (.op, [0x2D])
  | .cicMain => (.op, [0x2E])
  | .cicCompare => (.op, [0x2F])
  | .cicChallenge => (.op, [0x30])
  | .cicReset => (.op, [0x31])
  | .poll => (.op, [0x32])
  | .intEntry x => (.op, [0x33, intSrcCode x])
  | .intReturn => (.op, [0x34])
  | .fatal x => (.op, [0x35, causeCode x])
  | .halt => (.op, [0x36])
  | .ackTransfer => (.op, [0x37])
  | .pifIntA => (.op, [0x38])
  | .pifIntB => (.op, [0x39])
  | .timerInit t v => (.op, [0x3A, timerCode t, v.setWidth 8, (v >>> 8).setWidth 8])
  | .timerTick x => (.op, [0x3B, timerCode x])

/-! ## The word the host asks about -/

/-- The bytes of a word: bit 0 is the least significant bit of the first byte; the bits from `nbits` on are 0.
Four bytes hold the longest operation of the notional field. -/
def wordBytes (nbits w : Nat) : List Byte :=
  let v := w % 2 ^ nbits
  [BitVec.ofNat 8 v, BitVec.ofNat 8 (v / 2 ^ 8), BitVec.ofNat 8 (v / 2 ^ 16), BitVec.ofNat 8 (v / 2 ^ 24)]

/-- The format in which a word that comes without one is read. The patterns of 30 overlap and are told apart
by where they are decoded (30 R100), so this is a choice: the operation field for its numbers 0x00 to 0x3B,
then the two command flags that lie above it, then the `JBTX` byte (log 2). -/
def wordFormat (bytes : List Byte) : Format :=
  match bytes with
  | [] => .op
  | b :: _ => if b.toNat < 0x3C then .op else if b = 0x40 ∨ b = 0x80 then .cmd else .jbtx

/-- The operation the decoder reads from a word without a format (log 2). -/
def decodeTableWord (nbits w : Nat) : Option Instr :=
  (decode (wordFormat (wordBytes nbits w)) (wordBytes nbits w)).map Prod.fst

end Sys2Proof
end

