-- ==== Sys2Proof/Machine/State.lean ====
section
/-! DEFINITION. The state of the machine: two engines, the PIF's interrupt and control state, the CIC's control
state, the host's pending stimulus, and the model's own bookkeeping (spec 10, 20, 60 R400). Plain data. -/

namespace Sys2Proof.Machine

/-- Which engine (00 R3). -/
inductive Who where
  | pif
  | cic
  deriving DecidableEq, Repr

/-- `pc` of the PIF, the control-state register (10 R24). -/
inductive PifPc where
  | coldBoot
  | awaitLockout
  | awaitChecksum
  | awaitAck
  | bootTimerGate
  | running
  | challengePending
  | peripheralIdle
  | resetting
  | fatal
  deriving DecidableEq, Repr

/-- `pc` of the CIC (10 R25). -/
inductive CicPc where
  | boot
  | idle
  | compare
  | challenge
  | reset
  | dead
  deriving DecidableEq, Repr

/-- The top-level phases (10 R26). -/
inductive Phase where
  | coldBoot
  | challenge
  | continuousCompare
  | resetting
  deriving DecidableEq, Repr

/-- The three phases of the CPU handshake (42 R209). -/
inductive Handshake where
  | lockout
  | getChecksum
  | checkChecksum
  deriving DecidableEq, Repr

/-- One event: a `PortRead` or a `PortWrite` (00 R16). -/
inductive Event where
  | read (p : Port) (v : Nibble)
  | write (p : Port) (v : Nibble)
  deriving DecidableEq, Repr

/-- An AddressPointer: an 8-bit address held as two nibbles (10 R28). -/
structure Pointer where
  hi : Nibble
  lo : Nibble
  deriving DecidableEq, Repr

/-- The output latches of the ports that both engines have, the only two of the CIC (10 R37, 20 R86, 45 R351). -/
structure Latches where
  cic : Nibble
  reset : Nibble
  deriving DecidableEq, Repr

/-- The output latches of the PIF's other ports, which the CIC has not (10 R37, 20 R86, 45 R351). `inten` is the
interrupt-enable register `INTEN` (10 R34, R45). `P_ENTROPY`, to which 20 R86 gives no engine, stands here (DESIGN CHOICE,
log 37). -/
structure PifLatches where
  romLock : Nibble
  jbCtrl : Nibble
  jbStatus : Nibble
  jbError : Nibble
  jbData : Nibble
  jbChSel : Nibble
  entropy : Nibble
  inten : Nibble
  deriving DecidableEq, Repr

/-- A position inside an operation, with the local variables that live there (10 R27). What each does when it
is reached is `resume` in Machine/Positions.lean. -/
inductive Pos where
  /-- the acknowledgment loop of `WriteBit` (41 R177) -/
  | ackWait
  /-- `ReadNibble` after one bit: how many bits are still to read, and the bits so far (41 R184) -/
  | nibbleBits (left : Nat) (acc : Nibble)
  /-- store the nibble just read at this cell (41 R186, 44 R293) -/
  | storeNibble (a : Addr)
  /-- the end of a composite operation: its registers hold any value (10 R51) -/
  | settle
  /-- `PIF.Startup` after the first hello bit (42 R202) -/
  | helloFirst
  /-- `PIF.Startup` after the second hello bit, with the first (42 R202, R203) -/
  | helloSecond (t : Bool)
  /-- `PIF.Startup` with the seed received (42 R207, R208) -/
  | seedReceived
  /-- a handshake phase after its `POLL` (42 R209) -/
  | awaitTest (h : Handshake)
  /-- `PIF.ChecksumExchange` with the window received (42 R215) -/
  | checksumReceived
  /-- the end of handshake phase (c) (42 R214) -/
  | checksumPassed
  /-- the boot-timer gate after its `POLL` (42 R220) -/
  | gateTest
  /-- the running loop after its `POLL` (43 R240) -/
  | runTest
  /-- the running loop after a challenge exchange (43 R240) -/
  | challengeReturned
  /-- `PIF.CompareExchange` after the selector (43 R245) -/
  | compareKeyed
  /-- `PIF.CompareExchange` with the CIC's bit for index `i` (43 R245) -/
  | compareCheck (i : Nibble)
  /-- `PIF.ChallengeExchange` after the selector (43 R250) -/
  | challengeSend
  /-- `PIF.ChallengeExchange` with the response, and what was sent (43 R250) -/
  | challengeVerify (sent : List Nibble)
  /-- `PIF.Resetting` after the selector (43 R260) -/
  | resetSelected
  /-- the wait loop of `PIF.Resetting` (43 R260, R261) -/
  | resetWait
  /-- `PIF.Resetting` after the CIC's ready bit (43 R260) -/
  | resetReady
  /-- the channel loop of `PIF.JoybusTransfer` after serving `ch` (44 R288) -/
  | channelServed (ch : Fin 5)
  /-- `JbChannelReset` after its wait (44 R292) -/
  | channelResetEnd
  /-- `JbChannelExchange` after the wait before a data byte: `n` bytes follow this one (44 R293) -/
  | txByte (rq d : Addr) (n rxc : Nat)
  /-- `JbChannelExchange` after the wait before a received byte: `n` bytes follow this one (44 R293) -/
  | rxByte (rq d : Addr) (n : Nat)
  /-- the end of a `HALT` (60 R380) -/
  | wake
  /-- the write service after its acknowledgment (60 R384) -/
  | writeServed
  /-- the end of an interrupt service, before its return (60 R366, R382, R387) -/
  | serviceEnd (x : IntSrc)
  /-- the loop of the fatal action (60 R370) -/
  | fatalStrobe
  /-- `CIC.Main` after the hello code (45 R340) -/
  | helloSent
  /-- `CIC.Main` after the seed (45 R340) -/
  | seedSent
  /-- `CIC.Main` at the keying of the compare segments (45 R340) -/
  | cicKey
  /-- the idle loop of the CIC (45 R345) -/
  | cicIdle
  /-- the idle loop after the first selector bit (45 R340) -/
  | selectFirst
  /-- the idle loop after the second selector bit, with the first (45 R340) -/
  | selectSecond (s1 : Bool)
  /-- `CIC.Compare` with the PIF's bit for index `i` (45 R344) -/
  | compareGot (i : Nibble) (ok : Bool)
  /-- `CIC.Compare` after its own bit for index `i` (45 R344) -/
  | comparePut (i : Nibble) (ok : Bool)
  /-- `CIC.Challenge` after the response (45 R346) -/
  | challengeSent
  /-- the loop of `resetCounter`: iterations left, and whether the line was held so far (45 R336) -/
  | resetCount (left : Nat) (held : Bool)
  /-- `CIC.Reset` after `resetCounter` (45 R348) -/
  | resetCounted
  deriving DecidableEq, Repr

/-- What an engine has still to do: an operation, or the rest of one from a position on (10 R27). -/
inductive Task where
  | op (i : Instr)
  | pos (p : Pos)
  deriving DecidableEq, Repr

/-- The in-service record `ISR`: source, saved `pc`, saved position (10 R35). -/
structure IsrRecord where
  src : IntSrc
  pc : PifPc
  position : List Task
  deriving DecidableEq, Repr

/-- A nibble memory as data: the cells that are not 0, as (address, cell value), addresses rising
(10 R21; log 12). -/
abbrev Memory := List Host.Cell

/-- The state of which each engine owns one instance (10 R20). -/
structure Engine where
  /-- `MEM` (10 R21) -/
  mem : Memory
  /-- the accumulator (10 R22) -/
  A : Nibble
  /-- the index register (10 R23) -/
  X : Nibble
  /-- the active pointer (10 R29) -/
  B : Pointer
  /-- the saved pointer (10 R29) -/
  SB : Pointer
  /-- the carry bit (10 R31) -/
  C : Bool
  /-- the output latches of the ports both engines have (10 R37, 45 R351) -/
  latch : Latches
  /-- the event log, newest event first (41 R172; log 24) -/
  log : List Event
  /-- the position: what is still to do, next task first (10 R27; log 4) -/
  cont : List Task
  /-- the value the latest operation returned; the model's own (log 7) -/
  ret : Byte
  deriving DecidableEq, Repr

/-- The actions of the host (60 R400). -/
inductive HostAct where
  | powerOn
  | supply (p : Port) (v : Nibble)
  | request (k : XKind)
  | sharedWrite (a : Addr) (v : Nibble)
  | sharedRead (a : Addr)
  | complete
  | resetButton
  | schedule (w : Who)
  deriving DecidableEq, Repr

/-- Where the JoyBus parse stands: the local variables `p` and `ch` of 44 R273, and whether `JB.STOP` has left
the loop (44 R279). -/
structure ParsePos where
  p : Nat
  ch : Nat
  stop : Bool
  deriving DecidableEq, Repr

/-- The state of the machine. -/
structure State where
  /-- the PIF's instance of the engine state (00 R4) -/
  pif : Engine
  /-- the CIC's instance of the engine state (00 R4) -/
  cic : Engine
  /-- the output latches of the PIF's own ports, `INTEN` among them (10 R34, R37) -/
  pifLatch : PifLatches
  /-- `pc` of the PIF (10 R24) -/
  pifPc : PifPc
  /-- `pc` of the CIC (10 R25) -/
  cicPc : CicPc
  /-- `IE`, the global interrupt enable (10 R32) -/
  ie : Bool
  /-- `IFA`, the pending latch of Interrupt A (10 R33) -/
  ifa : Bool
  /-- `IFB`, the pending latch of Interrupt B (10 R33) -/
  ifb : Bool
  /-- `ISR`, the in-service record (10 R35) -/
  isr : Option IsrRecord
  /-- `HALTED` (10 R36) -/
  halted : Bool
  /-- the `pc` that `HALT` saves (60 R380) -/
  haltPc : PifPc
  /-- `FCAUSE` (10 R46) -/
  fcause : Option FatalCause
  /-- the parse position (44 R273) -/
  parse : ParsePos
  /-- the open transfer, from request to completion (60 R403, R404) -/
  xfer : Option XKind
  /-- the kind bits that the next read of `P_JB_STATUS` returns (60 R400 `host.request`) -/
  kindDue : Option XKind
  /-- port values the host has laid ready, first to be read first (60 R400 `host.supply`; log 6) -/
  supply : List (Port × Nibble)
  /-- the cells the host has read in halt windows, newest first (60 R400 `host.shared_read`) -/
  seen : List (Addr × Nibble)
  /-- the stimulus script: the host actions still to come (30 R124; log 3, log 5) -/
  script : List HostAct
  /-- the engine that takes the present step (60 R406; log 5) -/
  active : Who
  /-- the notional operation field of 30 R101: an operation presented from outside (log 3) -/
  opField : Option (Format × List Byte)
  /-- the counter of the free values drawn; the model's own (log 8) -/
  draws : Nat
  /-- the configuration records (00 R9, R10; log 10) -/
  cfg : Params
  deriving DecidableEq, Repr

/-- No operation of this machine stops it with a fault: memory and register primitives raise nothing (40 R157),
no memory access faults (20 R71), and the fatal action is a state that goes on (60 R370). So this type has no
constructor; that is safe, since nothing is stopped that the hardware would go on with. -/
inductive Fault where
  deriving DecidableEq, Repr

/-- Why a step can be refused. -/
inductive Refusal where
  /-- Raised by an arm of `exec` whose operation has no meaning yet. Safe. No arm of this model raises it. -/
  | notModelled (mnemonic : String)
  /-- Raised by `step` when the bytes of the notional operation field decode to no operation, but for a
  command byte with no flag set, which has no effect. Safe. -/
  | undecodable
  /-- Raised by `PIF.JoybusTransfer` when the host supplies a channel number above 4: malformed stimulus, which
  the spec refuses (44 R291, 60 R396). Safe. -/
  | channelOutOfRange
  /-- Raised by `host.request` while the PIF is halted or a transfer is open: malformed stimulus (60 R400,
  R404 (a), R396). A 64-byte read whose challenge a reset dropped counts as open until power-on; 43 R263 leaves that
  to the host (DESIGN CHOICE, log 32). Safe: the model stops where the hardware might go on. -/
  | requestNotAllowed
  /-- Raised by `host.shared_write` and `host.shared_read` outside a halt window, outside the shared region, or
  by a write in a transfer that is not a write: malformed stimulus (60 R400, R404 (b), R396). Safe. -/
  | sharedAccessNotAllowed
  /-- Raised by `host.complete` outside a halt window, or a second time in one: malformed stimulus (60 R400,
  R404 (c), R396). Safe. -/
  | completeNotAllowed
  deriving DecidableEq, Repr

/-- Both latches at 0 (10 R49). -/
def Latches.zero : Latches := ⟨0, 0⟩

/-- Every latch of the PIF's own ports at 0 (10 R49). -/
def PifLatches.zero : PifLatches := ⟨0, 0, 0, 0, 0, 0, 0, 0⟩

/-- The state of one engine after power-on (10 R49). -/
def Engine.reset : Engine where
  mem := []
  A := 0
  X := 0
  B := ⟨0, 0⟩
  SB := ⟨0, 0⟩
  C := false
  latch := Latches.zero
  log := []
  cont := []
  ret := 0

/-- The machine right after power-on (10 R49, 70 R421); the model's own fields as log 11 says. -/
def State.reset : State where
  pif := Engine.reset
  cic := Engine.reset
  pifLatch := PifLatches.zero
  pifPc := .coldBoot
  cicPc := .boot
  ie := false
  ifa := false
  ifb := false
  isr := none
  halted := false
  haltPc := .coldBoot
  fcause := none
  parse := ⟨0x80, 0, false⟩
  xfer := none
  kindDue := none
  supply := []
  seen := []
  script := []
  active := .pif
  opField := none
  draws := 0
  cfg := Config.initial

end Sys2Proof.Machine
end

