-- ==== Sys2Proof/Machine/Flags.lean ====
section
/-! DEFINITION. Nibble arithmetic and the carry it delivers (spec 40 R151 to R156), and the challenge recurrence
that keeps its running carry in `C` (45 R330). No other flag is computed by this machine (10 R50). -/

namespace Sys2Proof.Machine

/-- `add4(x, y)`: `(x + y) mod 16` (40 R151). -/
def add4 (x y : Nibble) : Nibble := x + y

/-- `sub4(x, y)`: `(x - y) mod 16` (40 R154). -/
def sub4 (x y : Nibble) : Nibble := x - y

/-- `com4(x)`: `15 - x` (40 R153). -/
def com4 (x : Nibble) : Nibble := ~~~x

/-- The natural sum `x + y + C` of `adc4`, 0 to 31 (40 R152). -/
def adcSum (x y : Nibble) (c : Bool) : Nat := x.toNat + y.toNat + c.toNat

/-- The nibble `adc4` returns, bits 3 to 0 of the sum (40 R152). -/
def adcValue (x y : Nibble) (c : Bool) : Nibble := BitVec.ofNat 4 (adcSum x y c)

/-- The carry `adc4` leaves in `C`, bit 4 of the sum (40 R152). -/
def adcCarry (x y : Nibble) (c : Bool) : Bool := decide (16 ≤ adcSum x y c)

/-- One step of the challenge recurrence: the accumulator and carry as they enter the cell and the cell's value
give the new accumulator before `CHAL_ACC_COMPLEMENT`, and the new carry (45 R330, R332). -/
def chalStep (a : Nibble) (c : Bool) (b : Nibble) : Nibble × Bool :=
  let y := a + b
  let y := if bitOf b 0 then y else y + 8
  let y := if bitOf a 1 then y else y + 4
  let z := y + y
  let z := if c then z else z + 7
  (adcValue y z c, adcCarry y z c)

/-- The challenge transform of a list of cells: the new cells, the final accumulator and the final carry
(45 R330); `accC` is `CHAL_ACC_COMPLEMENT` (45 R331). -/
def chalCells (accC : Bool) (a : Nibble) (c : Bool) : List Nibble → List Nibble × Nibble × Bool
  | [] => ([], a, c)
  | b :: bs =>
    let r := chalStep a c b
    let stored := com4 r.1
    let rest := chalCells accC (if accC then stored else r.1) r.2 bs
    (stored :: rest.1, rest.2)

end Sys2Proof.Machine
end

