-- ==== Sys2Proof/Machine/Operands.lean ====
section
/-! DEFINITION. Operand forms: pointers and their increments, cell indices of a buffer, the window wrap of the
JoyBus transfer, and the named signals of port values and status cells (spec 10, 20 R79, 30 R120, 44 R296). -/

namespace Sys2Proof.Machine

/-! ## Pointers -/

/-- The address a pointer holds, `hi:lo` (10 R28). -/
def Pointer.toAddr (p : Pointer) : Addr := p.hi ++ p.lo

/-- The pointer that holds an address (40 R150). -/
def pointerOf (a : Addr) : Pointer := ⟨a.extractLsb' 4 4, a.extractLsb' 0 4⟩

/-- `incPage`: the low nibble steps modulo 16 and the high nibble stays (40 R147). -/
def Pointer.incPage (p : Pointer) : Pointer := ⟨p.hi, p.lo + 1⟩

/-- `incFull`: the address steps modulo 256 (40 R148). -/
def Pointer.incFull (p : Pointer) : Pointer := pointerOf (p.toAddr + 1)

/-! ## Cells of a buffer and the window wrap -/

/-- The address of cell `i` of the buffer at `base`, modulo 256 (20 R71, 40 R149). -/
def cellAt (base : Addr) (i : Nat) : Addr := base + BitVec.ofNat 8 i

/-- `W(q) = 0x80 | (q & 0x7F)`, the window wrap (44 R296). -/
def windowWrap (q : Addr) : Addr := 0x80#8 ||| (q &&& 0x7F#8)

/-! ## Signals of port values (30 R120) -/

/-- The value written to `P_CIC` with `CLK` and `DATA`. -/
def linkOut (clk data : Bool) : Nibble := (if clk then 2 else 0) + bitNibble data
/-- `PEER_DATA` of a value read from `P_CIC`. -/
def peerData (v : Nibble) : Bool := bitOf v 0
/-- `PEER_CLK` of a value read from `P_CIC`. -/
def peerClk (v : Nibble) : Bool := bitOf v 1
/-- `READY` of a value read from `P_JB_STATUS`. -/
def jbReady (v : Nibble) : Bool := bitOf v 2
/-- `NOANSWER` or `TIMEOUT` of a value read from `P_JB_ERROR`. -/
def jbFailed (v : Nibble) : Bool := bitOf v 0 || bitOf v 1
/-- `CH` of a value read from `P_JB_CHSEL`, bits 2 to 0. -/
def chSel (v : Nibble) : Nat := v.toNat % 8
/-- The value written to `P_RESET` with `NMI` and `PRENMI`. -/
def resetOut (nmi prenmi : Bool) : Nibble := bitNibble nmi + (if prenmi then 2 else 0)
/-- `RESET_ASSERTED` of a value the CIC reads from `P_RESET`. -/
def resetAsserted (v : Nibble) : Bool := bitOf v 0
/-- The value written to `P_INTEN` with `EN_A` and `EN_B`. -/
def intenOut (enA enB : Bool) : Nibble := bitNibble enA + (if enB then 2 else 0)

/-- Command values of `P_JB_CTRL` (30 R121). -/
def jbcIdle : Nibble := 0
/-- `JBC_TX`. -/
def jbcTx : Nibble := 1
/-- `JBC_RX`. -/
def jbcRx : Nibble := 2
/-- `JBC_RESET`. -/
def jbcReset : Nibble := 3
/-- `JBC_XFER_ACK`. -/
def jbcXferAck : Nibble := 4

/-! ## Bits of status cells -/

/-- `ST_MAIN.CHALPEND` (10 R38). -/
def bitChalPend : BitVec 2 := 0
/-- `ST_MAIN.RUNNING` (10 R38). -/
def bitRunning : BitVec 2 := 1
/-- `ST_MAIN.WARM` (10 R38). -/
def bitWarm : BitVec 2 := 2
/-- `CST.WARM` (10 R45). -/
def bitCicWarm : BitVec 2 := 0
/-- `CMD.LOCKOUT`, status half (30 R104). -/
def bitLockout : BitVec 2 := 0
/-- `CMD.GET_CHECKSUM`, status half. -/
def bitGetChecksum : BitVec 2 := 1
/-- `CMD.CHECK_CHECKSUM`, status half. -/
def bitCheckChecksum : BitVec 2 := 2
/-- `CMD.ACK`, status half. -/
def bitAck : BitVec 2 := 3
/-- `CMD.JOYBUS`, command half. -/
def bitJoybus : BitVec 2 := 0
/-- `CMD.CHALLENGE`, command half. -/
def bitChallenge : BitVec 2 := 1
/-- `CMD.TERMINATE`, command half. -/
def bitTerminate : BitVec 2 := 3
/-- `JBSTAT[ch] = {SKIP=1, RESET=0}` (10 R39). -/
def statSkip : Nibble := 1
/-- `JBSTAT[ch] = {SKIP=0, RESET=1}`. -/
def statReset : Nibble := 2
/-- `JBSTAT[ch] = {SKIP=0, RESET=0}`, active. -/
def statActive : Nibble := 0

/-- The first cell of a timer (10 R42, 20 R80). -/
def timerBase : Timer → Addr
  | .boot => Config.bootTimer
  | .reset => Config.resetTimer

/-- The region bit of the hello code: 0 for `NTSC`, 1 for `PAL` (30 R112). -/
def regionBit : Region → Bool
  | .ntsc => false
  | .pal => true

/-- The handshake bit a phase awaits (42 R210, R212, R214). -/
def handshakeBit : Handshake → BitVec 2
  | .lockout => bitLockout
  | .getChecksum => bitGetChecksum
  | .checkChecksum => bitCheckChecksum

end Sys2Proof.Machine
end

