-- ==== Sys2Proof/Machine/Ops.lean ====
section
/-! DEFINITION. The named operations over memory, registers, ports and the link, and the shared operations of
interrupts, the fatal action and the halt (spec 40, 41, 60). Meanings are built from these. -/

namespace Sys2Proof.Machine

/-- What an operation answers. -/
abbrev Result := Host.Outcome State Fault Refusal

/-! ## Memory (10 R21, 40 R140, R141) -/

/-- The byte listed for an address; an unlisted cell reads as 0 (40 R140). -/
def Memory.find (a : Nat) : Memory → Byte
  | [] => 0
  | (b, v) :: r => if b = a then v else Memory.find a r

/-- The cell at an address. -/
def Memory.read (m : Memory) (a : Addr) : Nibble := (Memory.find a.toNat m).setWidth 4

/-- List a cell at its place in rising order. -/
def Memory.insert (a : Nat) (v : Byte) : Memory → Memory
  | [] => [(a, v)]
  | (b, u) :: r => if a < b then (a, v) :: (b, u) :: r else (b, u) :: Memory.insert a v r

/-- Set the cell at an address; a cell set to 0 is not listed (log 12). -/
def Memory.write (m : Memory) (a : Addr) (v : Nibble) : Memory :=
  let rest := m.filter fun c => c.1 != a.toNat
  if v = 0 then rest else Memory.insert a.toNat (v.setWidth 8) rest

/-- Addresses rise from `lo` on and lie below 256, and every listed value is a nibble other than 0. -/
def Memory.wfFrom (lo : Nat) : Memory → Bool
  | [] => true
  | (a, v) :: r =>
    decide (lo ≤ a) && decide (a < 256) && (v != 0) && decide (v.toNat < 16) && Memory.wfFrom (a + 1) r

/-- The canonical form of a memory (log 12). -/
def Memory.wf (m : Memory) : Bool := Memory.wfFrom 0 m

/-! ## The two engines -/

/-- The other engine. -/
def Who.other : Who → Who
  | .pif => .cic
  | .cic => .pif

/-- The state of an engine. -/
def State.eng (s : State) : Who → Engine
  | .pif => s.pif
  | .cic => s.cic

/-- Replace the state of an engine. -/
def setEng (w : Who) (E : Engine) (s : State) : State :=
  match w with
  | .pif => { s with pif := E }
  | .cic => { s with cic := E }

/-- Change the state of an engine. -/
def modEng (w : Who) (f : Engine → Engine) (s : State) : State := setEng w (f (s.eng w)) s

/-- `MEM[a]` of an engine (00 R14). -/
def readCell (w : Who) (a : Addr) (s : State) : Nibble := (s.eng w).mem.read a

/-- `MEM[a] <- v` of an engine (00 R14). -/
def writeCell (w : Who) (a : Addr) (v : Nibble) (s : State) : State :=
  modEng w (fun E => { E with mem := E.mem.write a v }) s

/-- `MemRead(a, 2)`: the byte with its high nibble at `a` (20 R72). -/
def readByte (w : Who) (a : Addr) (s : State) : Byte := readCell w a s ++ readCell w (a + 1) s

/-- `MemWrite(a, 2, v)`: high nibble at `a`, low nibble at `a + 1` (20 R72). -/
def writeByte (w : Who) (a : Addr) (v : Byte) (s : State) : State :=
  writeCell w (a + 1) (v.extractLsb' 0 4) (writeCell w a (v.extractLsb' 4 4) s)

/-- `bitTest(addr, bit)` (40 R143). -/
def testBit (w : Who) (a : Addr) (b : BitVec 2) (s : State) : Bool := bitOf (readCell w a s) b.toNat

/-- The mask `1 << bit` of a nibble. -/
def bitMask (b : BitVec 2) : Nibble := 1#4 <<< b.toNat

/-- `bitSet(addr, bit)` (40 R144). -/
def setBit (w : Who) (a : Addr) (b : BitVec 2) (s : State) : State :=
  writeCell w a (readCell w a s ||| bitMask b) s

/-- `bitReset(addr, bit)` (40 R145). -/
def resetBit (w : Who) (a : Addr) (b : BitVec 2) (s : State) : State :=
  writeCell w a (readCell w a s &&& ~~~bitMask b) s

/-- The `n` cells from `base` on, lowest address first. -/
def readCells (w : Who) (base : Addr) (n : Nat) (s : State) : List Nibble :=
  (List.range n).map fun i => readCell w (cellAt base i) s

/-- Store a list of cells from `base` on, lowest address first. -/
def writeCells (w : Who) (base : Addr) : List Nibble → State → State
  | [], s => s
  | v :: vs, s => writeCells w (base + 1) vs (writeCell w base v s)

/-- `inc8(a)`: the pair at `a` counts one; true when it went from 0xFF to 0x00 (40 R155). -/
def incByte (w : Who) (a : Addr) (s : State) : Bool × State :=
  let v := readByte w a s
  (v == 0xFF, writeByte w a (v + 1) s)

/-- `TimerInit(T, v)` on the PIF (60 R390). -/
def initTimer (t : Timer) (v : Word16) (s : State) : State :=
  writeByte .pif (timerBase t + 2) (v.extractLsb' 8 8) (writeByte .pif (timerBase t) (v.extractLsb' 0 8) s)

/-- One count of a 16-bit chain of two pairs at `a`: true when the chain went from 0xFFFF to 0 (60 R391). -/
def tickChain (w : Who) (a : Addr) (s : State) : Bool × State :=
  let r := incByte w a s
  if r.1 then incByte w (a + 2) r.2 else (false, r.2)

/-- `TimerTick(T)` on the PIF (60 R391). -/
def tickTimer (t : Timer) (s : State) : Bool × State := tickChain .pif (timerBase t) s

/-! ## Registers and the value an operation returns -/

/-- `swapActiveContext()` (40 R146). -/
def swapPointers (w : Who) (s : State) : State := modEng w (fun E => { E with B := E.SB, SB := E.B }) s

/-- Change the active pointer. -/
def setB (w : Who) (p : Pointer) (s : State) : State := modEng w (fun E => { E with B := p }) s

/-- Write the carry. -/
def setC (w : Who) (c : Bool) (s : State) : State := modEng w (fun E => { E with C := c }) s

/-- Deliver the value of an operation (log 7). -/
def deliver (w : Who) (v : Byte) (s : State) : State := modEng w (fun E => { E with ret := v }) s

/-- The bit an operation returned. -/
def retBit (w : Who) (s : State) : Bool := bitOf (s.eng w).ret 0

/-- The nibble an operation returned. -/
def retNibble (w : Who) (s : State) : Nibble := (s.eng w).ret.setWidth 4

/-! ## Position (10 R27) -/

/-- Put tasks before what the engine has still to do. -/
def push (w : Who) (ts : List Task) (s : State) : State := modEng w (fun E => { E with cont := ts ++ E.cont }) s

/-- Give the engine a new position. -/
def setCont (w : Who) (ts : List Task) (s : State) : State := modEng w (fun E => { E with cont := ts }) s

/-! ## Free values -/

/-- Draw the registers of an engine: `A`, `X`, and, where they are not kept, `C` and the pointers hold any value
(10 R31, R51; log 8). -/
def drawRegisters (w : Who) (keepC keepB : Bool) (s : State) : State :=
  let n := s.draws
  let s' := modEng w (fun E => { E with
    A := Config.anyNibble n
    X := Config.anyNibble (n + 1)
    C := if keepC then E.C else Config.anyBit (n + 2)
    B := if keepB then E.B else ⟨Config.anyNibble (n + 3), Config.anyNibble (n + 4)⟩
    SB := if keepB then E.SB else ⟨Config.anyNibble (n + 5), Config.anyNibble (n + 6)⟩ }) s
  { s' with draws := n + 7 }

/-- The registers a composite operation leaves with any value: `A`, `X`, the pointers, and `C` unless the operation's
rule says that `C` is not written (`keepC`: 45 R310, R312; 10 R31, R51; log 20). Inside an interrupt service the PIF's
pointers are kept, since an interrupt returns them as they were (10 R51, 60 R368; log 8). -/
def settle (w : Who) (keepC : Bool) (s : State) : State := drawRegisters w keepC (w == .pif && s.isr.isSome) s

/-! ## Ports (41 R170, R171) -/

/-- An engine has a port: the CIC has `P_CIC` and `P_RESET` and no other (45 R351), the PIF those of 20 R86. `P_ENTROPY`,
to which 20 R86 gives no engine and which no rule uses, is the PIF's (DESIGN CHOICE, log 37). -/
def hasPort (w : Who) (p : Port) : Bool :=
  match w, p with
  | .pif, _ => true
  | .cic, .cic => true
  | .cic, .reset => true
  | .cic, .romLock => false
  | .cic, .jbCtrl => false
  | .cic, .jbStatus => false
  | .cic, .jbError => false
  | .cic, .jbData => false
  | .cic, .jbChSel => false
  | .cic, .entropy => false
  | .cic, .inten => false

/-- The latch of a port that both engines have; none of another. -/
def Latches.get (l : Latches) : Port → Option Nibble
  | .cic => some l.cic
  | .reset => some l.reset
  | _ => none

/-- Set the latch of a port that both engines have; another leaves them. -/
def Latches.set (l : Latches) (p : Port) (v : Nibble) : Latches :=
  match p with
  | .cic => { l with cic := v }
  | .reset => { l with reset := v }
  | _ => l

/-- The latch of one of the PIF's own ports; none of another. -/
def PifLatches.get (l : PifLatches) : Port → Option Nibble
  | .romLock => some l.romLock
  | .jbCtrl => some l.jbCtrl
  | .jbStatus => some l.jbStatus
  | .jbError => some l.jbError
  | .jbData => some l.jbData
  | .jbChSel => some l.jbChSel
  | .entropy => some l.entropy
  | .inten => some l.inten
  | _ => none

/-- Set the latch of one of the PIF's own ports; another leaves them. -/
def PifLatches.set (l : PifLatches) (p : Port) (v : Nibble) : PifLatches :=
  match p with
  | .romLock => { l with romLock := v }
  | .jbCtrl => { l with jbCtrl := v }
  | .jbStatus => { l with jbStatus := v }
  | .jbError => { l with jbError := v }
  | .jbData => { l with jbData := v }
  | .jbChSel => { l with jbChSel := v }
  | .entropy => { l with entropy := v }
  | .inten => { l with inten := v }
  | _ => l

/-- The output latch of a port of an engine (10 R37); none where the engine has no such port. -/
def latchOf (w : Who) (p : Port) (s : State) : Option Nibble :=
  match w with
  | .pif => (s.pif.latch.get p).or (s.pifLatch.get p)
  | .cic => s.cic.latch.get p

/-- Append an event to an engine's log (41 R172). -/
def logEvent (w : Who) (e : Event) (s : State) : State := modEng w (fun E => { E with log := e :: E.log }) s

/-- `PortWrite(p, v)`: latch and event (41 R171). A write by the CIC to a port it lacks, which no rule makes, is an event
and latches nothing, in neither engine (10 R34, R45; DESIGN CHOICE, log 37). -/
def portWrite (w : Who) (p : Port) (v : Nibble) (s : State) : State :=
  let s := modEng w (fun E => { E with latch := E.latch.set p v, log := .write p v :: E.log }) s
  match w with
  | .pif => { s with pifLatch := s.pifLatch.set p v }
  | .cic => s

/-- The first value laid ready for a port, and the others. -/
def takeSupply (p : Port) : List (Port × Nibble) → Option (Nibble × List (Port × Nibble))
  | [] => none
  | (q, v) :: r => if q = p then some (v, r) else (takeSupply p r).map fun x => (x.1, (q, v) :: x.2)

/-- The value the host supplies for a read of a port: the first that it has laid ready, else a free value (41 R170,
60 R400 `host.supply`; log 6). -/
def hostValue (p : Port) (s : State) : Nibble × State :=
  match takeSupply p s.supply with
  | some (v, r) => (v, { s with supply := r })
  | none => (Config.portValue s.draws, { s with draws := s.draws + 1 })

/-- The value supplied for a port read: the peer's latch for a paired `P_CIC` (41 R176); else the host's value, whose
two low bits are the kind of a fresh request at the first read of `P_JB_STATUS` after it (60 R400; log 26). -/
def suppliedValue (w : Who) (p : Port) (s : State) : Nibble × State :=
  if p = .cic ∧ s.cfg.paired = true then ((s.eng w.other).latch.cic, s)
  else
    let r := hostValue p s
    match (if p = .jbStatus then s.kindDue else none) with
    | some k => ((r.1 &&& 0xC) ||| xkindBits k, { r.2 with kindDue := none })
    | none => r

/-- `PortRead(p)`: the supplied value, and the event (41 R170). A read by the CIC of a port it lacks, which no rule makes,
is answered by the host like any other (DESIGN CHOICE, log 37). -/
def portRead (w : Who) (p : Port) (s : State) : Nibble × State :=
  let r := suppliedValue w p s
  (r.1, logEvent w (.read p r.1) r.2)

/-! ## The serial link (41 R174 to R187) -/

/-- Events (2) to (6) of one bit exchange between writer and reader, the reader left with the writer's bit in `C`
and as its value (41 R178, R179, R181). -/
def bitExchange (writer reader : Who) (s : State) : State :=
  let s := portWrite reader .cic (linkOut true false) s
  let s := (portRead writer .cic s).2
  let r := portRead reader .cic s
  let s := portWrite reader .cic (linkOut false false) r.2
  let s := portWrite writer .cic (linkOut false false) s
  deliver reader (bitByte (peerData r.1)) (setC reader (peerData r.1) s)

/-- The engine's next task is the start of a `ReadBit`. Nothing else of the engine is asked: one that is halted, fatal or
dead with this task next takes part in an exchange (DESIGN CHOICE, log 39). -/
def atReadBit (w : Who) (s : State) : Bool := (s.eng w).cont.head? == some (.op .readBit)

/-- The engine's next task is the acknowledgment loop of a `WriteBit`. Nothing else of the engine is asked, as in
`atReadBit` (DESIGN CHOICE, log 39). -/
def atAckWait (w : Who) (s : State) : Bool := (s.eng w).cont.head? == some (.pos .ackWait)

/-- Drop the first task of an engine. -/
def dropTask (w : Who) (s : State) : State := modEng w (fun E => { E with cont := E.cont.tail }) s

/-- `WriteBit(v)`: assert, then the acknowledgment loop (41 R177). -/
def startWriteBit (w : Who) (v : Bool) (s : State) : State :=
  push w [.pos .ackWait] (portWrite w .cic (linkOut true v) s)

/-- One turn of the acknowledgment loop. Paired with an engine at the start of a `ReadBit` it is the joint exchange
(41 R179), be the peer halted, fatal or dead (DESIGN CHOICE, log 39); two writers are stuck (41 R180); else one `PortRead`,
and the release when it shows the peer's clock (41 R177). -/
def ackTurn (w : Who) (s : State) : State :=
  if s.cfg.paired = true ∧ atReadBit w.other s = true then bitExchange w w.other (dropTask w.other s)
  else if s.cfg.paired = true ∧ atAckWait w.other s = true then push w [.pos .ackWait] s
  else
    let r := portRead w .cic s
    if peerClk r.1 then portWrite w .cic (linkOut false false) r.2 else push w [.pos .ackWait] r.2

/-- `ReadBit()`. Paired, it is the joint exchange when the peer has asserted, be it halted, fatal or dead (DESIGN CHOICE,
log 39), and is held until then (41 R179); alone, it probes, samples what the host supplies and releases (41 R181). -/
def readBitTurn (w : Who) (s : State) : State :=
  if s.cfg.paired = true then
    if atAckWait w.other s = true then bitExchange w.other w (dropTask w.other s)
    else push w [.op .readBit] s
  else
    let r := portRead w .cic (portWrite w .cic (linkOut true false) s)
    let s := portWrite w .cic (linkOut false false) r.2
    deliver w (bitByte (peerData r.1)) (setC w (peerData r.1) s)

/-! ## Interrupts (60 R364 to R368) -/

/-- The service operation of a source (60 R366). -/
def serviceOf : IntSrc → Instr
  | .a => .pifIntA
  | .b => .pifIntB

/-- Interrupt entry: the source's latch and `IE` are cleared, `ISR` records source, `pc` and position, the
pointers are swapped, and control goes to the service (60 R366). -/
def takeInterrupt (x : IntSrc) (s : State) : State :=
  let s := match x with
    | .a => { s with ifa := false }
    | .b => { s with ifb := false }
  let s := { s with ie := false, isr := some ⟨x, s.pifPc, s.pif.cont⟩ }
  setCont .pif [.op (serviceOf x)] (swapPointers .pif s)

/-- `INTEN.EN_A` and `INTEN.EN_B`, read from the latch without an event (10 R34, 30 R120). -/
def intEnabled (x : IntSrc) (s : State) : Bool :=
  match x with
  | .a => bitOf s.pifLatch.inten 0
  | .b => bitOf s.pifLatch.inten 1

/-- `POLL`: at most one interrupt is taken, A before B (60 R364, R365). -/
def pollInterrupts (s : State) : State :=
  if s.ie = true ∧ s.isr = none then
    if s.ifa = true ∧ intEnabled .a s = true then takeInterrupt .a s
    else if s.ifb = true ∧ intEnabled .b s = true then takeInterrupt .b s
    else s
  else s

/-- Interrupt return: the pointers are swapped back, `ISR` gives back `pc` and position, `IE` is set (60 R368).
With no record in service there is nothing to give back (log 19). -/
def returnInterrupt (s : State) : State :=
  let s := swapPointers .pif s
  match s.isr with
  | some r => setCont .pif r.position { s with pifPc := r.pc, isr := none, ie := true }
  | none => { s with ie := true }

/-! ## The fatal action, the halt (60 R370, R380, R381) -/

/-- `raise Fatal(cause)`: interrupts off, the cause recorded, the operation abandoned; the loop of the action runs
from then on (60 R370). The abandoned operation leaves `A`, `X`, `C`, `B` and `SB` with any value, the pointers inside a
service too, since that service never returns (10 R31, R51; log 31). Raised again in `S_FATAL`, which only an operation
presented from outside does, it records the later cause (DESIGN CHOICE, log 42). -/
def raiseFatal (cause : FatalCause) (s : State) : State :=
  let s := portWrite .pif .inten (intenOut false false) { s with ie := false }
  setCont .pif [] (drawRegisters .pif false false { s with fcause := some cause, pifPc := .fatal })

/-- `HALT`: the wait begins (60 R380). -/
def beginHalt (s : State) : State :=
  { s with haltPc := s.pifPc, pifPc := .peripheralIdle, halted := true }

/-- The end of a `HALT` (60 R380). -/
def endHalt (s : State) : State :=
  { s with ifa := false, halted := false, pifPc := s.haltPc }

/-- `AckTransfer()` (60 R381). -/
def ackTransfer (s : State) : State := beginHalt (portWrite .pif .jbCtrl jbcXferAck s)

/-- The CIC dies: `C_DEAD` (45 R344, R349, R350). Its operation is over, so the registers hold any value (10 R31, R51;
log 31). -/
def cicDie (s : State) : State := setCont .cic [] (settle .cic false { s with cicPc := .dead })

/-! ## The rounds over memory (45 R310 to R333) -/

/-- `decodeRound` of a list of cells from a running value (45 R310). -/
def decodeCells (r : Nibble) : List Nibble → List Nibble
  | [] => []
  | t :: ts => sub4 t (add4 r 1) :: decodeCells t ts

/-- `encodeRound` of a list of cells from a running value (45 R312). -/
def encodeCells (r : Nibble) : List Nibble → List Nibble
  | [] => []
  | t :: ts => add4 t (add4 r 1) :: encodeCells (add4 t (add4 r 1)) ts

/-- The running value both rounds start from (45 R310, R312). -/
def roundStart : Nibble := 0xF

/-- The first 16 of a list of cells as a window. -/
def toWindow (l : List Nibble) : Window :=
  #v[l.getD 0 0, l.getD 1 0, l.getD 2 0, l.getD 3 0, l.getD 4 0, l.getD 5 0, l.getD 6 0, l.getD 7 0,
    l.getD 8 0, l.getD 9 0, l.getD 10 0, l.getD 11 0, l.getD 12 0, l.getD 13 0, l.getD 14 0, l.getD 15 0]

/-- The window at `w` of an engine. -/
def readWindow (e : Who) (w : Addr) (s : State) : List Nibble := readCells e w 16 s

/-- One pass of `decodeRound` over the window at `w` (45 R310). -/
def decodePass (e : Who) (w : Addr) (s : State) : State :=
  writeCells e w (decodeCells roundStart (readWindow e w s)) s

/-- One pass of `encodeRound` over the window at `w` (45 R312). -/
def encodePass (e : Who) (w : Addr) (s : State) : State :=
  writeCells e w (encodeCells roundStart (readWindow e w s)) s

/-- One `CompareRound` over the window at `w` (45 R322). -/
def comparePass (e : Who) (w : Addr) (s : State) : State :=
  writeCells e w (Config.compareRound (toWindow (readWindow e w s))).toList s

/-- `n` passes, one after another (45 R311). -/
def passes (n : Nat) (f : State → State) (s : State) : State :=
  match n with
  | 0 => s
  | k + 1 => passes k f (f s)

/-- `CompareKeyInit` of the configuration (00 R9). -/
def keySegments (c : Params) (seed cks : Window) : Window × Window :=
  match c.compareKeyInit with
  | .specDefault => (seed, cks)
  | .other => Config.compareKeyInitOther seed cks

/-- `CompareStart` of the configuration; the default takes cell 7, 1 where it is 0 (43 R247). -/
def compareStart (c : Params) (seg : List Nibble) : Nibble :=
  match c.compareStart with
  | .specDefault => if seg.getD 7 0 = 0 then 1 else seg.getD 7 0
  | .other => Config.compareStartOther (toWindow seg)

/-- `(i + CMP_DIR) mod 16` (43 R245). -/
def compareNext (c : Params) (i : Nibble) : Nibble :=
  match c.cmpDir with
  | .up => i + 1
  | .down => i - 1

/-- The keystream bit: bit 0 of cell `i` of the segment at `seg` (45 R324). -/
def keyBit (e : Who) (seg : Addr) (i : Nibble) (s : State) : Bool :=
  bitOf (readCell e (cellAt seg i.toNat) s) 0

/-- `ChalVerify` of the configuration (43 R252). -/
def challengeVerified (c : Params) (sent received : List Nibble) : Bool :=
  match c.chalVerify with
  | .specDefault => true
  | .other => Config.chalVerifyOther sent received

end Sys2Proof.Machine
end

