-- ==== Sys2Proof/Machine/Boot.lean ====
section
/-! DEFINITION. Meanings of the PIF boot sequencer (spec 42), and the rest of each operation from its inner
positions on. They act on the PIF (log 30). -/

namespace Sys2Proof.Machine

/-- `PIF.Startup`: idle the link, then the hello code (42 R200 to R202). -/
def execPifStartup (s : State) : Result :=
  .next (push .pif [.op .readBit, .pos .helloFirst] (portWrite .pif .cic (linkOut false false) s))

/-- `PIF.Startup` with `T` read: read `R` (42 R202). -/
def startupSecond (s : State) : State :=
  push .pif [.op .readBit, .pos (.helloSecond (retBit .pif s))] s

/-- `PIF.Startup` with the hello code read: judge it and read the seed (42 R203, R206). -/
def startupJudge (t : Bool) (s : State) : State :=
  push .pif [.op (decodeHello t (retBit .pif s)), .op (.readBuf Config.seedBuf s.cfg.seedXferLen),
    .pos .seedReceived] s

/-- The judgement of the code `T:R`: a region bit that is not the console's is fatal, else `OSINFO <- T`
(30 R113, 42 R203), whenever the code is presented (DESIGN CHOICE, log 42). -/
def judgeHello (t r : Bool) (s : State) : State :=
  if r = regionBit s.cfg.regionPif then writeCell .pif Config.osinfo (bitNibble t) s
  else raiseFatal .regionMismatch s

/-- The first cell of `SEEDWIN` (10 R43), modulo 256: a `SEED_WIN_OFF` beyond `SEED_XFER_LEN` - 16, of which the spec says
nothing, is taken as it is (DESIGN CHOICE, log 38). -/
def seedWin (c : Params) : Addr := Config.seedBuf + c.seedWinOff

/-- `PIF.Startup` with the seed received: descramble, enable Interrupt A, open the handshake (42 R207, R208). -/
def startupFinish (s : State) : State :=
  let s := passes 2 (decodePass .pif (seedWin s.cfg)) s
  let s := portWrite .pif .inten (intenOut true false) s
  settle .pif false { s with ie := true, pifPc := .awaitLockout }

/-- `PIF.AwaitLockout`: one turn is a `POLL` and a test (42 R209, R210). -/
def execPifAwaitLockout (s : State) : Result :=
  .next (push .pif [.op .poll, .pos (.awaitTest .lockout)] s)

/-- `PIF.AwaitChecksum` (42 R209, R212). -/
def execPifAwaitChecksum (s : State) : Result :=
  .next (push .pif [.op .poll, .pos (.awaitTest .getChecksum)] s)

/-- `PIF.AwaitAck` (42 R209, R214). -/
def execPifAwaitAck (s : State) : Result :=
  .next (push .pif [.op .poll, .pos (.awaitTest .checkChecksum)] s)

/-- The operation of a handshake phase. -/
def handshakeOp : Handshake → Instr
  | .lockout => .pifAwaitLockout
  | .getChecksum => .pifAwaitChecksum
  | .checkChecksum => .pifAwaitAck

/-- Every channel status set to skip (42 R210, 44 R275). -/
def skipAll (s : State) : State :=
  [0, 1, 2, 3, 4].foldl (fun s c => writeCell .pif (Config.jbStat c) statSkip s) s

/-- Phase (a) once `LOCKOUT` is set: ROM lockout on, all channels skipped (42 R210). -/
def lockoutSeen (s : State) : State :=
  { skipAll (portWrite .pif .romLock 1 s) with pifPc := .awaitChecksum }

/-- Phase (b) once `GET_CHECKSUM` is set: copy the checksum out of the shared region, acknowledge (42 R212, R213). -/
def getChecksumSeen (s : State) : State :=
  let s := writeCells .pif Config.cksCpu (readCells .pif Config.shCks 12 s) s
  { setBit .pif Config.cmdStatus bitAck s with pifPc := .awaitAck }

/-- Phase (c) once `CHECK_CHECKSUM` is set: on a cold boot the exchange and the compare (42 R214, R217). -/
def checkChecksumSeen (s : State) : State :=
  if testBit .pif Config.stMain bitWarm s then { s with pifPc := .bootTimerGate }
  else push .pif [.op .pifChecksumExchange, .op .pifChecksumCompare, .pos .checksumPassed] s

/-- Phase (c) passed (42 R214). -/
def checksumPassed (s : State) : State := { s with pifPc := .bootTimerGate }

/-- What a handshake phase does once it has found its bit set, as its rule writes it: no control state is asked (42 R210,
R212, R214). -/
def handshakeSeen (h : Handshake) (s : State) : State :=
  match h with
  | .lockout => lockoutSeen s
  | .getChecksum => getChecksumSeen s
  | .checkChecksum => checkChecksumSeen s

/-- A handshake phase after its `POLL`: with its bit set the phase does what it awaited the bit for, and is over; else the
next turn (42 R209, R210, R212, R214). A turn of the loop, a tick of 00 R15, is three steps of the PIF: the operation, the
`POLL`, this test (DESIGN CHOICE, log 4). The phase presented from outside in another control state does the same there
(DESIGN CHOICE, log 42). -/
def awaitTest (h : Handshake) (s : State) : State :=
  if testBit .pif Config.cmdStatus (handshakeBit h) s then handshakeSeen h (push .pif [.pos .settle] s)
  else push .pif [.op (handshakeOp h)] s

/-- `PIF.ChecksumExchange`: read the window (42 R215). -/
def execPifChecksumExchange (s : State) : Result :=
  .next (push .pif [.op (.readBuf Config.cksWin Config.cksXferLen), .pos .checksumReceived] s)

/-- `PIF.ChecksumExchange` with the window received: four decode passes (42 R215). -/
def checksumDecoded (s : State) : State := settle .pif false (passes 4 (decodePass .pif Config.cksWin) s)

/-- The 12 compared nibbles of `CKSWIN`, from `CKS_OFF` on (42 R216), addresses modulo 256: a `CKS_OFF` above 4, of which
the spec says nothing, runs on into the cells after the window (DESIGN CHOICE, log 38). -/
def checksumOfCic (s : State) : List Nibble :=
  readCells .pif (Config.cksWin + s.cfg.cksOff) 12 s

/-- The 12 nibbles the CPU supplied (42 R212). -/
def checksumOfCpu (s : State) : List Nibble := readCells .pif Config.cksCpu 12 s

/-- `PIF.ChecksumCompare`: any unequal pair is fatal (42 R216). -/
def execPifChecksumCompare (s : State) : Result :=
  if checksumOfCic s = checksumOfCpu s then .next (settle .pif false s)
  else .next (raiseFatal .checksumMismatch s)

/-- `PIF.BootTimerGate`: start the timer, then the loop (42 R220). -/
def execPifBootTimerGate (s : State) : Result :=
  .next (push .pif [.op .poll, .pos .gateTest] (initTimer .boot s.cfg.bootTimerInit s))

/-- The gate after its `POLL`: the bit first, then one tick, whose overflow is fatal (42 R220). A turn of the loop is two
steps of the PIF, the `POLL` and this test (DESIGN CHOICE, log 4). -/
def gateTest (s : State) : State :=
  if testBit .pif Config.cmdCmd bitTerminate s then
    push .pif [.op .pifEnterRunning, .pos .settle] s
  else
    let r := tickTimer .boot s
    if r.1 then raiseFatal .bootTimerExhausted r.2
    else push .pif [.op .poll, .pos .gateTest] r.2

/-- `PIF.EnterRunning`: the second source on, the compare segments keyed, `RUNNING` set (42 R221). -/
def execPifEnterRunning (s : State) : Result :=
  let s := portWrite .pif .inten (intenOut true true) s
  let k := keySegments s.cfg (toWindow (readWindow .pif (seedWin s.cfg) s)) (toWindow (readWindow .pif Config.cksWin s))
  let s := writeCells .pif Config.cmp1 k.2.toList (writeCells .pif Config.cmp0 k.1.toList s)
  .next (settle .pif false { setBit .pif Config.stMain bitRunning s with pifPc := .running })

end Sys2Proof.Machine
end

