-- ==== Sys2Proof/Machine/Cic.lean ====
section
/-! DEFINITION. Meanings of the CIC authentication engine (spec 45): the rounds, which act on the engine that takes
the step, and the CIC's sequence, which acts on the CIC (log 30). -/

namespace Sys2Proof.Machine

/-! ## The rounds -/

/-- `decodeRound(w)`; `C` not written (45 R310). -/
def execDecodeRound (w : Addr) (s : State) : Result :=
  .next (settle s.active true (decodePass s.active w s))

/-- `encodeRound(w)`; `C` not written (45 R312). -/
def execEncodeRound (w : Addr) (s : State) : Result :=
  .next (settle s.active true (encodePass s.active w s))

/-- `CompareRound(w)`, OPEN; `A`, `X`, `C` any afterwards (45 R322). -/
def execCompareRound (w : Addr) (s : State) : Result :=
  .next (settle s.active false (comparePass s.active w s))

/-- `ChallengeTransform(buf)`: the 32 cells, then `A` and `C` as the recurrence leaves them (45 R330). -/
def execChallengeTransform (buf : Addr) (s : State) : Result :=
  let w := s.active
  let r := chalCells s.cfg.chalAccComplement s.cfg.chalA0 s.cfg.chalC0 (readCells w buf 32 s)
  let s := settle w false (writeCells w buf r.1 s)
  .next (modEng w (fun E => { E with A := r.2.1, C := r.2.2 }) s)

/-- `ComplementAll(buf)`; its rule does not name `C`, which holds any value afterwards (45 R333, 10 R31). -/
def execComplementAll (buf : Addr) (s : State) : Result :=
  .next (settle s.active false (writeCells s.active buf ((readCells s.active buf 32 s).map com4) s))

/-! ## resetCounter -/

/-- `resetCounter()`: the counters start at 0, then `RC_ITERS` turns (45 R336). -/
def execResetCounter (s : State) : Result :=
  .next (push .cic [.pos (.resetCount s.cfg.rcIters true)]
    (writeByte .cic (Config.rc + 2) 0 (writeByte .cic Config.rc 0 s)))

/-- One turn of `resetCounter`: one sample of the reset line and one count; `C` tells at the end whether every
sample found the line asserted (45 R336). -/
def resetCount (left : Nat) (held : Bool) (s : State) : State :=
  match left with
  | 0 => setC .cic held (settle .cic false s)
  | k + 1 =>
    let r := portRead .cic .reset s
    push .cic [.pos (.resetCount k (held && resetAsserted r.1))] (tickChain .cic Config.rc r.2).2

/-! ## The sequence (45 R340 to R351) -/

/-- `CIC.Main` from its first line: idle the link, the hello code (45 R340, R341). -/
def execCicMain (s : State) : Result :=
  .next (push .cic [.op (.writeBit s.cfg.variantT), .op (.writeBit (regionBit s.cfg.regionCic)), .pos .helloSent]
    (portWrite .cic .cic (linkOut false false) { s with cicPc := .boot }))

/-- Cell `i` of the CIC's seed buffer before scrambling: the plain window at `SEED_WIN_OFF`, `SEED_EXTRA` around it
(45 R314; log 25), for a `SEED_WIN_OFF` out of its range too (DESIGN CHOICE, log 38). -/
def seedCell (c : Params) (i : Nat) : Nibble :=
  let off := c.seedWinOff.toNat
  if i < off then c.seedExtra.toList.getD i 0
  else if i < off + 16 then (Config.seedDerive c.secret).toList.getD (i - off) 0
  else c.seedExtra.toList.getD (i - 16) 0

/-- `CIC.Main` after the hello code: place and scramble the seed, send it (45 R340, R342). The rounds leave
`A`, `X` and the pointers with any value and do not write `C` (45 R312, 10 R51; log 31). -/
def cicSendSeed (s : State) : State :=
  let n := s.cfg.seedXferLen.toNat
  let s := writeCells .cic Config.seedBuf ((List.range n).map (seedCell s.cfg)) s
  let s := settle .cic true (passes 2 (encodePass .cic (Config.seedBuf + s.cfg.seedWinOff)) s)
  push .cic [.op (.writeBuf Config.seedBuf s.cfg.seedXferLen), .pos .seedSent] s

/-- `CIC.Main` after the seed: on a cold boot place and scramble the checksum window and send it (45 R340, R343).
The rounds leave the registers as those of the seed do (log 31). -/
def cicSendChecksum (s : State) : State :=
  if testBit .cic Config.cst bitCicWarm s then push .cic [.pos .cicKey] s
  else
    let s := writeCells .cic Config.cksWin s.cfg.cksPlain.toList s
    let s := settle .cic true (passes 4 (encodePass .cic Config.cksWin) s)
    push .cic [.op (.writeBuf Config.cksWin Config.cksXferLen), .pos .cicKey] s

/-- `CIC.Main` at the keying: the compare segments, then the idle loop (45 R320, R340). -/
def cicKeyed (s : State) : State :=
  let k := keySegments s.cfg (Config.seedDerive s.cfg.secret) s.cfg.cksPlain
  let s := writeCells .cic Config.cmp1 k.2.toList (writeCells .cic Config.cmp0 k.1.toList s)
  push .cic [.pos .cicIdle] (settle .cic false { s with cicPc := .idle })

/-- The idle loop: the first selector bit (45 R340, R345). -/
def cicIdle (s : State) : State := push .cic [.op .readBit, .pos .selectFirst] s

/-- The idle loop: the second selector bit (45 R340). -/
def cicSelectFirst (s : State) : State := push .cic [.op .readBit, .pos (.selectSecond (retBit .cic s))] s

/-- The idle loop: the selector chooses the operation (45 R340, 30 R114). -/
def cicSelectSecond (s1 : Bool) (s : State) : State := push .cic [.op (decodeCicCmd s1 (retBit .cic s))] s

/-- The CIC's side of the compare for index `i`: the PIF's bit in (45 R344). -/
def cicCompareIndex (i : Nibble) (ok : Bool) (s : State) : State :=
  push .cic [.op .readBit, .pos (.compareGot i ok)] s

/-- `CIC.Compare`: three rounds on each segment, then the start index (45 R344). The rounds leave
`A`, `X`, `C` and the pointers with any value (45 R322, 10 R51; log 31). -/
def execCicCompare (s : State) : Result :=
  let s := { s with cicPc := .compare }
  let s := settle .cic false (passes 3 (comparePass .cic Config.cmp1) (passes 3 (comparePass .cic Config.cmp0) s))
  .next (cicCompareIndex (compareStart s.cfg (readWindow .cic Config.cmp1 s)) true s)

/-- `CIC.Compare` with the PIF's bit: remember a mismatch, send its own bit (45 R344). -/
def cicCompareGot (i : Nibble) (ok : Bool) (s : State) : State :=
  push .cic [.op (.writeBit (keyBit .cic Config.cmp1 i s)),
    .pos (.comparePut i (ok && retBit .cic s == keyBit .cic Config.cmp0 i s))] s

/-- `CIC.Compare` after its own bit: next index; at index 0 a mismatch kills the chip (45 R344). -/
def cicComparePut (i : Nibble) (ok : Bool) (s : State) : State :=
  if compareNext s.cfg i = 0 then
    if ok then push .cic [.pos .cicIdle] (settle .cic false { s with cicPc := .idle })
    else cicDie s
  else cicCompareIndex (compareNext s.cfg i) ok s

/-- `CIC.Challenge`: read the challenge, transform it, send the response (45 R346). -/
def execCicChallenge (s : State) : Result :=
  .next (push .cic [.op (.readBuf Config.chalBuf Config.chalLen),
    .op (if s.cfg.chalCapable then .challengeTransform Config.chalBuf else .complementAll Config.chalBuf),
    .op (.writeBuf Config.chalBuf Config.chalLen), .pos .challengeSent] { s with cicPc := .challenge })

/-- `CIC.Challenge` after the response: back to the idle loop (45 R346). -/
def cicChallengeSent (s : State) : State :=
  push .cic [.pos .cicIdle] (settle .cic false { s with cicPc := .idle })

/-- `CIC.Reset`: `resetCounter`, the warm mark and the ready bit, "and then `CIC.Main` starts again from its first line"
(45 R348). -/
def execCicReset (s : State) : Result :=
  .next (push .cic [.op .resetCounter, .pos .resetCounted, .op .cicMain] { s with cicPc := .reset })

/-- `CIC.Reset` after `resetCounter`: the next boot is warm; the ready bit (45 R348). The rule names no register, so all
hold any value when it is over; they are drawn here, since `WriteBit` touches none of them (10 R31, R51). -/
def cicResetCounted (s : State) : State :=
  push .cic [.op (.writeBit false)] (settle .cic false (setBit .cic Config.cst bitCicWarm s))

end Sys2Proof.Machine
end

