-- ==== Sys2Proof/Machine/Interrupts.lean ====
section
/-! DEFINITION. Meanings of the interrupt controller, the fatal action, the halt and the timers (spec 60). They act
on the PIF, which alone has this state (log 30). -/

namespace Sys2Proof.Machine

/-- `POLL` (60 R364). -/
def execPoll (s : State) : Result := .next (pollInterrupts s)

/-- Interrupt entry (60 R366); presented by itself it asks for no pending source and no free `ISR` (DESIGN CHOICE, log 42). -/
def execIntEntry (x : IntSrc) (s : State) : Result := .next (takeInterrupt x s)

/-- Interrupt return (60 R368). -/
def execIntReturn (s : State) : Result := .next (returnInterrupt s)

/-- `raise Fatal(cause)` (60 R370). -/
def execFatal (cause : FatalCause) (s : State) : Result := .next (raiseFatal cause s)

/-- The loop of the fatal action: the reset line toggled once (60 R370). -/
def fatalStrobe (s : State) : State :=
  portWrite .pif .reset (resetOut false false) (portWrite .pif .reset (resetOut true false) s)

/-- `HALT` (60 R380). -/
def execHalt (s : State) : Result := .next (beginHalt s)

/-- `AckTransfer()` (60 R381). -/
def execAckTransfer (s : State) : Result := .next (ackTransfer s)

/-- `PIF.IntA`: read the transfer kind, run its service, return (60 R382). -/
def execPifIntA (s : State) : Result :=
  let r := portRead .pif .jbStatus s
  .next (push .pif [.op (xkindInstr (decodeXkind r.1)), .pos (.serviceEnd .a), .op .intReturn] r.2)

/-- The end of a service before its return: `A`, `X` and `C` are not preserved across an interrupt (60 R366, R382,
R387; 10 R31, R51); the pointers are (`settle`). -/
def serviceEnd (s : State) : State := settle .pif false s

/-- `PIF.IntB`: `RUNNING` cleared, Interrupt B off, the pre-reset signal raised, return (60 R387). -/
def execPifIntB (s : State) : Result :=
  let s := resetBit .pif Config.stMain bitRunning s
  let s := portWrite .pif .inten (intenOut true false) s
  let s := portWrite .pif .reset (resetOut false true) s
  .next (push .pif [.pos (.serviceEnd .b), .op .intReturn] s)

/-- `TimerInit(T, v)` (60 R390). -/
def execTimerInit (t : Timer) (v : Word16) (s : State) : Result := .next (initTimer t v s)

/-- `TimerTick(T)`: the value is 1 when the whole chain overflowed (60 R391). -/
def execTimerTick (t : Timer) (s : State) : Result :=
  let r := tickTimer t s
  .next (deliver .pif (bitByte r.1) r.2)

/-- The body of the 64-byte read outside challenge mode: the transfer, then the acknowledgment (60 R383). -/
def joybusService (s : State) : State := push .pif [.op .pifJoybusTransfer, .op .ackTransfer] s

/-- The 64-byte read that asks for a challenge: with the boot complete it is marked pending and nothing is acknowledged
yet, else it is a transfer (60 R383). -/
def challengeAsked (s : State) : State :=
  if testBit .pif Config.stMain bitRunning s then setBit .pif Config.stMain bitChalPend s else joybusService s

/-- The write service after the acknowledgment: with the `JOYBUS` bit set, as the write left it, the parse (60 R384). -/
def writeServed (s : State) : State :=
  if testBit .pif Config.cmdCmd bitJoybus s then push .pif [.op .pifJoybusParse] s else s

end Sys2Proof.Machine
end

