-- ==== Sys2Proof/Machine/Joybus.lean ====
section
/-! DEFINITION. Meanings of the JoyBus multiplexer (spec 44): the items of the frame list, the parse and the
transfer, with the rest of each operation from its inner positions on. They act on the PIF (log 30). -/

namespace Sys2Proof.Machine

/-! ## The items (44 R276 to R280)

Each acts at the present `p` and `ch`. In the parse it runs only while the parse is open; presented by itself once the
parse is over it still acts there, at the `p` and `ch` left over (DESIGN CHOICE, log 40). -/

/-- `JB.SKIP`: next channel, next byte (44 R276; after the parse: log 40). -/
def itemSkip (s : State) : State := { s with parse := { s.parse with p := s.parse.p + 2, ch := s.parse.ch + 1 } }

/-- `JB.RESET`: the channel is marked for reset (44 R277; after the parse: log 40). -/
def itemReset (s : State) : State :=
  itemSkip (writeCell .pif (Config.jbStat s.parse.ch) statReset s)

/-- `JB.NOP`: next byte, same channel (44 R278; after the parse: log 40). -/
def itemNop (s : State) : State := { s with parse := { s.parse with p := s.parse.p + 2 } }

/-- `JB.STOP`: leave the loop, `p`, `ch` and the table as they are (44 R279; after the parse: log 40). -/
def itemStop (s : State) : State := { s with parse := { s.parse with stop := true } }

/-- `JB.XFER`: record the address of the `TX` byte, mark the channel active, step over the item (44 R280). By itself it
does so after the parse is over too, where `FRAME` does nothing (DESIGN CHOICE, log 40, log 15). -/
def itemXfer (tx rx : Byte) (s : State) : State :=
  let pos := BitVec.ofNat 8 s.parse.p
  let s := writeCell .pif (Config.jbOffHi s.parse.ch) (pos.extractLsb' 4 4) s
  let s := writeCell .pif (Config.jbOffLo s.parse.ch) (pos.extractLsb' 0 4) s
  let s := writeCell .pif (Config.jbStat s.parse.ch) statActive s
  { s with parse := { s.parse with
      p := s.parse.p + 2 * (2 + jbCount tx + jbCount rx), ch := s.parse.ch + 1 } }

/-- The effect of an item of the frame list (44 R273). -/
def applyItem (i : JbItem) (s : State) : State :=
  match i with
  | .skip => itemSkip s
  | .reset => itemReset s
  | .nop => itemNop s
  | .stop => itemStop s
  | .xfer tx rx => itemXfer tx rx s

/-- `JB.SKIP` (44 R276). -/
def execJbSkip (s : State) : Result := .next (itemSkip s)
/-- `JB.RESET` (44 R277). -/
def execJbReset (s : State) : Result := .next (itemReset s)
/-- `JB.NOP` (44 R278). -/
def execJbNop (s : State) : Result := .next (itemNop s)
/-- `JB.STOP` (44 R279). -/
def execJbStop (s : State) : Result := .next (itemStop s)
/-- `JB.XFER` (44 R280). -/
def execJbXfer (tx rx : Byte) (s : State) : Result := .next (itemXfer tx rx s)

/-- `JBRX`: the receive count of an item, `RX & JB_COUNT_MASK`, is the value delivered; the PIF does not write the
byte here (30 R118; log 15). -/
def execJbRx (rx : Byte) (s : State) : Result :=
  .next (deliver .pif (rx &&& Config.jbCountMask) s)

/-- The parse goes on: not stopped, fewer than five channels, before the command byte (44 R274). -/
def parseOpen (s : State) : Bool := !s.parse.stop && decide (s.parse.ch < 5) && decide (s.parse.p < Config.shEnd)

/-- `FRAME`: the frame at the parse position, as the parse takes it: its `TX` and `RX` bytes are recorded as the item
they are, its data and receive space are stepped over and not read; a parse that is over takes nothing
(30 R116, R119, 44 R280; log 15). -/
def execFrame (tx rx : Byte) (_data _recv : List Byte) (s : State) : Result :=
  .next (if parseOpen s then itemXfer tx rx s else s)

/-! ## The parse (44 R272 to R283) -/

/-- `Byte(p)` of the frame list at a parse position (44 R272). -/
def frameByte (p : Nat) (s : State) : Byte := readByte .pif (BitVec.ofNat 8 p) s

/-- The item at the parse position; the `RX` byte counts only for a transfer item (44 R273, R280). -/
def itemAt (s : State) : JbItem := decodeJbItem (frameByte s.parse.p s) (frameByte (s.parse.p + 2) s)

/-- The parse loop, at most `n` items (44 R273, R274). -/
def parseItems : Nat → State → State
  | 0, s => s
  | n + 1, s => if parseOpen s then parseItems n (applyItem (itemAt s) s) else s

/-- How many items a parse can take at most: `p` starts at 0x80, grows by 2 or more and stops at 0xFE (44 R274). -/
def parseBound : Nat := 64

/-- `PIF.JoybusParse`: all channels to skip, then the items in order (44 R273, R275). No event occurs (44 R282). -/
def execPifJoybusParse (s : State) : Result :=
  let s := { skipAll s with parse := ⟨Config.shBase, 0, false⟩ }
  .next (settle .pif false (parseItems parseBound s))

/-! ## The transfer (44 R288 to R302) -/

/-- `PIF.JoybusTransfer`: read the channel number and serve it; above 4 it is malformed stimulus (44 R288 to R291).
Numbers up to 4 are served in whatever order they come (44 R289; log 18). -/
def execPifJoybusTransfer (s : State) : Result :=
  let r := portRead .pif .jbChSel s
  if h : chSel r.1 < 5 then
    let ch : Fin 5 := ⟨chSel r.1, h⟩
    let st := readCell .pif (Config.jbStat ch.val) r.2
    if bitOf st 0 then .next (push .pif [.pos (.channelServed ch)] r.2)
    else if bitOf st 1 then .next (push .pif [.op .jbChannelReset, .pos (.channelServed ch)] r.2)
    else .next (push .pif [.op (.jbChannelExchange ch), .pos (.channelServed ch)] r.2)
  else .refused .channelOutOfRange

/-- The channel loop after serving `ch`: 0 is the last (44 R288, R289). -/
def channelServed (ch : Fin 5) (s : State) : State :=
  if ch.val = 0 then settle .pif false s else push .pif [.op .pifJoybusTransfer] s

/-- `JbChannelReset`: command, one wait with its result ignored, idle (44 R292). -/
def execJbChannelReset (s : State) : Result :=
  .next (push .pif [.op .jbWaitReady, .pos .channelResetEnd] (portWrite .pif .jbCtrl jbcReset s))

/-- The end of `JbChannelReset` (44 R292). -/
def channelResetEnd (s : State) : State := settle .pif false (portWrite .pif .jbCtrl jbcIdle s)

/-- The end of a channel's exchange: `JBC_IDLE` (44 R293). -/
def exchangeEnd (s : State) : State := settle .pif false (portWrite .pif .jbCtrl jbcIdle s)

/-- The receive loop of `JbChannelExchange` with `n` bytes to go: a wait before each (44 R293, R294). -/
def rxLoop (rq d : Addr) (n : Nat) (s : State) : State :=
  match n with
  | 0 => exchangeEnd s
  | k + 1 => push .pif [.op .jbWaitReady, .pos (.rxByte rq d k)] s

/-- The send loop of `JbChannelExchange` with `n` bytes to go; after the last, the receive phase begins (44 R293). -/
def txLoop (rq d : Addr) (n rxc : Nat) (s : State) : State :=
  match n with
  | 0 => rxLoop rq d rxc (portWrite .pif .jbCtrl jbcRx s)
  | k + 1 => push .pif [.op .jbWaitReady, .pos (.txByte rq d k rxc)] s

/-- The byte at a cell of the shared window, its low nibble under the window wrap (44 R293, R296). -/
def windowByte (q : Addr) (s : State) : Byte :=
  readCell .pif q s ++ readCell .pif (windowWrap (q + 1)) s

/-- `JbChannelExchange(ch)`: the counts are read again from the shared region; the send phase begins (44 R293). -/
def execJbChannelExchange (ch : Fin 5) (s : State) : Result :=
  let q := windowWrap (readCell .pif (Config.jbOffHi ch.val) s ++ readCell .pif (Config.jbOffLo ch.val) s)
  let rq := windowWrap (q + 2)
  let txc := jbCount (windowByte q s)
  let rxc := jbCount (windowByte rq s)
  .next (txLoop rq (windowWrap (q + 4)) txc rxc (portWrite .pif .jbCtrl jbcTx s))

/-- The value `JbWaitReady` delivers for `ok`. -/
def waitOk : Byte := 0
/-- The value `JbWaitReady` delivers for `error`. -/
def waitError : Byte := 1

/-- `JbWaitReady()`: one turn of its loop, status before error; it goes on until the device is ready or has failed
(44 R294). -/
def execJbWaitReady (s : State) : Result :=
  let r := portRead .pif .jbStatus s
  if jbReady r.1 then .next (settle .pif false (deliver .pif waitOk r.2))
  else
    let e := portRead .pif .jbError r.2
    if jbFailed e.1 then .next (settle .pif false (deliver .pif waitError e.2))
    else .next (push .pif [.op .jbWaitReady] e.2)

/-- The error path over memory: `SAVE_A` any value, the error nibble or-ed into the high nibble of the `RX` byte
(44 R297). -/
def recordError (rq : Addr) (s : State) : State :=
  let s := { writeCell .pif Config.saveA (Config.anyNibble s.draws) s with draws := s.draws + 1 }
  writeCell .pif rq (readCell .pif rq s ||| Config.jbErrNibble) s

/-- `JbError(rq)` (44 R297). -/
def execJbError (rq : Addr) (s : State) : Result := .next (settle .pif false (recordError rq s))

/-- A channel that failed: record the error, close with `JBC_IDLE` (44 R293, R298). -/
def channelFailed (rq : Addr) (s : State) : State := exchangeEnd (recordError rq s)

/-- `JbChannelExchange` after the wait before a data byte: high nibble, low nibble out (44 R293). -/
def txByte (rq d : Addr) (n rxc : Nat) (s : State) : State :=
  if (s.eng .pif).ret = waitOk then
    let d1 := windowWrap (d + 1)
    let s := portWrite .pif .jbData (readCell .pif d s) s
    let s := portWrite .pif .jbData (readCell .pif d1 s) s
    txLoop rq (windowWrap (d1 + 1)) n rxc s
  else channelFailed rq s

/-- `JbChannelExchange` after the wait before a received byte: high nibble, low nibble in (44 R293). -/
def rxByte (rq d : Addr) (n : Nat) (s : State) : State :=
  if (s.eng .pif).ret = waitOk then
    let d1 := windowWrap (d + 1)
    let h := portRead .pif .jbData s
    let l := portRead .pif .jbData (writeCell .pif d h.1 h.2)
    rxLoop rq (windowWrap (d1 + 1)) n (writeCell .pif d1 l.1 l.2)
  else channelFailed rq s

end Sys2Proof.Machine
end

