-- ==== Sys2Proof/Machine/Patterns.lean ====
section
/-! DEFINITION. Meanings of the decoded patterns (spec 30): what the machine does once it has decoded the pattern.
A command flag has its effect in the control state whose rule tests it and none elsewhere (30 R105; log 14); `ACK`, which
no rule tests, is the exception (log 35). -/

namespace Sys2Proof.Machine

/-! ## CMD (30 R104 to R106) -/

/-- Interrupt A is in service (60 R382). -/
def inServiceA (s : State) : Bool :=
  match s.isr with
  | some r => r.src == .a
  | none => false

/-- `CMD.LOCKOUT`, tested in `S_AWAIT_LOCKOUT` (42 R210). -/
def execCmdLockout (s : State) : Result :=
  .next (if s.pifPc = .awaitLockout then lockoutSeen s else s)

/-- `CMD.GET_CHECKSUM`, tested in `S_AWAIT_CHECKSUM` (42 R212). -/
def execCmdGetChecksum (s : State) : Result :=
  .next (if s.pifPc = .awaitChecksum then getChecksumSeen s else s)

/-- `CMD.CHECK_CHECKSUM`, tested in `S_AWAIT_ACK` (42 R214). -/
def execCmdCheckChecksum (s : State) : Result :=
  .next (if s.pifPc = .awaitAck then checkChecksumSeen s else s)

/-- `CMD.ACK`: the PIF sets the bit, the other seven unchanged (42 R213). Presented by itself it does so in every control
state, though 42 R213 places it in phase (b) (DESIGN CHOICE, log 35). -/
def execCmdAck (s : State) : Result := .next (setBit .pif Config.cmdStatus bitAck s)

/-- `CMD.JOYBUS`, tested by the write service of Interrupt A: the shared region is parsed (60 R384). -/
def execCmdJoybus (s : State) : Result :=
  .next (if inServiceA s then push .pif [.op .pifJoybusParse] s else s)

/-- `CMD.CHALLENGE`, tested by the `READ64` service of Interrupt A (60 R383). -/
def execCmdChallenge (s : State) : Result :=
  .next (if inServiceA s then challengeAsked s else s)

/-- `CMD.BIT2`: any value, no effect (30 R106). -/
def execCmdBit2 (s : State) : Result := .next s

/-- `CMD.TERMINATE`, tested in `S_BOOT_TIMER_GATE`: the boot ends (42 R220). -/
def execCmdTerminate (s : State) : Result :=
  .next (if s.pifPc = .bootTimerGate then push .pif [.op .pifEnterRunning] s else s)

/-! ## XKIND (30 R110)

Each is the service of its kind as its rule writes it. The machine comes to it in Interrupt A alone (60 R382); presented by
itself it runs in every control state, in service or not (DESIGN CHOICE, log 42). -/

/-- The service of a write: acknowledge, then look at `JOYBUS` (60 R384). -/
def writeService (s : State) : State := push .pif [.op .ackTransfer, .pos .writeServed] s

/-- `READ4`: acknowledge (60 R385). -/
def execXkindRead4 (s : State) : Result := .next (push .pif [.op .ackTransfer] s)

/-- `WRITE4` (60 R384). -/
def execXkindWrite4 (s : State) : Result := .next (writeService s)

/-- `READ64`: the challenge if its bit is set and the boot is complete, else the JoyBus transfer (60 R383). -/
def execXkindRead64 (s : State) : Result :=
  .next (if testBit .pif Config.cmdCmd bitChallenge s then challengeAsked s else joybusService s)

/-- `WRITE64` (60 R384). -/
def execXkindWrite64 (s : State) : Result := .next (writeService s)

/-! ## HELLO (30 R112, R113)

The machine comes to these in `PIF.Startup` alone; presented by itself a code is judged in every control state (DESIGN
CHOICE, log 42). -/

/-- The code `T:R` = 0:0. -/
def execHello00 (s : State) : Result := .next (judgeHello false false s)
/-- The code `T:R` = 0:1. -/
def execHello01 (s : State) : Result := .next (judgeHello false true s)
/-- The code `T:R` = 1:0. -/
def execHello10 (s : State) : Result := .next (judgeHello true false s)
/-- The code `T:R` = 1:1. -/
def execHello11 (s : State) : Result := .next (judgeHello true true s)

/-! ## CICCMD (30 R114)

The machine comes to these in the CIC's idle loop alone; presented by itself a selector chooses in every control state
(DESIGN CHOICE, log 42). -/

/-- `COMPARE` (45 R344). -/
def execCiccmdCompare (s : State) : Result := .next (push .cic [.op .cicCompare] s)
/-- `CHALLENGE` (45 R346). -/
def execCiccmdChallenge (s : State) : Result := .next (push .cic [.op .cicChallenge] s)
/-- `RESET` (45 R348). -/
def execCiccmdReset (s : State) : Result := .next (push .cic [.op .cicReset] s)
/-- The reserved selector: the CIC dies (45 R349). -/
def execCiccmdReserved (s : State) : Result := .next (cicDie s)

/-! ## PORTVAL (30 R121) -/

/-- `JBC_IDLE`: end of a channel's exchange. -/
def execJbcIdle (s : State) : Result := .next (portWrite .pif .jbCtrl jbcIdle s)
/-- `JBC_TX`: begin sending to the selected channel. -/
def execJbcTx (s : State) : Result := .next (portWrite .pif .jbCtrl jbcTx s)
/-- `JBC_RX`: begin receiving from the selected channel. -/
def execJbcRx (s : State) : Result := .next (portWrite .pif .jbCtrl jbcRx s)
/-- `JBC_RESET`: run the reset handshake on the selected channel. -/
def execJbcReset (s : State) : Result := .next (portWrite .pif .jbCtrl jbcReset s)
/-- `JBC_XFER_ACK`: hand the transfer back to the peripheral bus. -/
def execJbcXferAck (s : State) : Result := .next (portWrite .pif .jbCtrl jbcXferAck s)

end Sys2Proof.Machine
end

