-- ==== Sys2Proof/Machine/Primitives.lean ====
section
/-! DEFINITION. Meanings of the primitives of the memory and register model (spec 40). Each acts on the engine
that takes the step; a primitive that returns a value delivers it in `ret` (log 7). -/

namespace Sys2Proof.Machine

/-- `read(addr)` (40 R140). -/
def execRead (addr : Addr) (s : State) : Result :=
  .next (deliver s.active ((readCell s.active addr s).setWidth 8) s)

/-- `write(addr, value)` (40 R141). -/
def execWrite (addr : Addr) (value : Nibble) (s : State) : Result :=
  .next (writeCell s.active addr value s)

/-- `bitTest(addr, bit)`; `C` is not written (40 R143). -/
def execBitTest (addr : Addr) (bit : BitVec 2) (s : State) : Result :=
  .next (deliver s.active (bitByte (testBit s.active addr bit s)) s)

/-- `bitSet(addr, bit)` (40 R144). -/
def execBitSet (addr : Addr) (bit : BitVec 2) (s : State) : Result :=
  .next (setBit s.active addr bit s)

/-- `bitReset(addr, bit)` (40 R145). -/
def execBitReset (addr : Addr) (bit : BitVec 2) (s : State) : Result :=
  .next (resetBit s.active addr bit s)

/-- `swapActiveContext()` (40 R146). -/
def execSwap (s : State) : Result := .next (swapPointers s.active s)

/-- `incPage()` on `B` (40 R147). -/
def execIncPage (s : State) : Result := .next (setB s.active (s.eng s.active).B.incPage s)

/-- `incFull()` on `B` (40 R148). -/
def execIncFull (s : State) : Result := .next (setB s.active (s.eng s.active).B.incFull s)

/-- `setPointer(addr)` (40 R150). -/
def execSetPointer (addr : Addr) (s : State) : Result := .next (setB s.active (pointerOf addr) s)

/-- `add4(x, y)`; `C` neither read nor written (40 R151). -/
def execAdd4 (x y : Nibble) (s : State) : Result :=
  .next (deliver s.active ((add4 x y).setWidth 8) s)

/-- `adc4(x, y)`; `C` read and written (40 R152). -/
def execAdc4 (x y : Nibble) (s : State) : Result :=
  let c := (s.eng s.active).C
  .next (deliver s.active ((adcValue x y c).setWidth 8) (setC s.active (adcCarry x y c) s))

/-- `com4(x)` (40 R153). -/
def execCom4 (x : Nibble) (s : State) : Result := .next (deliver s.active ((com4 x).setWidth 8) s)

/-- `sub4(x, y)` (40 R154). -/
def execSub4 (x y : Nibble) (s : State) : Result :=
  .next (deliver s.active ((sub4 x y).setWidth 8) s)

/-- `inc8(addr)`: the value is 1 when the pair overflowed (40 R155). -/
def execInc8 (addr : Addr) (s : State) : Result :=
  let r := incByte s.active addr s
  .next (deliver s.active (bitByte r.1) r.2)

end Sys2Proof.Machine
end

