-- ==== Sys2Proof/Machine/Running.lean ====
section
/-! DEFINITION. Meanings of the PIF security loop (spec 43), and the rest of each operation from its inner
positions on. They act on the PIF (log 30). -/

namespace Sys2Proof.Machine

/-- `PIF.RunningLoop`: one turn begins with the `POLL` (43 R240, R241). -/
def execPifRunningLoop (s : State) : Result := .next (push .pif [.op .poll, .pos .runTest] s)

/-- The running loop after its `POLL`: reset request, then challenge, then compare (43 R240, R241, R243). A turn comes to
here in three steps of the PIF, the operation, the `POLL` and this test (DESIGN CHOICE, log 4). -/
def runTest (s : State) : State :=
  if testBit .pif Config.stMain bitRunning s = false then
    settle .pif false { s with pifPc := .resetting }
  else if testBit .pif Config.stMain bitChalPend s then
    push .pif [.op .pifChallengeExchange, .pos .challengeReturned] { s with pifPc := .challengePending }
  else push .pif [.op .pifCompareExchange, .op .pifRunningLoop] s

/-- The running loop after a challenge exchange (43 R240). -/
def challengeReturned (s : State) : State :=
  push .pif [.op .pifRunningLoop] { s with pifPc := .running }

/-- `PIF.CompareExchange`: the selector `COMPARE` (43 R245). -/
def execPifCompareExchange (s : State) : Result :=
  .next (push .pif [.op (.writeBit false), .op (.writeBit false), .pos .compareKeyed] s)

/-- The PIF's side of the exchange for index `i`: its bit out, the CIC's bit in (43 R245). -/
def compareIndex (i : Nibble) (s : State) : State :=
  push .pif [.op (.writeBit (keyBit .pif Config.cmp0 i s)), .op .readBit, .pos (.compareCheck i)] s

/-- `PIF.CompareExchange` after the selector: three rounds on each segment, then the start index (43 R245, R247). The
rounds leave `A`, `X`, `C` and the pointers with any value (45 R322, 10 R51; log 31). -/
def compareKeyed (s : State) : State :=
  let s := settle .pif false (passes 3 (comparePass .pif Config.cmp1) (passes 3 (comparePass .pif Config.cmp0) s))
  compareIndex (compareStart s.cfg (readWindow .pif Config.cmp1 s)) s

/-- `PIF.CompareExchange` with the CIC's bit for index `i`: a mismatch is fatal at once; the loop ends at index 0
(43 R245, R248). -/
def compareCheck (i : Nibble) (s : State) : State :=
  if retBit .pif s ≠ keyBit .pif Config.cmp1 i s then raiseFatal .compareMismatch s
  else if compareNext s.cfg i = 0 then settle .pif false s
  else compareIndex (compareNext s.cfg i) s

/-- `PIF.ChallengeExchange`: the selector `CHALLENGE` (43 R250). -/
def execPifChallengeExchange (s : State) : Result :=
  .next (push .pif [.op (.writeBit true), .op (.writeBit false), .pos .challengeSend] s)

/-- `PIF.ChallengeExchange` after the selector: the challenge out, the response back over it (43 R250). -/
def challengeSend (s : State) : State :=
  push .pif [.op (.writeBuf Config.shChal Config.chalLen), .op (.readBuf Config.shChal Config.chalLen),
    .pos (.challengeVerify (readCells .pif Config.shChal 32 s))] s

/-- `PIF.ChallengeExchange` with the response: verify, clear `CHALPEND`, release the read (43 R250). -/
def challengeVerify (sent : List Nibble) (s : State) : State :=
  if challengeVerified s.cfg sent (readCells .pif Config.shChal 32 s) then
    push .pif [.op .ackTransfer, .pos .settle] (resetBit .pif Config.stMain bitChalPend s)
  else raiseFatal .challengeMismatch s

/-- `PIF.Resetting`: `IE` off, the selector `RESET` (43 R260). -/
def execPifResetting (s : State) : Result :=
  .next (push .pif [.op (.writeBit true), .op (.writeBit true), .pos .resetSelected] { s with ie := false })

/-- `PIF.Resetting` after the selector: start the reset timer and the wait loop (43 R260). -/
def resetSelected (s : State) : State :=
  push .pif [.pos .resetWait] (initTimer .reset s.cfg.resetTimerInit s)

/-- One turn of the wait loop: one `PortRead`; the peer's clock ends it, else one tick, whose overflow is fatal
(43 R260, R261). -/
def resetWait (s : State) : State :=
  let r := portRead .pif .cic s
  if peerClk r.1 then push .pif [.op .readBit, .pos .resetReady] r.2
  else
    let t := tickTimer .reset r.2
    if t.1 then raiseFatal .resetTimerExhausted t.2 else push .pif [.pos .resetWait] t.2

/-- `PIF.Resetting` after the ready bit: the NMI pulse, `WARM` set, `CHALPEND` dropped, interrupts off, back to cold
boot (43 R260, R262, R263). The read that asked for a dropped challenge stays open (DESIGN CHOICE, log 32). -/
def resetReady (s : State) : State :=
  let s := portWrite .pif .reset (resetOut true true) s
  let s := portWrite .pif .reset (resetOut false false) s
  let s := setBit .pif Config.stMain bitWarm s
  let s := resetBit .pif Config.stMain bitChalPend s
  let s := portWrite .pif .inten (intenOut false false) s
  settle .pif false { s with pifPc := .coldBoot }

end Sys2Proof.Machine
end

