-- ==== Sys2Proof/Machine/Serial.lean ====
section
/-! DEFINITION. Meanings of the port and link primitives (spec 41). Each acts on the engine that takes the step.
The link primitives above one bit are sequences of `ReadBit` and `WriteBit` (30 R125) and contain no poll point
(41 R182). -/

namespace Sys2Proof.Machine

/-- `PortRead(p)` (41 R170), by an engine that lacks the port too (DESIGN CHOICE, log 37). -/
def execPortRead (p : Port) (s : State) : Result :=
  let r := portRead s.active p s
  .next (deliver s.active (r.1.setWidth 8) r.2)

/-- `PortWrite(p, v)` (41 R171). By an engine that lacks the port it is an event alone (DESIGN CHOICE, log 37). -/
def execPortWrite (p : Port) (v : Nibble) (s : State) : Result := .next (portWrite s.active p v s)

/-- `WriteBit(v)` (41 R177): event (1) of R178, then the acknowledgment loop. -/
def execWriteBit (v : Bool) (s : State) : Result := .next (startWriteBit s.active v s)

/-- `ReadBit()` (41 R179, R181). -/
def execReadBit (s : State) : Result := .next (readBitTurn s.active s)

/-- `ReadNibble()`: four bits, bit 3 first (41 R184). -/
def execReadNibble (s : State) : Result :=
  .next (push s.active [.op .readBit, .pos (.nibbleBits 3 0)] s)

/-- `WriteNibble(n)`: bits 3, 2, 1, 0 (41 R185). -/
def execWriteNibble (n : Nibble) (s : State) : Result :=
  .next (push s.active [.op (.writeBit (bitOf n 3)), .op (.writeBit (bitOf n 2)),
    .op (.writeBit (bitOf n 1)), .op (.writeBit (bitOf n 0))] s)

/-- `ReadBuf(base, n)`: `n` nibbles, lowest address first; nothing for `n` = 0 (41 R186). -/
def execReadBuf (base : Addr) (n : Byte) (s : State) : Result :=
  if n = 0 then .next s
  else .next (push s.active
    [.op .readNibble, .pos (.storeNibble base), .op (.readBuf (base + 1) (n - 1))] s)

/-- `WriteBuf(base, n)`: `n` nibbles, lowest address first; nothing for `n` = 0 (41 R186). -/
def execWriteBuf (base : Addr) (n : Byte) (s : State) : Result :=
  if n = 0 then .next s
  else .next (push s.active
    [.op (.writeNibble (readCell s.active base s)), .op (.writeBuf (base + 1) (n - 1))] s)

/-- `ReadNibble` after one bit: the bits so far with the one just read below them (41 R184). -/
def takeNibbleBit (w : Who) (left : Nat) (acc : Nibble) (s : State) : State :=
  let acc := (acc <<< 1) ||| bitNibble (retBit w s)
  match left with
  | 0 => deliver w (acc.setWidth 8) s
  | k + 1 => push w [.op .readBit, .pos (.nibbleBits k acc)] s

end Sys2Proof.Machine
end

