-- ==== Sys2Proof/Machine/Dispatch.lean ====
section
/-! DEFINITION. The dispatch: one arm per constructor of `Instr`, in the order of spec/opcode_table.json. -/

namespace Sys2Proof.Machine

def exec (i : Instr) (s : State) : Host.Outcome State Fault Refusal :=
  match i with
  | .cmdLockout => Sys2Proof.Machine.execCmdLockout s
  | .cmdGetChecksum => Sys2Proof.Machine.execCmdGetChecksum s
  | .cmdCheckChecksum => Sys2Proof.Machine.execCmdCheckChecksum s
  | .cmdAck => Sys2Proof.Machine.execCmdAck s
  | .cmdJoybus => Sys2Proof.Machine.execCmdJoybus s
  | .cmdChallenge => Sys2Proof.Machine.execCmdChallenge s
  | .cmdBit2 => Sys2Proof.Machine.execCmdBit2 s
  | .cmdTerminate => Sys2Proof.Machine.execCmdTerminate s
  | .xkindRead4 => Sys2Proof.Machine.execXkindRead4 s
  | .xkindWrite4 => Sys2Proof.Machine.execXkindWrite4 s
  | .xkindRead64 => Sys2Proof.Machine.execXkindRead64 s
  | .xkindWrite64 => Sys2Proof.Machine.execXkindWrite64 s
  | .hello00 => Sys2Proof.Machine.execHello00 s
  | .hello01 => Sys2Proof.Machine.execHello01 s
  | .hello10 => Sys2Proof.Machine.execHello10 s
  | .hello11 => Sys2Proof.Machine.execHello11 s
  | .ciccmdCompare => Sys2Proof.Machine.execCiccmdCompare s
  | .ciccmdChallenge => Sys2Proof.Machine.execCiccmdChallenge s
  | .ciccmdReset => Sys2Proof.Machine.execCiccmdReset s
  | .ciccmdReserved => Sys2Proof.Machine.execCiccmdReserved s
  | .jbSkip => Sys2Proof.Machine.execJbSkip s
  | .jbReset => Sys2Proof.Machine.execJbReset s
  | .jbStop => Sys2Proof.Machine.execJbStop s
  | .jbNop => Sys2Proof.Machine.execJbNop s
  | .jbXfer tx rx => Sys2Proof.Machine.execJbXfer tx rx s
  | .jbRx rx => Sys2Proof.Machine.execJbRx rx s
  | .frame tx rx data recv => Sys2Proof.Machine.execFrame tx rx data recv s
  | .jbcIdle => Sys2Proof.Machine.execJbcIdle s
  | .jbcTx => Sys2Proof.Machine.execJbcTx s
  | .jbcRx => Sys2Proof.Machine.execJbcRx s
  | .jbcReset => Sys2Proof.Machine.execJbcReset s
  | .jbcXferAck => Sys2Proof.Machine.execJbcXferAck s
  | .read addr => Sys2Proof.Machine.execRead addr s
  | .write addr value => Sys2Proof.Machine.execWrite addr value s
  | .bitTest addr bit => Sys2Proof.Machine.execBitTest addr bit s
  | .bitSet addr bit => Sys2Proof.Machine.execBitSet addr bit s
  | .bitReset addr bit => Sys2Proof.Machine.execBitReset addr bit s
  | .swap => Sys2Proof.Machine.execSwap s
  | .incPage => Sys2Proof.Machine.execIncPage s
  | .incFull => Sys2Proof.Machine.execIncFull s
  | .setPointer addr => Sys2Proof.Machine.execSetPointer addr s
  | .add4 x y => Sys2Proof.Machine.execAdd4 x y s
  | .adc4 x y => Sys2Proof.Machine.execAdc4 x y s
  | .com4 x => Sys2Proof.Machine.execCom4 x s
  | .sub4 x y => Sys2Proof.Machine.execSub4 x y s
  | .inc8 addr => Sys2Proof.Machine.execInc8 addr s
  | .portRead p => Sys2Proof.Machine.execPortRead p s
  | .portWrite p v => Sys2Proof.Machine.execPortWrite p v s
  | .writeBit v => Sys2Proof.Machine.execWriteBit v s
  | .readBit => Sys2Proof.Machine.execReadBit s
  | .readNibble => Sys2Proof.Machine.execReadNibble s
  | .writeNibble n => Sys2Proof.Machine.execWriteNibble n s
  | .readBuf base n => Sys2Proof.Machine.execReadBuf base n s
  | .writeBuf base n => Sys2Proof.Machine.execWriteBuf base n s
  | .pifStartup => Sys2Proof.Machine.execPifStartup s
  | .pifAwaitLockout => Sys2Proof.Machine.execPifAwaitLockout s
  | .pifAwaitChecksum => Sys2Proof.Machine.execPifAwaitChecksum s
  | .pifAwaitAck => Sys2Proof.Machine.execPifAwaitAck s
  | .pifChecksumExchange => Sys2Proof.Machine.execPifChecksumExchange s
  | .pifChecksumCompare => Sys2Proof.Machine.execPifChecksumCompare s
  | .pifBootTimerGate => Sys2Proof.Machine.execPifBootTimerGate s
  | .pifEnterRunning => Sys2Proof.Machine.execPifEnterRunning s
  | .pifRunningLoop => Sys2Proof.Machine.execPifRunningLoop s
  | .pifCompareExchange => Sys2Proof.Machine.execPifCompareExchange s
  | .pifChallengeExchange => Sys2Proof.Machine.execPifChallengeExchange s
  | .pifResetting => Sys2Proof.Machine.execPifResetting s
  | .pifJoybusParse => Sys2Proof.Machine.execPifJoybusParse s
  | .pifJoybusTransfer => Sys2Proof.Machine.execPifJoybusTransfer s
  | .jbChannelReset => Sys2Proof.Machine.execJbChannelReset s
  | .jbChannelExchange ch => Sys2Proof.Machine.execJbChannelExchange ch s
  | .jbWaitReady => Sys2Proof.Machine.execJbWaitReady s
  | .jbError rq => Sys2Proof.Machine.execJbError rq s
  | .decodeRound w => Sys2Proof.Machine.execDecodeRound w s
  | .encodeRound w => Sys2Proof.Machine.execEncodeRound w s
  | .compareRound w => Sys2Proof.Machine.execCompareRound w s
  | .challengeTransform buf => Sys2Proof.Machine.execChallengeTransform buf s
  | .complementAll buf => Sys2Proof.Machine.execComplementAll buf s
  | .resetCounter => Sys2Proof.Machine.execResetCounter s
  | .cicMain => Sys2Proof.Machine.execCicMain s
  | .cicCompare => Sys2Proof.Machine.execCicCompare s
  | .cicChallenge => Sys2Proof.Machine.execCicChallenge s
  | .cicReset => Sys2Proof.Machine.execCicReset s
  | .poll => Sys2Proof.Machine.execPoll s
  | .intEntry x => Sys2Proof.Machine.execIntEntry x s
  | .intReturn => Sys2Proof.Machine.execIntReturn s
  | .fatal cause => Sys2Proof.Machine.execFatal cause s
  | .halt => Sys2Proof.Machine.execHalt s
  | .ackTransfer => Sys2Proof.Machine.execAckTransfer s
  | .pifIntA => Sys2Proof.Machine.execPifIntA s
  | .pifIntB => Sys2Proof.Machine.execPifIntB s
  | .timerInit t v => Sys2Proof.Machine.execTimerInit t v s
  | .timerTick t => Sys2Proof.Machine.execTimerTick t s

end Sys2Proof.Machine
end

