-- ==== Sys2Proof/Machine/Positions.lean ====
section
/-! DEFINITION. How an engine goes on: which task is next, selected by control state where nothing is left to do
(spec 10 R24, R25, R27), and what each inner position of an operation does when it is reached. -/

namespace Sys2Proof.Machine

/-- The operation that runs in a control state of the PIF (10 R24). `S_PERIPHERAL_IDLE` and `S_FATAL` run none. -/
def pifEntry : PifPc → Option Task
  | .coldBoot => some (.op .pifStartup)
  | .awaitLockout => some (.op .pifAwaitLockout)
  | .awaitChecksum => some (.op .pifAwaitChecksum)
  | .awaitAck => some (.op .pifAwaitAck)
  | .bootTimerGate => some (.op .pifBootTimerGate)
  | .running => some (.op .pifRunningLoop)
  | .challengePending => some (.op .pifChallengeExchange)
  | .peripheralIdle => none
  | .resetting => some (.op .pifResetting)
  | .fatal => none

/-- The operation that runs in a control state of the CIC (10 R25). `C_DEAD` runs none. 10 R25 names the states and not
what runs where nothing is left to do: that `C_COMPARE`, `C_CHALLENGE` and `C_RESET`, in which a run always has something
left, then begin their own operation again is a choice (DESIGN CHOICE, log 36). -/
def cicEntry : CicPc → Option Task
  | .boot => some (.op .cicMain)
  | .idle => some (.pos .cicIdle)
  | .compare => some (.op .cicCompare)
  | .challenge => some (.op .cicChallenge)
  | .reset => some (.op .cicReset)
  | .dead => none

/-- The next task of the PIF and the state it runs in; none where the PIF has no step. In `S_FATAL` only the loop of
the fatal action runs (60 R370); a halted PIF has no step until `IFA` wakes it (60 R380). -/
def fetchPif (s : State) : Option (Task × State) :=
  if s.pifPc = .fatal then some (.pos .fatalStrobe, s)
  else if s.halted = true then (if s.ifa = true then some (.pos .wake, s) else none)
  else
    match s.pif.cont with
    | t :: ts => some (t, setCont .pif ts s)
    | [] => (pifEntry s.pifPc).map fun t => (t, s)

/-- The next task of the CIC and the state it runs in; none where the CIC has no step (45 R350). -/
def fetchCic (s : State) : Option (Task × State) :=
  if s.cicPc = .dead then none
  else
    match s.cic.cont with
    | t :: ts => some (t, setCont .cic ts s)
    | [] => (cicEntry s.cicPc).map fun t => (t, s)

/-- The next task of an engine. -/
def fetchTask (w : Who) (s : State) : Option (Task × State) :=
  match w with
  | .pif => fetchPif s
  | .cic => fetchCic s

/-- The phase that a control state is in (10 R26). -/
def phaseOfPc : PifPc → Option Phase
  | .coldBoot => some .coldBoot
  | .awaitLockout => some .coldBoot
  | .awaitChecksum => some .coldBoot
  | .awaitAck => some .coldBoot
  | .bootTimerGate => some .coldBoot
  | .running => some .continuousCompare
  | .challengePending => some .challenge
  | .peripheralIdle => none
  | .resetting => some .resetting
  | .fatal => none

/-- The top-level phase: a function of `pc`; `S_PERIPHERAL_IDLE` has the phase of the state it was entered from
(10 R26). -/
def phaseOf (s : State) : Option Phase :=
  if s.pifPc = .peripheralIdle then phaseOfPc s.haltPc else phaseOfPc s.pifPc

/-- What an inner position does when it is reached. -/
def resume (p : Pos) (s : State) : State :=
  match p with
  | .ackWait => ackTurn s.active s
  | .nibbleBits left acc => takeNibbleBit s.active left acc s
  | .storeNibble a => writeCell s.active a (retNibble s.active s) s
  | .settle => settle s.active false s
  | .helloFirst => startupSecond s
  | .helloSecond t => startupJudge t s
  | .seedReceived => startupFinish s
  | .awaitTest h => awaitTest h s
  | .checksumReceived => checksumDecoded s
  | .checksumPassed => checksumPassed s
  | .gateTest => gateTest s
  | .runTest => runTest s
  | .challengeReturned => challengeReturned s
  | .compareKeyed => compareKeyed s
  | .compareCheck i => compareCheck i s
  | .challengeSend => challengeSend s
  | .challengeVerify sent => challengeVerify sent s
  | .resetSelected => resetSelected s
  | .resetWait => resetWait s
  | .resetReady => resetReady s
  | .channelServed ch => channelServed ch s
  | .channelResetEnd => channelResetEnd s
  | .txByte rq d n rxc => txByte rq d n rxc s
  | .rxByte rq d n => rxByte rq d n s
  | .wake => endHalt s
  | .writeServed => writeServed s
  | .serviceEnd _ => serviceEnd s
  | .fatalStrobe => fatalStrobe s
  | .helloSent => cicSendSeed s
  | .seedSent => cicSendChecksum s
  | .cicKey => cicKeyed s
  | .cicIdle => cicIdle s
  | .selectFirst => cicSelectFirst s
  | .selectSecond s1 => cicSelectSecond s1 s
  | .compareGot i ok => cicCompareGot i ok s
  | .comparePut i ok => cicComparePut i ok s
  | .challengeSent => cicChallengeSent s
  | .resetCount left held => resetCount left held s
  | .resetCounted => cicResetCounted s

end Sys2Proof.Machine
end

