-- ==== Sys2Proof/Machine/Engine.lean ====
section
/-! DEFINITION. One step of an engine, and the actions of the host (spec 60 R400 to R406). -/

namespace Sys2Proof.Machine

/-- Run a task. -/
def runTask (t : Task) (s : State) : Result :=
  match t with
  | .op i => exec i s
  | .pos p => .next (resume p s)

/-- One step of an engine; where it has none, nothing happens but time (60 R380, 41 R180, 45 R350; log 5). -/
def engineStep (w : Who) (s : State) : Result :=
  let s := { s with active := w }
  match fetchTask w s with
  | some (t, s') => runTask t s'
  | none => .next s

/-- Where the host chooses nothing, the engines alternate (60 R406; log 5). -/
def alternate (r : Result) : Result :=
  match r with
  | .next s => .next { s with active := s.active.other }
  | .fault f => .fault f
  | .refused q => .refused q

/-- The halt window is open: the PIF is halted and its completion has not come (60 R402; log 17). -/
def haltWindow (s : State) : Bool := s.halted && !s.ifa

/-- A transfer is a write (30 R110). -/
def XKindWrites : XKind → Bool
  | .read4 => false
  | .write4 => true
  | .read64 => false
  | .write64 => true

/-- The cell is in the shared region (20 R78). -/
def inShared (a : Addr) : Bool := decide (0x80 ≤ a.toNat)

/-- `host.power_on`: both engines as after power-on (10 R49); what is the host's or the model's own stays
(60 R400, R406; log 18). -/
def powerOn (s : State) : State :=
  { State.reset with
    pif := { Engine.reset with log := s.pif.log }
    cic := { Engine.reset with log := s.cic.log }
    script := s.script
    supply := s.supply
    seen := s.seen
    active := s.active
    opField := s.opField
    draws := s.draws
    cfg := s.cfg }

/-- An action of the host (60 R400). A transfer is open from its request to its completion (60 R404 (a)); a read whose
challenge a reset has dropped gets none and stays open until power-on, where 43 R263 leaves it to the host (DESIGN
CHOICE, log 32). The 8 or 128 cells of a write's payload (60 R403) are no duty of 60 R404, and a window is held to no
size: a write may store any number of cells of the shared region, or none, and complete (DESIGN CHOICE, log 41). -/
def hostAction (a : HostAct) (s : State) : Result :=
  match a with
  | .powerOn => .next (powerOn s)
  | .supply p v => .next { s with supply := s.supply ++ [(p, v)] }
  | .request k =>
    if s.halted = true ∨ s.xfer ≠ none then .refused .requestNotAllowed
    else .next { s with ifa := true, xfer := some k, kindDue := some k }
  | .sharedWrite a v =>
    if haltWindow s && inShared a && s.xfer.any XKindWrites then .next (writeCell .pif a v s)
    else .refused .sharedAccessNotAllowed
  | .sharedRead a =>
    if haltWindow s && inShared a then .next { s with seen := (a, readCell .pif a s) :: s.seen }
    else .refused .sharedAccessNotAllowed
  | .complete =>
    if haltWindow s then .next { s with ifa := true, xfer := none }
    else .refused .completeNotAllowed
  | .resetButton => .next { s with ifb := true }
  | .schedule w => engineStep w s

/-- A run of engine steps in a given order, stopping at the first stop: the host's schedule (60 R406). -/
def runSchedule : List Who → State → Result
  | [], s => .next s
  | w :: ws, s =>
    match engineStep w s with
    | .next s' => runSchedule ws s'
    | .fault f => .fault f
    | .refused q => .refused q

/-- What stays in the notional field when its operation is taken: of a command byte the flags still to come, else
nothing (30 R105; log 34). -/
def fieldRest (f : Format) (bytes : List Byte) : Option (Format × List Byte) :=
  match f, bytes with
  | .cmd, b :: _ => (decodeCmd b).bind fun x => if x.2 = 0 then none else some (.cmd, [x.2])
  | _, _ => none

/-- The field holds a command byte with no flag set, which nothing tests (30 R105). -/
def noFlagSet (f : Format) (bytes : List Byte) : Bool := f == .cmd && bytes.head? == some 0

/-- The operation in the notional field: it is taken from the field and runs; a command byte runs one set flag a step, and
one with no flag set is taken without effect; bytes that decode to no operation are refused (30 R101, R105; log 3, log 34).
It runs in every control state, also where the machine itself would not come to it and where its engine has no step: in
`S_FATAL`, in `C_DEAD`, while halted (DESIGN CHOICE, log 42). -/
def fieldStep (f : Format) (bytes : List Byte) (s : State) : Result :=
  match decode f bytes with
  | some (i, _) => exec i { s with opField := fieldRest f bytes }
  | none => if noFlagSet f bytes then .next { s with opField := none } else .refused .undecodable

end Sys2Proof.Machine
end

