-- ==== Sys2Proof/Machine/Step.lean ====
section
/-! DEFINITION. One step of the machine: an operation presented in the notional field first, then the host's next
action, then, where the script is empty, a step of the engine whose turn it is (spec 60 R400, R406; log 3, log 5). -/

namespace Sys2Proof.Machine

/-- One step. -/
def step (s : State) : Host.Outcome State Fault Refusal :=
  match s.opField with
  | some (f, bytes) => fieldStep f bytes s
  | none =>
    match s.script with
    | a :: rest => hostAction a { s with script := rest }
    | [] => alternate (engineStep s.active s)

/-- `s` with the word placed in the notional operation field, so that the very next step runs it (log 3). -/
def State.withFetchWord (s : State) (nbits w : Nat) : State :=
  { s with opField := some (wordFormat (wordBytes nbits w), wordBytes nbits w) }

end Sys2Proof.Machine
end

