-- ==== Sys2Proof/Safety.lean ====
section
/-! DEFINITION. The terms in which claims are made: which parts of the state an operation may change, what an engine
has still to do, the conditions every step keeps, and the end of a run (spec 10 R20, 00 R4, 70 R452). -/

namespace Sys2Proof.Machine

/-! ## What changes -/

/-- The parts of the state. A part of one engine carries the engine's name; a latch also its port. -/
inductive Field where
  | mem (w : Who)
  | regA (w : Who)
  | regX (w : Who)
  | ptrB (w : Who)
  | ptrSB (w : Who)
  | carry (w : Who)
  | latch (w : Who) (p : Port)
  | log (w : Who)
  | position (w : Who)
  | ret (w : Who)
  | pifPc
  | cicPc
  | ie
  | ifa
  | ifb
  | isr
  | halted
  | haltPc
  | fcause
  | parse
  | xfer
  | kindDue
  | supply
  | seen
  | script
  | active
  | opField
  | draws
  | cfg
  deriving DecidableEq, Repr

/-- Two states agree in a part; a memory agrees when every cell reads the same. -/
def Field.same (f : Field) (s t : State) : Prop :=
  match f with
  | .mem w => ∀ a : Addr, readCell w a t = readCell w a s
  | .regA w => (t.eng w).A = (s.eng w).A
  | .regX w => (t.eng w).X = (s.eng w).X
  | .ptrB w => (t.eng w).B = (s.eng w).B
  | .ptrSB w => (t.eng w).SB = (s.eng w).SB
  | .carry w => (t.eng w).C = (s.eng w).C
  | .latch w p => latchOf w p t = latchOf w p s
  | .log w => (t.eng w).log = (s.eng w).log
  | .position w => (t.eng w).cont = (s.eng w).cont
  | .ret w => (t.eng w).ret = (s.eng w).ret
  | .pifPc => t.pifPc = s.pifPc
  | .cicPc => t.cicPc = s.cicPc
  | .ie => t.ie = s.ie
  | .ifa => t.ifa = s.ifa
  | .ifb => t.ifb = s.ifb
  | .isr => t.isr = s.isr
  | .halted => t.halted = s.halted
  | .haltPc => t.haltPc = s.haltPc
  | .fcause => t.fcause = s.fcause
  | .parse => t.parse = s.parse
  | .xfer => t.xfer = s.xfer
  | .kindDue => t.kindDue = s.kindDue
  | .supply => t.supply = s.supply
  | .seen => t.seen = s.seen
  | .script => t.script = s.script
  | .active => t.active = s.active
  | .opField => t.opField = s.opField
  | .draws => t.draws = s.draws
  | .cfg => t.cfg = s.cfg

/-- Everything but the listed parts is the same in both states: every register, flag, latch, log and cell of both
engines, the interrupt state, and the model's own fields. -/
def Unchanged (changed : List Field) (s t : State) : Prop := ∀ f : Field, f ∉ changed → f.same s t

/-- Every cell of an engine's memory outside the listed addresses reads as before. -/
def CellsUnchangedOutside (w : Who) (cells : List Addr) (s t : State) : Prop :=
  ∀ a : Addr, a ∉ cells → readCell w a t = readCell w a s

/-- The cells of a buffer of `n` cells at `base`. -/
def cellsFrom (base : Addr) (n : Nat) : List Addr := (List.range n).map (cellAt base)

/-- What a composite operation leaves with any value (10 R51): the registers and pointers of its engine; the draws
counter says how many free values were used. -/
def scratchRegisters (w : Who) : List Field := [.regA w, .regX w, .ptrB w, .ptrSB w, .draws]

/-- What reading a port other than a paired `P_CIC` uses up: a value laid ready, the kind bits due, a free value. -/
def portSupply : List Field := [.supply, .kindDue, .draws]

/-- All ten ports (20 R86). -/
def allPorts : List Port := [.cic, .romLock, .jbCtrl, .jbStatus, .jbError, .jbData, .jbChSel, .reset, .entropy, .inten]

/-- The parts that are one engine's instance of the engine state (00 R4, 10 R20), with its log and its result. -/
def engineParts (w : Who) : List Field :=
  [.mem w, .regA w, .regX w, .ptrB w, .ptrSB w, .carry w, .log w, .position w, .ret w] ++ allPorts.map (Field.latch w)

/-- What a bit exchange can change of an engine: its link latch, log and position, and the bit read (41 R178, R181). -/
def linkParts (w : Who) : List Field := [.latch w .cic, .log w, .position w, .carry w, .ret w]

/-- The events `es`, in the order they happened, are what was added to an engine's log. -/
def Logged (w : Who) (es : List Event) (s t : State) : Prop := (t.eng w).log = es.reverse ++ (s.eng w).log

/-- The tasks `ts` were put before what the engine had still to do. -/
def Continues (w : Who) (ts : List Task) (s t : State) : Prop := (t.eng w).cont = ts ++ (s.eng w).cont

/-- The bit a cell holds, as the operations test it. -/
def cellBit (w : Who) (a : Addr) (i : Nat) (s : State) : Bool := bitOf (readCell w a s) i

/-- The value of the 16-bit chain of a timer, `P1:P0` (10 R42). -/
def timerValue (t : Timer) (s : State) : Nat :=
  256 * (readByte .pif (timerBase t + 2) s).toNat + (readByte .pif (timerBase t) s).toNat

/-- `raise Fatal(c)` has just happened (60 R370): interrupts off, the cause recorded, the operation abandoned, and
nothing else changed but the registers, which the abandoned operation leaves with any value (10 R31, R51; log 31). -/
def FatalRaised (c : FatalCause) (s t : State) : Prop :=
  t.pifPc = .fatal ∧ t.fcause = some c ∧ t.ie = false ∧ t.pifLatch.inten = 0 ∧ t.pif.cont = [] ∧
  Logged .pif [.write .inten 0] s t ∧
  Unchanged (.latch .pif .inten :: .log .pif :: .position .pif :: .ie :: .fcause :: .pifPc :: .carry .pif ::
    scratchRegisters .pif) s t

/-- Interrupt `x` has just been entered (60 R366): its latch and `IE` cleared, source, `pc` and position recorded, the
pointers exchanged, its service next, and nothing else changed. -/
def InterruptEntered (x : IntSrc) (s t : State) : Prop :=
  t.ifa = (s.ifa && x != .a) ∧ t.ifb = (s.ifb && x != .b) ∧ t.ie = false ∧
  t.isr = some ⟨x, s.pifPc, s.pif.cont⟩ ∧ t.pif.B = s.pif.SB ∧ t.pif.SB = s.pif.B ∧
  t.pif.cont = [.op (match x with | .a => .pifIntA | .b => .pifIntB)] ∧
  Unchanged [.ptrB .pif, .ptrSB .pif, .position .pif, .ie, .ifa, .ifb, .isr] s t

/-- Phase (a) has found its bit and done its part (42 R210): ROM lockout on, all channels skipped, phase (b) next, and
nothing else changed. -/
def LockoutDone (s t : State) : Prop :=
  t.pifLatch.romLock = 1 ∧ Logged .pif [.write .romLock 1] s t ∧
  (∀ ch < 5, readCell .pif (Config.jbStat ch) t = 1) ∧
  CellsUnchangedOutside .pif ((List.range 5).map Config.jbStat) s t ∧ t.pifPc = .awaitChecksum ∧
  Unchanged [.mem .pif, .latch .pif .romLock, .log .pif, .pifPc] s t

/-- Phase (b) has found its bit and done its part (42 R212, R213): the checksum copied out of the shared region, `ACK` set,
phase (c) next, and nothing else changed. -/
def ChecksumCopied (s t : State) : Prop :=
  (∀ i < 12, readCell .pif (cellAt Config.cksCpu i) t = readCell .pif (cellAt Config.shCks i) s) ∧
  (∀ i < 4, cellBit .pif Config.cmdStatus i t = if i = 3 then true else cellBit .pif Config.cmdStatus i s) ∧
  CellsUnchangedOutside .pif (Config.cmdStatus :: cellsFrom Config.cksCpu 12) s t ∧ t.pifPc = .awaitAck ∧
  Unchanged [.mem .pif, .pifPc] s t

/-- Phase (c) has found its bit (42 R214, R217): on a warm boot the gate is next, on a cold boot exchange and compare. -/
def ChecksumPhaseTaken (s t : State) : Prop :=
  if cellBit .pif Config.stMain 2 s = true then t.pifPc = .bootTimerGate ∧ Unchanged [.pifPc] s t
  else Continues .pif [.op .pifChecksumExchange, .op .pifChecksumCompare, .pos .checksumPassed] s t ∧
    Unchanged [.position .pif] s t

/-- A 64-byte read that asks for a challenge has been served (60 R383): with `RUNNING` set `CHALPEND` is set and no more,
else the transfer and its acknowledgment follow. -/
def ChallengeServed (s t : State) : Prop :=
  if cellBit .pif Config.stMain 1 s = true then
    (∀ i < 4, cellBit .pif Config.stMain i t = if i = 0 then true else cellBit .pif Config.stMain i s) ∧
    CellsUnchangedOutside .pif [Config.stMain] s t ∧ Unchanged [.mem .pif] s t
  else Continues .pif [.op .pifJoybusTransfer, .op .ackTransfer] s t ∧ Unchanged [.position .pif] s t

/-- Both engines can take a step: the PIF is neither fatal nor halted, the CIC is not dead. -/
def BothCanStep (s : State) : Prop := s.pifPc ≠ .fatal ∧ s.halted = false ∧ s.cicPc ≠ .dead

/-- The events of a writer that sends the bits `bs`, each acknowledged at the first look (41 R177). -/
def writerEvents (bs : List Bool) : List Event :=
  bs.flatMap fun b => [.write .cic (linkOut true b), .read .cic (linkOut true false), .write .cic 0]

/-- The events of a reader that receives the bits `bs` (41 R181). -/
def readerEvents (bs : List Bool) : List Event :=
  bs.flatMap fun b => [.write .cic (linkOut true false), .read .cic (linkOut true b), .write .cic 0]

/-- The bits of a nibble in the order of the link, bit 3 first (41 R184). -/
def linkBits (n : Nibble) : List Bool := [bitOf n 3, bitOf n 2, bitOf n 1, bitOf n 0]

/-! ## Which engine may do what (00 R4, 10 R32 to R36, 60 R358) -/

/-- The engine an operation belongs to; none where both engines have it (40, 41, and the rounds of 45). -/
def opOwner : Instr → Option Who
  | .cmdLockout => some .pif
  | .cmdGetChecksum => some .pif
  | .cmdCheckChecksum => some .pif
  | .cmdAck => some .pif
  | .cmdJoybus => some .pif
  | .cmdChallenge => some .pif
  | .cmdBit2 => some .pif
  | .cmdTerminate => some .pif
  | .xkindRead4 => some .pif
  | .xkindWrite4 => some .pif
  | .xkindRead64 => some .pif
  | .xkindWrite64 => some .pif
  | .hello00 => some .pif
  | .hello01 => some .pif
  | .hello10 => some .pif
  | .hello11 => some .pif
  | .ciccmdCompare => some .cic
  | .ciccmdChallenge => some .cic
  | .ciccmdReset => some .cic
  | .ciccmdReserved => some .cic
  | .jbSkip => some .pif
  | .jbReset => some .pif
  | .jbStop => some .pif
  | .jbNop => some .pif
  | .jbXfer _ _ => some .pif
  | .jbRx _ => some .pif
  | .frame _ _ _ _ => some .pif
  | .jbcIdle => some .pif
  | .jbcTx => some .pif
  | .jbcRx => some .pif
  | .jbcReset => some .pif
  | .jbcXferAck => some .pif
  | .read _ => none
  | .write _ _ => none
  | .bitTest _ _ => none
  | .bitSet _ _ => none
  | .bitReset _ _ => none
  | .swap => none
  | .incPage => none
  | .incFull => none
  | .setPointer _ => none
  | .add4 _ _ => none
  | .adc4 _ _ => none
  | .com4 _ => none
  | .sub4 _ _ => none
  | .inc8 _ => none
  | .portRead _ => none
  | .portWrite _ _ => none
  | .writeBit _ => none
  | .readBit => none
  | .readNibble => none
  | .writeNibble _ => none
  | .readBuf _ _ => none
  | .writeBuf _ _ => none
  | .pifStartup => some .pif
  | .pifAwaitLockout => some .pif
  | .pifAwaitChecksum => some .pif
  | .pifAwaitAck => some .pif
  | .pifChecksumExchange => some .pif
  | .pifChecksumCompare => some .pif
  | .pifBootTimerGate => some .pif
  | .pifEnterRunning => some .pif
  | .pifRunningLoop => some .pif
  | .pifCompareExchange => some .pif
  | .pifChallengeExchange => some .pif
  | .pifResetting => some .pif
  | .pifJoybusParse => some .pif
  | .pifJoybusTransfer => some .pif
  | .jbChannelReset => some .pif
  | .jbChannelExchange _ => some .pif
  | .jbWaitReady => some .pif
  | .jbError _ => some .pif
  | .decodeRound _ => none
  | .encodeRound _ => none
  | .compareRound _ => none
  | .challengeTransform _ => none
  | .complementAll _ => none
  | .resetCounter => some .cic
  | .cicMain => some .cic
  | .cicCompare => some .cic
  | .cicChallenge => some .cic
  | .cicReset => some .cic
  | .poll => some .pif
  | .intEntry _ => some .pif
  | .intReturn => some .pif
  | .fatal _ => some .pif
  | .halt => some .pif
  | .ackTransfer => some .pif
  | .pifIntA => some .pif
  | .pifIntB => some .pif
  | .timerInit _ _ => some .pif
  | .timerTick _ => some .pif

/-- The engine an inner position belongs to; none where both engines reach it. -/
def Pos.owner : Pos → Option Who
  | .ackWait => none
  | .nibbleBits _ _ => none
  | .storeNibble _ => none
  | .settle => none
  | .helloFirst => some .pif
  | .helloSecond _ => some .pif
  | .seedReceived => some .pif
  | .awaitTest _ => some .pif
  | .checksumReceived => some .pif
  | .checksumPassed => some .pif
  | .gateTest => some .pif
  | .runTest => some .pif
  | .challengeReturned => some .pif
  | .compareKeyed => some .pif
  | .compareCheck _ => some .pif
  | .challengeSend => some .pif
  | .challengeVerify _ => some .pif
  | .resetSelected => some .pif
  | .resetWait => some .pif
  | .resetReady => some .pif
  | .channelServed _ => some .pif
  | .channelResetEnd => some .pif
  | .txByte _ _ _ _ => some .pif
  | .rxByte _ _ _ => some .pif
  | .wake => some .pif
  | .writeServed => some .pif
  | .serviceEnd _ => some .pif
  | .fatalStrobe => some .pif
  | .helloSent => some .cic
  | .seedSent => some .cic
  | .cicKey => some .cic
  | .cicIdle => some .cic
  | .selectFirst => some .cic
  | .selectSecond _ => some .cic
  | .compareGot _ _ => some .cic
  | .comparePut _ _ => some .cic
  | .challengeSent => some .cic
  | .resetCount _ _ => some .cic
  | .resetCounted => some .cic

/-- The engine a task belongs to. -/
def Task.owner : Task → Option Who
  | .op i => opOwner i
  | .pos p => p.owner

/-- A task that an engine may have still to do. -/
def Task.allowed (w : Who) (t : Task) : Bool :=
  match t.owner with
  | none => true
  | some v => v == w

/-- Every task an engine has still to do, and every task an interrupt has put aside, is one of its own. -/
def TasksOwned (s : State) : Prop :=
  (∀ t ∈ s.pif.cont, t.allowed .pif = true) ∧ (∀ t ∈ s.cic.cont, t.allowed .cic = true) ∧
  ∀ r : IsrRecord, s.isr = some r → ∀ t ∈ r.position, t.allowed .pif = true

/-! ## Conditions every step keeps -/

/-- Both memories are in their canonical form (log 12). -/
def MemoriesCanonical (s : State) : Prop := Memory.wf s.pif.mem = true ∧ Memory.wf s.cic.mem = true

/-- A control state `S_FATAL`, present or saved, has a recorded cause (10 R46, 60 R370). -/
def FatalHasCause (s : State) : Prop :=
  (s.pifPc = .fatal ∨ s.haltPc = .fatal ∨ ∃ r, s.isr = some r ∧ r.pc = .fatal) → s.fcause ≠ none

/-- The parse position is at or after the start of the shared region, on the first cell of a byte (44 R274). -/
def ParseAligned (s : State) : Prop := 0x80 ≤ s.parse.p ∧ s.parse.p % 2 = 0

/-- The conditions together. The reserved bits of `ST_MAIN` and `CST` (10 R38, R45) are not among them: a primitive may
write any cell (40 R141). -/
def StepInvariant (s : State) : Prop :=
  MemoriesCanonical s ∧ TasksOwned s ∧ FatalHasCause s ∧ ParseAligned s

/-! ## The judgement of a run (70 R452) -/

/-- "Reaches Running": the PIF is in its steady state. -/
def Running (s : State) : Prop := s.pifPc = .running

/-- "Reaches the terminal fatal state". -/
def FatalState (s : State) : Prop := s.pifPc = .fatal

/-- The PIF is on its main line: no interrupt is in service and the PIF is not halted. -/
def MainLine (s : State) : Prop := s.isr = none ∧ s.halted = false

end Sys2Proof.Machine
end

