-- ==== Sys2Proof/Certificates/Slice0/Obligations.lean ====
section
/-! DEFINITION. The statements for the provers. "`exec i s` is `.next t`" is the completion of `i`; `Unchanged l` is its
frame: every register, flag, latch, log, cell and field outside `l` is as it was, of both engines. A statement over every
state holds also where the machine itself would not come to the operation: that one presented from outside runs in every
control state is the model's choice (DESIGN CHOICE, log 42). -/

open Sys2Proof Sys2Proof.Machine

/-! ## Encoding, decoding, the step -/

/-- 30 R100 to R121: decoding an encoded well-formed operation gives it back, whatever bytes follow. The operand bytes of
an `OP` row are the model's own (log 1). -/
def Obligations.DecodeInvertsEncode : Prop :=
  ∀ (i : Instr) (rest : List Byte), i.wellFormed = true →
    decode (encode i).1 ((encode i).2 ++ rest) = some (i, rest)

/-- A step runs the decoded operation: one in the notional field (30 R101; log 3), else the host's next action (60 R400),
else the next task of the engine whose turn it is, and where it has none only its turn passes (60 R406; log 5); bytes that
are no operation are refused. Of a command byte each set flag is run, one a step (30 R105; log 34). Where nothing is left
to do, the operation is the one the control state selects (10 R24, R25; for the CIC's operations log 36). -/
def Obligations.StepRunsTheDecodedOperation : Prop :=
  (∀ (s : State) (f : Format) (bytes r : List Byte) (i : Instr),
    s.opField = some (f, bytes) → decode f bytes = some (i, r) →
    step s = exec i { s with opField := fieldRest f bytes }) ∧
  (∀ (f : Format) (bytes : List Byte), f ≠ .cmd → fieldRest f bytes = none) ∧
  (∀ (b : Byte) (bs : List Byte) (i : Instr) (is : List Instr), cmdFlags b = i :: is →
    ∃ r : Byte, cmdFlags r = is ∧ decode .cmd (b :: bs) = some (i, if is = [] then bs else r :: bs) ∧
      fieldRest .cmd (b :: bs) = if is = [] then none else some (.cmd, [r])) ∧
  (∀ (s : State) (bs : List Byte), s.opField = some (.cmd, 0 :: bs) → step s = .next { s with opField := none }) ∧
  (∀ (s : State) (nbits w : Nat) (i : Instr),
    decodeTableWord nbits w = some i → step (s.withFetchWord nbits w) = exec i { s with opField := none }) ∧
  (∀ (s : State) (f : Format) (bytes : List Byte),
    s.opField = some (f, bytes) → decode f bytes = none → (f = .cmd → bytes.head? ≠ some 0) →
    step s = .refused .undecodable) ∧
  (∀ (s : State) (a : HostAct) (rest : List HostAct),
    s.opField = none → s.script = a :: rest → step s = hostAction a { s with script := rest }) ∧
  (∀ (s s' : State) (t : Task),
    s.opField = none → s.script = [] → fetchTask s.active s = some (t, s') → step s = alternate (runTask t s')) ∧
  (∀ (s : State) (i : Instr), runTask (.op i) s = exec i s) ∧
  (∀ s : State, s.opField = none → s.script = [] → fetchTask s.active s = none →
    step s = .next { s with active := s.active.other }) ∧
  (∀ (s : State) (pc : PifPc) (i : Instr), s.pif.cont = [] → s.halted = false → s.pifPc = pc →
    (pc, i) ∈ [(PifPc.coldBoot, Instr.pifStartup), (.awaitLockout, .pifAwaitLockout),
      (.awaitChecksum, .pifAwaitChecksum), (.awaitAck, .pifAwaitAck), (.bootTimerGate, .pifBootTimerGate),
      (.running, .pifRunningLoop), (.challengePending, .pifChallengeExchange), (.resetting, .pifResetting)] →
    engineStep .pif s = exec i { s with active := .pif }) ∧
  (∀ (s : State) (pc : CicPc) (i : Instr), s.cic.cont = [] → s.cicPc = pc →
    (pc, i) ∈ [(CicPc.boot, Instr.cicMain), (.compare, .cicCompare), (.challenge, .cicChallenge),
      (.reset, .cicReset)] →
    engineStep .cic s = exec i { s with active := .cic })

/-- Sixteen words written out from 30 R104, R110, R113, R114, R117, R118, R116, R121 and the `op` numbers of 30 R101;
the operand byte after the number 0x3B is the model's own (DESIGN CHOICE, log 1). A command byte has the flags whose bits
are set, whatever the other bits are (30 R101, R104, R105); the order in which they are taken is log 34. -/
def Obligations.WrittenWordsDecode : Prop :=
  (∀ (b : Byte) (k : Nat) (i : Instr), (k, i) ∈ [(7, Instr.cmdAck), (6, .cmdCheckChecksum), (5, .cmdGetChecksum),
    (4, .cmdLockout), (3, .cmdTerminate), (2, .cmdBit2), (1, .cmdChallenge), (0, .cmdJoybus)] →
    (i ∈ cmdFlags b ↔ bitOf b k = true)) ∧
  decode .cmd [0x30] = some (.cmdLockout, [0x20]) ∧ decode .cmd [0x14] = some (.cmdLockout, [0x04]) ∧
  decode .cmd [0x10] = some (.cmdLockout, []) ∧ decode .cmd [0x08] = some (.cmdTerminate, []) ∧
  decode .xkind [0x2] = some (.xkindRead64, []) ∧ decode .hello [0x1] = some (.hello01, []) ∧
  decode .ciccmd [0x2] = some (.ciccmdChallenge, []) ∧ decode .ciccmd [0x1] = some (.ciccmdReserved, []) ∧
  decode .jbtx [0xFD] = some (.jbReset, []) ∧ decode .jbtx [0x40, 0x80] = some (.jbXfer 0x40 0x80, []) ∧
  decode .jbrx [0x81] = some (.jbRx 0x81, []) ∧
  decode .frame [0x02, 0x01, 0xAB, 0xCD, 0x5E, 0xFE] = some (.frame 0x02 0x01 [0xAB, 0xCD] [0x5E], [0xFE]) ∧
  decode .portval [0x4] = some (.jbcXferAck, []) ∧ decode .op [0x05] = some (.swap, []) ∧
  decode .op [0x16] = some (.pifStartup, []) ∧ decode .op [0x3B, 0x00] = some (.timerTick .boot, []) ∧
  decode .op [0x3C] = none

/-! ## Reset -/

/-- 10 R49, the table of power-on values, whole; the latches are those of the ports an engine has. -/
def Obligations.PowerOnDefaults : Prop :=
  (∀ w : Who, (∀ a : Addr, readCell w a State.reset = 0) ∧ (State.reset.eng w).A = 0 ∧ (State.reset.eng w).X = 0 ∧
    (State.reset.eng w).B.toAddr = 0 ∧ (State.reset.eng w).SB.toAddr = 0 ∧ (State.reset.eng w).C = false ∧
    ∀ p : Port, hasPort w p = true → latchOf w p State.reset = some 0) ∧
  State.reset.ie = false ∧ State.reset.ifa = false ∧ State.reset.ifb = false ∧ State.reset.isr = none ∧
  State.reset.halted = false ∧ State.reset.fcause = none ∧ State.reset.pifPc = .coldBoot ∧
  State.reset.cicPc = .boot ∧
  cellBit .pif Config.stMain 2 State.reset = false

/-! ## Primitives (40): they act on the engine that takes the step -/

/-- 40 R140, R143, R151 to R154: a value is returned and nothing else changes, but that `adc4` writes its carry: sum and
carry are one number, `x + y + C`. Where the value is returned is log 7. -/
def Obligations.ValuePrimitives : Prop :=
  ∀ (s : State) (a : Addr) (b : BitVec 2) (x y : Nibble),
    (∃ t, exec (.read a) s = .next t ∧ (t.eng s.active).ret.toNat = (readCell s.active a s).toNat ∧
      Unchanged [.ret s.active] s t) ∧
    (∃ t, exec (.bitTest a b) s = .next t ∧
      (t.eng s.active).ret.toNat = (readCell s.active a s).toNat / 2 ^ b.toNat % 2 ∧
      Unchanged [.ret s.active] s t) ∧
    (∃ t, exec (.add4 x y) s = .next t ∧ (t.eng s.active).ret.toNat = (x.toNat + y.toNat) % 16 ∧
      Unchanged [.ret s.active] s t) ∧
    (∃ t, exec (.com4 x) s = .next t ∧ (t.eng s.active).ret.toNat = 15 - x.toNat ∧
      Unchanged [.ret s.active] s t) ∧
    (∃ t, exec (.sub4 x y) s = .next t ∧ ((t.eng s.active).ret.toNat : Int) = ((x.toNat : Int) - y.toNat) % 16 ∧
      Unchanged [.ret s.active] s t) ∧
    (∃ t, exec (.adc4 x y) s = .next t ∧
      16 * (t.eng s.active).C.toNat + (t.eng s.active).ret.toNat = x.toNat + y.toNat + (s.eng s.active).C.toNat ∧
      (t.eng s.active).ret.toNat < 16 ∧ Unchanged [.ret s.active, .carry s.active] s t)

/-- 40 R144, R145 (and R141 for `write`): one cell is stored, in a bit operation its other bits stay. -/
def Obligations.CellWritesStoreOneCell : Prop :=
  ∀ (s : State) (a : Addr) (b : BitVec 2) (v : Nibble),
    (∃ t, exec (.write a v) s = .next t ∧ readCell s.active a t = v ∧
      CellsUnchangedOutside s.active [a] s t ∧ Unchanged [.mem s.active] s t) ∧
    (∃ t, exec (.bitSet a b) s = .next t ∧
      (∀ i < 4, cellBit s.active a i t = if i = b.toNat then true else cellBit s.active a i s) ∧
      CellsUnchangedOutside s.active [a] s t ∧ Unchanged [.mem s.active] s t) ∧
    (∃ t, exec (.bitReset a b) s = .next t ∧
      (∀ i < 4, cellBit s.active a i t = if i = b.toNat then false else cellBit s.active a i s) ∧
      CellsUnchangedOutside s.active [a] s t ∧ Unchanged [.mem s.active] s t)

/-- 40 R146, R147, R148, R150: the pointers, and the two increments. -/
def Obligations.PointerOperations : Prop :=
  ∀ (s : State) (a : Addr),
    (∃ t u, exec .swap s = .next t ∧ (t.eng s.active).B = (s.eng s.active).SB ∧
      (t.eng s.active).SB = (s.eng s.active).B ∧ Unchanged [.ptrB s.active, .ptrSB s.active] s t ∧
      exec .swap t = .next u ∧ Unchanged [] s u) ∧
    (∃ t, exec .incPage s = .next t ∧ (t.eng s.active).B.hi = (s.eng s.active).B.hi ∧
      (t.eng s.active).B.lo.toNat = ((s.eng s.active).B.lo.toNat + 1) % 16 ∧ Unchanged [.ptrB s.active] s t) ∧
    (∃ t, exec .incFull s = .next t ∧
      (t.eng s.active).B.toAddr.toNat = ((s.eng s.active).B.toAddr.toNat + 1) % 256 ∧
      Unchanged [.ptrB s.active] s t) ∧
    (∃ t, exec (.setPointer a) s = .next t ∧ (t.eng s.active).B.toAddr = a ∧ Unchanged [.ptrB s.active] s t)

/-- 40 R155, 60 R390, R391: a nibble pair counts one modulo 256; a timer is set, counts one modulo 65536 and tells when
it overflows; one started at `v` overflows first at its (65536 - `v`)-th tick. -/
def Obligations.Counters : Prop :=
  (∀ (s : State) (a : Addr), ∃ t, exec (.inc8 a) s = .next t ∧
    (readByte s.active a t).toNat = ((readByte s.active a s).toNat + 1) % 256 ∧
    (t.eng s.active).ret = (if readByte s.active a s = 0xFF then 1 else 0) ∧
    CellsUnchangedOutside s.active [a, a + 1] s t ∧ Unchanged [.mem s.active, .ret s.active] s t) ∧
  (∀ (s : State) (T : Timer) (v : Word16), ∃ t, exec (.timerInit T v) s = .next t ∧ timerValue T t = v.toNat ∧
    CellsUnchangedOutside .pif (cellsFrom (timerBase T) 4) s t ∧ Unchanged [.mem .pif] s t) ∧
  (∀ (s : State) (T : Timer), ∃ t, exec (.timerTick T) s = .next t ∧
    timerValue T t = (timerValue T s + 1) % 65536 ∧
    t.pif.ret = (if timerValue T s = 65535 then 1 else 0) ∧
    CellsUnchangedOutside .pif (cellsFrom (timerBase T) 4) s t ∧ Unchanged [.mem .pif, .ret .pif] s t) ∧
  (∀ (s : State) (T : Timer) (n : Nat), timerValue T s + n < 65536 →
    timerValue T ((fun u => (tickTimer T u).2)^[n] s) = timerValue T s + n ∧
    ((tickTimer T ((fun u => (tickTimer T u).2)^[n] s)).1 = true ↔ timerValue T s + n = 65535))

/-! ## Ports and link (41) -/

/-- 41 R171: the latch takes the value and the write is an event. The CIC has no latch for a port it lacks (10 R34, R45,
45 R351): that such a write is an event and changes no latch of either engine is the model's choice, and so is it that
`P_ENTROPY` is a port of the PIF (DESIGN CHOICE, log 37). -/
def Obligations.PortWriteLatchesAndLogs : Prop :=
  ∀ (s : State) (p : Port) (v : Nibble), ∃ t, exec (.portWrite p v) s = .next t ∧
    latchOf s.active p t = (if hasPort s.active p then some v else none) ∧ Logged s.active [.write p v] s t ∧
    Unchanged [.latch s.active p, .log s.active] s t

/-- 41 R170, R176, 60 R400: whatever is supplied is returned and logged. A paired `P_CIC` gives the peer's latch; a fresh
request gives its kind in the low bits of the next value of `P_JB_STATUS` (log 26); else, and in the other bits, the value
the host laid ready first, which is used up. With nothing laid ready the value is free and the queue stays (log 6). That a
read by the CIC of a port it lacks is answered so too is the model's choice (DESIGN CHOICE, log 37). -/
def Obligations.PortReadSuppliesAndLogs : Prop :=
  ∀ (s : State) (p : Port), ∃ t, ∃ v : Nibble, exec (.portRead p) s = .next t ∧
    (t.eng s.active).ret = v.setWidth 8 ∧ Logged s.active [.read p v] s t ∧
    Unchanged (.ret s.active :: .log s.active :: portSupply) s t ∧
    (p = .cic → s.cfg.paired = true →
      v = (s.eng s.active.other).latch.cic ∧ Unchanged [.ret s.active, .log s.active] s t) ∧
    (∀ k, p = .jbStatus → s.kindDue = some k → decodeXkind v = k ∧ t.kindDue = none) ∧
    (∀ (before after : List (Port × Nibble)) (x : Nibble), (p = .cic → s.cfg.paired = false) →
      s.supply = before ++ (p, x) :: after → (∀ c ∈ before, c.1 ≠ p) →
      t.supply = before ++ after ∧ t.draws = s.draws ∧
      (if p = .jbStatus ∧ s.kindDue ≠ none then bitOf v 2 = bitOf x 2 ∧ bitOf v 3 = bitOf x 3
        else v = x ∧ t.kindDue = s.kindDue)) ∧
    ((∀ c ∈ s.supply, c.1 ≠ p) → t.supply = s.supply)

/-- 41 R177, R181: the link primitives in a single-engine model. `WriteBit` asserts data and clock and waits; a look that
finds the peer's clock releases, one that does not goes on. `ReadBit` probes, samples and releases. -/
def Obligations.LinkPrimitivesAlone : Prop :=
  (∀ (s : State) (v : Bool), ∃ t, exec (.writeBit v) s = .next t ∧
    (t.eng s.active).latch.cic = linkOut true v ∧ Logged s.active [.write .cic (linkOut true v)] s t ∧
    Continues s.active [.pos .ackWait] s t ∧
    Unchanged [.latch s.active .cic, .log s.active, .position s.active] s t) ∧
  (∀ s : State, s.cfg.paired = false → ∃ t, runTask (.pos .ackWait) s = .next t ∧
    ((peerClk (portRead s.active .cic s).1 = true ∧ (t.eng s.active).latch.cic = 0 ∧
      Logged s.active [.read .cic (portRead s.active .cic s).1, .write .cic 0] s t ∧
      Unchanged (.latch s.active .cic :: .log s.active :: portSupply) s t) ∨
     (peerClk (portRead s.active .cic s).1 = false ∧
      Logged s.active [.read .cic (portRead s.active .cic s).1] s t ∧ Continues s.active [.pos .ackWait] s t ∧
      Unchanged (.position s.active :: .log s.active :: portSupply) s t))) ∧
  (∀ s : State, s.cfg.paired = false → ∃ t, ∃ r : Nibble, exec .readBit s = .next t ∧
    (∀ (before after : List (Port × Nibble)) (x : Nibble), s.supply = before ++ (.cic, x) :: after →
      (∀ c ∈ before, c.1 ≠ .cic) → r = x ∧ t.supply = before ++ after) ∧
    (t.eng s.active).latch.cic = 0 ∧
    Logged s.active [.write .cic (linkOut true false), .read .cic r, .write .cic 0] s t ∧
    (t.eng s.active).C = bitOf r 0 ∧ (t.eng s.active).ret = (if bitOf r 0 then 1 else 0) ∧
    Unchanged (.latch s.active .cic :: .log s.active :: .carry s.active :: .ret s.active :: portSupply) s t)

/-- 41 R178, R179: a paired exchange is one joint transition, whichever engine takes the step: the reader is left with
the writer's bit, both latches are released, each engine has its events of R178 in their order, both primitives end. The
second clause asks nothing of the state of the two engines: that one which is halted, fatal or dead takes part is the
model's choice (DESIGN CHOICE, log 39). -/
def Obligations.PairedBitExchange : Prop :=
  (∀ (s : State) (w : Who) (v : Bool) (ks ls : List Task), s.cfg.paired = true → BothCanStep s →
    (s.eng w).cont = .pos .ackWait :: ks → (s.eng w).latch.cic = linkOut true v →
    (s.eng w.other).cont = .op .readBit :: ls →
    ∀ e : Who, ∃ t, engineStep e s = .next t ∧ (t.eng w.other).C = v ∧
      (t.eng w.other).ret = (if v then 1 else 0) ∧
      (t.eng w).latch.cic = 0 ∧ (t.eng w.other).latch.cic = 0 ∧
      Logged w [.read .cic (linkOut true false), .write .cic 0] s t ∧
      Logged w.other [.write .cic (linkOut true false), .read .cic (linkOut true v), .write .cic 0] s t ∧
      (t.eng w).cont = ks ∧ (t.eng w.other).cont = ls ∧ t.active = e ∧
      Unchanged [.latch w .cic, .latch w.other .cic, .log w, .log w.other, .position w, .position w.other,
        .carry w.other, .ret w.other, .active] s t) ∧
  (∀ (s : State) (v : Bool) (ks : List Task), s.cfg.paired = true →
    (s.eng s.active.other).cont = .pos .ackWait :: ks → (s.eng s.active.other).latch.cic = linkOut true v →
    ∃ t, exec .readBit s = .next t ∧ (t.eng s.active).C = v ∧ (t.eng s.active).ret = (if v then 1 else 0) ∧
      (t.eng s.active.other).cont = ks ∧ (t.eng s.active).latch.cic = 0 ∧
      (t.eng s.active.other).latch.cic = 0 ∧
      Logged s.active [.write .cic (linkOut true false), .read .cic (linkOut true v), .write .cic 0] s t ∧
      Logged s.active.other [.read .cic (linkOut true false), .write .cic 0] s t ∧
      Unchanged [.latch .pif .cic, .latch .cic .cic, .log .pif, .log .cic, .position s.active.other,
        .carry s.active, .ret s.active] s t)

/-- 41 R179, R180: a reader whose peer has not asserted is held, and so are two readers and two writers: the engine's turn
changes nothing. A writer whose peer is at neither takes ticks alone, whatever state the peer is in: each is one
`PortRead` that finds the peer's clock clear. -/
def Obligations.LinkHeldOrStuck : Prop :=
  (∀ (s : State) (w : Who) (ks : List Task), s.cfg.paired = true → BothCanStep s →
    (s.eng w).cont = .op .readBit :: ks → (s.eng w.other).cont.head? ≠ some (.pos .ackWait) →
    engineStep w s = .next { s with active := w }) ∧
  (∀ (s : State) (w : Who) (ks ls : List Task), s.cfg.paired = true → BothCanStep s →
    (s.eng w).cont = .pos .ackWait :: ks → (s.eng w.other).cont = .pos .ackWait :: ls →
    engineStep w s = .next { s with active := w }) ∧
  (∀ (s : State) (w : Who) (ks : List Task), s.cfg.paired = true →
    (w = .pif → s.pifPc ≠ .fatal ∧ s.halted = false) → (w = .cic → s.cicPc ≠ .dead) →
    (s.eng w).cont = .pos .ackWait :: ks → (s.eng w.other).cont.head? ≠ some (.op .readBit) →
    (s.eng w.other).cont.head? ≠ some (.pos .ackWait) → peerClk (s.eng w.other).latch.cic = false →
    ∃ t, engineStep w s = .next t ∧ Logged w [.read .cic (s.eng w.other).latch.cic] s t ∧ t.active = w ∧
      Unchanged [.log w, .active] s t)

/-- 30 R125, 41 R184 to R186: the longer link primitives are sequences of the shorter ones, bit 3 first, lowest address
first; a buffer of no nibbles does nothing. -/
def Obligations.NibbleAndBufferExpansions : Prop :=
  ∀ (s : State) (n : Nibble) (base : Addr) (k : Byte),
    (∃ t, exec .readNibble s = .next t ∧ Continues s.active [.op .readBit, .pos (.nibbleBits 3 0)] s t ∧
      Unchanged [.position s.active] s t) ∧
    (∃ t, exec (.writeNibble n) s = .next t ∧
      Continues s.active ((linkBits n).map fun b => .op (.writeBit b)) s t ∧ Unchanged [.position s.active] s t) ∧
    (∃ t, exec (.readBuf base k) s = .next t ∧ Unchanged [.position s.active] s t ∧
      Continues s.active (if k = 0 then [] else
        [.op .readNibble, .pos (.storeNibble base), .op (.readBuf (base + 1) (k - 1))]) s t) ∧
    (∃ t, exec (.writeBuf base k) s = .next t ∧ Unchanged [.position s.active] s t ∧
      Continues s.active (if k = 0 then [] else
        [.op (.writeNibble (readCell s.active base s)), .op (.writeBuf (base + 1) (k - 1))]) s t) ∧
    (∃ t, runTask (.pos (.storeNibble base)) s = .next t ∧ readCell s.active base t = retNibble s.active s ∧
      CellsUnchangedOutside s.active [base] s t ∧ Unchanged [.mem s.active] s t)

/-- 41 R184, R185 over a paired link: `WriteNibble(n)` against `ReadNibble` ends, for a schedule, with `n` read and `C` its
bit 0, four exchanges in each log, and both operations over. -/
def Obligations.NibbleCrossesTheLink : Prop :=
  ∀ (s : State) (w : Who) (n : Nibble) (ks ls : List Task), s.cfg.paired = true → BothCanStep s →
    (s.eng w).cont = .op (.writeNibble n) :: ks → (s.eng w.other).cont = .op .readNibble :: ls →
    ∃ (sched : List Who) (t : State), runSchedule sched s = .next t ∧ (t.eng w).cont = ks ∧
      (t.eng w.other).cont = ls ∧ (t.eng w.other).ret = n.setWidth 8 ∧ (t.eng w.other).C = bitOf n 0 ∧
      Logged w (writerEvents (linkBits n)) s t ∧ Logged w.other (readerEvents (linkBits n)) s t ∧
      (t.eng w).latch.cic = 0 ∧ (t.eng w.other).latch.cic = 0 ∧
      Unchanged [.latch w .cic, .latch w.other .cic, .log w, .log w.other, .position w, .position w.other,
        .carry w.other, .ret w.other, .active] s t

/-- 41 R186 over a paired link, a headline: `WriteBuf` of one engine against `ReadBuf` of the other moves the buffer: the
reader's cells become the writer's, lowest address first, every other cell of both memories stays. -/
def Obligations.BufferCrossesTheLink : Prop :=
  ∀ (s : State) (w : Who) (src dst : Addr) (n : Byte) (ks ls : List Task), s.cfg.paired = true → BothCanStep s →
    (s.eng w).cont = .op (.writeBuf src n) :: ks → (s.eng w.other).cont = .op (.readBuf dst n) :: ls →
    ∃ (sched : List Who) (t : State), runSchedule sched s = .next t ∧ (t.eng w).cont = ks ∧
      (t.eng w.other).cont = ls ∧
      (∀ i < n.toNat, readCell w.other (cellAt dst i) t = readCell w (cellAt src i) s) ∧
      CellsUnchangedOutside w.other (cellsFrom dst n.toNat) s t ∧
      Unchanged [.mem w.other, .latch w .cic, .latch w.other .cic, .log w, .log w.other, .position w,
        .position w.other, .carry w.other, .ret w.other, .active] s t

/-! ## PIF boot (42) -/

/-- 42 R200 to R202, R206 to R208: `PIF.Startup` idles the link, reads `T`, then `R`, judges the code, reads the seed, runs
two decode passes over the seed window, enables Interrupt A and opens the handshake. The registers, `C` among them, hold
any value when it is over (10 R31, R51). A seed window out of its range is the model's choice (DESIGN CHOICE, log 38). -/
def Obligations.StartupSequence : Prop :=
  (∀ s : State, ∃ t, exec .pifStartup s = .next t ∧ t.pif.latch.cic = 0 ∧ Logged .pif [.write .cic 0] s t ∧
    Continues .pif [.op .readBit, .pos .helloFirst] s t ∧
    Unchanged [.latch .pif .cic, .log .pif, .position .pif] s t) ∧
  (∀ s : State, ∃ t, runTask (.pos .helloFirst) s = .next t ∧
    Continues .pif [.op .readBit, .pos (.helloSecond (retBit .pif s))] s t ∧ Unchanged [.position .pif] s t) ∧
  (∀ (s : State) (T : Bool), ∃ t, runTask (.pos (.helloSecond T)) s = .next t ∧
    Continues .pif [.op (decodeHello T (retBit .pif s)), .op (.readBuf Config.seedBuf s.cfg.seedXferLen),
      .pos .seedReceived] s t ∧ Unchanged [.position .pif] s t) ∧
  (∀ s : State, ∃ t, runTask (.pos .seedReceived) s = .next t ∧
    readCells .pif (seedWin s.cfg) 16 t =
      decodeCells 0xF (decodeCells 0xF (readCells .pif (seedWin s.cfg) 16 s)) ∧
    CellsUnchangedOutside .pif (cellsFrom (seedWin s.cfg) 16) s t ∧
    t.pifLatch.inten = 1 ∧ Logged .pif [.write .inten 1] s t ∧ t.ie = true ∧ t.pifPc = .awaitLockout ∧
    Unchanged (.mem .pif :: .latch .pif .inten :: .log .pif :: .ie :: .pifPc :: .carry .pif :: scratchRegisters .pif) s t)

/-- 30 R113, 42 R203: a hello code of the console's region stores its type bit in `OSINFO`; one of the other region is
fatal at once. -/
def Obligations.HelloCodeJudged : Prop :=
  (decodeHello false false = .hello00 ∧ decodeHello false true = .hello01 ∧ decodeHello true false = .hello10 ∧
    decodeHello true true = .hello11) ∧
  ∀ (s : State) (T R : Bool),
    (s.cfg.regionPif = (if R then .pal else .ntsc) → ∃ t, exec (decodeHello T R) s = .next t ∧
      readCell .pif Config.osinfo t = (if T then 1 else 0) ∧
      CellsUnchangedOutside .pif [Config.osinfo] s t ∧ Unchanged [.mem .pif] s t) ∧
    (s.cfg.regionPif ≠ (if R then .pal else .ntsc) → ∃ t, exec (decodeHello T R) s = .next t ∧
      FatalRaised .regionMismatch s t)

/-- 42 R209, R210, R212, R214: each handshake phase is a loop of one `POLL` and one test of its own bit; clear, it goes
round; set, in the phase's own state, it does what the flag's operation does and the phase is over (in every state: the two
statements after this one). The end of an operation, here and elsewhere, changes `A`,
`X`, `C`, `B` and `SB` alone, with the counter of draws; a service keeps the pointers (10 R31, R51). -/
def Obligations.HandshakePhasesPollAndTest : Prop :=
  (∀ (i : Instr) (h : Handshake), (i, h) ∈ [(Instr.pifAwaitLockout, Handshake.lockout),
      (.pifAwaitChecksum, .getChecksum), (.pifAwaitAck, .checkChecksum)] →
    ∀ s : State, ∃ t, exec i s = .next t ∧ Continues .pif [.op .poll, .pos (.awaitTest h)] s t ∧
      Unchanged [.position .pif] s t) ∧
  (∀ (k : Nat) (h : Handshake) (pc : PifPc) (i f : Instr), (k, h, pc, i, f) ∈
      [(0, Handshake.lockout, PifPc.awaitLockout, Instr.pifAwaitLockout, Instr.cmdLockout),
       (1, .getChecksum, .awaitChecksum, .pifAwaitChecksum, .cmdGetChecksum),
       (2, .checkChecksum, .awaitAck, .pifAwaitAck, .cmdCheckChecksum)] →
    ∀ s : State,
      (cellBit .pif Config.cmdStatus k s = false → ∃ t, runTask (.pos (.awaitTest h)) s = .next t ∧
        Continues .pif [.op i] s t ∧ Unchanged [.position .pif] s t) ∧
      (cellBit .pif Config.cmdStatus k s = true → s.pifPc = pc → ∃ u, Continues .pif [.pos .settle] s u ∧
        Unchanged [.position .pif] s u ∧ runTask (.pos (.awaitTest h)) s = exec f u)) ∧
  (∀ s : State, ∃ t, runTask (.pos .settle) s = .next t ∧
    Unchanged (.carry s.active :: scratchRegisters s.active) s t ∧
    (s.active = .pif → s.isr ≠ none → t.pif.B = s.pif.B ∧ t.pif.SB = s.pif.SB))

/-- 42 R210, R212, R213: what phases (a) and (b) do once their bit is set, the flag presented by itself and the phase's own
test: ROM lockout on and all channels skipped; the checksum copied out of the shared region and `ACK` set, with no other
cell written; and `CMD.ACK` itself, whose effect in every control state is the model's choice (DESIGN CHOICE, log 35). -/
def Obligations.LockoutAndGetChecksum : Prop :=
  (∀ s : State, s.pifPc = .awaitLockout → ∃ t, exec .cmdLockout s = .next t ∧ LockoutDone s t) ∧
  (∀ s : State, cellBit .pif Config.cmdStatus 0 s = true → ∃ u t, Continues .pif [.pos .settle] s u ∧
    Unchanged [.position .pif] s u ∧ runTask (.pos (.awaitTest .lockout)) s = .next t ∧ LockoutDone u t) ∧
  (∀ s : State, s.pifPc = .awaitChecksum → ∃ t, exec .cmdGetChecksum s = .next t ∧ ChecksumCopied s t) ∧
  (∀ s : State, cellBit .pif Config.cmdStatus 1 s = true → ∃ u t, Continues .pif [.pos .settle] s u ∧
    Unchanged [.position .pif] s u ∧ runTask (.pos (.awaitTest .getChecksum)) s = .next t ∧ ChecksumCopied u t) ∧
  (∀ s : State, ∃ t, exec .cmdAck s = .next t ∧
    (∀ i < 4, cellBit .pif Config.cmdStatus i t = if i = 3 then true else cellBit .pif Config.cmdStatus i s) ∧
    CellsUnchangedOutside .pif [Config.cmdStatus] s t ∧ Unchanged [.mem .pif] s t)

/-- 42 R214, R215, R217: phase (c) runs the checksum exchange and the compare on a cold boot, and neither on a warm one, the
flag presented by itself and the phase's own test; the exchange reads 16 nibbles and runs four decode passes. -/
def Obligations.CheckChecksumPhase : Prop :=
  (∀ s : State, s.pifPc = .awaitAck → ∃ t, exec .cmdCheckChecksum s = .next t ∧ ChecksumPhaseTaken s t) ∧
  (∀ s : State, cellBit .pif Config.cmdStatus 2 s = true → ∃ u t, Continues .pif [.pos .settle] s u ∧
    Unchanged [.position .pif] s u ∧ runTask (.pos (.awaitTest .checkChecksum)) s = .next t ∧
    ChecksumPhaseTaken u t) ∧
  (∀ s : State, ∃ t, exec .pifChecksumExchange s = .next t ∧
    Continues .pif [.op (.readBuf Config.cksWin 16), .pos .checksumReceived] s t ∧
    Unchanged [.position .pif] s t) ∧
  (∀ s : State, ∃ t, runTask (.pos .checksumReceived) s = .next t ∧
    readCells .pif Config.cksWin 16 t =
      (decodeCells 0xF)^[4] (readCells .pif Config.cksWin 16 s) ∧
    CellsUnchangedOutside .pif (cellsFrom Config.cksWin 16) s t ∧
    Unchanged (.mem .pif :: .carry .pif :: scratchRegisters .pif) s t) ∧
  (∀ s : State, ∃ t, runTask (.pos .checksumPassed) s = .next t ∧ t.pifPc = .bootTimerGate ∧
    Unchanged [.pifPc] s t)

/-- 42 R216: the compare passes when all twelve pairs are equal, and any single unequal pair is fatal. Either way the
registers hold any value afterwards (10 R31, R51; on the fatal exit as log 31 says). What `CKS_OFF` above 4 compares is the
model's choice (DESIGN CHOICE, log 38). -/
def Obligations.ChecksumCompared : Prop :=
  ∀ s : State,
    ((∀ i < 12, readCell .pif (cellAt (Config.cksWin + s.cfg.cksOff) i) s = readCell .pif (cellAt Config.cksCpu i) s) →
      ∃ t, exec .pifChecksumCompare s = .next t ∧ Unchanged (.carry .pif :: scratchRegisters .pif) s t) ∧
    (∀ i < 12, readCell .pif (cellAt (Config.cksWin + s.cfg.cksOff) i) s ≠ readCell .pif (cellAt Config.cksCpu i) s →
      ∃ t, exec .pifChecksumCompare s = .next t ∧ FatalRaised .checksumMismatch s t)

/-- 42 R220: the gate starts the boot timer; each turn polls and tests `TERMINATE` first; set, the boot ends with no tick;
clear, one tick, and the overflow of the chain is fatal. -/
def Obligations.BootTimerGate : Prop :=
  (∀ s : State, ∃ t, exec .pifBootTimerGate s = .next t ∧ timerValue .boot t = s.cfg.bootTimerInit.toNat ∧
    CellsUnchangedOutside .pif (cellsFrom Config.bootTimer 4) s t ∧
    Continues .pif [.op .poll, .pos .gateTest] s t ∧ Unchanged [.mem .pif, .position .pif] s t) ∧
  (∀ s : State, cellBit .pif Config.cmdCmd 3 s = true → ∃ t, runTask (.pos .gateTest) s = .next t ∧
    Continues .pif [.op .pifEnterRunning, .pos .settle] s t ∧ Unchanged [.position .pif] s t) ∧
  (∀ s : State, cellBit .pif Config.cmdCmd 3 s = false → timerValue .boot s ≠ 65535 →
    ∃ t, runTask (.pos .gateTest) s = .next t ∧ timerValue .boot t = timerValue .boot s + 1 ∧
      CellsUnchangedOutside .pif (cellsFrom Config.bootTimer 4) s t ∧
      Continues .pif [.op .poll, .pos .gateTest] s t ∧ Unchanged [.mem .pif, .position .pif] s t) ∧
  (∀ s : State, cellBit .pif Config.cmdCmd 3 s = false → timerValue .boot s = 65535 →
    ∃ t u, runTask (.pos .gateTest) s = .next t ∧ Unchanged [.mem .pif] s u ∧
      CellsUnchangedOutside .pif (cellsFrom Config.bootTimer 4) s u ∧ FatalRaised .bootTimerExhausted u t) ∧
  (∀ s : State, s.pifPc = .bootTimerGate → ∃ t, exec .cmdTerminate s = .next t ∧
    Continues .pif [.op .pifEnterRunning] s t ∧ Unchanged [.position .pif] s t)

/-- 42 R221: both sources on, the compare segments keyed from the seed and the checksum window, `RUNNING` set, the steady
state entered; the registers, `C` among them, hold any value afterwards (10 R31, R51). A seed window out of its range is the
model's choice (DESIGN CHOICE, log 38). -/
def Obligations.EnterRunning : Prop :=
  ∀ s : State, ∃ t, exec .pifEnterRunning s = .next t ∧ t.pifLatch.inten = 3 ∧
    Logged .pif [.write .inten 3] s t ∧ t.pifPc = .running ∧
    (∀ i < 4, cellBit .pif Config.stMain i t = if i = 1 then true else cellBit .pif Config.stMain i s) ∧
    (s.cfg.compareKeyInit = .specDefault → ∀ i < 16,
      readCell .pif (cellAt Config.cmp0 i) t = readCell .pif (cellAt (seedWin s.cfg) i) s ∧
      readCell .pif (cellAt Config.cmp1 i) t = readCell .pif (cellAt Config.cksWin i) s) ∧
    CellsUnchangedOutside .pif (Config.stMain :: (cellsFrom Config.cmp0 16 ++ cellsFrom Config.cmp1 16)) s t ∧
    Unchanged (.mem .pif :: .latch .pif .inten :: .log .pif :: .pifPc :: .carry .pif :: scratchRegisters .pif) s t

/-- 30 R105, R106: a flag has no effect outside the control state, or the service, in which its rule runs; `BIT2` never
has one. (`ACK`, which no rule tests, is in LockoutAndGetChecksum; log 35.) -/
def Obligations.FlagsElsewhereHaveNoEffect : Prop :=
  ∀ s : State,
    (s.pifPc ≠ .awaitLockout → exec .cmdLockout s = .next s) ∧
    (s.pifPc ≠ .awaitChecksum → exec .cmdGetChecksum s = .next s) ∧
    (s.pifPc ≠ .awaitAck → exec .cmdCheckChecksum s = .next s) ∧
    (s.pifPc ≠ .bootTimerGate → exec .cmdTerminate s = .next s) ∧
    ((∀ r, s.isr = some r → r.src = .b) → exec .cmdJoybus s = .next s ∧ exec .cmdChallenge s = .next s) ∧
    exec .cmdBit2 s = .next s

/-! ## PIF running (43) -/

/-- 43 R240, R241, R243: one turn of the loop polls, then tests in this order: `RUNNING` clear leaves for the reset,
`CHALPEND` set runs the challenge exchange, else one compare exchange. The loop over, the registers, `C` among them, hold
any value (10 R31, R51). -/
def Obligations.RunningLoopOrder : Prop :=
  (∀ s : State, ∃ t, exec .pifRunningLoop s = .next t ∧ Continues .pif [.op .poll, .pos .runTest] s t ∧
    Unchanged [.position .pif] s t) ∧
  (∀ s : State, cellBit .pif Config.stMain 1 s = false → ∃ t, runTask (.pos .runTest) s = .next t ∧
    t.pifPc = .resetting ∧ Unchanged (.pifPc :: .carry .pif :: scratchRegisters .pif) s t) ∧
  (∀ s : State, cellBit .pif Config.stMain 1 s = true → cellBit .pif Config.stMain 0 s = true →
    ∃ t, runTask (.pos .runTest) s = .next t ∧ t.pifPc = .challengePending ∧
      Continues .pif [.op .pifChallengeExchange, .pos .challengeReturned] s t ∧
      Unchanged [.pifPc, .position .pif] s t) ∧
  (∀ s : State, cellBit .pif Config.stMain 1 s = true → cellBit .pif Config.stMain 0 s = false →
    ∃ t, runTask (.pos .runTest) s = .next t ∧
      Continues .pif [.op .pifCompareExchange, .op .pifRunningLoop] s t ∧ Unchanged [.position .pif] s t) ∧
  (∀ s : State, ∃ t, runTask (.pos .challengeReturned) s = .next t ∧ t.pifPc = .running ∧
    Continues .pif [.op .pifRunningLoop] s t ∧ Unchanged [.pifPc, .position .pif] s t)

/-- 43 R245, R247, R248: selector 0, 0; three rounds on each segment; then, from the start index on, the PIF's bit out and
the CIC's bit in; a bit that differs is fatal at once; the exchange ends where the next index is 0. The
registers hold any value after the rounds, at the end, and where it is fatal (45 R322, 10 R31, R51; log 31). -/
def Obligations.CompareExchange : Prop :=
  (∀ s : State, ∃ t, exec .pifCompareExchange s = .next t ∧
    Continues .pif [.op (.writeBit false), .op (.writeBit false), .pos .compareKeyed] s t ∧
    Unchanged [.position .pif] s t) ∧
  (∀ s : State, ∃ t, ∃ i : Nibble, runTask (.pos .compareKeyed) s = .next t ∧
    toWindow (readCells .pif Config.cmp0 16 t) =
      Config.compareRound^[3] (toWindow (readCells .pif Config.cmp0 16 s)) ∧
    toWindow (readCells .pif Config.cmp1 16 t) =
      Config.compareRound^[3] (toWindow (readCells .pif Config.cmp1 16 s)) ∧
    CellsUnchangedOutside .pif (cellsFrom Config.cmp0 16 ++ cellsFrom Config.cmp1 16) s t ∧
    (s.cfg.compareStart = .specDefault → i = (if readCell .pif (cellAt Config.cmp1 7) t = 0 then 1
      else readCell .pif (cellAt Config.cmp1 7) t)) ∧
    Continues .pif [.op (.writeBit (cellBit .pif (cellAt Config.cmp0 i.toNat) 0 t)), .op .readBit,
      .pos (.compareCheck i)] s t ∧
    Unchanged (.mem .pif :: .position .pif :: .carry .pif :: scratchRegisters .pif) s t) ∧
  (∀ (s : State) (i : Nibble), ∃ t, runTask (.pos (.compareCheck i)) s = .next t ∧
    (retBit .pif s ≠ cellBit .pif (cellAt Config.cmp1 i.toNat) 0 s → FatalRaised .compareMismatch s t) ∧
    (retBit .pif s = cellBit .pif (cellAt Config.cmp1 i.toNat) 0 s → compareNext s.cfg i = 0 →
      Unchanged (.carry .pif :: scratchRegisters .pif) s t) ∧
    (retBit .pif s = cellBit .pif (cellAt Config.cmp1 i.toNat) 0 s → compareNext s.cfg i ≠ 0 →
      Unchanged [.position .pif] s t ∧
      Continues .pif [.op (.writeBit (cellBit .pif (cellAt Config.cmp0 (compareNext s.cfg i).toNat) 0 s)),
        .op .readBit, .pos (.compareCheck (compareNext s.cfg i))] s t)) ∧
  (∀ (c : Params) (i : Nibble), (c.cmpDir = .up → (compareNext c i).toNat = (i.toNat + 1) % 16) ∧
    (c.cmpDir = .down → (compareNext c i).toNat = (i.toNat + 15) % 16))

/-- 43 R250, R252: selector 1, 0; the 32 cells of `SH_CHAL` out and the response back over them; verified, `CHALPEND` is
cleared and the pending read acknowledged, else it is fatal; the default check never fails. Of another check (an OPEN
function, log 29) nothing is known. -/
def Obligations.ChallengeExchange : Prop :=
  (∀ s : State, ∃ t, exec .pifChallengeExchange s = .next t ∧
    Continues .pif [.op (.writeBit true), .op (.writeBit false), .pos .challengeSend] s t ∧
    Unchanged [.position .pif] s t) ∧
  (∀ s : State, ∃ t, runTask (.pos .challengeSend) s = .next t ∧
    Continues .pif [.op (.writeBuf Config.shChal 32), .op (.readBuf Config.shChal 32),
      .pos (.challengeVerify (readCells .pif Config.shChal 32 s))] s t ∧ Unchanged [.position .pif] s t) ∧
  (∀ (s : State) (sent : List Nibble), ∃ t, runTask (.pos (.challengeVerify sent)) s = .next t ∧
    (if challengeVerified s.cfg sent (readCells .pif Config.shChal 32 s) = true then
      (∀ i < 4, cellBit .pif Config.stMain i t = if i = 0 then false else cellBit .pif Config.stMain i s) ∧
      CellsUnchangedOutside .pif [Config.stMain] s t ∧
      Continues .pif [.op .ackTransfer, .pos .settle] s t ∧
      Unchanged [.mem .pif, .position .pif] s t
    else FatalRaised .challengeMismatch s t) ∧
    (s.cfg.chalVerify = .specDefault → challengeVerified s.cfg sent (readCells .pif Config.shChal 32 s) = true))

/-- 43 R260 to R264: `PIF.Resetting`: `IE` off, selector 1, 1; the reset timer started; one look at the link a turn, a tick
where the peer's clock is clear and the overflow fatal; after the ready bit the NMI pulse, `WARM` set, a pending challenge
dropped, both sources off, back to cold boot. -/
def Obligations.ResettingSequence : Prop :=
  (∀ s : State, ∃ t, exec .pifResetting s = .next t ∧ t.ie = false ∧
    Continues .pif [.op (.writeBit true), .op (.writeBit true), .pos .resetSelected] s t ∧
    Unchanged [.ie, .position .pif] s t) ∧
  (∀ s : State, ∃ t, runTask (.pos .resetSelected) s = .next t ∧
    timerValue .reset t = s.cfg.resetTimerInit.toNat ∧
    CellsUnchangedOutside .pif (cellsFrom Config.resetTimer 4) s t ∧ Continues .pif [.pos .resetWait] s t ∧
    Unchanged [.mem .pif, .position .pif] s t) ∧
  (∀ s : State, ∃ t, runTask (.pos .resetWait) s = .next t ∧
    (peerClk (portRead .pif .cic s).1 = true →
      Logged .pif [.read .cic (portRead .pif .cic s).1] s t ∧
      Continues .pif [.op .readBit, .pos .resetReady] s t ∧
      Unchanged (.position .pif :: .log .pif :: portSupply) s t) ∧
    (peerClk (portRead .pif .cic s).1 = false → timerValue .reset s ≠ 65535 →
      Logged .pif [.read .cic (portRead .pif .cic s).1] s t ∧ timerValue .reset t = timerValue .reset s + 1 ∧
      CellsUnchangedOutside .pif (cellsFrom Config.resetTimer 4) s t ∧ Continues .pif [.pos .resetWait] s t ∧
      Unchanged (.mem .pif :: .position .pif :: .log .pif :: portSupply) s t) ∧
    (peerClk (portRead .pif .cic s).1 = false → timerValue .reset s = 65535 →
      ∃ u, Logged .pif [.read .cic (portRead .pif .cic s).1] s u ∧
        CellsUnchangedOutside .pif (cellsFrom Config.resetTimer 4) s u ∧
        Unchanged (.mem .pif :: .log .pif :: portSupply) s u ∧ FatalRaised .resetTimerExhausted u t)) ∧
  (∀ s : State, ∃ t, runTask (.pos .resetReady) s = .next t ∧
    Logged .pif [.write .reset 3, .write .reset 0, .write .inten 0] s t ∧ t.pif.latch.reset = 0 ∧
    t.pifLatch.inten = 0 ∧ t.pifPc = .coldBoot ∧
    (∀ i < 4, cellBit .pif Config.stMain i t =
      if i = 2 then true else if i = 0 then false else cellBit .pif Config.stMain i s) ∧
    CellsUnchangedOutside .pif [Config.stMain] s t ∧
    Unchanged (.mem .pif :: .latch .pif .reset :: .latch .pif .inten :: .log .pif :: .pifPc :: .carry .pif ::
      scratchRegisters .pif) s t)

/-! ## JoyBus (44) -/

/-- 44 R276 to R279: the four one-byte items. The channel counted is `ch`; its status cell is `JBSTAT[ch]`, whose address
for a count of 5 or more, which the parse never reaches, is the model's choice (DESIGN CHOICE, log 27), and so is it that an
item presented by itself acts after the parse is over (DESIGN CHOICE, log 40). -/
def Obligations.OneByteItems : Prop :=
  ∀ s : State,
    (∃ t, exec .jbSkip s = .next t ∧ t.parse = ⟨s.parse.p + 2, s.parse.ch + 1, s.parse.stop⟩ ∧
      Unchanged [.parse] s t) ∧
    (∃ t, exec .jbReset s = .next t ∧ t.parse = ⟨s.parse.p + 2, s.parse.ch + 1, s.parse.stop⟩ ∧
      readCell .pif (Config.jbStat s.parse.ch) t = 2 ∧
      CellsUnchangedOutside .pif [Config.jbStat s.parse.ch] s t ∧ Unchanged [.mem .pif, .parse] s t) ∧
    (∃ t, exec .jbNop s = .next t ∧ t.parse = ⟨s.parse.p + 2, s.parse.ch, s.parse.stop⟩ ∧
      Unchanged [.parse] s t) ∧
    (∃ t, exec .jbStop s = .next t ∧ t.parse = ⟨s.parse.p, s.parse.ch, true⟩ ∧ Unchanged [.parse] s t)

/-- 44 R280, 30 R116, R118: a transfer item records the address of its `TX` byte, marks the channel active and is stepped
over with its data and receive space; the cells for a channel count of 5 or more are the model's choice (log 27). That a
whole frame does what its item does while the parse is open and nothing after it, and that the `RX` byte delivers its
count, the low six bits, are the model's choices too (DESIGN CHOICE, log 15), and that a transfer item presented by itself
acts after the parse is over (DESIGN CHOICE, log 40). -/
def Obligations.TransferItemRecorded : Prop :=
  (∀ (s : State) (tx rx : Byte), ∃ t, exec (.jbXfer tx rx) s = .next t ∧
    (readCell .pif (Config.jbOffHi s.parse.ch) t).toNat = s.parse.p / 16 % 16 ∧
    (readCell .pif (Config.jbOffLo s.parse.ch) t).toNat = s.parse.p % 16 ∧
    readCell .pif (Config.jbStat s.parse.ch) t = 0 ∧
    CellsUnchangedOutside .pif
      [Config.jbOffHi s.parse.ch, Config.jbOffLo s.parse.ch, Config.jbStat s.parse.ch] s t ∧
    t.parse = ⟨s.parse.p + 2 * (2 + tx.toNat % 64 + rx.toNat % 64), s.parse.ch + 1, s.parse.stop⟩ ∧
    Unchanged [.mem .pif, .parse] s t) ∧
  (∀ (s : State) (tx rx : Byte) (data recv : List Byte),
    (s.parse.stop = false → s.parse.ch < 5 → s.parse.p < 0xFE →
      exec (.frame tx rx data recv) s = exec (.jbXfer tx rx) s) ∧
    (s.parse.stop = true ∨ 5 ≤ s.parse.ch ∨ 0xFE ≤ s.parse.p → exec (.frame tx rx data recv) s = .next s)) ∧
  (∀ (s : State) (rx : Byte), ∃ t, exec (.jbRx rx) s = .next t ∧ t.pif.ret.toNat = rx.toNat % 64 ∧
    Unchanged [.ret .pif] s t)

/-- 44 R282: "The parse writes only the 15 cells of the channel table. It does not write the shared region, touches no
port and raises nothing; run twice on the same list it gives the same table." And how it comes to that (44 R273 to R275):
for every list the run is a chain of states that begins with all five channels skipped, `p` = 0x80 and `ch` = 0; while
none of the three stops holds, the item at `p`, decoded from its bytes, is the next link; at the first stop it is over. -/
def Obligations.ParseWritesOnlyTheTable : Prop :=
  ∀ s : State, ∃ t u, exec .pifJoybusParse s = .next t ∧
    CellsUnchangedOutside .pif (cellsFrom Config.jbTable 15) s t ∧
    Unchanged (.mem .pif :: .parse :: .carry .pif :: scratchRegisters .pif) s t ∧
    (exec .pifJoybusParse t = .next u ∧ ∀ a : Addr, readCell .pif a u = readCell .pif a t) ∧
    ∃ (n : Nat) (m : Nat → State), (∀ ch < 5, readCell .pif (Config.jbStat ch) (m 0) = 1) ∧
      CellsUnchangedOutside .pif ((List.range 5).map Config.jbStat) s (m 0) ∧ (m 0).parse = ⟨0x80, 0, false⟩ ∧
      Unchanged [.mem .pif, .parse] s (m 0) ∧
      (∀ k < n, (m k).parse.stop = false ∧ (m k).parse.ch < 5 ∧ (m k).parse.p < 0xFE ∧
        ∃ (i : Instr) (r : List Byte), decode .jbtx [readByte .pif (BitVec.ofNat 8 (m k).parse.p) (m k),
          readByte .pif (BitVec.ofNat 8 ((m k).parse.p + 2)) (m k)] = some (i, r) ∧
        exec i (m k) = .next (m (k + 1))) ∧
      ((m n).parse.stop = true ∨ 5 ≤ (m n).parse.ch ∨ 0xFE ≤ (m n).parse.p) ∧
      t.parse = (m n).parse ∧ ∀ a : Addr, readCell .pif a t = readCell .pif a (m n)

/-- 44 R283: the source's frame list with its receive byte: one active channel, 0, at 0x80; the parse halts at the
sentinel, whatever follows it. -/
def Obligations.SourceFrameListParses : Prop :=
  ∀ (s : State) (d0 d1 s0 : Byte),
    (∀ k < 6, readByte .pif (BitVec.ofNat 8 (0x80 + 2 * k)) s = [0x02, 0x01, d0, d1, s0, 0xFE].getD k 0) →
    ∃ t, exec .pifJoybusParse s = .next t ∧ readCell .pif (Config.jbOffHi 0) t = 8 ∧
      readCell .pif (Config.jbOffLo 0) t = 0 ∧ readCell .pif (Config.jbStat 0) t = 0 ∧
      (∀ ch, 1 ≤ ch → ch ≤ 4 → readCell .pif (Config.jbStat ch) t = 1 ∧
        readCell .pif (Config.jbOffHi ch) t = readCell .pif (Config.jbOffHi ch) s ∧
        readCell .pif (Config.jbOffLo ch) t = readCell .pif (Config.jbOffLo ch) s) ∧
      t.parse = ⟨0x8A, 1, true⟩

/-- 44 R288, R289, R291: one read of `P_JB_CHSEL` names the channel; it is skipped, reset or exchanged as its status says,
`SKIP` before `RESET`; 5, 6 and 7 are refused; channel 0 is the last. -/
def Obligations.TransferServesSelectedChannel : Prop :=
  (∀ (s : State) (ch : Fin 5), (portRead .pif .jbChSel s).1.toNat % 8 = ch.val →
    ∃ t, exec .pifJoybusTransfer s = .next t ∧
      Logged .pif [.read .jbChSel (portRead .pif .jbChSel s).1] s t ∧
      Unchanged (.position .pif :: .log .pif :: portSupply) s t ∧
      (cellBit .pif (Config.jbStat ch.val) 0 s = true → Continues .pif [.pos (.channelServed ch)] s t) ∧
      (cellBit .pif (Config.jbStat ch.val) 0 s = false → cellBit .pif (Config.jbStat ch.val) 1 s = true →
        Continues .pif [.op .jbChannelReset, .pos (.channelServed ch)] s t) ∧
      (cellBit .pif (Config.jbStat ch.val) 0 s = false → cellBit .pif (Config.jbStat ch.val) 1 s = false →
        Continues .pif [.op (.jbChannelExchange ch), .pos (.channelServed ch)] s t)) ∧
  (∀ s : State, 5 ≤ (portRead .pif .jbChSel s).1.toNat % 8 →
    exec .pifJoybusTransfer s = .refused .channelOutOfRange) ∧
  (∀ (s : State) (ch : Fin 5), ∃ t, runTask (.pos (.channelServed ch)) s = .next t ∧
    (ch.val = 0 → Unchanged (.carry .pif :: scratchRegisters .pif) s t) ∧
    (ch.val ≠ 0 → Continues .pif [.op .pifJoybusTransfer] s t ∧ Unchanged [.position .pif] s t))

/-- 30 R121, 44 R292, R294: the five command values of `P_JB_CTRL`; the reset handshake of a channel is the command, one
wait whose result is ignored, and idle; a wait looks at the status first, then at the error port, and goes round while
neither answers. -/
def Obligations.JoybusControlAndWait : Prop :=
  (∀ (i : Instr) (v : Nibble), (i, v) ∈ [(Instr.jbcIdle, (0 : Nibble)), (.jbcTx, 1), (.jbcRx, 2), (.jbcReset, 3),
      (.jbcXferAck, 4)] →
    ∀ s : State, ∃ t, exec i s = .next t ∧ t.pifLatch.jbCtrl = v ∧ Logged .pif [.write .jbCtrl v] s t ∧
      Unchanged [.latch .pif .jbCtrl, .log .pif] s t) ∧
  (∀ s : State, ∃ t, exec .jbChannelReset s = .next t ∧ Logged .pif [.write .jbCtrl 3] s t ∧
    t.pifLatch.jbCtrl = 3 ∧ Continues .pif [.op .jbWaitReady, .pos .channelResetEnd] s t ∧
    Unchanged [.latch .pif .jbCtrl, .log .pif, .position .pif] s t) ∧
  (∀ s : State, ∃ t, runTask (.pos .channelResetEnd) s = .next t ∧ Logged .pif [.write .jbCtrl 0] s t ∧
    t.pifLatch.jbCtrl = 0 ∧
    Unchanged (.latch .pif .jbCtrl :: .log .pif :: .carry .pif :: scratchRegisters .pif) s t) ∧
  (∀ s : State, bitOf (portRead .pif .jbStatus s).1 2 = true → ∃ t, exec .jbWaitReady s = .next t ∧
    t.pif.ret = 0 ∧ Logged .pif [.read .jbStatus (portRead .pif .jbStatus s).1] s t ∧
    Unchanged (.ret .pif :: .log .pif :: .carry .pif :: (scratchRegisters .pif ++ portSupply)) s t) ∧
  (∀ s : State, bitOf (portRead .pif .jbStatus s).1 2 = false →
    ∃ t, ∃ e : Nibble, exec .jbWaitReady s = .next t ∧
      e = (portRead .pif .jbError (portRead .pif .jbStatus s).2).1 ∧
      Logged .pif [.read .jbStatus (portRead .pif .jbStatus s).1, .read .jbError e] s t ∧
      ((bitOf e 0 || bitOf e 1) = true → t.pif.ret = 1 ∧
        Unchanged (.ret .pif :: .log .pif :: .carry .pif :: (scratchRegisters .pif ++ portSupply)) s t) ∧
      ((bitOf e 0 || bitOf e 1) = false → Continues .pif [.op .jbWaitReady] s t ∧
        Unchanged (.position .pif :: .log .pif :: portSupply) s t))

/-- 44 R293, R296: the exchange of a channel reads its counts again from the shared region under the window wrap, sends
`JBC_TX`, then waits before each byte to send; with none to send `JBC_RX` follows at once, and with none to receive
`JBC_IDLE`. -/
def Obligations.ChannelExchangeOpens : Prop :=
  (∀ q : Addr, 0x80 ≤ (windowWrap q).toNat ∧ (0x80 ≤ q.toNat → windowWrap q = q) ∧
    (q.toNat < 0x80 → (windowWrap q).toNat = q.toNat + 0x80)) ∧
  ∀ (s : State) (ch : Fin 5) (q rq : Addr) (txc rxc : Nat),
    q = windowWrap (readCell .pif (Config.jbOffHi ch.val) s ++ readCell .pif (Config.jbOffLo ch.val) s) →
    rq = windowWrap (q + 2) →
    txc = (readCell .pif q s ++ readCell .pif (windowWrap (q + 1)) s).toNat % 64 →
    rxc = (readCell .pif rq s ++ readCell .pif (windowWrap (rq + 1)) s).toNat % 64 →
    ∃ t, exec (.jbChannelExchange ch) s = .next t ∧
      (txc ≠ 0 → Logged .pif [.write .jbCtrl 1] s t ∧
        Continues .pif [.op .jbWaitReady, .pos (.txByte rq (windowWrap (q + 4)) (txc - 1) rxc)] s t ∧
        Unchanged [.latch .pif .jbCtrl, .log .pif, .position .pif] s t) ∧
      (txc = 0 → rxc ≠ 0 → Logged .pif [.write .jbCtrl 1, .write .jbCtrl 2] s t ∧
        Continues .pif [.op .jbWaitReady, .pos (.rxByte rq (windowWrap (q + 4)) (rxc - 1))] s t ∧
        Unchanged [.latch .pif .jbCtrl, .log .pif, .position .pif] s t) ∧
      (txc = 0 → rxc = 0 → Logged .pif [.write .jbCtrl 1, .write .jbCtrl 2, .write .jbCtrl 0] s t ∧
        Unchanged (.latch .pif .jbCtrl :: .log .pif :: .carry .pif :: scratchRegisters .pif) s t)

/-- 44 R293, R296 to R298: after a good wait the two nibbles of a byte go out, or come in and are stored at `d` and
`W(d + 1)`; after a failed wait no byte moves, the error nibble is or-ed into the `RX` byte, `SAVE_A` holds any value and
the channel is closed with `JBC_IDLE`. -/
def Obligations.ChannelBytes : Prop :=
  (∀ (s : State) (rq d d' : Addr) (n rxc : Nat) (out : List Event), s.pif.ret = 0 →
    d' = windowWrap (windowWrap (d + 1) + 1) →
    out = [.write .jbData (readCell .pif d s), .write .jbData (readCell .pif (windowWrap (d + 1)) s)] →
    ∃ t, runTask (.pos (.txByte rq d n rxc)) s = .next t ∧
      (n ≠ 0 → Logged .pif out s t ∧ Continues .pif [.op .jbWaitReady, .pos (.txByte rq d' (n - 1) rxc)] s t) ∧
      (n = 0 → rxc ≠ 0 → Logged .pif (out ++ [.write .jbCtrl 2]) s t ∧
        Continues .pif [.op .jbWaitReady, .pos (.rxByte rq d' (rxc - 1))] s t) ∧
      (n = 0 → rxc = 0 → Logged .pif (out ++ [.write .jbCtrl 2, .write .jbCtrl 0]) s t ∧ Continues .pif [] s t) ∧
      Unchanged (.latch .pif .jbData :: .latch .pif .jbCtrl :: .log .pif :: .position .pif :: .carry .pif ::
        scratchRegisters .pif) s t) ∧
  (∀ (s : State) (rq d : Addr) (n : Nat), s.pif.ret = 0 → ∃ t, ∃ h l : Nibble,
    runTask (.pos (.rxByte rq d n)) s = .next t ∧ h = (portRead .pif .jbData s).1 ∧
    readCell .pif d t = h ∧ readCell .pif (windowWrap (d + 1)) t = l ∧
    CellsUnchangedOutside .pif [d, windowWrap (d + 1)] s t ∧
    (n ≠ 0 → Logged .pif [.read .jbData h, .read .jbData l] s t ∧ Continues .pif
      [.op .jbWaitReady, .pos (.rxByte rq (windowWrap (windowWrap (d + 1) + 1)) (n - 1))] s t) ∧
    (n = 0 → Logged .pif [.read .jbData h, .read .jbData l, .write .jbCtrl 0] s t ∧ Continues .pif [] s t) ∧
    Unchanged (.mem .pif :: .latch .pif .jbCtrl :: .log .pif :: .position .pif :: .carry .pif ::
      (scratchRegisters .pif ++ portSupply)) s t) ∧
  (∀ (s : State) (p : Pos) (rq d : Addr) (n rxc : Nat), s.pif.ret ≠ 0 →
    p = .txByte rq d n rxc ∨ p = .rxByte rq d n → ∃ t, runTask (.pos p) s = .next t ∧
      Logged .pif [.write .jbCtrl 0] s t ∧ t.pifLatch.jbCtrl = 0 ∧
      (rq ≠ Config.saveA → readCell .pif rq t = readCell .pif rq s ||| 8) ∧
      CellsUnchangedOutside .pif [rq, Config.saveA] s t ∧
      Unchanged (.mem .pif :: .latch .pif .jbCtrl :: .log .pif :: .carry .pif :: scratchRegisters .pif) s t)

/-- 44 R297: `JbError(rq)` ors the error nibble into the cell, leaves `SAVE_A` with any value and writes nothing else; a
second error on the same frame changes nothing more outside `SAVE_A`. -/
def Obligations.JoybusErrorRecorded : Prop :=
  ∀ (s : State) (rq : Addr), ∃ t u, exec (.jbError rq) s = .next t ∧
    (rq ≠ Config.saveA → ∀ i < 4, cellBit .pif rq i t = if i = 3 then true else cellBit .pif rq i s) ∧
    CellsUnchangedOutside .pif [rq, Config.saveA] s t ∧
    Unchanged (.mem .pif :: .carry .pif :: scratchRegisters .pif) s t ∧
    exec (.jbError rq) t = .next u ∧ CellsUnchangedOutside .pif [Config.saveA] t u

/-! ## CIC engine (45); the rounds act on the engine that takes the step -/

/-- 45 R310: cell 0 stays; each later cell loses the pre-update value of the cell before it plus one, modulo 16; `C` and
every cell outside the window stay. -/
def Obligations.DecodeRound : Prop :=
  ∀ (s : State) (w : Addr), ∃ t, exec (.decodeRound w) s = .next t ∧
    readCell s.active (cellAt w 0) t = readCell s.active (cellAt w 0) s ∧
    (∀ i < 15, ((readCell s.active (cellAt w (i + 1)) t).toNat : Int) =
      ((readCell s.active (cellAt w (i + 1)) s).toNat - ((readCell s.active (cellAt w i) s).toNat + 1)) % 16) ∧
    CellsUnchangedOutside s.active (cellsFrom w 16) s t ∧
    Unchanged (.mem s.active :: scratchRegisters s.active) s t

/-- 45 R312: cell 0 stays; each later cell gains the post-update value of the cell before it plus one, modulo 16. -/
def Obligations.EncodeRound : Prop :=
  ∀ (s : State) (w : Addr), ∃ t, exec (.encodeRound w) s = .next t ∧
    readCell s.active (cellAt w 0) t = readCell s.active (cellAt w 0) s ∧
    (∀ i < 15, (readCell s.active (cellAt w (i + 1)) t).toNat =
      ((readCell s.active (cellAt w (i + 1)) s).toNat + (readCell s.active (cellAt w i) t).toNat + 1) % 16) ∧
    CellsUnchangedOutside s.active (cellsFrom w 16) s t ∧
    Unchanged (.mem s.active :: scratchRegisters s.active) s t

/-- 45 R313: `n` decode passes undo `n` encode passes, and the other way round, on every window of either memory. -/
def Obligations.RoundsAreInverse : Prop :=
  ∀ (e : Who) (w : Addr) (n : Nat) (s : State) (a : Addr),
    readCell e a (passes n (decodePass e w) (passes n (encodePass e w) s)) = readCell e a s ∧
    readCell e a (passes n (encodePass e w) (passes n (decodePass e w) s)) = readCell e a s

/-- 45 R322, R333: `CompareRound` replaces its window by the OPEN function of the window alone; `ComplementAll` complements
32 cells, and twice restores them. The registers, `C` among them, hold any value afterwards (10 R31, R51). -/
def Obligations.CompareRoundAndComplement : Prop :=
  (∀ (s : State) (w : Addr), ∃ t, exec (.compareRound w) s = .next t ∧
    toWindow (readCells s.active w 16 t) = Config.compareRound (toWindow (readCells s.active w 16 s)) ∧
    CellsUnchangedOutside s.active (cellsFrom w 16) s t ∧
    Unchanged (.mem s.active :: .carry s.active :: scratchRegisters s.active) s t) ∧
  (∀ (s : State) (buf : Addr), ∃ t u, exec (.complementAll buf) s = .next t ∧
    (∀ i < 32, (readCell s.active (cellAt buf i) t).toNat = 15 - (readCell s.active (cellAt buf i) s).toNat) ∧
    CellsUnchangedOutside s.active (cellsFrom buf 32) s t ∧
    Unchanged (.mem s.active :: .carry s.active :: scratchRegisters s.active) s t ∧
    exec (.complementAll buf) t = .next u ∧
    ∀ a : Addr, readCell s.active a u = readCell s.active a s)

/-- 45 R330 to R332: the challenge recurrence over the 32 cells in address order, the accumulator and carry carried from
cell to cell, and left in `A` and `C`. -/
def Obligations.ChallengeTransform : Prop :=
  ∀ (s : State) (buf : Addr), ∃ t, ∃ (a : Nat → Nibble) (c : Nat → Bool),
    exec (.challengeTransform buf) s = .next t ∧ a 0 = s.cfg.chalA0 ∧ c 0 = s.cfg.chalC0 ∧
    (∀ i < 32, ∃ y z : Nat,
      y = ((a i).toNat + (readCell s.active (cellAt buf i) s).toNat +
        (if cellBit s.active (cellAt buf i) 0 s then 0 else 8) + (if bitOf (a i) 1 then 0 else 4)) % 16 ∧
      z = (2 * y + (if c i then 0 else 7)) % 16 ∧
      (c (i + 1) = true ↔ 16 ≤ y + z + (c i).toNat) ∧
      (readCell s.active (cellAt buf i) t).toNat = 15 - (y + z + (c i).toNat) % 16 ∧
      (a (i + 1)).toNat = (if s.cfg.chalAccComplement then 15 - (y + z + (c i).toNat) % 16
        else (y + z + (c i).toNat) % 16)) ∧
    (t.eng s.active).A = a 32 ∧ (t.eng s.active).C = c 32 ∧
    CellsUnchangedOutside s.active (cellsFrom buf 32) s t ∧
    Unchanged (.mem s.active :: .carry s.active :: scratchRegisters s.active) s t

/-- 45 R336: the counters start at 0; each turn is one sample of the reset line and one count; at the end `C` tells whether
every sample found the line asserted. -/
def Obligations.ResetCounter : Prop :=
  (∀ s : State, ∃ t, exec .resetCounter s = .next t ∧ readByte .cic Config.rc t = 0 ∧
    readByte .cic (Config.rc + 2) t = 0 ∧ CellsUnchangedOutside .cic (cellsFrom Config.rc 4) s t ∧
    Continues .cic [.pos (.resetCount s.cfg.rcIters true)] s t ∧ Unchanged [.mem .cic, .position .cic] s t) ∧
  (∀ (s : State) (k : Nat) (held : Bool), ∃ t, ∃ r : Nibble, runTask (.pos (.resetCount (k + 1) held)) s = .next t ∧
    Logged .cic [.read .reset r] s t ∧ Continues .cic [.pos (.resetCount k (held && bitOf r 0))] s t ∧
    256 * (readByte .cic (Config.rc + 2) t).toNat + (readByte .cic Config.rc t).toNat =
      (256 * (readByte .cic (Config.rc + 2) s).toNat + (readByte .cic Config.rc s).toNat + 1) % 65536 ∧
    CellsUnchangedOutside .cic (cellsFrom Config.rc 4) s t ∧
    Unchanged (.mem .cic :: .position .cic :: .log .cic :: portSupply) s t) ∧
  (∀ (s : State) (held : Bool), ∃ t, runTask (.pos (.resetCount 0 held)) s = .next t ∧ t.cic.C = held ∧
    Unchanged (.carry .cic :: scratchRegisters .cic) s t)

/-- 45 R314, R340 to R343: `CIC.Main` idles the link and sends type bit and region bit; then the seed after two encode
passes, for every place of the window in its range (a length other than 16 or 20 is log 38); then, on a cold boot only, the
checksum window after four. The passes leave `A`, `X` and the pointers with any value and do not write `C` (45 R312,
10 R51; log 31). -/
def Obligations.CicMainSendsHelloSeedChecksum : Prop :=
  (∀ s : State, ∃ t, exec .cicMain s = .next t ∧ t.cic.latch.cic = 0 ∧ Logged .cic [.write .cic 0] s t ∧
    t.cicPc = .boot ∧
    Continues .cic [.op (.writeBit s.cfg.variantT),
      .op (.writeBit (match s.cfg.regionCic with | .ntsc => false | .pal => true)), .pos .helloSent] s t ∧
    Unchanged [.cicPc, .latch .cic .cic, .log .cic, .position .cic] s t) ∧
  (∀ s : State, s.cfg.seedWinOff.toNat + 16 ≤ s.cfg.seedXferLen.toNat → s.cfg.seedXferLen.toNat ≤ 32 →
    ∃ t, runTask (.pos .helloSent) s = .next t ∧
      readCells .cic (Config.seedBuf + s.cfg.seedWinOff) 16 t =
        (encodeCells 0xF)^[2] (Config.seedDerive s.cfg.secret).toList ∧
      (∀ i < s.cfg.seedWinOff.toNat,
        readCell .cic (cellAt Config.seedBuf i) t = s.cfg.seedExtra.toList.getD i 0) ∧
      (∀ i, s.cfg.seedWinOff.toNat + 16 ≤ i → i < s.cfg.seedXferLen.toNat →
        readCell .cic (cellAt Config.seedBuf i) t = s.cfg.seedExtra.toList.getD (i - 16) 0) ∧
      CellsUnchangedOutside .cic (cellsFrom Config.seedBuf s.cfg.seedXferLen.toNat) s t ∧
      Continues .cic [.op (.writeBuf Config.seedBuf s.cfg.seedXferLen), .pos .seedSent] s t ∧
      Unchanged (.mem .cic :: .position .cic :: scratchRegisters .cic) s t) ∧
  (∀ s : State, cellBit .cic Config.cst 0 s = true → ∃ t, runTask (.pos .seedSent) s = .next t ∧
    Continues .cic [.pos .cicKey] s t ∧ Unchanged [.position .cic] s t) ∧
  (∀ s : State, cellBit .cic Config.cst 0 s = false → ∃ t, runTask (.pos .seedSent) s = .next t ∧
    readCells .cic Config.cksWin 16 t = (encodeCells 0xF)^[4] s.cfg.cksPlain.toList ∧
    CellsUnchangedOutside .cic (cellsFrom Config.cksWin 16) s t ∧
    Continues .cic [.op (.writeBuf Config.cksWin 16), .pos .cicKey] s t ∧
    Unchanged (.mem .cic :: .position .cic :: scratchRegisters .cic) s t) ∧
  (∀ s : State, ∃ t, runTask (.pos .cicKey) s = .next t ∧ t.cicPc = .idle ∧
    (s.cfg.compareKeyInit = .specDefault →
      readCells .cic Config.cmp0 16 t = (Config.seedDerive s.cfg.secret).toList ∧
      readCells .cic Config.cmp1 16 t = s.cfg.cksPlain.toList) ∧
    CellsUnchangedOutside .cic (cellsFrom Config.cmp0 16 ++ cellsFrom Config.cmp1 16) s t ∧
    Continues .cic [.pos .cicIdle] s t ∧
    Unchanged (.mem .cic :: .cicPc :: .position .cic :: .carry .cic :: scratchRegisters .cic) s t)

/-- 30 R114, 45 R340, R345, R349: the idle loop reads two bits, the first one first, and they choose the operation: 0, 0
compare; 1, 0 challenge; 1, 1 reset and restart, each of which enters its control state; 0, 1 the CIC dies, and its
registers hold any value (10 R31, R51; log 31). -/
def Obligations.CicSelectorChooses : Prop :=
  (decodeCicCmd false false = .ciccmdCompare ∧ decodeCicCmd true false = .ciccmdChallenge ∧
    decodeCicCmd true true = .ciccmdReset ∧ decodeCicCmd false true = .ciccmdReserved) ∧
  (∀ s : State, ∃ t, runTask (.pos .cicIdle) s = .next t ∧ Continues .cic [.op .readBit, .pos .selectFirst] s t ∧
    Unchanged [.position .cic] s t) ∧
  (∀ s : State, s.cic.cont = [] → s.cicPc = .idle →
    engineStep .cic s = runTask (.pos .cicIdle) { s with active := .cic }) ∧
  (∀ s : State, ∃ t, runTask (.pos .selectFirst) s = .next t ∧
    Continues .cic [.op .readBit, .pos (.selectSecond (retBit .cic s))] s t ∧ Unchanged [.position .cic] s t) ∧
  (∀ (s : State) (s1 : Bool), ∃ t, runTask (.pos (.selectSecond s1)) s = .next t ∧
    Continues .cic [.op (decodeCicCmd s1 (retBit .cic s))] s t ∧ Unchanged [.position .cic] s t) ∧
  (∀ (i : Instr) (ts : List Task), (i, ts) ∈ [(Instr.ciccmdCompare, [Task.op .cicCompare]),
      (.ciccmdChallenge, [.op .cicChallenge]), (.ciccmdReset, [.op .cicReset])] →
    ∀ s : State, ∃ t, exec i s = .next t ∧ Continues .cic ts s t ∧ Unchanged [.position .cic] s t) ∧
  (∀ (i : Instr) (pc : CicPc), (i, pc) ∈ [(Instr.cicCompare, CicPc.compare), (.cicChallenge, .challenge),
      (.cicReset, .reset)] →
    ∀ s : State, ∃ t, exec i s = .next t ∧ t.cicPc = pc ∧
      Unchanged (.cicPc :: .mem .cic :: .position .cic :: .carry .cic :: scratchRegisters .cic) s t) ∧
  (∀ s : State, ∃ t, exec .ciccmdReserved s = .next t ∧ t.cicPc = .dead ∧
    Unchanged (.cicPc :: .position .cic :: .carry .cic :: scratchRegisters .cic) s t ∧
    engineStep .cic t = .next { t with active := .cic })

/-- 45 R344, R346, R348: the three operations of the CIC: compare, with the three rounds and its death on a remembered
mismatch; challenge, which ends in the idle loop; reset, which marks the next boot warm, signals ready and starts
`CIC.Main` again from its first line. The registers hold any value after the rounds of a compare and at every end, its
death among them (10 R51; log 31). -/
def Obligations.CicOperations : Prop :=
  (∀ s : State, ∃ t, ∃ i : Nibble, exec .cicCompare s = .next t ∧ t.cicPc = .compare ∧
    toWindow (readCells .cic Config.cmp0 16 t) =
      Config.compareRound^[3] (toWindow (readCells .cic Config.cmp0 16 s)) ∧
    toWindow (readCells .cic Config.cmp1 16 t) =
      Config.compareRound^[3] (toWindow (readCells .cic Config.cmp1 16 s)) ∧
    CellsUnchangedOutside .cic (cellsFrom Config.cmp0 16 ++ cellsFrom Config.cmp1 16) s t ∧
    (s.cfg.compareStart = .specDefault → i = (if readCell .cic (cellAt Config.cmp1 7) t = 0 then 1
      else readCell .cic (cellAt Config.cmp1 7) t)) ∧
    Continues .cic [.op .readBit, .pos (.compareGot i true)] s t ∧
    Unchanged (.cicPc :: .mem .cic :: .position .cic :: .carry .cic :: scratchRegisters .cic) s t) ∧
  (∀ (s : State) (i : Nibble) (ok : Bool), ∃ t, runTask (.pos (.compareGot i ok)) s = .next t ∧
    Continues .cic [.op (.writeBit (cellBit .cic (cellAt Config.cmp1 i.toNat) 0 s)),
      .pos (.comparePut i (ok && retBit .cic s == cellBit .cic (cellAt Config.cmp0 i.toNat) 0 s))] s t ∧
    Unchanged [.position .cic] s t) ∧
  (∀ (s : State) (i : Nibble) (ok : Bool), ∃ t, runTask (.pos (.comparePut i ok)) s = .next t ∧
    (compareNext s.cfg i ≠ 0 → Unchanged [.position .cic] s t ∧
      Continues .cic [.op .readBit, .pos (.compareGot (compareNext s.cfg i) ok)] s t) ∧
    (compareNext s.cfg i = 0 → ok = true → t.cicPc = .idle ∧ Continues .cic [.pos .cicIdle] s t) ∧
    (compareNext s.cfg i = 0 → ok = false → t.cicPc = .dead) ∧
    Unchanged (.cicPc :: .position .cic :: .carry .cic :: scratchRegisters .cic) s t) ∧
  (∀ s : State, ∃ t, exec .cicChallenge s = .next t ∧ t.cicPc = .challenge ∧
    Continues .cic [.op (.readBuf Config.chalBuf 32),
      .op (if s.cfg.chalCapable then .challengeTransform Config.chalBuf else .complementAll Config.chalBuf),
      .op (.writeBuf Config.chalBuf 32), .pos .challengeSent] s t ∧ Unchanged [.cicPc, .position .cic] s t) ∧
  (∀ s : State, ∃ t, runTask (.pos .challengeSent) s = .next t ∧ t.cicPc = .idle ∧
    Continues .cic [.pos .cicIdle] s t ∧
    Unchanged (.cicPc :: .position .cic :: .carry .cic :: scratchRegisters .cic) s t) ∧
  (∀ s : State, ∃ t, exec .cicReset s = .next t ∧ t.cicPc = .reset ∧
    Continues .cic [.op .resetCounter, .pos .resetCounted, .op .cicMain] s t ∧
    Unchanged [.cicPc, .position .cic] s t) ∧
  (∀ s : State, ∃ t, runTask (.pos .resetCounted) s = .next t ∧
    (∀ i < 4, cellBit .cic Config.cst i t = if i = 0 then true else cellBit .cic Config.cst i s) ∧
    CellsUnchangedOutside .cic [Config.cst] s t ∧ Continues .cic [.op (.writeBit false)] s t ∧
    Unchanged (.mem .cic :: .position .cic :: .carry .cic :: scratchRegisters .cic) s t)

/-! ## Interrupts, fatal action, halting, host (60) -/

/-- 60 R364, R365, R367: a `POLL` takes at most one interrupt, only with `IE` set and none in service, only a source that
is pending and enabled, and A before B; otherwise nothing changes. -/
def Obligations.PollTakesOneInterrupt : Prop :=
  ∀ s : State,
    (s.ie = true → s.isr = none → s.ifa = true → bitOf s.pifLatch.inten 0 = true →
      ∃ t, exec .poll s = .next t ∧ InterruptEntered .a s t) ∧
    (s.ie = true → s.isr = none → (s.ifa && bitOf s.pifLatch.inten 0) = false → s.ifb = true →
      bitOf s.pifLatch.inten 1 = true → ∃ t, exec .poll s = .next t ∧ InterruptEntered .b s t) ∧
    (s.ie = false ∨ s.isr ≠ none ∨ ((s.ifa && bitOf s.pifLatch.inten 0) = false ∧
        (s.ifb && bitOf s.pifLatch.inten 1) = false) → exec .poll s = .next s)

/-- 60 R366, R368, 10 R51: entry saves `pc` and position and exchanges the pointers; the return gives all back and sets
`IE`; the end of a service before it changes `A`, `X` and `C` alone, the pointers being kept (10 R31, R51); entry and
return together change nothing else. A return with no interrupt in service is the model's choice (log 19): pointers
exchanged, `IE` set. -/
def Obligations.InterruptEntryAndReturn : Prop :=
  (∀ (s : State) (x : IntSrc), ∃ t, exec (.intEntry x) s = .next t ∧ InterruptEntered x s t) ∧
  (∀ (s : State) (r : IsrRecord), s.isr = some r → ∃ t, exec .intReturn s = .next t ∧ t.pifPc = r.pc ∧
    t.pif.cont = r.position ∧ t.isr = none ∧ t.ie = true ∧ t.pif.B = s.pif.SB ∧ t.pif.SB = s.pif.B ∧
    Unchanged [.ptrB .pif, .ptrSB .pif, .position .pif, .pifPc, .isr, .ie] s t) ∧
  (∀ (s : State) (x : IntSrc), ∃ t, runTask (.pos (.serviceEnd x)) s = .next t ∧
    Unchanged (.carry .pif :: scratchRegisters .pif) s t ∧
    (s.isr ≠ none → t.pif.B = s.pif.B ∧ t.pif.SB = s.pif.SB)) ∧
  (∀ (s t u : State) (x : IntSrc), exec (.intEntry x) s = .next t → exec .intReturn t = .next u →
    s.isr = none → Unchanged [.ifa, .ifb, .ie] s u ∧ u.ie = true) ∧
  (∀ s : State, s.isr = none → ∃ t, exec .intReturn s = .next t ∧ t.ie = true ∧ t.pif.B = s.pif.SB ∧
    t.pif.SB = s.pif.B ∧ Unchanged [.ptrB .pif, .ptrSB .pif, .ie] s t)

/-- 60 R370: `raise Fatal(cause)`; and in `S_FATAL` every step of the PIF is one turn of the strobe and nothing else. After
the first the registers hold any value (10 R31, R51; log 31). Raised again in `S_FATAL`, which no run does, it records the
later cause, where 10 R46 has it written once (DESIGN CHOICE, log 42). -/
def Obligations.FatalAction : Prop :=
  (∀ (s : State) (c : FatalCause), ∃ t, exec (.fatal c) s = .next t ∧ FatalRaised c s t) ∧
  (∀ s : State, s.pifPc = .fatal → ∃ t, engineStep .pif s = .next t ∧
    Logged .pif [.write .reset 1, .write .reset 0] s t ∧ t.pif.latch.reset = 0 ∧ t.active = .pif ∧
    Unchanged [.latch .pif .reset, .log .pif, .active] s t)

/-- 60 R380, R381: `HALT` saves `pc` and waits; while `IFA` is clear the PIF has no step; `IFA` alone wakes it, whatever
`IE`, `INTEN` and `IFB` are, and nothing else of it changes; `AckTransfer` writes the acknowledgment, then halts. -/
def Obligations.HaltAndAcknowledge : Prop :=
  (∀ s : State, ∃ t, exec .halt s = .next t ∧ t.haltPc = s.pifPc ∧ t.pifPc = .peripheralIdle ∧ t.halted = true ∧
    Unchanged [.haltPc, .pifPc, .halted] s t) ∧
  (∀ s : State, ∃ t, exec .ackTransfer s = .next t ∧ t.pifLatch.jbCtrl = 4 ∧
    Logged .pif [.write .jbCtrl 4] s t ∧ t.haltPc = s.pifPc ∧ t.pifPc = .peripheralIdle ∧ t.halted = true ∧
    Unchanged [.latch .pif .jbCtrl, .log .pif, .haltPc, .pifPc, .halted] s t) ∧
  (∀ s : State, s.halted = true → s.pifPc ≠ .fatal → s.ifa = false →
    engineStep .pif s = .next { s with active := .pif }) ∧
  (∀ s : State, s.halted = true → s.pifPc ≠ .fatal → s.ifa = true → ∃ t, engineStep .pif s = .next t ∧
    t.ifa = false ∧ t.halted = false ∧ t.pifPc = s.haltPc ∧ t.active = .pif ∧
    Unchanged [.ifa, .halted, .pifPc, .active] s t)

/-- 60 R382 to R385, 30 R110: Interrupt A reads the kind once and runs its service; reads of 4 bytes and writes acknowledge;
a write then looks at `JOYBUS`, which parses the shared region; a read of 64 bytes goes to the challenge where its bit is
set, marked pending and unacknowledged once the boot is complete, and else to the JoyBus transfer; the two flags by
themselves do so in an Interrupt A. -/
def Obligations.ServiceOfInterruptA : Prop :=
  (∀ s : State, ∃ t, ∃ v : Nibble, exec .pifIntA s = .next t ∧ v = (portRead .pif .jbStatus s).1 ∧
    Logged .pif [.read .jbStatus v] s t ∧
    Continues .pif [.op (if bitOf v 1 then (if bitOf v 0 then .xkindWrite64 else .xkindRead64)
      else (if bitOf v 0 then .xkindWrite4 else .xkindRead4)), .pos (.serviceEnd .a), .op .intReturn] s t ∧
    Unchanged (.position .pif :: .log .pif :: portSupply) s t) ∧
  (∀ s : State, ∃ t, exec .xkindRead4 s = .next t ∧ Continues .pif [.op .ackTransfer] s t ∧
    Unchanged [.position .pif] s t) ∧
  (∀ i ∈ [Instr.xkindWrite4, Instr.xkindWrite64], ∀ s : State, ∃ t, exec i s = .next t ∧
    Continues .pif [.op .ackTransfer, .pos .writeServed] s t ∧ Unchanged [.position .pif] s t) ∧
  (∀ s : State, ∃ t, runTask (.pos .writeServed) s = .next t ∧ Unchanged [.position .pif] s t ∧
    Continues .pif (if cellBit .pif Config.cmdCmd 0 s then [.op .pifJoybusParse] else []) s t) ∧
  (∀ s : State, ∃ t, exec .xkindRead64 s = .next t ∧
    (if cellBit .pif Config.cmdCmd 1 s = true then ChallengeServed s t
    else Continues .pif [.op .pifJoybusTransfer, .op .ackTransfer] s t ∧ Unchanged [.position .pif] s t)) ∧
  (∀ (s : State) (r : IsrRecord), s.isr = some r → r.src = .a → ∃ t, exec .cmdJoybus s = .next t ∧
    Continues .pif [.op .pifJoybusParse] s t ∧ Unchanged [.position .pif] s t) ∧
  (∀ (s : State) (r : IsrRecord), s.isr = some r → r.src = .a →
    ∃ t, exec .cmdChallenge s = .next t ∧ ChallengeServed s t)

/-- 60 R387: Interrupt B clears `RUNNING`, turns itself off, raises the pre-reset signal and returns. -/
def Obligations.ServiceOfInterruptB : Prop :=
  ∀ s : State, ∃ t, exec .pifIntB s = .next t ∧
    (∀ i < 4, cellBit .pif Config.stMain i t = if i = 1 then false else cellBit .pif Config.stMain i s) ∧
    CellsUnchangedOutside .pif [Config.stMain] s t ∧
    Logged .pif [.write .inten 1, .write .reset 2] s t ∧ t.pifLatch.inten = 1 ∧
    t.pif.latch.reset = 2 ∧ Continues .pif [.pos (.serviceEnd .b), .op .intReturn] s t ∧
    Unchanged [.mem .pif, .latch .pif .inten, .latch .pif .reset, .log .pif, .position .pif] s t

/-- 60 R400, R402, R404, R396, R406, 70 R421: the host's actions. A value supplied is laid ready after those before it,
for any port and at any time: this queue is the model's form of `host.supply` (DESIGN CHOICE, log 6). The host chooses
which engine takes its next step. A request needs a PIF that is not halted and no open transfer; cells are reached only in
a halt window, only in the shared region, written only in a write transfer; the completion once; the button any time. What
breaks a duty is refused. That a window is closed from the completion on, so that what follows it is refused before the PIF
has woken, is the model's choice (DESIGN CHOICE, log 17), and so is it that no window is held to the payload of 60 R403
(DESIGN CHOICE, log 41). That a read whose challenge a reset has dropped counts as open is log 32. Power-on, from every
state, gives both engines the values of 10 R49; what it keeps of the host's and the model's own fields is log 18. -/
def Obligations.HostActions : Prop :=
  (∀ (s : State) (k : XKind), s.halted = false → s.xfer = none → ∃ t, hostAction (.request k) s = .next t ∧
    t.ifa = true ∧ t.xfer = some k ∧ t.kindDue = some k ∧ Unchanged [.ifa, .xfer, .kindDue] s t) ∧
  (∀ (s : State) (k : XKind), s.halted = true ∨ s.xfer ≠ none →
    hostAction (.request k) s = .refused .requestNotAllowed) ∧
  (∀ (s : State) (k : XKind) (a : Addr) (v : Nibble), s.halted = true → s.ifa = false → 0x80 ≤ a.toNat →
    s.xfer = some k → k = .write4 ∨ k = .write64 → ∃ t, hostAction (.sharedWrite a v) s = .next t ∧
      readCell .pif a t = v ∧ CellsUnchangedOutside .pif [a] s t ∧ Unchanged [.mem .pif] s t) ∧
  (∀ (s : State) (a : Addr) (v : Nibble),
    s.halted = false ∨ s.ifa = true ∨ a.toNat < 0x80 ∨ s.xfer ∉ [some .write4, some .write64] →
    hostAction (.sharedWrite a v) s = .refused .sharedAccessNotAllowed) ∧
  (∀ (s : State) (a : Addr), s.halted = true → s.ifa = false → 0x80 ≤ a.toNat →
    ∃ t, hostAction (.sharedRead a) s = .next t ∧ t.seen = (a, readCell .pif a s) :: s.seen ∧
      Unchanged [.seen] s t) ∧
  (∀ (s : State) (a : Addr), s.halted = false ∨ s.ifa = true ∨ a.toNat < 0x80 →
    hostAction (.sharedRead a) s = .refused .sharedAccessNotAllowed) ∧
  (∀ s : State, s.halted = true → s.ifa = false → ∃ t, hostAction .complete s = .next t ∧ t.ifa = true ∧
    t.xfer = none ∧ Unchanged [.ifa, .xfer] s t) ∧
  (∀ s : State, s.halted = false ∨ s.ifa = true → hostAction .complete s = .refused .completeNotAllowed) ∧
  (∀ s : State, ∃ t, hostAction .resetButton s = .next t ∧ t.ifb = true ∧ Unchanged [.ifb] s t) ∧
  (∀ (s : State) (p : Port) (v : Nibble), ∃ t, hostAction (.supply p v) s = .next t ∧
    t.supply = s.supply ++ [(p, v)] ∧ Unchanged [.supply] s t) ∧
  (∀ (s : State) (w : Who), hostAction (.schedule w) s = engineStep w s) ∧
  (∀ s : State, ∃ t, hostAction .powerOn s = .next t ∧
    (∀ f : Field, f ∉ [.log .pif, .log .cic, .script, .supply, .seen, .active, .opField, .draws, .cfg] →
      f.same State.reset t) ∧
    (∀ f ∈ [Field.log .pif, .log .cic, .script, .supply, .seen, .active, .opField, .draws, .cfg], f.same s t))

/-! ## The whole machine -/

/-- 10 R20, R21 in the form of log 12: a step from memories in canonical form leaves them so. -/
def Obligations.StepKeepsMemoriesCanonical : Prop :=
  ∀ s t : State, MemoriesCanonical s → step s = .next t → MemoriesCanonical t

/-- 00 R4, 45 R340, 10 R46, 60 R370, 44 R274: the tasks of each engine stay its own, `S_FATAL` always has its cause, and the
parse position stays on a byte of the shared region or after it. -/
def Obligations.StepKeepsControlInvariants : Prop :=
  ∀ s t : State, step s = .next t → (TasksOwned s → TasksOwned t) ∧ (FatalHasCause s → FatalHasCause t) ∧
    (ParseAligned s → ParseAligned t)

/-- The state after reset meets every condition that a step keeps. -/
def Obligations.ResetMeetsTheInvariants : Prop :=
  StepInvariant State.reset

/-- 60 R370, R406, 70 R452: `S_FATAL` is never left and its cause never changes, whatever the engines do and the host
does, but by power-on. -/
def Obligations.FatalIsNeverLeft : Prop :=
  ∀ s t : State, TasksOwned s → s.pifPc = .fatal → s.opField = none → s.script.head? ≠ some .powerOn →
    step s = .next t → t.pifPc = .fatal ∧ t.fcause = s.fcause

/-- 00 R4, 60 R410: an engine's step reaches nothing of the other but what a bit exchange does: no cell, register or
pointer of the other, no interrupt state; only the link latch, the log, the position and the bit read. -/
def Obligations.EnginesAreIsolated : Prop :=
  (∀ s t : State, TasksOwned s → engineStep .cic s = .next t →
    Unchanged (engineParts .cic ++ linkParts .pif ++ [.cicPc, .supply, .kindDue, .draws, .active]) s t) ∧
  (∀ s t : State, TasksOwned s → engineStep .pif s = .next t →
    Unchanged (engineParts .pif ++ linkParts .cic ++ [.pifPc, .ie, .ifa, .ifb, .isr, .halted, .haltPc, .fcause, .parse,
      .supply, .kindDue, .draws, .active]) s t)

/-- 60 R362, R364: an engine comes to have an interrupt in service only by a `POLL` (or by the entry that a `POLL` makes),
and `IE` comes to be set only at the end of startup or by an interrupt return. -/
def Obligations.InterruptsOnlyAtPollPoints : Prop :=
  ∀ (s u : State) (t : Task), runTask t s = .next u →
    (s.isr = none → u.isr ≠ none → t = .op .poll ∨ ∃ x, t = .op (.intEntry x)) ∧
    (s.ie = false → u.ie = true → t = .pos .seedReceived ∨ t = .op .intReturn)
end

