-- ==== Sys2Proof/Laws/State.lean ====
section
/-! SUPPORT. What each update of the state does to each field, one lemma per field per update. -/

namespace Sys2Proof.Machine

theorem eng_modEng_same (w : Who) (f : Engine → Engine) (s : State) : (modEng w f s).eng w = f (s.eng w) := by
  cases w <;> rfl

theorem eng_modEng_ne {v w : Who} (h : v ≠ w) (f : Engine → Engine) (s : State) :
    (modEng w f s).eng v = s.eng v := by
  cases v <;> cases w <;> first | rfl | exact absurd rfl h

theorem Who.other_ne (w : Who) : w.other ≠ w := by cases w <;> decide

theorem Who.ne_other (w : Who) : w ≠ w.other := by cases w <;> decide

@[simp] theorem Who.other_other (w : Who) : w.other.other = w := by cases w <;> rfl

@[simp] theorem State.eng_pif (s : State) : s.eng .pif = s.pif := rfl

@[simp] theorem State.eng_cic (s : State) : s.eng .cic = s.cic := rfl

@[simp] theorem modEng_pifPc (w : Who) (f : Engine → Engine) (s : State) : (modEng w f s).pifPc = s.pifPc := by
  cases w <;> rfl
@[simp] theorem modEng_cicPc (w : Who) (f : Engine → Engine) (s : State) : (modEng w f s).cicPc = s.cicPc := by
  cases w <;> rfl
@[simp] theorem modEng_ie (w : Who) (f : Engine → Engine) (s : State) : (modEng w f s).ie = s.ie := by
  cases w <;> rfl
@[simp] theorem modEng_ifa (w : Who) (f : Engine → Engine) (s : State) : (modEng w f s).ifa = s.ifa := by
  cases w <;> rfl
@[simp] theorem modEng_ifb (w : Who) (f : Engine → Engine) (s : State) : (modEng w f s).ifb = s.ifb := by
  cases w <;> rfl
@[simp] theorem modEng_isr (w : Who) (f : Engine → Engine) (s : State) : (modEng w f s).isr = s.isr := by
  cases w <;> rfl
@[simp] theorem modEng_halted (w : Who) (f : Engine → Engine) (s : State) : (modEng w f s).halted = s.halted := by
  cases w <;> rfl
@[simp] theorem modEng_haltPc (w : Who) (f : Engine → Engine) (s : State) : (modEng w f s).haltPc = s.haltPc := by
  cases w <;> rfl
@[simp] theorem modEng_fcause (w : Who) (f : Engine → Engine) (s : State) : (modEng w f s).fcause = s.fcause := by
  cases w <;> rfl
@[simp] theorem modEng_parse (w : Who) (f : Engine → Engine) (s : State) : (modEng w f s).parse = s.parse := by
  cases w <;> rfl
@[simp] theorem modEng_pifLatch (w : Who) (f : Engine → Engine) (s : State) : (modEng w f s).pifLatch = s.pifLatch := by
  cases w <;> rfl
@[simp] theorem modEng_xfer (w : Who) (f : Engine → Engine) (s : State) : (modEng w f s).xfer = s.xfer := by
  cases w <;> rfl
@[simp] theorem modEng_kindDue (w : Who) (f : Engine → Engine) (s : State) : (modEng w f s).kindDue = s.kindDue := by
  cases w <;> rfl
@[simp] theorem modEng_supply (w : Who) (f : Engine → Engine) (s : State) : (modEng w f s).supply = s.supply := by
  cases w <;> rfl
@[simp] theorem modEng_seen (w : Who) (f : Engine → Engine) (s : State) : (modEng w f s).seen = s.seen := by
  cases w <;> rfl
@[simp] theorem modEng_script (w : Who) (f : Engine → Engine) (s : State) : (modEng w f s).script = s.script := by
  cases w <;> rfl
@[simp] theorem modEng_active (w : Who) (f : Engine → Engine) (s : State) : (modEng w f s).active = s.active := by
  cases w <;> rfl
@[simp] theorem modEng_opField (w : Who) (f : Engine → Engine) (s : State) : (modEng w f s).opField = s.opField := by
  cases w <;> rfl
@[simp] theorem modEng_draws (w : Who) (f : Engine → Engine) (s : State) : (modEng w f s).draws = s.draws := by
  cases w <;> rfl
@[simp] theorem modEng_cfg (w : Who) (f : Engine → Engine) (s : State) : (modEng w f s).cfg = s.cfg := by
  cases w <;> rfl


/-! ### `writeCell` -/

@[simp] theorem writeCell_pifPc (w : Who) (a : Addr) (x : Nibble) (s : State) : (writeCell w a x s).pifPc = s.pifPc := by
  cases w <;> rfl
@[simp] theorem writeCell_cicPc (w : Who) (a : Addr) (x : Nibble) (s : State) : (writeCell w a x s).cicPc = s.cicPc := by
  cases w <;> rfl
@[simp] theorem writeCell_ie (w : Who) (a : Addr) (x : Nibble) (s : State) : (writeCell w a x s).ie = s.ie := by
  cases w <;> rfl
@[simp] theorem writeCell_ifa (w : Who) (a : Addr) (x : Nibble) (s : State) : (writeCell w a x s).ifa = s.ifa := by
  cases w <;> rfl
@[simp] theorem writeCell_ifb (w : Who) (a : Addr) (x : Nibble) (s : State) : (writeCell w a x s).ifb = s.ifb := by
  cases w <;> rfl
@[simp] theorem writeCell_isr (w : Who) (a : Addr) (x : Nibble) (s : State) : (writeCell w a x s).isr = s.isr := by
  cases w <;> rfl
@[simp] theorem writeCell_halted (w : Who) (a : Addr) (x : Nibble) (s : State) : (writeCell w a x s).halted = s.halted := by
  cases w <;> rfl
@[simp] theorem writeCell_haltPc (w : Who) (a : Addr) (x : Nibble) (s : State) : (writeCell w a x s).haltPc = s.haltPc := by
  cases w <;> rfl
@[simp] theorem writeCell_fcause (w : Who) (a : Addr) (x : Nibble) (s : State) : (writeCell w a x s).fcause = s.fcause := by
  cases w <;> rfl
@[simp] theorem writeCell_parse (w : Who) (a : Addr) (x : Nibble) (s : State) : (writeCell w a x s).parse = s.parse := by
  cases w <;> rfl
@[simp] theorem writeCell_pifLatch (w : Who) (a : Addr) (x : Nibble) (s : State) : (writeCell w a x s).pifLatch = s.pifLatch := by
  cases w <;> rfl
@[simp] theorem writeCell_xfer (w : Who) (a : Addr) (x : Nibble) (s : State) : (writeCell w a x s).xfer = s.xfer := by
  cases w <;> rfl
@[simp] theorem writeCell_kindDue (w : Who) (a : Addr) (x : Nibble) (s : State) : (writeCell w a x s).kindDue = s.kindDue := by
  cases w <;> rfl
@[simp] theorem writeCell_supply (w : Who) (a : Addr) (x : Nibble) (s : State) : (writeCell w a x s).supply = s.supply := by
  cases w <;> rfl
@[simp] theorem writeCell_seen (w : Who) (a : Addr) (x : Nibble) (s : State) : (writeCell w a x s).seen = s.seen := by
  cases w <;> rfl
@[simp] theorem writeCell_script (w : Who) (a : Addr) (x : Nibble) (s : State) : (writeCell w a x s).script = s.script := by
  cases w <;> rfl
@[simp] theorem writeCell_active (w : Who) (a : Addr) (x : Nibble) (s : State) : (writeCell w a x s).active = s.active := by
  cases w <;> rfl
@[simp] theorem writeCell_opField (w : Who) (a : Addr) (x : Nibble) (s : State) : (writeCell w a x s).opField = s.opField := by
  cases w <;> rfl
@[simp] theorem writeCell_draws (w : Who) (a : Addr) (x : Nibble) (s : State) : (writeCell w a x s).draws = s.draws := by
  cases w <;> rfl
@[simp] theorem writeCell_cfg (w : Who) (a : Addr) (x : Nibble) (s : State) : (writeCell w a x s).cfg = s.cfg := by
  cases w <;> rfl
/-- The other engine is untouched by `writeCell`. -/
theorem eng_writeCell_ne {v w : Who} (h : v ≠ w) (a : Addr) (x : Nibble) (s : State) : (writeCell w a x s).eng v = s.eng v := eng_modEng_ne h _ s
@[simp] theorem writeCell_mem (w : Who) (a : Addr) (x : Nibble) (s : State) : ((writeCell w a x s).eng w).mem = (s.eng w).mem.write a x := by
  cases w <;> rfl
@[simp] theorem writeCell_A (v : Who) (w : Who) (a : Addr) (x : Nibble) (s : State) : ((writeCell w a x s).eng v).A = (s.eng v).A := by
  cases v <;> cases w <;> rfl
@[simp] theorem writeCell_X (v : Who) (w : Who) (a : Addr) (x : Nibble) (s : State) : ((writeCell w a x s).eng v).X = (s.eng v).X := by
  cases v <;> cases w <;> rfl
@[simp] theorem writeCell_B (v : Who) (w : Who) (a : Addr) (x : Nibble) (s : State) : ((writeCell w a x s).eng v).B = (s.eng v).B := by
  cases v <;> cases w <;> rfl
@[simp] theorem writeCell_SB (v : Who) (w : Who) (a : Addr) (x : Nibble) (s : State) : ((writeCell w a x s).eng v).SB = (s.eng v).SB := by
  cases v <;> cases w <;> rfl
@[simp] theorem writeCell_C (v : Who) (w : Who) (a : Addr) (x : Nibble) (s : State) : ((writeCell w a x s).eng v).C = (s.eng v).C := by
  cases v <;> cases w <;> rfl
@[simp] theorem writeCell_latch (v : Who) (w : Who) (a : Addr) (x : Nibble) (s : State) : ((writeCell w a x s).eng v).latch = (s.eng v).latch := by
  cases v <;> cases w <;> rfl
@[simp] theorem writeCell_log (v : Who) (w : Who) (a : Addr) (x : Nibble) (s : State) : ((writeCell w a x s).eng v).log = (s.eng v).log := by
  cases v <;> cases w <;> rfl
@[simp] theorem writeCell_cont (v : Who) (w : Who) (a : Addr) (x : Nibble) (s : State) : ((writeCell w a x s).eng v).cont = (s.eng v).cont := by
  cases v <;> cases w <;> rfl
@[simp] theorem writeCell_ret (v : Who) (w : Who) (a : Addr) (x : Nibble) (s : State) : ((writeCell w a x s).eng v).ret = (s.eng v).ret := by
  cases v <;> cases w <;> rfl

/-! ### `setB` -/

@[simp] theorem setB_pifPc (w : Who) (p : Pointer) (s : State) : (setB w p s).pifPc = s.pifPc := by
  cases w <;> rfl
@[simp] theorem setB_cicPc (w : Who) (p : Pointer) (s : State) : (setB w p s).cicPc = s.cicPc := by
  cases w <;> rfl
@[simp] theorem setB_ie (w : Who) (p : Pointer) (s : State) : (setB w p s).ie = s.ie := by
  cases w <;> rfl
@[simp] theorem setB_ifa (w : Who) (p : Pointer) (s : State) : (setB w p s).ifa = s.ifa := by
  cases w <;> rfl
@[simp] theorem setB_ifb (w : Who) (p : Pointer) (s : State) : (setB w p s).ifb = s.ifb := by
  cases w <;> rfl
@[simp] theorem setB_isr (w : Who) (p : Pointer) (s : State) : (setB w p s).isr = s.isr := by
  cases w <;> rfl
@[simp] theorem setB_halted (w : Who) (p : Pointer) (s : State) : (setB w p s).halted = s.halted := by
  cases w <;> rfl
@[simp] theorem setB_haltPc (w : Who) (p : Pointer) (s : State) : (setB w p s).haltPc = s.haltPc := by
  cases w <;> rfl
@[simp] theorem setB_fcause (w : Who) (p : Pointer) (s : State) : (setB w p s).fcause = s.fcause := by
  cases w <;> rfl
@[simp] theorem setB_parse (w : Who) (p : Pointer) (s : State) : (setB w p s).parse = s.parse := by
  cases w <;> rfl
@[simp] theorem setB_pifLatch (w : Who) (p : Pointer) (s : State) : (setB w p s).pifLatch = s.pifLatch := by
  cases w <;> rfl
@[simp] theorem setB_xfer (w : Who) (p : Pointer) (s : State) : (setB w p s).xfer = s.xfer := by
  cases w <;> rfl
@[simp] theorem setB_kindDue (w : Who) (p : Pointer) (s : State) : (setB w p s).kindDue = s.kindDue := by
  cases w <;> rfl
@[simp] theorem setB_supply (w : Who) (p : Pointer) (s : State) : (setB w p s).supply = s.supply := by
  cases w <;> rfl
@[simp] theorem setB_seen (w : Who) (p : Pointer) (s : State) : (setB w p s).seen = s.seen := by
  cases w <;> rfl
@[simp] theorem setB_script (w : Who) (p : Pointer) (s : State) : (setB w p s).script = s.script := by
  cases w <;> rfl
@[simp] theorem setB_active (w : Who) (p : Pointer) (s : State) : (setB w p s).active = s.active := by
  cases w <;> rfl
@[simp] theorem setB_opField (w : Who) (p : Pointer) (s : State) : (setB w p s).opField = s.opField := by
  cases w <;> rfl
@[simp] theorem setB_draws (w : Who) (p : Pointer) (s : State) : (setB w p s).draws = s.draws := by
  cases w <;> rfl
@[simp] theorem setB_cfg (w : Who) (p : Pointer) (s : State) : (setB w p s).cfg = s.cfg := by
  cases w <;> rfl
/-- The other engine is untouched by `setB`. -/
theorem eng_setB_ne {v w : Who} (h : v ≠ w) (p : Pointer) (s : State) : (setB w p s).eng v = s.eng v := eng_modEng_ne h _ s
@[simp] theorem setB_mem (v : Who) (w : Who) (p : Pointer) (s : State) : ((setB w p s).eng v).mem = (s.eng v).mem := by
  cases v <;> cases w <;> rfl
@[simp] theorem setB_A (v : Who) (w : Who) (p : Pointer) (s : State) : ((setB w p s).eng v).A = (s.eng v).A := by
  cases v <;> cases w <;> rfl
@[simp] theorem setB_X (v : Who) (w : Who) (p : Pointer) (s : State) : ((setB w p s).eng v).X = (s.eng v).X := by
  cases v <;> cases w <;> rfl
@[simp] theorem setB_B (w : Who) (p : Pointer) (s : State) : ((setB w p s).eng w).B = p := by
  cases w <;> rfl
@[simp] theorem setB_SB (v : Who) (w : Who) (p : Pointer) (s : State) : ((setB w p s).eng v).SB = (s.eng v).SB := by
  cases v <;> cases w <;> rfl
@[simp] theorem setB_C (v : Who) (w : Who) (p : Pointer) (s : State) : ((setB w p s).eng v).C = (s.eng v).C := by
  cases v <;> cases w <;> rfl
@[simp] theorem setB_latch (v : Who) (w : Who) (p : Pointer) (s : State) : ((setB w p s).eng v).latch = (s.eng v).latch := by
  cases v <;> cases w <;> rfl
@[simp] theorem setB_log (v : Who) (w : Who) (p : Pointer) (s : State) : ((setB w p s).eng v).log = (s.eng v).log := by
  cases v <;> cases w <;> rfl
@[simp] theorem setB_cont (v : Who) (w : Who) (p : Pointer) (s : State) : ((setB w p s).eng v).cont = (s.eng v).cont := by
  cases v <;> cases w <;> rfl
@[simp] theorem setB_ret (v : Who) (w : Who) (p : Pointer) (s : State) : ((setB w p s).eng v).ret = (s.eng v).ret := by
  cases v <;> cases w <;> rfl

/-! ### `setC` -/

@[simp] theorem setC_pifPc (w : Who) (c : Bool) (s : State) : (setC w c s).pifPc = s.pifPc := by
  cases w <;> rfl
@[simp] theorem setC_cicPc (w : Who) (c : Bool) (s : State) : (setC w c s).cicPc = s.cicPc := by
  cases w <;> rfl
@[simp] theorem setC_ie (w : Who) (c : Bool) (s : State) : (setC w c s).ie = s.ie := by
  cases w <;> rfl
@[simp] theorem setC_ifa (w : Who) (c : Bool) (s : State) : (setC w c s).ifa = s.ifa := by
  cases w <;> rfl
@[simp] theorem setC_ifb (w : Who) (c : Bool) (s : State) : (setC w c s).ifb = s.ifb := by
  cases w <;> rfl
@[simp] theorem setC_isr (w : Who) (c : Bool) (s : State) : (setC w c s).isr = s.isr := by
  cases w <;> rfl
@[simp] theorem setC_halted (w : Who) (c : Bool) (s : State) : (setC w c s).halted = s.halted := by
  cases w <;> rfl
@[simp] theorem setC_haltPc (w : Who) (c : Bool) (s : State) : (setC w c s).haltPc = s.haltPc := by
  cases w <;> rfl
@[simp] theorem setC_fcause (w : Who) (c : Bool) (s : State) : (setC w c s).fcause = s.fcause := by
  cases w <;> rfl
@[simp] theorem setC_parse (w : Who) (c : Bool) (s : State) : (setC w c s).parse = s.parse := by
  cases w <;> rfl
@[simp] theorem setC_pifLatch (w : Who) (c : Bool) (s : State) : (setC w c s).pifLatch = s.pifLatch := by
  cases w <;> rfl
@[simp] theorem setC_xfer (w : Who) (c : Bool) (s : State) : (setC w c s).xfer = s.xfer := by
  cases w <;> rfl
@[simp] theorem setC_kindDue (w : Who) (c : Bool) (s : State) : (setC w c s).kindDue = s.kindDue := by
  cases w <;> rfl
@[simp] theorem setC_supply (w : Who) (c : Bool) (s : State) : (setC w c s).supply = s.supply := by
  cases w <;> rfl
@[simp] theorem setC_seen (w : Who) (c : Bool) (s : State) : (setC w c s).seen = s.seen := by
  cases w <;> rfl
@[simp] theorem setC_script (w : Who) (c : Bool) (s : State) : (setC w c s).script = s.script := by
  cases w <;> rfl
@[simp] theorem setC_active (w : Who) (c : Bool) (s : State) : (setC w c s).active = s.active := by
  cases w <;> rfl
@[simp] theorem setC_opField (w : Who) (c : Bool) (s : State) : (setC w c s).opField = s.opField := by
  cases w <;> rfl
@[simp] theorem setC_draws (w : Who) (c : Bool) (s : State) : (setC w c s).draws = s.draws := by
  cases w <;> rfl
@[simp] theorem setC_cfg (w : Who) (c : Bool) (s : State) : (setC w c s).cfg = s.cfg := by
  cases w <;> rfl
/-- The other engine is untouched by `setC`. -/
theorem eng_setC_ne {v w : Who} (h : v ≠ w) (c : Bool) (s : State) : (setC w c s).eng v = s.eng v := eng_modEng_ne h _ s
@[simp] theorem setC_mem (v : Who) (w : Who) (c : Bool) (s : State) : ((setC w c s).eng v).mem = (s.eng v).mem := by
  cases v <;> cases w <;> rfl
@[simp] theorem setC_A (v : Who) (w : Who) (c : Bool) (s : State) : ((setC w c s).eng v).A = (s.eng v).A := by
  cases v <;> cases w <;> rfl
@[simp] theorem setC_X (v : Who) (w : Who) (c : Bool) (s : State) : ((setC w c s).eng v).X = (s.eng v).X := by
  cases v <;> cases w <;> rfl
@[simp] theorem setC_B (v : Who) (w : Who) (c : Bool) (s : State) : ((setC w c s).eng v).B = (s.eng v).B := by
  cases v <;> cases w <;> rfl
@[simp] theorem setC_SB (v : Who) (w : Who) (c : Bool) (s : State) : ((setC w c s).eng v).SB = (s.eng v).SB := by
  cases v <;> cases w <;> rfl
@[simp] theorem setC_C (w : Who) (c : Bool) (s : State) : ((setC w c s).eng w).C = c := by
  cases w <;> rfl
@[simp] theorem setC_latch (v : Who) (w : Who) (c : Bool) (s : State) : ((setC w c s).eng v).latch = (s.eng v).latch := by
  cases v <;> cases w <;> rfl
@[simp] theorem setC_log (v : Who) (w : Who) (c : Bool) (s : State) : ((setC w c s).eng v).log = (s.eng v).log := by
  cases v <;> cases w <;> rfl
@[simp] theorem setC_cont (v : Who) (w : Who) (c : Bool) (s : State) : ((setC w c s).eng v).cont = (s.eng v).cont := by
  cases v <;> cases w <;> rfl
@[simp] theorem setC_ret (v : Who) (w : Who) (c : Bool) (s : State) : ((setC w c s).eng v).ret = (s.eng v).ret := by
  cases v <;> cases w <;> rfl

/-! ### `deliver` -/

@[simp] theorem deliver_pifPc (w : Who) (x : Byte) (s : State) : (deliver w x s).pifPc = s.pifPc := by
  cases w <;> rfl
@[simp] theorem deliver_cicPc (w : Who) (x : Byte) (s : State) : (deliver w x s).cicPc = s.cicPc := by
  cases w <;> rfl
@[simp] theorem deliver_ie (w : Who) (x : Byte) (s : State) : (deliver w x s).ie = s.ie := by
  cases w <;> rfl
@[simp] theorem deliver_ifa (w : Who) (x : Byte) (s : State) : (deliver w x s).ifa = s.ifa := by
  cases w <;> rfl
@[simp] theorem deliver_ifb (w : Who) (x : Byte) (s : State) : (deliver w x s).ifb = s.ifb := by
  cases w <;> rfl
@[simp] theorem deliver_isr (w : Who) (x : Byte) (s : State) : (deliver w x s).isr = s.isr := by
  cases w <;> rfl
@[simp] theorem deliver_halted (w : Who) (x : Byte) (s : State) : (deliver w x s).halted = s.halted := by
  cases w <;> rfl
@[simp] theorem deliver_haltPc (w : Who) (x : Byte) (s : State) : (deliver w x s).haltPc = s.haltPc := by
  cases w <;> rfl
@[simp] theorem deliver_fcause (w : Who) (x : Byte) (s : State) : (deliver w x s).fcause = s.fcause := by
  cases w <;> rfl
@[simp] theorem deliver_parse (w : Who) (x : Byte) (s : State) : (deliver w x s).parse = s.parse := by
  cases w <;> rfl
@[simp] theorem deliver_pifLatch (w : Who) (x : Byte) (s : State) : (deliver w x s).pifLatch = s.pifLatch := by
  cases w <;> rfl
@[simp] theorem deliver_xfer (w : Who) (x : Byte) (s : State) : (deliver w x s).xfer = s.xfer := by
  cases w <;> rfl
@[simp] theorem deliver_kindDue (w : Who) (x : Byte) (s : State) : (deliver w x s).kindDue = s.kindDue := by
  cases w <;> rfl
@[simp] theorem deliver_supply (w : Who) (x : Byte) (s : State) : (deliver w x s).supply = s.supply := by
  cases w <;> rfl
@[simp] theorem deliver_seen (w : Who) (x : Byte) (s : State) : (deliver w x s).seen = s.seen := by
  cases w <;> rfl
@[simp] theorem deliver_script (w : Who) (x : Byte) (s : State) : (deliver w x s).script = s.script := by
  cases w <;> rfl
@[simp] theorem deliver_active (w : Who) (x : Byte) (s : State) : (deliver w x s).active = s.active := by
  cases w <;> rfl
@[simp] theorem deliver_opField (w : Who) (x : Byte) (s : State) : (deliver w x s).opField = s.opField := by
  cases w <;> rfl
@[simp] theorem deliver_draws (w : Who) (x : Byte) (s : State) : (deliver w x s).draws = s.draws := by
  cases w <;> rfl
@[simp] theorem deliver_cfg (w : Who) (x : Byte) (s : State) : (deliver w x s).cfg = s.cfg := by
  cases w <;> rfl
/-- The other engine is untouched by `deliver`. -/
theorem eng_deliver_ne {v w : Who} (h : v ≠ w) (x : Byte) (s : State) : (deliver w x s).eng v = s.eng v := eng_modEng_ne h _ s
@[simp] theorem deliver_mem (v : Who) (w : Who) (x : Byte) (s : State) : ((deliver w x s).eng v).mem = (s.eng v).mem := by
  cases v <;> cases w <;> rfl
@[simp] theorem deliver_A (v : Who) (w : Who) (x : Byte) (s : State) : ((deliver w x s).eng v).A = (s.eng v).A := by
  cases v <;> cases w <;> rfl
@[simp] theorem deliver_X (v : Who) (w : Who) (x : Byte) (s : State) : ((deliver w x s).eng v).X = (s.eng v).X := by
  cases v <;> cases w <;> rfl
@[simp] theorem deliver_B (v : Who) (w : Who) (x : Byte) (s : State) : ((deliver w x s).eng v).B = (s.eng v).B := by
  cases v <;> cases w <;> rfl
@[simp] theorem deliver_SB (v : Who) (w : Who) (x : Byte) (s : State) : ((deliver w x s).eng v).SB = (s.eng v).SB := by
  cases v <;> cases w <;> rfl
@[simp] theorem deliver_C (v : Who) (w : Who) (x : Byte) (s : State) : ((deliver w x s).eng v).C = (s.eng v).C := by
  cases v <;> cases w <;> rfl
@[simp] theorem deliver_latch (v : Who) (w : Who) (x : Byte) (s : State) : ((deliver w x s).eng v).latch = (s.eng v).latch := by
  cases v <;> cases w <;> rfl
@[simp] theorem deliver_log (v : Who) (w : Who) (x : Byte) (s : State) : ((deliver w x s).eng v).log = (s.eng v).log := by
  cases v <;> cases w <;> rfl
@[simp] theorem deliver_cont (v : Who) (w : Who) (x : Byte) (s : State) : ((deliver w x s).eng v).cont = (s.eng v).cont := by
  cases v <;> cases w <;> rfl
@[simp] theorem deliver_ret (w : Who) (x : Byte) (s : State) : ((deliver w x s).eng w).ret = x := by
  cases w <;> rfl

/-! ### `push` -/

@[simp] theorem push_pifPc (w : Who) (ts : List Task) (s : State) : (push w ts s).pifPc = s.pifPc := by
  cases w <;> rfl
@[simp] theorem push_cicPc (w : Who) (ts : List Task) (s : State) : (push w ts s).cicPc = s.cicPc := by
  cases w <;> rfl
@[simp] theorem push_ie (w : Who) (ts : List Task) (s : State) : (push w ts s).ie = s.ie := by
  cases w <;> rfl
@[simp] theorem push_ifa (w : Who) (ts : List Task) (s : State) : (push w ts s).ifa = s.ifa := by
  cases w <;> rfl
@[simp] theorem push_ifb (w : Who) (ts : List Task) (s : State) : (push w ts s).ifb = s.ifb := by
  cases w <;> rfl
@[simp] theorem push_isr (w : Who) (ts : List Task) (s : State) : (push w ts s).isr = s.isr := by
  cases w <;> rfl
@[simp] theorem push_halted (w : Who) (ts : List Task) (s : State) : (push w ts s).halted = s.halted := by
  cases w <;> rfl
@[simp] theorem push_haltPc (w : Who) (ts : List Task) (s : State) : (push w ts s).haltPc = s.haltPc := by
  cases w <;> rfl
@[simp] theorem push_fcause (w : Who) (ts : List Task) (s : State) : (push w ts s).fcause = s.fcause := by
  cases w <;> rfl
@[simp] theorem push_parse (w : Who) (ts : List Task) (s : State) : (push w ts s).parse = s.parse := by
  cases w <;> rfl
@[simp] theorem push_pifLatch (w : Who) (ts : List Task) (s : State) : (push w ts s).pifLatch = s.pifLatch := by
  cases w <;> rfl
@[simp] theorem push_xfer (w : Who) (ts : List Task) (s : State) : (push w ts s).xfer = s.xfer := by
  cases w <;> rfl
@[simp] theorem push_kindDue (w : Who) (ts : List Task) (s : State) : (push w ts s).kindDue = s.kindDue := by
  cases w <;> rfl
@[simp] theorem push_supply (w : Who) (ts : List Task) (s : State) : (push w ts s).supply = s.supply := by
  cases w <;> rfl
@[simp] theorem push_seen (w : Who) (ts : List Task) (s : State) : (push w ts s).seen = s.seen := by
  cases w <;> rfl
@[simp] theorem push_script (w : Who) (ts : List Task) (s : State) : (push w ts s).script = s.script := by
  cases w <;> rfl
@[simp] theorem push_active (w : Who) (ts : List Task) (s : State) : (push w ts s).active = s.active := by
  cases w <;> rfl
@[simp] theorem push_opField (w : Who) (ts : List Task) (s : State) : (push w ts s).opField = s.opField := by
  cases w <;> rfl
@[simp] theorem push_draws (w : Who) (ts : List Task) (s : State) : (push w ts s).draws = s.draws := by
  cases w <;> rfl
@[simp] theorem push_cfg (w : Who) (ts : List Task) (s : State) : (push w ts s).cfg = s.cfg := by
  cases w <;> rfl
/-- The other engine is untouched by `push`. -/
theorem eng_push_ne {v w : Who} (h : v ≠ w) (ts : List Task) (s : State) : (push w ts s).eng v = s.eng v := eng_modEng_ne h _ s
@[simp] theorem push_mem (v : Who) (w : Who) (ts : List Task) (s : State) : ((push w ts s).eng v).mem = (s.eng v).mem := by
  cases v <;> cases w <;> rfl
@[simp] theorem push_A (v : Who) (w : Who) (ts : List Task) (s : State) : ((push w ts s).eng v).A = (s.eng v).A := by
  cases v <;> cases w <;> rfl
@[simp] theorem push_X (v : Who) (w : Who) (ts : List Task) (s : State) : ((push w ts s).eng v).X = (s.eng v).X := by
  cases v <;> cases w <;> rfl
@[simp] theorem push_B (v : Who) (w : Who) (ts : List Task) (s : State) : ((push w ts s).eng v).B = (s.eng v).B := by
  cases v <;> cases w <;> rfl
@[simp] theorem push_SB (v : Who) (w : Who) (ts : List Task) (s : State) : ((push w ts s).eng v).SB = (s.eng v).SB := by
  cases v <;> cases w <;> rfl
@[simp] theorem push_C (v : Who) (w : Who) (ts : List Task) (s : State) : ((push w ts s).eng v).C = (s.eng v).C := by
  cases v <;> cases w <;> rfl
@[simp] theorem push_latch (v : Who) (w : Who) (ts : List Task) (s : State) : ((push w ts s).eng v).latch = (s.eng v).latch := by
  cases v <;> cases w <;> rfl
@[simp] theorem push_log (v : Who) (w : Who) (ts : List Task) (s : State) : ((push w ts s).eng v).log = (s.eng v).log := by
  cases v <;> cases w <;> rfl
@[simp] theorem push_cont (w : Who) (ts : List Task) (s : State) : ((push w ts s).eng w).cont = ts ++ (s.eng w).cont := by
  cases w <;> rfl
@[simp] theorem push_ret (v : Who) (w : Who) (ts : List Task) (s : State) : ((push w ts s).eng v).ret = (s.eng v).ret := by
  cases v <;> cases w <;> rfl

/-! ### `setCont` -/

@[simp] theorem setCont_pifPc (w : Who) (ts : List Task) (s : State) : (setCont w ts s).pifPc = s.pifPc := by
  cases w <;> rfl
@[simp] theorem setCont_cicPc (w : Who) (ts : List Task) (s : State) : (setCont w ts s).cicPc = s.cicPc := by
  cases w <;> rfl
@[simp] theorem setCont_ie (w : Who) (ts : List Task) (s : State) : (setCont w ts s).ie = s.ie := by
  cases w <;> rfl
@[simp] theorem setCont_ifa (w : Who) (ts : List Task) (s : State) : (setCont w ts s).ifa = s.ifa := by
  cases w <;> rfl
@[simp] theorem setCont_ifb (w : Who) (ts : List Task) (s : State) : (setCont w ts s).ifb = s.ifb := by
  cases w <;> rfl
@[simp] theorem setCont_isr (w : Who) (ts : List Task) (s : State) : (setCont w ts s).isr = s.isr := by
  cases w <;> rfl
@[simp] theorem setCont_halted (w : Who) (ts : List Task) (s : State) : (setCont w ts s).halted = s.halted := by
  cases w <;> rfl
@[simp] theorem setCont_haltPc (w : Who) (ts : List Task) (s : State) : (setCont w ts s).haltPc = s.haltPc := by
  cases w <;> rfl
@[simp] theorem setCont_fcause (w : Who) (ts : List Task) (s : State) : (setCont w ts s).fcause = s.fcause := by
  cases w <;> rfl
@[simp] theorem setCont_parse (w : Who) (ts : List Task) (s : State) : (setCont w ts s).parse = s.parse := by
  cases w <;> rfl
@[simp] theorem setCont_pifLatch (w : Who) (ts : List Task) (s : State) : (setCont w ts s).pifLatch = s.pifLatch := by
  cases w <;> rfl
@[simp] theorem setCont_xfer (w : Who) (ts : List Task) (s : State) : (setCont w ts s).xfer = s.xfer := by
  cases w <;> rfl
@[simp] theorem setCont_kindDue (w : Who) (ts : List Task) (s : State) : (setCont w ts s).kindDue = s.kindDue := by
  cases w <;> rfl
@[simp] theorem setCont_supply (w : Who) (ts : List Task) (s : State) : (setCont w ts s).supply = s.supply := by
  cases w <;> rfl
@[simp] theorem setCont_seen (w : Who) (ts : List Task) (s : State) : (setCont w ts s).seen = s.seen := by
  cases w <;> rfl
@[simp] theorem setCont_script (w : Who) (ts : List Task) (s : State) : (setCont w ts s).script = s.script := by
  cases w <;> rfl
@[simp] theorem setCont_active (w : Who) (ts : List Task) (s : State) : (setCont w ts s).active = s.active := by
  cases w <;> rfl
@[simp] theorem setCont_opField (w : Who) (ts : List Task) (s : State) : (setCont w ts s).opField = s.opField := by
  cases w <;> rfl
@[simp] theorem setCont_draws (w : Who) (ts : List Task) (s : State) : (setCont w ts s).draws = s.draws := by
  cases w <;> rfl
@[simp] theorem setCont_cfg (w : Who) (ts : List Task) (s : State) : (setCont w ts s).cfg = s.cfg := by
  cases w <;> rfl
/-- The other engine is untouched by `setCont`. -/
theorem eng_setCont_ne {v w : Who} (h : v ≠ w) (ts : List Task) (s : State) : (setCont w ts s).eng v = s.eng v := eng_modEng_ne h _ s
@[simp] theorem setCont_mem (v : Who) (w : Who) (ts : List Task) (s : State) : ((setCont w ts s).eng v).mem = (s.eng v).mem := by
  cases v <;> cases w <;> rfl
@[simp] theorem setCont_A (v : Who) (w : Who) (ts : List Task) (s : State) : ((setCont w ts s).eng v).A = (s.eng v).A := by
  cases v <;> cases w <;> rfl
@[simp] theorem setCont_X (v : Who) (w : Who) (ts : List Task) (s : State) : ((setCont w ts s).eng v).X = (s.eng v).X := by
  cases v <;> cases w <;> rfl
@[simp] theorem setCont_B (v : Who) (w : Who) (ts : List Task) (s : State) : ((setCont w ts s).eng v).B = (s.eng v).B := by
  cases v <;> cases w <;> rfl
@[simp] theorem setCont_SB (v : Who) (w : Who) (ts : List Task) (s : State) : ((setCont w ts s).eng v).SB = (s.eng v).SB := by
  cases v <;> cases w <;> rfl
@[simp] theorem setCont_C (v : Who) (w : Who) (ts : List Task) (s : State) : ((setCont w ts s).eng v).C = (s.eng v).C := by
  cases v <;> cases w <;> rfl
@[simp] theorem setCont_latch (v : Who) (w : Who) (ts : List Task) (s : State) : ((setCont w ts s).eng v).latch = (s.eng v).latch := by
  cases v <;> cases w <;> rfl
@[simp] theorem setCont_log (v : Who) (w : Who) (ts : List Task) (s : State) : ((setCont w ts s).eng v).log = (s.eng v).log := by
  cases v <;> cases w <;> rfl
@[simp] theorem setCont_cont (w : Who) (ts : List Task) (s : State) : ((setCont w ts s).eng w).cont = ts := by
  cases w <;> rfl
@[simp] theorem setCont_ret (v : Who) (w : Who) (ts : List Task) (s : State) : ((setCont w ts s).eng v).ret = (s.eng v).ret := by
  cases v <;> cases w <;> rfl

/-! ### `dropTask` -/

@[simp] theorem dropTask_pifPc (w : Who) (s : State) : (dropTask w s).pifPc = s.pifPc := by
  cases w <;> rfl
@[simp] theorem dropTask_cicPc (w : Who) (s : State) : (dropTask w s).cicPc = s.cicPc := by
  cases w <;> rfl
@[simp] theorem dropTask_ie (w : Who) (s : State) : (dropTask w s).ie = s.ie := by
  cases w <;> rfl
@[simp] theorem dropTask_ifa (w : Who) (s : State) : (dropTask w s).ifa = s.ifa := by
  cases w <;> rfl
@[simp] theorem dropTask_ifb (w : Who) (s : State) : (dropTask w s).ifb = s.ifb := by
  cases w <;> rfl
@[simp] theorem dropTask_isr (w : Who) (s : State) : (dropTask w s).isr = s.isr := by
  cases w <;> rfl
@[simp] theorem dropTask_halted (w : Who) (s : State) : (dropTask w s).halted = s.halted := by
  cases w <;> rfl
@[simp] theorem dropTask_haltPc (w : Who) (s : State) : (dropTask w s).haltPc = s.haltPc := by
  cases w <;> rfl
@[simp] theorem dropTask_fcause (w : Who) (s : State) : (dropTask w s).fcause = s.fcause := by
  cases w <;> rfl
@[simp] theorem dropTask_parse (w : Who) (s : State) : (dropTask w s).parse = s.parse := by
  cases w <;> rfl
@[simp] theorem dropTask_pifLatch (w : Who) (s : State) : (dropTask w s).pifLatch = s.pifLatch := by
  cases w <;> rfl
@[simp] theorem dropTask_xfer (w : Who) (s : State) : (dropTask w s).xfer = s.xfer := by
  cases w <;> rfl
@[simp] theorem dropTask_kindDue (w : Who) (s : State) : (dropTask w s).kindDue = s.kindDue := by
  cases w <;> rfl
@[simp] theorem dropTask_supply (w : Who) (s : State) : (dropTask w s).supply = s.supply := by
  cases w <;> rfl
@[simp] theorem dropTask_seen (w : Who) (s : State) : (dropTask w s).seen = s.seen := by
  cases w <;> rfl
@[simp] theorem dropTask_script (w : Who) (s : State) : (dropTask w s).script = s.script := by
  cases w <;> rfl
@[simp] theorem dropTask_active (w : Who) (s : State) : (dropTask w s).active = s.active := by
  cases w <;> rfl
@[simp] theorem dropTask_opField (w : Who) (s : State) : (dropTask w s).opField = s.opField := by
  cases w <;> rfl
@[simp] theorem dropTask_draws (w : Who) (s : State) : (dropTask w s).draws = s.draws := by
  cases w <;> rfl
@[simp] theorem dropTask_cfg (w : Who) (s : State) : (dropTask w s).cfg = s.cfg := by
  cases w <;> rfl
/-- The other engine is untouched by `dropTask`. -/
theorem eng_dropTask_ne {v w : Who} (h : v ≠ w)  (s : State) : (dropTask w s).eng v = s.eng v := eng_modEng_ne h _ s
@[simp] theorem dropTask_mem (v : Who) (w : Who) (s : State) : ((dropTask w s).eng v).mem = (s.eng v).mem := by
  cases v <;> cases w <;> rfl
@[simp] theorem dropTask_A (v : Who) (w : Who) (s : State) : ((dropTask w s).eng v).A = (s.eng v).A := by
  cases v <;> cases w <;> rfl
@[simp] theorem dropTask_X (v : Who) (w : Who) (s : State) : ((dropTask w s).eng v).X = (s.eng v).X := by
  cases v <;> cases w <;> rfl
@[simp] theorem dropTask_B (v : Who) (w : Who) (s : State) : ((dropTask w s).eng v).B = (s.eng v).B := by
  cases v <;> cases w <;> rfl
@[simp] theorem dropTask_SB (v : Who) (w : Who) (s : State) : ((dropTask w s).eng v).SB = (s.eng v).SB := by
  cases v <;> cases w <;> rfl
@[simp] theorem dropTask_C (v : Who) (w : Who) (s : State) : ((dropTask w s).eng v).C = (s.eng v).C := by
  cases v <;> cases w <;> rfl
@[simp] theorem dropTask_latch (v : Who) (w : Who) (s : State) : ((dropTask w s).eng v).latch = (s.eng v).latch := by
  cases v <;> cases w <;> rfl
@[simp] theorem dropTask_log (v : Who) (w : Who) (s : State) : ((dropTask w s).eng v).log = (s.eng v).log := by
  cases v <;> cases w <;> rfl
@[simp] theorem dropTask_cont (w : Who) (s : State) : ((dropTask w s).eng w).cont = (s.eng w).cont.tail := by
  cases w <;> rfl
@[simp] theorem dropTask_ret (v : Who) (w : Who) (s : State) : ((dropTask w s).eng v).ret = (s.eng v).ret := by
  cases v <;> cases w <;> rfl

/-! ### `swapPointers` -/

@[simp] theorem swapPointers_pifPc (w : Who) (s : State) : (swapPointers w s).pifPc = s.pifPc := by
  cases w <;> rfl
@[simp] theorem swapPointers_cicPc (w : Who) (s : State) : (swapPointers w s).cicPc = s.cicPc := by
  cases w <;> rfl
@[simp] theorem swapPointers_ie (w : Who) (s : State) : (swapPointers w s).ie = s.ie := by
  cases w <;> rfl
@[simp] theorem swapPointers_ifa (w : Who) (s : State) : (swapPointers w s).ifa = s.ifa := by
  cases w <;> rfl
@[simp] theorem swapPointers_ifb (w : Who) (s : State) : (swapPointers w s).ifb = s.ifb := by
  cases w <;> rfl
@[simp] theorem swapPointers_isr (w : Who) (s : State) : (swapPointers w s).isr = s.isr := by
  cases w <;> rfl
@[simp] theorem swapPointers_halted (w : Who) (s : State) : (swapPointers w s).halted = s.halted := by
  cases w <;> rfl
@[simp] theorem swapPointers_haltPc (w : Who) (s : State) : (swapPointers w s).haltPc = s.haltPc := by
  cases w <;> rfl
@[simp] theorem swapPointers_fcause (w : Who) (s : State) : (swapPointers w s).fcause = s.fcause := by
  cases w <;> rfl
@[simp] theorem swapPointers_parse (w : Who) (s : State) : (swapPointers w s).parse = s.parse := by
  cases w <;> rfl
@[simp] theorem swapPointers_pifLatch (w : Who) (s : State) : (swapPointers w s).pifLatch = s.pifLatch := by
  cases w <;> rfl
@[simp] theorem swapPointers_xfer (w : Who) (s : State) : (swapPointers w s).xfer = s.xfer := by
  cases w <;> rfl
@[simp] theorem swapPointers_kindDue (w : Who) (s : State) : (swapPointers w s).kindDue = s.kindDue := by
  cases w <;> rfl
@[simp] theorem swapPointers_supply (w : Who) (s : State) : (swapPointers w s).supply = s.supply := by
  cases w <;> rfl
@[simp] theorem swapPointers_seen (w : Who) (s : State) : (swapPointers w s).seen = s.seen := by
  cases w <;> rfl
@[simp] theorem swapPointers_script (w : Who) (s : State) : (swapPointers w s).script = s.script := by
  cases w <;> rfl
@[simp] theorem swapPointers_active (w : Who) (s : State) : (swapPointers w s).active = s.active := by
  cases w <;> rfl
@[simp] theorem swapPointers_opField (w : Who) (s : State) : (swapPointers w s).opField = s.opField := by
  cases w <;> rfl
@[simp] theorem swapPointers_draws (w : Who) (s : State) : (swapPointers w s).draws = s.draws := by
  cases w <;> rfl
@[simp] theorem swapPointers_cfg (w : Who) (s : State) : (swapPointers w s).cfg = s.cfg := by
  cases w <;> rfl
/-- The other engine is untouched by `swapPointers`. -/
theorem eng_swapPointers_ne {v w : Who} (h : v ≠ w)  (s : State) : (swapPointers w s).eng v = s.eng v := eng_modEng_ne h _ s
@[simp] theorem swapPointers_mem (v : Who) (w : Who) (s : State) : ((swapPointers w s).eng v).mem = (s.eng v).mem := by
  cases v <;> cases w <;> rfl
@[simp] theorem swapPointers_A (v : Who) (w : Who) (s : State) : ((swapPointers w s).eng v).A = (s.eng v).A := by
  cases v <;> cases w <;> rfl
@[simp] theorem swapPointers_X (v : Who) (w : Who) (s : State) : ((swapPointers w s).eng v).X = (s.eng v).X := by
  cases v <;> cases w <;> rfl
@[simp] theorem swapPointers_B (w : Who) (s : State) : ((swapPointers w s).eng w).B = (s.eng w).SB := by
  cases w <;> rfl
@[simp] theorem swapPointers_SB (w : Who) (s : State) : ((swapPointers w s).eng w).SB = (s.eng w).B := by
  cases w <;> rfl
@[simp] theorem swapPointers_C (v : Who) (w : Who) (s : State) : ((swapPointers w s).eng v).C = (s.eng v).C := by
  cases v <;> cases w <;> rfl
@[simp] theorem swapPointers_latch (v : Who) (w : Who) (s : State) : ((swapPointers w s).eng v).latch = (s.eng v).latch := by
  cases v <;> cases w <;> rfl
@[simp] theorem swapPointers_log (v : Who) (w : Who) (s : State) : ((swapPointers w s).eng v).log = (s.eng v).log := by
  cases v <;> cases w <;> rfl
@[simp] theorem swapPointers_cont (v : Who) (w : Who) (s : State) : ((swapPointers w s).eng v).cont = (s.eng v).cont := by
  cases v <;> cases w <;> rfl
@[simp] theorem swapPointers_ret (v : Who) (w : Who) (s : State) : ((swapPointers w s).eng v).ret = (s.eng v).ret := by
  cases v <;> cases w <;> rfl

/-! ### `logEvent` -/

@[simp] theorem logEvent_pifPc (w : Who) (e : Event) (s : State) : (logEvent w e s).pifPc = s.pifPc := by
  cases w <;> rfl
@[simp] theorem logEvent_cicPc (w : Who) (e : Event) (s : State) : (logEvent w e s).cicPc = s.cicPc := by
  cases w <;> rfl
@[simp] theorem logEvent_ie (w : Who) (e : Event) (s : State) : (logEvent w e s).ie = s.ie := by
  cases w <;> rfl
@[simp] theorem logEvent_ifa (w : Who) (e : Event) (s : State) : (logEvent w e s).ifa = s.ifa := by
  cases w <;> rfl
@[simp] theorem logEvent_ifb (w : Who) (e : Event) (s : State) : (logEvent w e s).ifb = s.ifb := by
  cases w <;> rfl
@[simp] theorem logEvent_isr (w : Who) (e : Event) (s : State) : (logEvent w e s).isr = s.isr := by
  cases w <;> rfl
@[simp] theorem logEvent_halted (w : Who) (e : Event) (s : State) : (logEvent w e s).halted = s.halted := by
  cases w <;> rfl
@[simp] theorem logEvent_haltPc (w : Who) (e : Event) (s : State) : (logEvent w e s).haltPc = s.haltPc := by
  cases w <;> rfl
@[simp] theorem logEvent_fcause (w : Who) (e : Event) (s : State) : (logEvent w e s).fcause = s.fcause := by
  cases w <;> rfl
@[simp] theorem logEvent_parse (w : Who) (e : Event) (s : State) : (logEvent w e s).parse = s.parse := by
  cases w <;> rfl
@[simp] theorem logEvent_pifLatch (w : Who) (e : Event) (s : State) : (logEvent w e s).pifLatch = s.pifLatch := by
  cases w <;> rfl
@[simp] theorem logEvent_xfer (w : Who) (e : Event) (s : State) : (logEvent w e s).xfer = s.xfer := by
  cases w <;> rfl
@[simp] theorem logEvent_kindDue (w : Who) (e : Event) (s : State) : (logEvent w e s).kindDue = s.kindDue := by
  cases w <;> rfl
@[simp] theorem logEvent_supply (w : Who) (e : Event) (s : State) : (logEvent w e s).supply = s.supply := by
  cases w <;> rfl
@[simp] theorem logEvent_seen (w : Who) (e : Event) (s : State) : (logEvent w e s).seen = s.seen := by
  cases w <;> rfl
@[simp] theorem logEvent_script (w : Who) (e : Event) (s : State) : (logEvent w e s).script = s.script := by
  cases w <;> rfl
@[simp] theorem logEvent_active (w : Who) (e : Event) (s : State) : (logEvent w e s).active = s.active := by
  cases w <;> rfl
@[simp] theorem logEvent_opField (w : Who) (e : Event) (s : State) : (logEvent w e s).opField = s.opField := by
  cases w <;> rfl
@[simp] theorem logEvent_draws (w : Who) (e : Event) (s : State) : (logEvent w e s).draws = s.draws := by
  cases w <;> rfl
@[simp] theorem logEvent_cfg (w : Who) (e : Event) (s : State) : (logEvent w e s).cfg = s.cfg := by
  cases w <;> rfl
/-- The other engine is untouched by `logEvent`. -/
theorem eng_logEvent_ne {v w : Who} (h : v ≠ w) (e : Event) (s : State) : (logEvent w e s).eng v = s.eng v := eng_modEng_ne h _ s
@[simp] theorem logEvent_mem (v : Who) (w : Who) (e : Event) (s : State) : ((logEvent w e s).eng v).mem = (s.eng v).mem := by
  cases v <;> cases w <;> rfl
@[simp] theorem logEvent_A (v : Who) (w : Who) (e : Event) (s : State) : ((logEvent w e s).eng v).A = (s.eng v).A := by
  cases v <;> cases w <;> rfl
@[simp] theorem logEvent_X (v : Who) (w : Who) (e : Event) (s : State) : ((logEvent w e s).eng v).X = (s.eng v).X := by
  cases v <;> cases w <;> rfl
@[simp] theorem logEvent_B (v : Who) (w : Who) (e : Event) (s : State) : ((logEvent w e s).eng v).B = (s.eng v).B := by
  cases v <;> cases w <;> rfl
@[simp] theorem logEvent_SB (v : Who) (w : Who) (e : Event) (s : State) : ((logEvent w e s).eng v).SB = (s.eng v).SB := by
  cases v <;> cases w <;> rfl
@[simp] theorem logEvent_C (v : Who) (w : Who) (e : Event) (s : State) : ((logEvent w e s).eng v).C = (s.eng v).C := by
  cases v <;> cases w <;> rfl
@[simp] theorem logEvent_latch (v : Who) (w : Who) (e : Event) (s : State) : ((logEvent w e s).eng v).latch = (s.eng v).latch := by
  cases v <;> cases w <;> rfl
@[simp] theorem logEvent_log (w : Who) (e : Event) (s : State) : ((logEvent w e s).eng w).log = e :: (s.eng w).log := by
  cases w <;> rfl
@[simp] theorem logEvent_cont (v : Who) (w : Who) (e : Event) (s : State) : ((logEvent w e s).eng v).cont = (s.eng v).cont := by
  cases v <;> cases w <;> rfl
@[simp] theorem logEvent_ret (v : Who) (w : Who) (e : Event) (s : State) : ((logEvent w e s).eng v).ret = (s.eng v).ret := by
  cases v <;> cases w <;> rfl

/-! ### `portWrite` -/

@[simp] theorem portWrite_pifPc (w : Who) (p : Port) (x : Nibble) (s : State) : (portWrite w p x s).pifPc = s.pifPc := by
  cases w <;> rfl
@[simp] theorem portWrite_cicPc (w : Who) (p : Port) (x : Nibble) (s : State) : (portWrite w p x s).cicPc = s.cicPc := by
  cases w <;> rfl
@[simp] theorem portWrite_ie (w : Who) (p : Port) (x : Nibble) (s : State) : (portWrite w p x s).ie = s.ie := by
  cases w <;> rfl
@[simp] theorem portWrite_ifa (w : Who) (p : Port) (x : Nibble) (s : State) : (portWrite w p x s).ifa = s.ifa := by
  cases w <;> rfl
@[simp] theorem portWrite_ifb (w : Who) (p : Port) (x : Nibble) (s : State) : (portWrite w p x s).ifb = s.ifb := by
  cases w <;> rfl
@[simp] theorem portWrite_isr (w : Who) (p : Port) (x : Nibble) (s : State) : (portWrite w p x s).isr = s.isr := by
  cases w <;> rfl
@[simp] theorem portWrite_halted (w : Who) (p : Port) (x : Nibble) (s : State) : (portWrite w p x s).halted = s.halted := by
  cases w <;> rfl
@[simp] theorem portWrite_haltPc (w : Who) (p : Port) (x : Nibble) (s : State) : (portWrite w p x s).haltPc = s.haltPc := by
  cases w <;> rfl
@[simp] theorem portWrite_fcause (w : Who) (p : Port) (x : Nibble) (s : State) : (portWrite w p x s).fcause = s.fcause := by
  cases w <;> rfl
@[simp] theorem portWrite_parse (w : Who) (p : Port) (x : Nibble) (s : State) : (portWrite w p x s).parse = s.parse := by
  cases w <;> rfl
@[simp] theorem portWrite_xfer (w : Who) (p : Port) (x : Nibble) (s : State) : (portWrite w p x s).xfer = s.xfer := by
  cases w <;> rfl
@[simp] theorem portWrite_kindDue (w : Who) (p : Port) (x : Nibble) (s : State) : (portWrite w p x s).kindDue = s.kindDue := by
  cases w <;> rfl
@[simp] theorem portWrite_supply (w : Who) (p : Port) (x : Nibble) (s : State) : (portWrite w p x s).supply = s.supply := by
  cases w <;> rfl
@[simp] theorem portWrite_seen (w : Who) (p : Port) (x : Nibble) (s : State) : (portWrite w p x s).seen = s.seen := by
  cases w <;> rfl
@[simp] theorem portWrite_script (w : Who) (p : Port) (x : Nibble) (s : State) : (portWrite w p x s).script = s.script := by
  cases w <;> rfl
@[simp] theorem portWrite_active (w : Who) (p : Port) (x : Nibble) (s : State) : (portWrite w p x s).active = s.active := by
  cases w <;> rfl
@[simp] theorem portWrite_opField (w : Who) (p : Port) (x : Nibble) (s : State) : (portWrite w p x s).opField = s.opField := by
  cases w <;> rfl
@[simp] theorem portWrite_draws (w : Who) (p : Port) (x : Nibble) (s : State) : (portWrite w p x s).draws = s.draws := by
  cases w <;> rfl
@[simp] theorem portWrite_cfg (w : Who) (p : Port) (x : Nibble) (s : State) : (portWrite w p x s).cfg = s.cfg := by
  cases w <;> rfl
/-- The other engine is untouched by `portWrite`. -/
theorem eng_portWrite_ne {v w : Who} (h : v ≠ w) (p : Port) (x : Nibble) (s : State) : (portWrite w p x s).eng v = s.eng v := by
  cases v <;> cases w <;> first | rfl | exact absurd rfl h
@[simp] theorem portWrite_mem (v : Who) (w : Who) (p : Port) (x : Nibble) (s : State) : ((portWrite w p x s).eng v).mem = (s.eng v).mem := by
  cases v <;> cases w <;> rfl
@[simp] theorem portWrite_A (v : Who) (w : Who) (p : Port) (x : Nibble) (s : State) : ((portWrite w p x s).eng v).A = (s.eng v).A := by
  cases v <;> cases w <;> rfl
@[simp] theorem portWrite_X (v : Who) (w : Who) (p : Port) (x : Nibble) (s : State) : ((portWrite w p x s).eng v).X = (s.eng v).X := by
  cases v <;> cases w <;> rfl
@[simp] theorem portWrite_B (v : Who) (w : Who) (p : Port) (x : Nibble) (s : State) : ((portWrite w p x s).eng v).B = (s.eng v).B := by
  cases v <;> cases w <;> rfl
@[simp] theorem portWrite_SB (v : Who) (w : Who) (p : Port) (x : Nibble) (s : State) : ((portWrite w p x s).eng v).SB = (s.eng v).SB := by
  cases v <;> cases w <;> rfl
@[simp] theorem portWrite_C (v : Who) (w : Who) (p : Port) (x : Nibble) (s : State) : ((portWrite w p x s).eng v).C = (s.eng v).C := by
  cases v <;> cases w <;> rfl
@[simp] theorem portWrite_pifLatch (p : Port) (x : Nibble) (s : State) : (portWrite .pif p x s).pifLatch = s.pifLatch.set p x := rfl
@[simp] theorem portWrite_cic_pifLatch (p : Port) (x : Nibble) (s : State) : (portWrite .cic p x s).pifLatch = s.pifLatch := rfl
@[simp] theorem portWrite_latch (w : Who) (p : Port) (x : Nibble) (s : State) : ((portWrite w p x s).eng w).latch = (s.eng w).latch.set p x := by
  cases w <;> rfl
@[simp] theorem portWrite_log (w : Who) (p : Port) (x : Nibble) (s : State) : ((portWrite w p x s).eng w).log = .write p x :: (s.eng w).log := by
  cases w <;> rfl
@[simp] theorem portWrite_cont (v : Who) (w : Who) (p : Port) (x : Nibble) (s : State) : ((portWrite w p x s).eng v).cont = (s.eng v).cont := by
  cases v <;> cases w <;> rfl
@[simp] theorem portWrite_ret (v : Who) (w : Who) (p : Port) (x : Nibble) (s : State) : ((portWrite w p x s).eng v).ret = (s.eng v).ret := by
  cases v <;> cases w <;> rfl

/-! ### `drawRegisters` -/

@[simp] theorem drawRegisters_pifPc (w : Who) (k b : Bool) (s : State) : (drawRegisters w k b s).pifPc = s.pifPc := by
  cases w <;> rfl
@[simp] theorem drawRegisters_cicPc (w : Who) (k b : Bool) (s : State) : (drawRegisters w k b s).cicPc = s.cicPc := by
  cases w <;> rfl
@[simp] theorem drawRegisters_ie (w : Who) (k b : Bool) (s : State) : (drawRegisters w k b s).ie = s.ie := by
  cases w <;> rfl
@[simp] theorem drawRegisters_ifa (w : Who) (k b : Bool) (s : State) : (drawRegisters w k b s).ifa = s.ifa := by
  cases w <;> rfl
@[simp] theorem drawRegisters_ifb (w : Who) (k b : Bool) (s : State) : (drawRegisters w k b s).ifb = s.ifb := by
  cases w <;> rfl
@[simp] theorem drawRegisters_isr (w : Who) (k b : Bool) (s : State) : (drawRegisters w k b s).isr = s.isr := by
  cases w <;> rfl
@[simp] theorem drawRegisters_halted (w : Who) (k b : Bool) (s : State) : (drawRegisters w k b s).halted = s.halted := by
  cases w <;> rfl
@[simp] theorem drawRegisters_haltPc (w : Who) (k b : Bool) (s : State) : (drawRegisters w k b s).haltPc = s.haltPc := by
  cases w <;> rfl
@[simp] theorem drawRegisters_fcause (w : Who) (k b : Bool) (s : State) : (drawRegisters w k b s).fcause = s.fcause := by
  cases w <;> rfl
@[simp] theorem drawRegisters_parse (w : Who) (k b : Bool) (s : State) : (drawRegisters w k b s).parse = s.parse := by
  cases w <;> rfl
@[simp] theorem drawRegisters_pifLatch (w : Who) (k b : Bool) (s : State) : (drawRegisters w k b s).pifLatch = s.pifLatch := by
  cases w <;> rfl
@[simp] theorem drawRegisters_xfer (w : Who) (k b : Bool) (s : State) : (drawRegisters w k b s).xfer = s.xfer := by
  cases w <;> rfl
@[simp] theorem drawRegisters_kindDue (w : Who) (k b : Bool) (s : State) : (drawRegisters w k b s).kindDue = s.kindDue := by
  cases w <;> rfl
@[simp] theorem drawRegisters_supply (w : Who) (k b : Bool) (s : State) : (drawRegisters w k b s).supply = s.supply := by
  cases w <;> rfl
@[simp] theorem drawRegisters_seen (w : Who) (k b : Bool) (s : State) : (drawRegisters w k b s).seen = s.seen := by
  cases w <;> rfl
@[simp] theorem drawRegisters_script (w : Who) (k b : Bool) (s : State) : (drawRegisters w k b s).script = s.script := by
  cases w <;> rfl
@[simp] theorem drawRegisters_active (w : Who) (k b : Bool) (s : State) : (drawRegisters w k b s).active = s.active := by
  cases w <;> rfl
@[simp] theorem drawRegisters_opField (w : Who) (k b : Bool) (s : State) : (drawRegisters w k b s).opField = s.opField := by
  cases w <;> rfl
@[simp] theorem drawRegisters_draws (w : Who) (k b : Bool) (s : State) : (drawRegisters w k b s).draws = s.draws + 7 := rfl
@[simp] theorem drawRegisters_cfg (w : Who) (k b : Bool) (s : State) : (drawRegisters w k b s).cfg = s.cfg := by
  cases w <;> rfl
/-- The other engine is untouched by `drawRegisters`. -/
theorem eng_drawRegisters_ne {v w : Who} (h : v ≠ w) (k b : Bool) (s : State) : (drawRegisters w k b s).eng v = s.eng v := by
  cases v <;> cases w <;> first | rfl | exact absurd rfl h
@[simp] theorem drawRegisters_mem (v w : Who) (k b : Bool) (s : State) : ((drawRegisters w k b s).eng v).mem = (s.eng v).mem := by
  cases v <;> cases w <;> rfl
@[simp] theorem drawRegisters_latch (v w : Who) (k b : Bool) (s : State) : ((drawRegisters w k b s).eng v).latch = (s.eng v).latch := by
  cases v <;> cases w <;> rfl
@[simp] theorem drawRegisters_log (v w : Who) (k b : Bool) (s : State) : ((drawRegisters w k b s).eng v).log = (s.eng v).log := by
  cases v <;> cases w <;> rfl
@[simp] theorem drawRegisters_cont (v w : Who) (k b : Bool) (s : State) : ((drawRegisters w k b s).eng v).cont = (s.eng v).cont := by
  cases v <;> cases w <;> rfl
@[simp] theorem drawRegisters_ret (v w : Who) (k b : Bool) (s : State) : ((drawRegisters w k b s).eng v).ret = (s.eng v).ret := by
  cases v <;> cases w <;> rfl
@[simp] theorem drawRegisters_keep_carry (v w : Who) (b : Bool) (s : State) : ((drawRegisters w true b s).eng v).C = (s.eng v).C := by
  cases v <;> cases w <;> rfl

/-! ### `settle` -/

@[simp] theorem settle_pifPc (w : Who) (k : Bool) (s : State) : (settle w k s).pifPc = s.pifPc := by
  cases w <;> rfl
@[simp] theorem settle_cicPc (w : Who) (k : Bool) (s : State) : (settle w k s).cicPc = s.cicPc := by
  cases w <;> rfl
@[simp] theorem settle_ie (w : Who) (k : Bool) (s : State) : (settle w k s).ie = s.ie := by
  cases w <;> rfl
@[simp] theorem settle_ifa (w : Who) (k : Bool) (s : State) : (settle w k s).ifa = s.ifa := by
  cases w <;> rfl
@[simp] theorem settle_ifb (w : Who) (k : Bool) (s : State) : (settle w k s).ifb = s.ifb := by
  cases w <;> rfl
@[simp] theorem settle_isr (w : Who) (k : Bool) (s : State) : (settle w k s).isr = s.isr := by
  cases w <;> rfl
@[simp] theorem settle_halted (w : Who) (k : Bool) (s : State) : (settle w k s).halted = s.halted := by
  cases w <;> rfl
@[simp] theorem settle_haltPc (w : Who) (k : Bool) (s : State) : (settle w k s).haltPc = s.haltPc := by
  cases w <;> rfl
@[simp] theorem settle_fcause (w : Who) (k : Bool) (s : State) : (settle w k s).fcause = s.fcause := by
  cases w <;> rfl
@[simp] theorem settle_parse (w : Who) (k : Bool) (s : State) : (settle w k s).parse = s.parse := by
  cases w <;> rfl
@[simp] theorem settle_pifLatch (w : Who) (k : Bool) (s : State) : (settle w k s).pifLatch = s.pifLatch := by
  cases w <;> rfl
@[simp] theorem settle_xfer (w : Who) (k : Bool) (s : State) : (settle w k s).xfer = s.xfer := by
  cases w <;> rfl
@[simp] theorem settle_kindDue (w : Who) (k : Bool) (s : State) : (settle w k s).kindDue = s.kindDue := by
  cases w <;> rfl
@[simp] theorem settle_supply (w : Who) (k : Bool) (s : State) : (settle w k s).supply = s.supply := by
  cases w <;> rfl
@[simp] theorem settle_seen (w : Who) (k : Bool) (s : State) : (settle w k s).seen = s.seen := by
  cases w <;> rfl
@[simp] theorem settle_script (w : Who) (k : Bool) (s : State) : (settle w k s).script = s.script := by
  cases w <;> rfl
@[simp] theorem settle_active (w : Who) (k : Bool) (s : State) : (settle w k s).active = s.active := by
  cases w <;> rfl
@[simp] theorem settle_opField (w : Who) (k : Bool) (s : State) : (settle w k s).opField = s.opField := by
  cases w <;> rfl
@[simp] theorem settle_draws (w : Who) (k : Bool) (s : State) : (settle w k s).draws = s.draws + 7 := rfl
@[simp] theorem settle_cfg (w : Who) (k : Bool) (s : State) : (settle w k s).cfg = s.cfg := by
  cases w <;> rfl
/-- The other engine is untouched by `settle`. -/
theorem eng_settle_ne {v w : Who} (h : v ≠ w) (k : Bool) (s : State) : (settle w k s).eng v = s.eng v := by
  cases v <;> cases w <;> first | rfl | exact absurd rfl h
@[simp] theorem settle_mem (v w : Who) (k : Bool) (s : State) : ((settle w k s).eng v).mem = (s.eng v).mem := by
  cases v <;> cases w <;> rfl
@[simp] theorem settle_latch (v w : Who) (k : Bool) (s : State) : ((settle w k s).eng v).latch = (s.eng v).latch := by
  cases v <;> cases w <;> rfl
@[simp] theorem settle_log (v w : Who) (k : Bool) (s : State) : ((settle w k s).eng v).log = (s.eng v).log := by
  cases v <;> cases w <;> rfl
@[simp] theorem settle_cont (v w : Who) (k : Bool) (s : State) : ((settle w k s).eng v).cont = (s.eng v).cont := by
  cases v <;> cases w <;> rfl
@[simp] theorem settle_ret (v w : Who) (k : Bool) (s : State) : ((settle w k s).eng v).ret = (s.eng v).ret := by
  cases v <;> cases w <;> rfl
@[simp] theorem settle_keep_carry (v w : Who) (s : State) : ((settle w true s).eng v).C = (s.eng v).C := by
  cases v <;> cases w <;> rfl

/-! ### One cell read after another update -/

@[simp] theorem readCell_setB (v : Who) (b : Addr) (w : Who) (p : Pointer) (s : State) : readCell v b (setB w p s) = readCell v b s := by
  cases v <;> cases w <;> rfl
@[simp] theorem readCell_setC (v : Who) (b : Addr) (w : Who) (c : Bool) (s : State) : readCell v b (setC w c s) = readCell v b s := by
  cases v <;> cases w <;> rfl
@[simp] theorem readCell_deliver (v : Who) (b : Addr) (w : Who) (x : Byte) (s : State) : readCell v b (deliver w x s) = readCell v b s := by
  cases v <;> cases w <;> rfl
@[simp] theorem readCell_push (v : Who) (b : Addr) (w : Who) (ts : List Task) (s : State) : readCell v b (push w ts s) = readCell v b s := by
  cases v <;> cases w <;> rfl
@[simp] theorem readCell_setCont (v : Who) (b : Addr) (w : Who) (ts : List Task) (s : State) : readCell v b (setCont w ts s) = readCell v b s := by
  cases v <;> cases w <;> rfl
@[simp] theorem readCell_dropTask (v : Who) (b : Addr) (w : Who) (s : State) : readCell v b (dropTask w s) = readCell v b s := by
  cases v <;> cases w <;> rfl
@[simp] theorem readCell_swapPointers (v : Who) (b : Addr) (w : Who) (s : State) : readCell v b (swapPointers w s) = readCell v b s := by
  cases v <;> cases w <;> rfl
@[simp] theorem readCell_logEvent (v : Who) (b : Addr) (w : Who) (e : Event) (s : State) : readCell v b (logEvent w e s) = readCell v b s := by
  cases v <;> cases w <;> rfl
@[simp] theorem readCell_portWrite (v : Who) (b : Addr) (w : Who) (p : Port) (x : Nibble) (s : State) : readCell v b (portWrite w p x s) = readCell v b s := by
  cases v <;> cases w <;> rfl
@[simp] theorem readCell_drawRegisters (v : Who) (b : Addr) (w : Who) (k c : Bool) (s : State) : readCell v b (drawRegisters w k c s) = readCell v b s := by
  cases v <;> cases w <;> rfl
@[simp] theorem readCell_settle (v : Who) (b : Addr) (w : Who) (k : Bool) (s : State) : readCell v b (settle w k s) = readCell v b s := by
  cases v <;> cases w <;> rfl

/-! ### Latches -/

theorem Latches.get_set_ne (l : Latches) {p q : Port} (h : q ≠ p) (x : Nibble) : (l.set p x).get q = l.get q := by
  cases p <;> cases q <;> first | rfl | exact absurd rfl h

theorem PifLatches.get_set_ne (l : PifLatches) {p q : Port} (h : q ≠ p) (x : Nibble) : (l.set p x).get q = l.get q := by
  cases p <;> cases q <;> first | rfl | exact absurd rfl h

/-- A write sets the latch of its port, where the engine has one (10 R37). -/
@[simp] theorem latchOf_portWrite_same (w : Who) (p : Port) (x : Nibble) (s : State) :
    latchOf w p (portWrite w p x s) = if hasPort w p then some x else none := by
  cases w <;> cases p <;> rfl

/-- A write leaves every other latch of either engine. -/
theorem latchOf_portWrite_ne {v w : Who} {p q : Port} (h : v ≠ w ∨ q ≠ p) (x : Nibble) (s : State) :
    latchOf v q (portWrite w p x s) = latchOf v q s := by
  cases v <;> cases w <;> cases p <;> cases q <;> first | rfl | exact absurd h (by decide)

@[simp] theorem latchOf_writeCell (v : Who) (q : Port) (w : Who) (a : Addr) (x : Nibble) (s : State) : latchOf v q (writeCell w a x s) = latchOf v q s := by
  cases v <;> cases w <;> rfl
@[simp] theorem latchOf_setB (v : Who) (q : Port) (w : Who) (p : Pointer) (s : State) : latchOf v q (setB w p s) = latchOf v q s := by
  cases v <;> cases w <;> rfl
@[simp] theorem latchOf_setC (v : Who) (q : Port) (w : Who) (c : Bool) (s : State) : latchOf v q (setC w c s) = latchOf v q s := by
  cases v <;> cases w <;> rfl
@[simp] theorem latchOf_deliver (v : Who) (q : Port) (w : Who) (x : Byte) (s : State) : latchOf v q (deliver w x s) = latchOf v q s := by
  cases v <;> cases w <;> rfl
@[simp] theorem latchOf_push (v : Who) (q : Port) (w : Who) (ts : List Task) (s : State) : latchOf v q (push w ts s) = latchOf v q s := by
  cases v <;> cases w <;> rfl
@[simp] theorem latchOf_setCont (v : Who) (q : Port) (w : Who) (ts : List Task) (s : State) : latchOf v q (setCont w ts s) = latchOf v q s := by
  cases v <;> cases w <;> rfl
@[simp] theorem latchOf_dropTask (v : Who) (q : Port) (w : Who) (s : State) : latchOf v q (dropTask w s) = latchOf v q s := by
  cases v <;> cases w <;> rfl
@[simp] theorem latchOf_swapPointers (v : Who) (q : Port) (w : Who) (s : State) : latchOf v q (swapPointers w s) = latchOf v q s := by
  cases v <;> cases w <;> rfl
@[simp] theorem latchOf_logEvent (v : Who) (q : Port) (w : Who) (e : Event) (s : State) : latchOf v q (logEvent w e s) = latchOf v q s := by
  cases v <;> cases w <;> rfl
@[simp] theorem latchOf_drawRegisters (v : Who) (q : Port) (w : Who) (k c : Bool) (s : State) : latchOf v q (drawRegisters w k c s) = latchOf v q s := by
  cases v <;> cases w <;> rfl
@[simp] theorem latchOf_settle (v : Who) (q : Port) (w : Who) (k : Bool) (s : State) : latchOf v q (settle w k s) = latchOf v q s := by
  cases v <;> cases w <;> rfl

/-- The latches of an engine are its own and, for the PIF, those of the PIF's own ports. -/
theorem latchOf_congr {s t : State} (w : Who) (p : Port) (h : (t.eng w).latch = (s.eng w).latch)
    (h' : t.pifLatch = s.pifLatch) : latchOf w p t = latchOf w p s := by
  cases w <;> simp_all [latchOf]

end Sys2Proof.Machine
end

