-- ==== Sys2Proof/Laws/Memory.lean ====
section
/-! SUPPORT. The laws of the nibble memory: a read after a write, and the canonical form. -/

namespace Sys2Proof.Machine

/-! ## Reading after writing -/

theorem find_insert_same (a : Nat) (v : Byte) (m : Memory) (h : ∀ c ∈ m, c.1 ≠ a) :
    Memory.find a (Memory.insert a v m) = v := by
  induction m with
  | nil => simp [Memory.insert, Memory.find]
  | cons c r ih =>
    obtain ⟨b, u⟩ := c
    have hb : b ≠ a := h (b, u) (by simp)
    unfold Memory.insert
    split
    · simp [Memory.find]
    · simp [Memory.find, hb, ih fun c hc => h c (by simp [hc])]

theorem find_insert_ne {a b : Nat} (hab : b ≠ a) (v : Byte) (m : Memory) :
    Memory.find b (Memory.insert a v m) = Memory.find b m := by
  induction m with
  | nil => simp [Memory.insert, Memory.find, Ne.symm hab]
  | cons c r ih =>
    obtain ⟨d, u⟩ := c
    unfold Memory.insert
    split
    · simp [Memory.find, Ne.symm hab]
    · simp [Memory.find, ih]

theorem find_filter_same (a : Nat) (m : Memory) : Memory.find a (m.filter fun c => c.1 != a) = 0 := by
  induction m with
  | nil => rfl
  | cons c r ih =>
    obtain ⟨d, u⟩ := c
    by_cases hd : d = a
    · simp [hd, ih]
    · simp [hd, Memory.find, ih]

theorem find_filter_ne {a b : Nat} (hab : b ≠ a) (m : Memory) :
    Memory.find b (m.filter fun c => c.1 != a) = Memory.find b m := by
  induction m with
  | nil => rfl
  | cons c r ih =>
    obtain ⟨d, u⟩ := c
    by_cases hd : d = a
    · subst hd; simp [Memory.find, Ne.symm hab, ih]
    · simp [hd, Memory.find, ih]

/-- A cell reads as what was last written to it. -/
@[simp] theorem Memory.read_write_same (m : Memory) (a : Addr) (v : Nibble) : (m.write a v).read a = v := by
  unfold Memory.read Memory.write
  by_cases hv : v = 0
  · simp [hv, find_filter_same]
  · simp only [hv, if_false]
    rw [find_insert_same _ _ _ (by intro c hc; simpa using (List.mem_filter.1 hc).2)]
    simp

/-- A write leaves every other cell alone. -/
theorem Memory.read_write_ne {a b : Addr} (h : b ≠ a) (m : Memory) (v : Nibble) :
    (m.write a v).read b = m.read b := by
  have hn : b.toNat ≠ a.toNat := fun e => h (BitVec.eq_of_toNat_eq e)
  unfold Memory.read Memory.write
  by_cases hv : v = 0
  · simp only [hv, if_true]; rw [find_filter_ne hn]
  · simp only [hv, if_false]; rw [find_insert_ne hn, find_filter_ne hn]

/-- One cell after one write, of either engine. -/
theorem readCell_writeCell (u w : Who) (a b : Addr) (x : Nibble) (s : State) :
    readCell u b (writeCell w a x s) = if u = w ∧ b = a then x else readCell u b s := by
  by_cases hu : u = w
  · subst hu
    by_cases hb : b = a
    · subst hb; simp [readCell]
    · simp [readCell, hb, Memory.read_write_ne hb]
  · simp [readCell, hu, eng_writeCell_ne hu]

@[simp] theorem readCell_writeCell_same (w : Who) (a : Addr) (x : Nibble) (s : State) :
    readCell w a (writeCell w a x s) = x := by simp [readCell_writeCell]

theorem readCell_writeCell_ne {a b : Addr} (h : b ≠ a) (u w : Who) (x : Nibble) (s : State) :
    readCell u b (writeCell w a x s) = readCell u b s := by simp [readCell_writeCell, h]

theorem readCell_writeCell_other {u w : Who} (h : u ≠ w) (a b : Addr) (x : Nibble) (s : State) :
    readCell u b (writeCell w a x s) = readCell u b s := by simp [readCell_writeCell, h]

/-! ## The canonical form -/

theorem Memory.wfFrom_mono {lo lo' : Nat} (h : lo ≤ lo') {m : Memory} (hm : Memory.wfFrom lo' m = true) :
    Memory.wfFrom lo m = true := by
  cases m with
  | nil => rfl
  | cons c r =>
    simp only [Memory.wfFrom, Bool.and_eq_true, decide_eq_true_eq] at hm ⊢
    exact ⟨⟨⟨⟨by omega, hm.1.1.1.2⟩, hm.1.1.2⟩, hm.1.2⟩, hm.2⟩

theorem Memory.wfFrom_filter (a : Nat) {lo : Nat} {m : Memory} (hm : Memory.wfFrom lo m = true) :
    Memory.wfFrom lo (m.filter fun c => c.1 != a) = true := by
  induction m generalizing lo with
  | nil => rfl
  | cons c r ih =>
    simp only [Memory.wfFrom, Bool.and_eq_true, decide_eq_true_eq] at hm
    by_cases hc : c.1 = a
    · have := ih hm.2
      simp only [List.filter_cons, hc, bne_self_eq_false, Bool.false_eq_true, if_false]
      exact Memory.wfFrom_mono (by omega) (hc ▸ this)
    · have hb : (c.1 != a) = true := by simpa using hc
      simp only [List.filter_cons, hb, if_true, Memory.wfFrom, Bool.and_eq_true, decide_eq_true_eq]
      exact ⟨hm.1, ih hm.2⟩

theorem Memory.wfFrom_insert {a lo : Nat} {v : Byte} (hlo : lo ≤ a) (ha : a < 256) (hv : v ≠ 0) (hn : v.toNat < 16)
    {m : Memory} (hm : Memory.wfFrom lo m = true) (hne : ∀ c ∈ m, c.1 ≠ a) :
    Memory.wfFrom lo (Memory.insert a v m) = true := by
  induction m generalizing lo with
  | nil => simp [Memory.insert, Memory.wfFrom, hlo, ha, hn]; exact hv
  | cons c r ih =>
    obtain ⟨b, u⟩ := c
    have hb : b ≠ a := hne (b, u) (by simp)
    unfold Memory.insert
    split
    · next hab =>
      simp only [Memory.wfFrom, Bool.and_eq_true, decide_eq_true_eq, bne_iff_ne] at hm ⊢
      exact ⟨⟨⟨⟨hlo, ha⟩, hv⟩, hn⟩, ⟨⟨⟨by omega, hm.1.1.1.2⟩, hm.1.1.2⟩, hm.1.2⟩, hm.2⟩
    · next hab =>
      simp only [Memory.wfFrom, Bool.and_eq_true, decide_eq_true_eq, bne_iff_ne] at hm ⊢
      exact ⟨hm.1, ih (by omega) hm.2 fun c hc => hne c (by simp [hc])⟩

/-- A write keeps the canonical form. -/
theorem Memory.wf_write {m : Memory} (hm : m.wf = true) (a : Addr) (v : Nibble) : (m.write a v).wf = true := by
  unfold Memory.write Memory.wf at *
  by_cases hv : v = 0
  · simpa only [hv, if_true] using Memory.wfFrom_filter _ hm
  · simp only [hv, if_false]
    refine Memory.wfFrom_insert (Nat.zero_le _) a.isLt ?_ ?_ (Memory.wfFrom_filter _ hm) ?_
    · intro h
      apply hv
      have := congrArg (fun x : Byte => x.setWidth 4) h
      simpa using this
    · have := v.isLt
      simp only [BitVec.toNat_setWidth]
      omega
    · intro c hc
      simpa using (List.mem_filter.1 hc).2

/-- The empty memory, every cell 0, is in canonical form. -/
theorem Memory.wf_nil : Memory.wf [] = true := rfl

/-- The memories at reset are in canonical form. -/
theorem reset_memory_wf : Memory.wf State.reset.pif.mem = true ∧ Memory.wf State.reset.cic.mem = true := ⟨rfl, rfl⟩

/-- Below the first listed address every cell is 0. -/
theorem Memory.find_of_lt {a lo : Nat} (h : a < lo) {m : Memory} (hm : Memory.wfFrom lo m = true) :
    Memory.find a m = 0 := by
  induction m generalizing lo with
  | nil => rfl
  | cons c r ih =>
    simp only [Memory.wfFrom, Bool.and_eq_true, decide_eq_true_eq] at hm
    have : c.1 ≠ a := by omega
    simp only [Memory.find, this, if_false]
    exact ih (by omega) hm.2

/-- One write keeps the canonical form of both memories. -/
theorem canonical_writeCell {s : State} (h : MemoriesCanonical s) (w : Who) (a : Addr) (x : Nibble) :
    MemoriesCanonical (writeCell w a x s) := by
  cases w
  · exact ⟨Memory.wf_write h.1 a x, h.2⟩
  · exact ⟨h.1, Memory.wf_write h.2 a x⟩

/-- An update that leaves both memories alone keeps their form. -/
theorem canonical_of_mem {s t : State} (h : MemoriesCanonical s) (hp : t.pif.mem = s.pif.mem)
    (hc : t.cic.mem = s.cic.mem) : MemoriesCanonical t := by
  unfold MemoriesCanonical at *
  rw [hp, hc]
  exact h

end Sys2Proof.Machine
end

