-- ==== Sys2Proof/Laws/Ops.lean ====
section
/-! SUPPORT. For each shared operation, once, all that it can do: what it leaves (`Unchanged`) and what it gives. -/

namespace Sys2Proof.Machine

/-! ## Putting changes together -/

theorem Unchanged.refl (l : List Field) (s : State) : Unchanged l s s := by
  intro f _; cases f <;> simp [Field.same]

theorem Field.same_trans {f : Field} {s t u : State} (h : f.same s t) (k : f.same t u) : f.same s u := by
  cases f <;> simp only [Field.same] at * <;> first | exact k.trans h | exact fun a => (k a).trans (h a)

theorem Unchanged.mono {l m : List Field} {s t : State} (h : Unchanged l s t) (hm : ∀ f ∈ l, f ∈ m) :
    Unchanged m s t := fun f hf => h f fun hl => hf (hm f hl)

/-- Changes one after another. -/
theorem Unchanged.trans {l m : List Field} {s t u : State} (h : Unchanged l s t) (k : Unchanged m t u) :
    Unchanged (l ++ m) s u := fun f hf =>
  Field.same_trans (h f fun hl => hf (List.mem_append_left _ hl)) (k f fun hl => hf (List.mem_append_right _ hl))

/-- Changes one after another, within one list. -/
theorem Unchanged.trans' {l : List Field} {s t u : State} (h : Unchanged l s t) (k : Unchanged l t u) :
    Unchanged l s u := fun f hf => Field.same_trans (h f hf) (k f hf)

/-! ## Engine updates -/

theorem writeCell_unchanged (w : Who) (a : Addr) (x : Nibble) (s : State) :
    Unchanged [.mem w] s (writeCell w a x s) := by
  intro f hf; cases f <;> simp_all [Field.same, readCell_writeCell]

theorem setB_unchanged (w : Who) (p : Pointer) (s : State) : Unchanged [.ptrB w] s (setB w p s) := by
  intro f hf; cases f <;> simp_all [Field.same, eng_setB_ne]

theorem setC_unchanged (w : Who) (c : Bool) (s : State) : Unchanged [.carry w] s (setC w c s) := by
  intro f hf; cases f <;> simp_all [Field.same, eng_setC_ne]

theorem deliver_unchanged (w : Who) (x : Byte) (s : State) : Unchanged [.ret w] s (deliver w x s) := by
  intro f hf; cases f <;> simp_all [Field.same, eng_deliver_ne]

theorem push_unchanged (w : Who) (ts : List Task) (s : State) : Unchanged [.position w] s (push w ts s) := by
  intro f hf; cases f <;> simp_all [Field.same, eng_push_ne]

theorem setCont_unchanged (w : Who) (ts : List Task) (s : State) : Unchanged [.position w] s (setCont w ts s) := by
  intro f hf; cases f <;> simp_all [Field.same, eng_setCont_ne]

theorem dropTask_unchanged (w : Who) (s : State) : Unchanged [.position w] s (dropTask w s) := by
  intro f hf; cases f <;> simp_all [Field.same, eng_dropTask_ne]

theorem swapPointers_unchanged (w : Who) (s : State) : Unchanged [.ptrB w, .ptrSB w] s (swapPointers w s) := by
  intro f hf; cases f <;> simp_all [Field.same, eng_swapPointers_ne]

theorem logEvent_unchanged (w : Who) (e : Event) (s : State) : Unchanged [.log w] s (logEvent w e s) := by
  intro f hf; cases f <;> simp_all [Field.same, eng_logEvent_ne]

theorem portWrite_unchanged (w : Who) (p : Port) (x : Nibble) (s : State) :
    Unchanged [.latch w p, .log w] s (portWrite w p x s) := by
  intro f hf
  cases f with
  | latch u q =>
    refine latchOf_portWrite_ne ?_ x s
    by_cases hu : u = w
    · exact .inr fun e => hf (by simp [hu, e])
    · exact .inl hu
  | log u =>
    have hu : u ≠ w := fun e => hf (by simp [e])
    simp [Field.same, eng_portWrite_ne hu]
  | _ => simp [Field.same]

/-- All that drawing the registers changes. -/
theorem drawRegisters_unchanged (w : Who) (k b : Bool) (s : State) :
    Unchanged (.carry w :: scratchRegisters w) s (drawRegisters w k b s) := by
  intro f hf; cases f <;> simp_all [Field.same, scratchRegisters, eng_drawRegisters_ne]

theorem settle_unchanged (w : Who) (s : State) : Unchanged (scratchRegisters w) s (settle w true s) := by
  intro f hf; cases f <;> simp_all [Field.same, scratchRegisters, eng_settle_ne]

theorem settle_unchanged_carry (w : Who) (k : Bool) (s : State) :
    Unchanged (.carry w :: scratchRegisters w) s (settle w k s) := by
  intro f hf; cases f <;> simp_all [Field.same, scratchRegisters, eng_settle_ne]

/-- Inside an interrupt service the PIF's pointers are kept (10 R51). -/
theorem settle_keeps_pointers (k : Bool) (s : State) (h : s.isr.isSome = true) :
    (settle .pif k s).pif.B = s.pif.B ∧ (settle .pif k s).pif.SB = s.pif.SB := by
  simp [settle, drawRegisters, modEng, setEng, h]

/-! ## Addresses -/

theorem cellAt_succ (base : Addr) (i : Nat) : cellAt base (i + 1) = cellAt (base + 1) i := by
  unfold cellAt
  apply BitVec.eq_of_toNat_eq
  simp [BitVec.toNat_add]
  omega

theorem cellAt_zero (base : Addr) : cellAt base 0 = base := by
  unfold cellAt; simp

theorem cellAt_inj {base : Addr} {i j : Nat} (hi : i < 256) (hj : j < 256) (h : cellAt base i = cellAt base j) :
    i = j := by
  have := congrArg BitVec.toNat h
  simp [cellAt, BitVec.toNat_add] at this
  omega

theorem mem_cellsFrom {base a : Addr} {n : Nat} : a ∈ cellsFrom base n ↔ ∃ i < n, a = cellAt base i := by
  simp [cellsFrom, eq_comm]

/-! ## Runs of cells -/

theorem length_readCells (w : Who) (base : Addr) (n : Nat) (s : State) : (readCells w base n s).length = n := by
  simp [readCells]

theorem getD_readCells {n i : Nat} (h : i < n) (w : Who) (base : Addr) (s : State) (d : Nibble) :
    (readCells w base n s).getD i d = readCell w (cellAt base i) s := by
  simp [readCells, List.getD, h]

theorem writeCells_unchanged (w : Who) (base : Addr) (vs : List Nibble) (s : State) :
    Unchanged [.mem w] s (writeCells w base vs s) := by
  induction vs generalizing base s with
  | nil => exact Unchanged.refl _ s
  | cons v vs ih => exact Unchanged.trans' (writeCell_unchanged w base v s) (ih _ _)

/-- Outside the cells it stores to, `writeCells` changes nothing. -/
theorem readCell_writeCells_outside (w : Who) (base a : Addr) (vs : List Nibble) (s : State)
    (h : a ∉ cellsFrom base vs.length) : readCell w a (writeCells w base vs s) = readCell w a s := by
  induction vs generalizing base s with
  | nil => rfl
  | cons v vs ih =>
    have h0 : a ≠ base := fun e => h (mem_cellsFrom.2 ⟨0, by simp, by simp [cellAt_zero, e]⟩)
    have h1 : a ∉ cellsFrom (base + 1) vs.length := by
      intro hm
      obtain ⟨i, hi, e⟩ := mem_cellsFrom.1 hm
      exact h (mem_cellsFrom.2 ⟨i + 1, by simpa using hi, by rw [cellAt_succ]; exact e⟩)
    show readCell w a (writeCells w (base + 1) vs (writeCell w base v s)) = _
    rw [ih _ _ h1, readCell_writeCell_ne h0]

/-- Cell `i` of what `writeCells` stored. -/
theorem readCell_writeCells {i : Nat} (w : Who) (base : Addr) (vs : List Nibble) (s : State)
    (hi : i < vs.length) (hl : vs.length ≤ 256) (d : Nibble) :
    readCell w (cellAt base i) (writeCells w base vs s) = vs.getD i d := by
  induction vs generalizing base s i with
  | nil => simp at hi
  | cons v vs ih =>
    show readCell w (cellAt base i) (writeCells w (base + 1) vs (writeCell w base v s)) = _
    cases i with
    | zero =>
      rw [readCell_writeCells_outside]
      · simp [cellAt_zero]
      · intro hm
        obtain ⟨j, hj, e⟩ := mem_cellsFrom.1 hm
        rw [← cellAt_succ] at e
        simp only [List.length_cons] at hl
        have := cellAt_inj (by omega) (by omega) e
        omega
    | succ i =>
      simp only [List.length_cons] at hi hl
      rw [cellAt_succ, ih (base + 1) _ (by omega) (by omega)]
      simp

/-- Reading back what was stored. -/
theorem readCells_writeCells (w : Who) (base : Addr) (vs : List Nibble) (s : State) (hl : vs.length ≤ 256) :
    readCells w base vs.length (writeCells w base vs s) = vs := by
  apply List.ext_getElem (by simp [readCells])
  intro i h1 h2
  have := readCell_writeCells w base vs s h2 hl 0
  simp only [List.getD, List.getElem?_eq_getElem h2, Option.getD_some] at this
  simpa [readCells] using this

theorem canonical_writeCells {s : State} (h : MemoriesCanonical s) (w : Who) (base : Addr) (vs : List Nibble) :
    MemoriesCanonical (writeCells w base vs s) := by
  induction vs generalizing base s with
  | nil => exact h
  | cons v vs ih => exact ih (canonical_writeCell h w base v) _

/-! ## Bytes, counters -/

theorem addr_succ_ne (a : Addr) : a + 1 ≠ a := by
  intro h
  have := congrArg BitVec.toNat h
  simp [BitVec.toNat_add] at this
  omega

theorem writeByte_unchanged (w : Who) (a : Addr) (v : Byte) (s : State) : Unchanged [.mem w] s (writeByte w a v s) :=
  Unchanged.trans' (writeCell_unchanged w a _ s) (writeCell_unchanged w (a + 1) _ _)

/-- A byte reads as what was last stored (20 R72). -/
theorem readByte_writeByte (w : Who) (a : Addr) (v : Byte) (s : State) : readByte w a (writeByte w a v s) = v := by
  unfold readByte writeByte
  rw [readCell_writeCell_ne (addr_succ_ne a).symm]
  simp only [readCell_writeCell_same]
  apply BitVec.eq_of_getLsbD_eq
  intro i hi
  simp only [BitVec.getLsbD_append, BitVec.getLsbD_extractLsb']
  by_cases h : i < 4
  · simp [h]
  · simp [h]
    have : i - 4 < 4 := by omega
    rw [show 4 + (i - 4) = i by omega]
    simp [this]

theorem readCell_writeByte_ne {w : Who} {a b : Addr} (h : b ≠ a) (h' : b ≠ a + 1) (u : Who) (v : Byte) (s : State) :
    readCell u b (writeByte w a v s) = readCell u b s := by
  unfold writeByte
  rw [readCell_writeCell_ne h', readCell_writeCell_ne h]

/-- `inc8` gives the pair plus one, and tells an overflow (40 R155). -/
theorem incByte_spec (w : Who) (a : Addr) (s : State) :
    readByte w a (incByte w a s).2 = readByte w a s + 1 ∧ ((incByte w a s).1 = true ↔ readByte w a s = 0xFF) ∧
    Unchanged [.mem w] s (incByte w a s).2 ∧ CellsUnchangedOutside w [a, a + 1] s (incByte w a s).2 := by
  refine ⟨readByte_writeByte _ _ _ _, by simp [incByte], writeByte_unchanged _ _ _ _, ?_⟩
  intro b hb
  simp only [List.mem_cons, List.not_mem_nil, or_false, not_or] at hb
  exact readCell_writeByte_ne hb.1 hb.2 _ _ _

theorem canonical_writeByte {s : State} (h : MemoriesCanonical s) (w : Who) (a : Addr) (v : Byte) :
    MemoriesCanonical (writeByte w a v s) := canonical_writeCell (canonical_writeCell h _ _ _) _ _ _

theorem canonical_incByte {s : State} (h : MemoriesCanonical s) (w : Who) (a : Addr) :
    MemoriesCanonical (incByte w a s).2 := canonical_writeByte h _ _ _

theorem canonical_tickChain {s : State} (h : MemoriesCanonical s) (w : Who) (a : Addr) :
    MemoriesCanonical (tickChain w a s).2 := by
  unfold tickChain
  dsimp only
  split
  · exact canonical_incByte (canonical_incByte h _ _) _ _
  · exact canonical_incByte h _ _

theorem tickChain_unchanged (w : Who) (a : Addr) (s : State) : Unchanged [.mem w] s (tickChain w a s).2 := by
  unfold tickChain
  dsimp only
  split
  · exact Unchanged.trans' (incByte_spec w a s).2.2.1 (incByte_spec w (a + 2) _).2.2.1
  · exact (incByte_spec w a s).2.2.1

/-! ## Ports -/

/-- The first value laid ready for a port is found, and the others keep their order. -/
theorem takeSupply_first {p : Port} {before : List (Port × Nibble)} (h : ∀ c ∈ before, c.1 ≠ p) (x : Nibble)
    (after : List (Port × Nibble)) : takeSupply p (before ++ (p, x) :: after) = some (x, before ++ after) := by
  induction before with
  | nil => simp [takeSupply]
  | cons c r ih => simp [takeSupply, h c (by simp), ih fun d hd => h d (by simp [hd])]

/-- Nothing is found for a port for which nothing is laid ready. -/
theorem takeSupply_none {p : Port} {l : List (Port × Nibble)} (h : ∀ c ∈ l, c.1 ≠ p) : takeSupply p l = none := by
  induction l with
  | nil => rfl
  | cons c r ih => simp [takeSupply, h c (by simp), ih fun d hd => h d (by simp [hd])]

/-- What the host lays ready first is supplied (60 R400). -/
theorem hostValue_laid {p : Port} {before after : List (Port × Nibble)} {x : Nibble} {s : State}
    (hs : s.supply = before ++ (p, x) :: after) (h : ∀ c ∈ before, c.1 ≠ p) :
    hostValue p s = (x, { s with supply := before ++ after }) := by
  simp [hostValue, hs, takeSupply_first h]

/-- With nothing laid ready the host's value is a free one, and the queue stays (41 R170). -/
theorem hostValue_free {p : Port} {s : State} (h : ∀ c ∈ s.supply, c.1 ≠ p) :
    hostValue p s = (Config.portValue s.draws, { s with draws := s.draws + 1 }) := by
  simp [hostValue, takeSupply_none h]

/-- The host's value uses up a value laid ready or a free one, and nothing else. -/
theorem hostValue_unchanged (p : Port) (s : State) : Unchanged portSupply s (hostValue p s).2 := by
  intro f hf
  unfold hostValue
  split <;> cases f <;> simp_all [Field.same, latchOf, portSupply, readCell, State.eng]

theorem hostValue_eng (u : Who) (p : Port) (s : State) : (hostValue p s).2.eng u = s.eng u := by
  unfold hostValue
  split <;> cases u <;> rfl

theorem suppliedValue_unchanged (w : Who) (p : Port) (s : State) :
    Unchanged portSupply s (suppliedValue w p s).2 := by
  unfold suppliedValue
  dsimp only
  split
  · exact Unchanged.refl portSupply s
  · split
    · refine (hostValue_unchanged p s).trans' fun f hf => ?_
      cases f <;> simp_all [Field.same, latchOf, portSupply, readCell, State.eng]
    · exact hostValue_unchanged p s

/-- A port read changes the log and uses up what was supplied. -/
theorem portRead_unchanged (w : Who) (p : Port) (s : State) :
    Unchanged (.log w :: portSupply) s (portRead w p s).2 := by
  refine ((suppliedValue_unchanged w p s).trans (logEvent_unchanged w _ _)).mono ?_
  intro f hf
  simp only [List.mem_append, List.mem_cons, List.not_mem_nil, or_false] at hf ⊢
  exact hf.symm

theorem suppliedValue_eng (u w : Who) (p : Port) (s : State) : (suppliedValue w p s).2.eng u = s.eng u := by
  rw [← hostValue_eng u p s]
  unfold suppliedValue
  dsimp only
  split
  · exact (hostValue_eng u p s).symm
  · split <;> cases u <;> rfl

/-- A port read is one event (41 R170). -/
theorem portRead_log (w : Who) (p : Port) (s : State) :
    ((portRead w p s).2.eng w).log = .read p (portRead w p s).1 :: (s.eng w).log := by
  simp [portRead, suppliedValue_eng]

/-- A paired read of the link returns the peer's latch and uses up nothing (41 R176). -/
theorem portRead_paired (w : Who) (s : State) (h : s.cfg.paired = true) :
    portRead w .cic s =
      ((s.eng w.other).latch.cic, logEvent w (.read .cic (s.eng w.other).latch.cic) s) := by
  simp [portRead, suppliedValue, h]

theorem canonical_portRead {s : State} (h : MemoriesCanonical s) (w : Who) (p : Port) :
    MemoriesCanonical (portRead w p s).2 := by
  have e := fun u : Who => suppliedValue_eng u w p s
  refine canonical_of_mem h ?_ ?_
  · have := congrArg Engine.mem (e .pif); simp [portRead] at this ⊢
    rw [← State.eng_pif, logEvent_mem]; exact this
  · have := congrArg Engine.mem (e .cic); simp [portRead] at this ⊢
    rw [← State.eng_cic, logEvent_mem]; exact this

/-! ## The rounds as lists -/

theorem length_decodeCells (r : Nibble) (l : List Nibble) : (decodeCells r l).length = l.length := by
  induction l generalizing r with
  | nil => rfl
  | cons t ts ih => simp [decodeCells, ih]

theorem length_encodeCells (r : Nibble) (l : List Nibble) : (encodeCells r l).length = l.length := by
  induction l generalizing r with
  | nil => rfl
  | cons t ts ih => simp [encodeCells, ih]

theorem length_chalCells (k : Bool) (a : Nibble) (c : Bool) (l : List Nibble) :
    (chalCells k a c l).1.length = l.length := by
  induction l generalizing a c with
  | nil => rfl
  | cons t ts ih => simp [chalCells, ih]

/-- An invariant that one pass keeps is kept by any number of passes. -/
theorem passes_invariant {P : State → Prop} {f : State → State} (hf : ∀ s, P s → P (f s)) (n : Nat) {s : State}
    (h : P s) : P (passes n f s) := by
  induction n generalizing s with
  | zero => exact h
  | succ k ih => exact ih (hf s h)

/-! ## The command byte -/

/-- What decoding a command byte gives: the first of its flags, and a byte with the others. -/
theorem decodeCmd_flags {b : Byte} {x : Instr × Byte} (h : decodeCmd b = some x) :
    cmdFlags b = x.1 :: cmdFlags x.2 ∧ (x.2 = 0 ↔ cmdFlags x.2 = []) := by
  have key : ∀ b : Byte, (decodeCmd b).all (fun x =>
      decide (cmdFlags b = x.1 :: cmdFlags x.2 ∧ (x.2 = 0 ↔ cmdFlags x.2 = []))) = true := by decide
  simpa [h] using key b

/-- A command byte decodes to nothing exactly when no flag is set. -/
theorem decodeCmd_none (b : Byte) : decodeCmd b = none ↔ b = 0 := by
  revert b; decide

/-! ## Interrupts, the fatal action, the halt -/

/-- All that interrupt entry changes (60 R366). -/
theorem takeInterrupt_unchanged (x : IntSrc) (s : State) :
    Unchanged [.ptrB .pif, .ptrSB .pif, .position .pif, .ie, .ifa, .ifb, .isr] s (takeInterrupt x s) := by
  intro f hf
  cases x <;> cases f with
  | latch u p => cases u <;> rfl
  | mem u => cases u <;> exact fun _ => rfl
  | _ => first
    | rfl
    | (simp at hf; done)
    | (rename_i u; cases u <;> first | rfl | simp at hf)

/-- All that interrupt return changes (60 R368). -/
theorem returnInterrupt_unchanged (s : State) :
    Unchanged [.ptrB .pif, .ptrSB .pif, .position .pif, .ie, .isr, .pifPc] s (returnInterrupt s) := by
  intro f hf
  unfold returnInterrupt
  dsimp only
  split <;> cases f with
  | latch u p => cases u <;> rfl
  | mem u => cases u <;> exact fun _ => rfl
  | _ => first
    | rfl
    | (simp at hf; done)
    | (rename_i u; cases u <;> first | rfl | simp at hf)

/-- All that the fatal action changes (60 R370), and what it leaves: it is as `FatalRaised` says. -/
theorem raiseFatal_spec (c : FatalCause) (s : State) : FatalRaised c s (raiseFatal c s) := by
  refine ⟨rfl, rfl, rfl, rfl, rfl, rfl, fun f hf => ?_⟩
  cases f with
  | latch u p =>
    cases u with
    | pif => cases p <;> first | rfl | exact absurd (by simp) hf
    | cic => rfl
  | mem u => cases u <;> exact fun _ => rfl
  | _ => first
    | rfl
    | (simp [scratchRegisters] at hf; done)
    | (rename_i u; cases u <;> first | rfl | simp [scratchRegisters] at hf)

/-- All that the fatal action changes (60 R370). -/
theorem raiseFatal_unchanged (c : FatalCause) (s : State) :
    Unchanged (.latch .pif .inten :: .log .pif :: .position .pif :: .ie :: .fcause :: .pifPc :: .carry .pif ::
      scratchRegisters .pif) s (raiseFatal c s) := (raiseFatal_spec c s).2.2.2.2.2.2

/-- All that the death of the CIC changes (45 R344, R349). -/
theorem cicDie_unchanged (s : State) :
    Unchanged (.cicPc :: .position .cic :: .carry .cic :: scratchRegisters .cic) s (cicDie s) := by
  intro f hf
  cases f with
  | latch u p => cases u <;> rfl
  | mem u => cases u <;> exact fun _ => rfl
  | _ => first
    | rfl
    | (simp [scratchRegisters] at hf; done)
    | (rename_i u; cases u <;> first | rfl | simp [scratchRegisters] at hf)

end Sys2Proof.Machine
end

