-- ==== Sys2Proof/Laws/PerInstr.lean ====
section
/-! SUPPORT. The family `EncodedForm`: what is true of every operation's encoding as syntax, one lemma a constructor. -/

namespace Sys2Proof.Laws.EncodedForm

/-- The encoding has a first byte, and where its format is `OP` that byte is a number of the table, 0x00 to 0x3B
(30 R101), with at most three operand bytes after it (log 1). -/
def Statement (i : Instr) : Prop :=
  ∃ (b : Byte) (bs : List Byte), (encode i).2 = b :: bs ∧
    ((encode i).1 = .op → b.toNat < 0x3C ∧ bs.length ≤ 3)

theorem cmdLockout : Statement .cmdLockout := ⟨_, _, rfl, fun h => nomatch h⟩
theorem cmdGetChecksum : Statement .cmdGetChecksum := ⟨_, _, rfl, fun h => nomatch h⟩
theorem cmdCheckChecksum : Statement .cmdCheckChecksum := ⟨_, _, rfl, fun h => nomatch h⟩
theorem cmdAck : Statement .cmdAck := ⟨_, _, rfl, fun h => nomatch h⟩
theorem cmdJoybus : Statement .cmdJoybus := ⟨_, _, rfl, fun h => nomatch h⟩
theorem cmdChallenge : Statement .cmdChallenge := ⟨_, _, rfl, fun h => nomatch h⟩
theorem cmdBit2 : Statement .cmdBit2 := ⟨_, _, rfl, fun h => nomatch h⟩
theorem cmdTerminate : Statement .cmdTerminate := ⟨_, _, rfl, fun h => nomatch h⟩
theorem xkindRead4 : Statement .xkindRead4 := ⟨_, _, rfl, fun h => nomatch h⟩
theorem xkindWrite4 : Statement .xkindWrite4 := ⟨_, _, rfl, fun h => nomatch h⟩
theorem xkindRead64 : Statement .xkindRead64 := ⟨_, _, rfl, fun h => nomatch h⟩
theorem xkindWrite64 : Statement .xkindWrite64 := ⟨_, _, rfl, fun h => nomatch h⟩
theorem hello00 : Statement .hello00 := ⟨_, _, rfl, fun h => nomatch h⟩
theorem hello01 : Statement .hello01 := ⟨_, _, rfl, fun h => nomatch h⟩
theorem hello10 : Statement .hello10 := ⟨_, _, rfl, fun h => nomatch h⟩
theorem hello11 : Statement .hello11 := ⟨_, _, rfl, fun h => nomatch h⟩
theorem ciccmdCompare : Statement .ciccmdCompare := ⟨_, _, rfl, fun h => nomatch h⟩
theorem ciccmdChallenge : Statement .ciccmdChallenge := ⟨_, _, rfl, fun h => nomatch h⟩
theorem ciccmdReset : Statement .ciccmdReset := ⟨_, _, rfl, fun h => nomatch h⟩
theorem ciccmdReserved : Statement .ciccmdReserved := ⟨_, _, rfl, fun h => nomatch h⟩
theorem jbSkip : Statement .jbSkip := ⟨_, _, rfl, fun h => nomatch h⟩
theorem jbReset : Statement .jbReset := ⟨_, _, rfl, fun h => nomatch h⟩
theorem jbStop : Statement .jbStop := ⟨_, _, rfl, fun h => nomatch h⟩
theorem jbNop : Statement .jbNop := ⟨_, _, rfl, fun h => nomatch h⟩
theorem jbXfer (tx rx : Byte) : Statement (.jbXfer tx rx) := ⟨_, _, rfl, fun h => nomatch h⟩
theorem jbRx (rx : Byte) : Statement (.jbRx rx) := ⟨_, _, rfl, fun h => nomatch h⟩
theorem frame (tx rx : Byte) (data recv : List Byte) : Statement (.frame tx rx data recv) := ⟨_, _, rfl, fun h => nomatch h⟩
theorem jbcIdle : Statement .jbcIdle := ⟨_, _, rfl, fun h => nomatch h⟩
theorem jbcTx : Statement .jbcTx := ⟨_, _, rfl, fun h => nomatch h⟩
theorem jbcRx : Statement .jbcRx := ⟨_, _, rfl, fun h => nomatch h⟩
theorem jbcReset : Statement .jbcReset := ⟨_, _, rfl, fun h => nomatch h⟩
theorem jbcXferAck : Statement .jbcXferAck := ⟨_, _, rfl, fun h => nomatch h⟩
theorem read (addr : Addr) : Statement (.read addr) := ⟨_, _, rfl, fun _ => ⟨by decide, Nat.le_of_ble_eq_true rfl⟩⟩
theorem write (addr : Addr) (value : Nibble) : Statement (.write addr value) := ⟨_, _, rfl, fun _ => ⟨by decide, Nat.le_of_ble_eq_true rfl⟩⟩
theorem bitTest (addr : Addr) (bit : BitVec 2) : Statement (.bitTest addr bit) := ⟨_, _, rfl, fun _ => ⟨by decide, Nat.le_of_ble_eq_true rfl⟩⟩
theorem bitSet (addr : Addr) (bit : BitVec 2) : Statement (.bitSet addr bit) := ⟨_, _, rfl, fun _ => ⟨by decide, Nat.le_of_ble_eq_true rfl⟩⟩
theorem bitReset (addr : Addr) (bit : BitVec 2) : Statement (.bitReset addr bit) := ⟨_, _, rfl, fun _ => ⟨by decide, Nat.le_of_ble_eq_true rfl⟩⟩
theorem swap : Statement .swap := ⟨_, _, rfl, fun _ => ⟨by decide, Nat.le_of_ble_eq_true rfl⟩⟩
theorem incPage : Statement .incPage := ⟨_, _, rfl, fun _ => ⟨by decide, Nat.le_of_ble_eq_true rfl⟩⟩
theorem incFull : Statement .incFull := ⟨_, _, rfl, fun _ => ⟨by decide, Nat.le_of_ble_eq_true rfl⟩⟩
theorem setPointer (addr : Addr) : Statement (.setPointer addr) := ⟨_, _, rfl, fun _ => ⟨by decide, Nat.le_of_ble_eq_true rfl⟩⟩
theorem add4 (x y : Nibble) : Statement (.add4 x y) := ⟨_, _, rfl, fun _ => ⟨by decide, Nat.le_of_ble_eq_true rfl⟩⟩
theorem adc4 (x y : Nibble) : Statement (.adc4 x y) := ⟨_, _, rfl, fun _ => ⟨by decide, Nat.le_of_ble_eq_true rfl⟩⟩
theorem com4 (x : Nibble) : Statement (.com4 x) := ⟨_, _, rfl, fun _ => ⟨by decide, Nat.le_of_ble_eq_true rfl⟩⟩
theorem sub4 (x y : Nibble) : Statement (.sub4 x y) := ⟨_, _, rfl, fun _ => ⟨by decide, Nat.le_of_ble_eq_true rfl⟩⟩
theorem inc8 (addr : Addr) : Statement (.inc8 addr) := ⟨_, _, rfl, fun _ => ⟨by decide, Nat.le_of_ble_eq_true rfl⟩⟩
theorem portRead (p : Port) : Statement (.portRead p) := ⟨_, _, rfl, fun _ => ⟨by decide, Nat.le_of_ble_eq_true rfl⟩⟩
theorem portWrite (p : Port) (v : Nibble) : Statement (.portWrite p v) := ⟨_, _, rfl, fun _ => ⟨by decide, Nat.le_of_ble_eq_true rfl⟩⟩
theorem writeBit (v : Bool) : Statement (.writeBit v) := ⟨_, _, rfl, fun _ => ⟨by decide, Nat.le_of_ble_eq_true rfl⟩⟩
theorem readBit : Statement .readBit := ⟨_, _, rfl, fun _ => ⟨by decide, Nat.le_of_ble_eq_true rfl⟩⟩
theorem readNibble : Statement .readNibble := ⟨_, _, rfl, fun _ => ⟨by decide, Nat.le_of_ble_eq_true rfl⟩⟩
theorem writeNibble (n : Nibble) : Statement (.writeNibble n) := ⟨_, _, rfl, fun _ => ⟨by decide, Nat.le_of_ble_eq_true rfl⟩⟩
theorem readBuf (base : Addr) (n : Byte) : Statement (.readBuf base n) := ⟨_, _, rfl, fun _ => ⟨by decide, Nat.le_of_ble_eq_true rfl⟩⟩
theorem writeBuf (base : Addr) (n : Byte) : Statement (.writeBuf base n) := ⟨_, _, rfl, fun _ => ⟨by decide, Nat.le_of_ble_eq_true rfl⟩⟩
theorem pifStartup : Statement .pifStartup := ⟨_, _, rfl, fun _ => ⟨by decide, Nat.le_of_ble_eq_true rfl⟩⟩
theorem pifAwaitLockout : Statement .pifAwaitLockout := ⟨_, _, rfl, fun _ => ⟨by decide, Nat.le_of_ble_eq_true rfl⟩⟩
theorem pifAwaitChecksum : Statement .pifAwaitChecksum := ⟨_, _, rfl, fun _ => ⟨by decide, Nat.le_of_ble_eq_true rfl⟩⟩
theorem pifAwaitAck : Statement .pifAwaitAck := ⟨_, _, rfl, fun _ => ⟨by decide, Nat.le_of_ble_eq_true rfl⟩⟩
theorem pifChecksumExchange : Statement .pifChecksumExchange := ⟨_, _, rfl, fun _ => ⟨by decide, Nat.le_of_ble_eq_true rfl⟩⟩
theorem pifChecksumCompare : Statement .pifChecksumCompare := ⟨_, _, rfl, fun _ => ⟨by decide, Nat.le_of_ble_eq_true rfl⟩⟩
theorem pifBootTimerGate : Statement .pifBootTimerGate := ⟨_, _, rfl, fun _ => ⟨by decide, Nat.le_of_ble_eq_true rfl⟩⟩
theorem pifEnterRunning : Statement .pifEnterRunning := ⟨_, _, rfl, fun _ => ⟨by decide, Nat.le_of_ble_eq_true rfl⟩⟩
theorem pifRunningLoop : Statement .pifRunningLoop := ⟨_, _, rfl, fun _ => ⟨by decide, Nat.le_of_ble_eq_true rfl⟩⟩
theorem pifCompareExchange : Statement .pifCompareExchange := ⟨_, _, rfl, fun _ => ⟨by decide, Nat.le_of_ble_eq_true rfl⟩⟩
theorem pifChallengeExchange : Statement .pifChallengeExchange := ⟨_, _, rfl, fun _ => ⟨by decide, Nat.le_of_ble_eq_true rfl⟩⟩
theorem pifResetting : Statement .pifResetting := ⟨_, _, rfl, fun _ => ⟨by decide, Nat.le_of_ble_eq_true rfl⟩⟩
theorem pifJoybusParse : Statement .pifJoybusParse := ⟨_, _, rfl, fun _ => ⟨by decide, Nat.le_of_ble_eq_true rfl⟩⟩
theorem pifJoybusTransfer : Statement .pifJoybusTransfer := ⟨_, _, rfl, fun _ => ⟨by decide, Nat.le_of_ble_eq_true rfl⟩⟩
theorem jbChannelReset : Statement .jbChannelReset := ⟨_, _, rfl, fun _ => ⟨by decide, Nat.le_of_ble_eq_true rfl⟩⟩
theorem jbChannelExchange (ch : Fin 5) : Statement (.jbChannelExchange ch) := ⟨_, _, rfl, fun _ => ⟨by decide, Nat.le_of_ble_eq_true rfl⟩⟩
theorem jbWaitReady : Statement .jbWaitReady := ⟨_, _, rfl, fun _ => ⟨by decide, Nat.le_of_ble_eq_true rfl⟩⟩
theorem jbError (rq : Addr) : Statement (.jbError rq) := ⟨_, _, rfl, fun _ => ⟨by decide, Nat.le_of_ble_eq_true rfl⟩⟩
theorem decodeRound (w : Addr) : Statement (.decodeRound w) := ⟨_, _, rfl, fun _ => ⟨by decide, Nat.le_of_ble_eq_true rfl⟩⟩
theorem encodeRound (w : Addr) : Statement (.encodeRound w) := ⟨_, _, rfl, fun _ => ⟨by decide, Nat.le_of_ble_eq_true rfl⟩⟩
theorem compareRound (w : Addr) : Statement (.compareRound w) := ⟨_, _, rfl, fun _ => ⟨by decide, Nat.le_of_ble_eq_true rfl⟩⟩
theorem challengeTransform (buf : Addr) : Statement (.challengeTransform buf) := ⟨_, _, rfl, fun _ => ⟨by decide, Nat.le_of_ble_eq_true rfl⟩⟩
theorem complementAll (buf : Addr) : Statement (.complementAll buf) := ⟨_, _, rfl, fun _ => ⟨by decide, Nat.le_of_ble_eq_true rfl⟩⟩
theorem resetCounter : Statement .resetCounter := ⟨_, _, rfl, fun _ => ⟨by decide, Nat.le_of_ble_eq_true rfl⟩⟩
theorem cicMain : Statement .cicMain := ⟨_, _, rfl, fun _ => ⟨by decide, Nat.le_of_ble_eq_true rfl⟩⟩
theorem cicCompare : Statement .cicCompare := ⟨_, _, rfl, fun _ => ⟨by decide, Nat.le_of_ble_eq_true rfl⟩⟩
theorem cicChallenge : Statement .cicChallenge := ⟨_, _, rfl, fun _ => ⟨by decide, Nat.le_of_ble_eq_true rfl⟩⟩
theorem cicReset : Statement .cicReset := ⟨_, _, rfl, fun _ => ⟨by decide, Nat.le_of_ble_eq_true rfl⟩⟩
theorem poll : Statement .poll := ⟨_, _, rfl, fun _ => ⟨by decide, Nat.le_of_ble_eq_true rfl⟩⟩
theorem intEntry (x : IntSrc) : Statement (.intEntry x) := ⟨_, _, rfl, fun _ => ⟨by decide, Nat.le_of_ble_eq_true rfl⟩⟩
theorem intReturn : Statement .intReturn := ⟨_, _, rfl, fun _ => ⟨by decide, Nat.le_of_ble_eq_true rfl⟩⟩
theorem fatal (cause : FatalCause) : Statement (.fatal cause) := ⟨_, _, rfl, fun _ => ⟨by decide, Nat.le_of_ble_eq_true rfl⟩⟩
theorem halt : Statement .halt := ⟨_, _, rfl, fun _ => ⟨by decide, Nat.le_of_ble_eq_true rfl⟩⟩
theorem ackTransfer : Statement .ackTransfer := ⟨_, _, rfl, fun _ => ⟨by decide, Nat.le_of_ble_eq_true rfl⟩⟩
theorem pifIntA : Statement .pifIntA := ⟨_, _, rfl, fun _ => ⟨by decide, Nat.le_of_ble_eq_true rfl⟩⟩
theorem pifIntB : Statement .pifIntB := ⟨_, _, rfl, fun _ => ⟨by decide, Nat.le_of_ble_eq_true rfl⟩⟩
theorem timerInit (t : Timer) (v : Word16) : Statement (.timerInit t v) := ⟨_, _, rfl, fun _ => ⟨by decide, Nat.le_of_ble_eq_true rfl⟩⟩
theorem timerTick (t : Timer) : Statement (.timerTick t) := ⟨_, _, rfl, fun _ => ⟨by decide, Nat.le_of_ble_eq_true rfl⟩⟩

end Sys2Proof.Laws.EncodedForm
end

