-- ==== Sys2Proof/Tests/Slice0.lean ====
section
/-! SUPPORT. The session's own tests: ill-formed terms refused, words written out from the encodings of spec 30, small
steps with results taken from spec 95, and for each obligation with hypotheses a state that meets them. -/

open Sys2Proof Sys2Proof.Machine

namespace Sys2Proof.Tests

/-! ## WellFormed: an ill-formed term for each check -/

theorem test_special_tx_is_no_transfer_item :
    [0x00, 0xFD, 0xFE, 0xFF].map (fun tx : Byte => (Instr.jbXfer tx 0x01).wellFormed) =
      [false, false, false, false] := by decide
theorem test_transfer_items_of_no_bytes_are_well_formed :
    [0x01, 0x40, 0x80, 0xC3].map (fun tx : Byte => (Instr.jbXfer tx 0x00).wellFormed) =
      [true, true, true, true] := by decide
theorem test_special_tx_starts_no_frame : (Instr.frame 0xFE 0x01 [] [0x00]).wellFormed = false := by decide
theorem test_frame_with_too_little_data : (Instr.frame 0x02 0x01 [0xAB] [0x5E]).wellFormed = false := by decide
theorem test_frame_with_too_much_receive_space :
    (Instr.frame 0x02 0x01 [0xAB, 0xCD] [0x5E, 0x00]).wellFormed = false := by decide
theorem test_frame_of_the_source_is_well_formed :
    (Instr.frame 0x02 0x01 [0xAB, 0xCD] [0x5E]).wellFormed = true := by decide

/-! ## Decode: every constructor from a word written out (30 R101 to R121) -/

/-- The operations decoded from written words of a format, each with nothing after it. -/
def reads (f : Format) (l : List (List Byte × Instr)) : Bool :=
  l.all fun x => decide (decode f x.1 = some (x.2, []))

theorem test_decode_cmd : reads .cmd [([0x10], .cmdLockout), ([0x20], .cmdGetChecksum), ([0x40], .cmdCheckChecksum),
    ([0x80], .cmdAck), ([0x01], .cmdJoybus), ([0x02], .cmdChallenge), ([0x04], .cmdBit2),
    ([0x08], .cmdTerminate)] = true := by decide
theorem test_several_flags_are_taken_one_by_one :
    [0x00, 0x30, 0x14, 0xFF].map (fun b : Byte => decode .cmd [b]) = [none, some (.cmdLockout, [0x20]),
      some (.cmdLockout, [0x04]), some (.cmdLockout, [0xEF])] := by decide
/-- 95 V26. -/
theorem test_flags_of_command_bytes :
    cmdFlags 0x78 = [.cmdLockout, .cmdGetChecksum, .cmdCheckChecksum, .cmdTerminate] ∧
    cmdFlags 0xB0 = [.cmdLockout, .cmdGetChecksum, .cmdAck] ∧ cmdFlags 0x00 = [] ∧
    (cmdFlags 0xFF).length = 8 := by decide
theorem test_decode_xkind : reads .xkind [([0x0], .xkindRead4), ([0x1], .xkindWrite4), ([0x2], .xkindRead64),
    ([0x3], .xkindWrite64)] = true := by decide
/-- 95 V27. -/
theorem test_kind_looks_at_two_bits : [0x4, 0x5, 0x6, 0x7, 0xA, 0x9].map (fun v : Nibble => decodeXkind v) =
    [.read4, .write4, .read64, .write64, .read64, .write4] := by decide
theorem test_decode_hello : reads .hello [([0x0], .hello00), ([0x1], .hello01), ([0x2], .hello10),
    ([0x3], .hello11)] = true := by decide
theorem test_decode_ciccmd : reads .ciccmd [([0x0], .ciccmdCompare), ([0x2], .ciccmdChallenge),
    ([0x3], .ciccmdReset), ([0x1], .ciccmdReserved)] = true := by decide
theorem test_decode_jbtx : reads .jbtx [([0x00], .jbSkip), ([0xFD], .jbReset), ([0xFE], .jbStop), ([0xFF], .jbNop),
    ([0x40, 0x80], .jbXfer 0x40 0x80), ([0x02, 0x01], .jbXfer 0x02 0x01)] = true := by decide
theorem test_decode_jbrx : reads .jbrx [([0x81], .jbRx 0x81)] = true := by decide
theorem test_decode_frame : decode .frame [0x02, 0x01, 0xAB, 0xCD, 0x5E, 0xFE] =
    some (.frame 0x02 0x01 [0xAB, 0xCD] [0x5E], [0xFE]) := by decide
theorem test_short_frame_is_refused : decode .frame [0x02, 0x01, 0xAB, 0xCD] = none := by decide
theorem test_decode_portval : reads .portval [([0x0], .jbcIdle), ([0x1], .jbcTx), ([0x2], .jbcRx), ([0x3], .jbcReset),
    ([0x4], .jbcXferAck)] = true ∧ decode .portval [0x5] = none := by decide
theorem test_decode_op_memory : reads .op [([0x00, 0x37], .read 0x37), ([0x01, 0xFE, 0x05], .write 0xFE 0x5),
    ([0x02, 0xFE, 0x02], .bitTest 0xFE 2), ([0x03, 0x00, 0x01], .bitSet 0x00 1),
    ([0x04, 0x00, 0x03], .bitReset 0x00 3), ([0x05], .swap), ([0x06], .incPage), ([0x07], .incFull),
    ([0x08, 0x3E], .setPointer 0x3E)] = true := by decide
theorem test_decode_op_arithmetic : reads .op [([0x09, 0x0C, 0x08], .add4 0xC 0x8), ([0x0A, 0x0F, 0x0E], .adc4 0xF 0xE),
    ([0x0B, 0x05], .com4 0x5), ([0x0C, 0x03, 0x06], .sub4 0x3 0x6), ([0x0D, 0x04], .inc8 0x04)] = true := by decide
theorem test_decode_op_link : reads .op [([0x0E, 0x06], .portRead .jbChSel), ([0x0F, 0x09, 0x03], .portWrite .inten 0x3),
    ([0x10, 0x01], .writeBit true), ([0x11], .readBit), ([0x12], .readNibble), ([0x13, 0x0B], .writeNibble 0xB),
    ([0x14, 0x10, 0x02], .readBuf 0x10 2), ([0x15, 0xC0, 0x20], .writeBuf 0xC0 32)] = true := by decide
theorem test_decode_op_boot : reads .op [([0x16], .pifStartup), ([0x17], .pifAwaitLockout), ([0x18], .pifAwaitChecksum),
    ([0x19], .pifAwaitAck), ([0x1A], .pifChecksumExchange), ([0x1B], .pifChecksumCompare), ([0x1C], .pifBootTimerGate),
    ([0x1D], .pifEnterRunning)] = true := by decide
theorem test_decode_op_running : reads .op [([0x1E], .pifRunningLoop), ([0x1F], .pifCompareExchange),
    ([0x20], .pifChallengeExchange), ([0x21], .pifResetting)] = true := by decide
theorem test_decode_op_joybus : reads .op [([0x22], .pifJoybusParse), ([0x23], .pifJoybusTransfer),
    ([0x24], .jbChannelReset), ([0x25, 0x04], .jbChannelExchange 4), ([0x26], .jbWaitReady),
    ([0x27, 0x82], .jbError 0x82)] = true := by decide
theorem test_decode_op_cic : reads .op [([0x28, 0x10], .decodeRound 0x10), ([0x29, 0x30], .encodeRound 0x30),
    ([0x2A, 0x50], .compareRound 0x50), ([0x2B, 0x80], .challengeTransform 0x80), ([0x2C, 0x80], .complementAll 0x80),
    ([0x2D], .resetCounter), ([0x2E], .cicMain), ([0x2F], .cicCompare), ([0x30], .cicChallenge),
    ([0x31], .cicReset)] = true := by decide
theorem test_decode_op_exceptions : reads .op [([0x32], .poll), ([0x33, 0x01], .intEntry .b), ([0x34], .intReturn),
    ([0x35, 0x06], .fatal .compareMismatch), ([0x36], .halt), ([0x37], .ackTransfer), ([0x38], .pifIntA),
    ([0x39], .pifIntB), ([0x3A, 0x01, 0xFE, 0x12], .timerInit .reset 0x12FE),
    ([0x3B, 0x00], .timerTick .boot)] = true := by decide
theorem test_no_operation_above_the_table : decode .op [0x3C] = none ∧ decode .op [0x25, 0x05] = none ∧
    decode .op [0x0E, 0x0A] = none ∧ decode .op [] = none := by decide

/-! ## Small states -/

/-- A configuration with every OPEN value of 00 R9 and R10 given, as spec 95 part 3 gives them. -/
def cfg : Params := { Config.initial with
  regionPif := .ntsc, regionCic := .ntsc, variantT := false, secret := .replicate 8 0, seedExtra := .replicate 16 0
  cksPlain := .replicate 16 0, chalCapable := true, chalA0 := 0, rcIters := 3 }

/-- The state after reset under that configuration. -/
def base : State := { State.reset with cfg := cfg }

/-- A check on the next state of an operation that has one. -/
def ok (r : Result) (f : State → Bool) : Bool :=
  match r with
  | .next t => f t
  | .fault _ => false
  | .refused _ => false

/-! ## Steps, results from spec 95 -/

/-- V1: `adc4(0xC, 0x8)` with `C` = 1. -/
theorem test_adc4_carries_out : ok (exec (.adc4 0xC 0x8) (setC .pif true base))
    (fun t => t.pif.ret == 0x5 && t.pif.C) = true := by decide
/-- V1: `adc4(0x7, 0x8)` with `C` = 0. -/
theorem test_adc4_fifteen_is_no_carry : ok (exec (.adc4 0x7 0x8) base)
    (fun t => t.pif.ret == 0xF && !t.pif.C) = true := by decide
/-- V1: `add4` leaves `C`. -/
theorem test_add4_wraps_and_leaves_carry : ok (exec (.add4 0xF 0x1) (setC .pif true base))
    (fun t => t.pif.ret == 0 && t.pif.C) = true := by decide
theorem test_sub4_wraps : ok (exec (.sub4 0x3 0x6) base) (fun t => t.pif.ret == 0xD) = true := by decide
theorem test_com4 : ok (exec (.com4 0x5) base) (fun t => t.pif.ret == 0xA) = true := by decide
/-- V2. -/
theorem test_bitTest_of_five : ok (exec (.bitTest 0xFE 2) (writeCell .pif 0xFE 0x5 base)) (fun t => t.pif.ret == 1) = true ∧
    ok (exec (.bitTest 0xFE 1) (writeCell .pif 0xFE 0x5 base)) (fun t => t.pif.ret == 0) = true := by decide
theorem test_bitSet_keeps_other_bits : ok (exec (.bitSet 0x00 1) (writeCell .pif 0x00 0x4 base))
    (fun t => readCell .pif 0x00 t == 0x6) = true := by decide
theorem test_bitReset_keeps_other_bits : ok (exec (.bitReset 0x00 1) (writeCell .pif 0x00 0x6 base))
    (fun t => readCell .pif 0x00 t == 0x4) = true := by decide
theorem test_incPage_stays_in_the_page : ok (exec .incPage (setB .pif ⟨3, 0xF⟩ base))
    (fun t => t.pif.B == ⟨3, 0⟩) = true := by decide
theorem test_incFull_wraps : ok (exec .incFull (setB .pif ⟨0xF, 0xF⟩ base)) (fun t => t.pif.B == ⟨0, 0⟩) = true ∧
    ok (exec .incFull (setB .pif ⟨7, 0xF⟩ base)) (fun t => t.pif.B == ⟨8, 0⟩) = true := by decide
/-- V18. -/
theorem test_inc8_overflows : ok (exec (.inc8 0x04) (writeByte .pif 0x04 0xFF base))
    (fun t => readByte .pif 0x04 t == 0 && t.pif.ret == 1) = true := by decide
theorem test_timerInit_layout : ok (exec (.timerInit .boot 0x12FE) base)
    (fun t => readCells .pif 0x04 4 t == [0xF, 0xE, 0x1, 0x2]) = true := by decide
theorem test_timerTick_carries_into_the_high_pair : ok (exec (.timerTick .boot) (initTimer .boot 0x12FF base))
    (fun t => readCells .pif 0x04 4 t == [0, 0, 1, 3] && t.pif.ret == 0) = true := by decide
theorem test_timerTick_overflows : ok (exec (.timerTick .reset) (initTimer .reset 0xFFFF base))
    (fun t => readCells .pif 0x08 4 t == [0, 0, 0, 0] && t.pif.ret == 1) = true := by decide
/-- V7: a single-engine `ReadBit` samples the data bit whatever the clock is. -/
theorem test_readBit_alone : ok (exec .readBit { base with cfg := { cfg with paired := false }, supply := [(.cic, 1)] })
    (fun t => t.pif.C && t.pif.ret == 1 && t.pif.log == [.write .cic 0, .read .cic 1, .write .cic 2]) = true := by decide
/-- V5. -/
theorem test_decodeRound_of_zeros : ok (exec (.decodeRound 0x10) base)
    (fun t => readCells .pif 0x10 16 t == 0 :: List.replicate 15 0xF) = true := by decide
theorem test_encodeRound_of_zeros : ok (exec (.encodeRound 0x10) base)
    (fun t => readCells .pif 0x10 16 t == [0, 1, 2, 3, 4, 5, 6, 7, 8, 9, 0xA, 0xB, 0xC, 0xD, 0xE, 0xF]) = true := by decide
/-- V3: two encode passes of the test seed, and two decode passes back. -/
theorem test_seed_passes :
    encodeCells 0xF (encodeCells 0xF [0xB, 5, 3, 0xF, 3, 0xF, 0, 1, 2, 3, 4, 5, 6, 7, 8, 9]) =
      [0xB, 0xD, 3, 9, 3, 0xD, 8, 5, 5, 9, 2, 1, 7, 5, 0xC, 0xD] ∧
    decodeCells 0xF (decodeCells 0xF [0xB, 0xD, 3, 9, 3, 0xD, 8, 5, 5, 9, 2, 1, 7, 5, 0xC, 0xD]) =
      [0xB, 5, 3, 0xF, 3, 0xF, 0, 1, 2, 3, 4, 5, 6, 7, 8, 9] := by decide
/-- V14, first row: the fixed output of 45 R334, and the final `a` and `c`. -/
theorem test_challenge_of_zeros : chalCells false 0 true (List.replicate 32 0) =
    ([0xA, 0xB, 8, 0xB, 0xE, 1, 6, 9, 0xE, 7, 2, 0xD] ++ (List.replicate 10 [0, 3]).flatten, 0xC, false) := by decide
/-- V14, fourth row. -/
theorem test_challenge_with_complement : chalCells true 5 true (List.replicate 32 0) =
    ([0xB, 0xF] ++ (List.replicate 15 [9, 0xF]).flatten, 0xF, true) := by decide
/-- V15, first row: the first four cells. -/
theorem test_challenge_of_other_data : (chalCells false 0 true [1, 4, 7, 0xA]).1 = [0xF, 0xE, 4, 7] := by decide
theorem test_complementAll : ok (exec (.complementAll 0x80) base)
    (fun t => readCells .pif 0x80 33 t == List.replicate 32 0xF ++ [0]) = true := by decide
/-- V9. -/
theorem test_hello_judged : ok (exec .hello10 base) (fun t => readCell .pif 0x01 t == 1) = true ∧
    ok (exec .hello11 base) (fun t => t.pifPc == .fatal && t.fcause == some .regionMismatch) = true := by decide
/-- V19, first row. -/
theorem test_poll_takes_a_before_b :
    ok (exec .poll { base with ie := true, ifa := true, ifb := true, pifLatch := { base.pifLatch with inten := 3 } })
      (fun t => !t.ifa && t.ifb && !t.ie && t.isr == some ⟨.a, .coldBoot, []⟩) = true := by decide
/-- V25. -/
theorem test_interrupt_b_service : ok (exec .pifIntB (writeCell .pif 0x00 0x6 base))
    (fun t => readCell .pif 0x00 t == 0x4 && t.pif.log == [.write .reset 2, .write .inten 1]) = true := by decide
/-- V21: the stop of `FD FE`; the fifth item of `01 00 AA FD 00 00 01 BB` ends past the region. -/
theorem test_parse_corners :
    ok (exec .pifJoybusParse (writeCells .pif 0x80 [0xF, 0xD, 0xF, 0xE] base))
      (fun t => readCell .pif 0x72 t == 2 && readCell .pif 0x75 t == 1 && t.parse.p == 0x82 && t.parse.ch == 1) = true ∧
    ok (exec .pifJoybusParse (writeCells .pif 0x80 [0, 1, 0, 0, 0xA, 0xA, 0xF, 0xD, 0, 0, 0, 0, 0, 1, 0xB, 0xB] base))
      (fun t => readCell .pif 0x7C t == 8 && readCell .pif 0x7D t == 0xC && readCell .pif 0x7E t == 0 &&
        t.parse.p == 0x108 && t.parse.ch == 5) = true := by decide
/-- V21, last bytes of row 8: with 62 bytes `FF` read, the 63rd is the last; the command byte is never read. -/
theorem test_parse_bound : (parseItems 64 { writeByte .pif 0xFC 0xFF base with parse := ⟨0xFC, 0, false⟩ }).parse =
    ⟨0xFE, 0, false⟩ := by decide
/-- V22: no answer before the first byte; the frame `01 01 AA s0` on channel 0. -/
theorem test_no_answer_sends_no_byte :
    ok (runTask (.pos (.txByte 0x82 0x84 0 1)) (deliver .pif 1 (writeByte .pif 0x82 0x01 base)))
      (fun t => t.pif.cont == [] && t.pif.log == [.write .jbCtrl 0]) = true := by decide
/-- V23: the window wrap of the receive phase. -/
theorem test_window_wrap : windowWrap 0xFE = 0xFE ∧ windowWrap 0x00 = 0x80 ∧ windowWrap (0xFF + 1) = 0x80 := by decide
theorem test_power_on : ok (hostAction .powerOn { writeCell .pif 0x00 0x6 base with pifPc := .fatal, ie := true })
    (fun t => t.pifPc == .coldBoot && !t.ie && t.pif.mem == []) = true := by decide

/-! ## States that meet the hypotheses of the obligations, one theorem a statement, each clause at the ends of its range -/

/-- DecodeInvertsEncode: the longest and the shortest frame are well formed, and so is an item of each end of the counts. -/
theorem test_meets_DecodeInvertsEncode :
    (Instr.frame 0x3F 0x3F (List.replicate 63 0) (List.replicate 63 0)).wellFormed = true ∧
    (Instr.frame 0x40 0x00 [] []).wellFormed = true ∧ (Instr.jbXfer 0x01 0xFF).wellFormed = true ∧
    (Instr.jbXfer 0xFC 0x00).wellFormed = true ∧ Instr.swap.wellFormed = true := by decide

/-- The state with an operation in the notional field. -/
def fielded (f : Format) (bytes : List Byte) : State := { base with opField := some (f, bytes) }

theorem test_meets_StepRuns_field :
    ((fielded .op [0x05]).opField = some (.op, [0x05]) ∧ decode .op [0x05] = some (.swap, [])) ∧
    decodeTableWord 8 0x05 = some .swap ∧ decodeTableWord 16 0x3700 = some (.read 0x37) ∧
    ((fielded .op [0x3C]).opField = some (.op, [0x3C]) ∧ decode .op [0x3C] = none ∧ Format.op ≠ .cmd) := by decide
/-- A command byte with several flags, with one and with none, and a field with no byte at all. -/
theorem test_meets_StepRuns_flags :
    cmdFlags 0x30 = .cmdLockout :: [.cmdGetChecksum] ∧ cmdFlags 0x08 = .cmdTerminate :: [] ∧
    (fielded .cmd [0x00]).opField = some (.cmd, 0 :: []) ∧
    (decode .cmd [] = none ∧ (Format.cmd = .cmd → ([] : List Byte).head? ≠ some 0)) := by decide
/-- 30 R105: in `S_AWAIT_LOCKOUT` the byte 0x30 has its `LOCKOUT` tested, and the other flag stays. -/
theorem test_step_runs_a_flag_of_several : ok (step { fielded .cmd [0x30] with pifPc := .awaitLockout })
    (fun t => t.pifLatch.romLock == 1 && t.pifPc == .awaitChecksum && t.opField == some (.cmd, [0x20])) = true := by
  decide
theorem test_meets_StepRuns_engine :
    ({ base with script := [HostAct.complete] }.opField = none ∧
      { base with script := [HostAct.complete] }.script = [HostAct.complete]) ∧
    (base.opField = none ∧ base.script = [] ∧ fetchTask base.active base = some (.op .pifStartup, base)) ∧
    ({ base with halted := true }.opField = none ∧ { base with halted := true }.script = [] ∧
      fetchTask .pif { base with halted := true } = none) := by decide
theorem test_meets_StepRuns_selected : ∀ pc ∈ [PifPc.coldBoot, .awaitLockout, .awaitChecksum, .awaitAck, .bootTimerGate,
      .running, .challengePending, .resetting],
    { base with pifPc := pc }.pif.cont = [] ∧ { base with pifPc := pc }.halted = false ∧
      { base with pifPc := pc }.pifPc = pc := by decide
theorem test_meets_StepRuns_selected_cic : ∀ pc ∈ [CicPc.boot, .compare, .challenge, .reset],
    { base with cicPc := pc }.cic.cont = [] ∧ { base with cicPc := pc }.cicPc = pc := by decide

/-- Counters: the last tick before the overflow, and the overflow; a count of no ticks. -/
theorem test_meets_Counters : timerValue .boot (initTimer .boot 0xFFFD base) + 2 = 65535 ∧
    timerValue .reset (initTimer .reset 0xFFFF base) + 0 < 65536 ∧ timerValue .boot base + 0 < 65536 := by decide

/-- 20 R86, 45 R351: the ports of each engine. -/
theorem test_meets_ports : allPorts.filter (hasPort .cic) = [.cic, .reset] ∧ allPorts.filter (hasPort .pif) = allPorts := by
  decide
/-- 10 R34, R45: a write of `P_INTEN` by the CIC is an event and reaches no latch. -/
theorem test_port_write_by_the_cic : ok (exec (.portWrite .inten 3) { base with active := .cic })
    (fun t => t.cic.log == [.write .inten 3] && t.pifLatch == base.pifLatch && t.cic.latch == base.cic.latch) = true := by
  decide

theorem test_meets_PortRead :
    (base.cfg.paired = true) ∧ ({ base with kindDue := some .read64 }.kindDue = some .read64) ∧
    ({ base with supply := [(.jbData, 1), (.jbError, 2), (.jbError, 3)] }.supply = [(.jbData, 1)] ++ (.jbError, 2) :: [(.jbError, 3)] ∧
      (∀ c ∈ [(Port.jbData, (1 : Nibble))], c.1 ≠ .jbError) ∧ base.kindDue = none) := by decide
/-- A kind due with a value laid ready for `P_JB_STATUS`, and with nothing laid ready for it. -/
theorem test_meets_PortRead_kind :
    (let s := { base with kindDue := some .write4, supply := [(.jbStatus, 6)] };
      s.cfg.paired = true ∧ s.kindDue = some .write4 ∧ s.supply = [] ++ (.jbStatus, 6) :: []) ∧
    (∀ c ∈ [(Port.jbData, (1 : Nibble))], c.1 ≠ .jbStatus) := by decide
/-- 60 R400: the kind in bits 1 and 0, the other bits as supplied, and the value supplied is used up. -/
theorem test_kind_read_with_a_supplied_value :
    ok (exec (.portRead .jbStatus) { base with kindDue := some .write4, supply := [(.jbStatus, 6)] })
      (fun t => t.pif.ret == 5 && t.supply == [] && t.kindDue == none) = true := by decide

/-- A state of a single-engine model, with a value laid ready for the link. -/
def alone (v : Nibble) : State := { base with cfg := { cfg with paired := false }, supply := [(.cic, v)] }

theorem test_meets_LinkPrimitivesAlone : (alone 2).cfg.paired = false ∧
    peerClk (portRead .pif .cic (alone 2)).1 = true ∧ peerClk (portRead .pif .cic (alone 1)).1 = false ∧
    (alone 1).supply = [] ++ (.cic, 1) :: [] := by decide

/-- A paired state with the given tasks of the two engines. -/
def paired (p c : List Task) : State := setCont .pif p (setCont .cic c base)

theorem test_meets_PairedBitExchange :
    (let s := portWrite .pif .cic (linkOut true true) (paired [.pos .ackWait] [.op .readBit]);
      s.cfg.paired = true ∧ (s.pifPc ≠ .fatal ∧ s.halted = false ∧ s.cicPc ≠ .dead) ∧
      (s.eng .pif).cont = .pos .ackWait :: [] ∧ (s.eng .pif).latch.cic = linkOut true true ∧
      (s.eng Who.pif.other).cont = .op .readBit :: []) ∧
    (let s := portWrite .cic .cic (linkOut true false) (paired [] [.pos .ackWait]);
      s.cfg.paired = true ∧ (s.eng s.active.other).cont = .pos .ackWait :: [] ∧
      (s.eng s.active.other).latch.cic = linkOut true false) := by decide
theorem test_meets_LinkHeldOrStuck :
    (let s := paired [.op .readBit] [.op .readBit];
      s.cfg.paired = true ∧ (s.pifPc ≠ .fatal ∧ s.halted = false ∧ s.cicPc ≠ .dead) ∧
      (s.eng .pif).cont = .op .readBit :: [] ∧ (s.eng Who.pif.other).cont.head? ≠ some (.pos .ackWait)) ∧
    (let s := paired [.pos .ackWait] [.pos .ackWait];
      (s.eng .cic).cont = .pos .ackWait :: [] ∧ (s.eng Who.cic.other).cont = .pos .ackWait :: []) := by decide
/-- A writer alone: its peer at another task, and a dead CIC with none. -/
theorem test_meets_LinkHeldOrStuck_alone : ∀ c ∈ [CicPc.boot, .dead], ∀ l ∈ [[], [Task.op .swap]],
    let s := { paired [.pos .ackWait] l with cicPc := c };
    s.cfg.paired = true ∧ (s.pifPc ≠ .fatal ∧ s.halted = false) ∧ (s.eng .pif).cont = .pos .ackWait :: [] ∧
      (s.eng Who.pif.other).cont.head? ≠ some (.op .readBit) ∧
      (s.eng Who.pif.other).cont.head? ≠ some (.pos .ackWait) ∧
      peerClk ((s.eng Who.pif.other).latch.cic) = false := by decide
theorem test_meets_NibbleCrossesTheLink :
    let s := paired [.op (.writeNibble 0xB)] [.op .readNibble];
    s.cfg.paired = true ∧ (s.pifPc ≠ .fatal ∧ s.halted = false ∧ s.cicPc ≠ .dead) ∧
      (s.eng .pif).cont = .op (.writeNibble 0xB) :: [] ∧ (s.eng Who.pif.other).cont = .op .readNibble :: [] := by decide
/-- The buffer of no cells, of one and of 255, and the writer on either side. -/
theorem test_meets_BufferCrossesTheLink : ∀ n ∈ [(0 : Byte), 1, 255],
    let s := paired [.op (.readBuf 0xF8 n)] [.op (.writeBuf 0x10 n)];
    s.cfg.paired = true ∧ (s.pifPc ≠ .fatal ∧ s.halted = false ∧ s.cicPc ≠ .dead) ∧
      (s.eng .cic).cont = .op (.writeBuf 0x10 n) :: [] ∧
      (s.eng Who.cic.other).cont = .op (.readBuf 0xF8 n) :: [] := by decide

/-- A state with Interrupt A in service. -/
def served : State := { base with pifPc := .running, isr := some ⟨.a, .running, [.pos .runTest]⟩ }

theorem test_meets_HelloCodeJudged : base.cfg.regionPif = (if false = true then .pal else .ntsc) ∧
    base.cfg.regionPif ≠ (if true = true then Region.pal else .ntsc) := by decide
theorem test_meets_HandshakePhases : ∀ k ∈ [0, 1, 2],
    cellBit .pif Config.cmdStatus k (writeCell .pif Config.cmdStatus 0x7 base) = true ∧
      cellBit .pif Config.cmdStatus k (writeCell .pif Config.cmdStatus 0x8 base) = false := by decide
theorem test_meets_HandshakePhases_set : ∀ x ∈ [(0, PifPc.awaitLockout), (1, .awaitChecksum), (2, .awaitAck)],
    let s := { writeCell .pif Config.cmdStatus 0x7 base with pifPc := x.2 };
    cellBit .pif Config.cmdStatus x.1 s = true ∧ s.pifPc = x.2 := by decide
/-- 60 R383, R384: the services ask for no interrupt in service. -/
theorem test_services_by_themselves :
    ok (exec .xkindRead64 (writeCell .pif Config.cmdCmd 0x2 (writeCell .pif Config.stMain 0x2 base)))
      (fun t => readCell .pif Config.stMain t == 0x3 && t.pif.cont == []) = true ∧
    ok (runTask (.pos .writeServed) (writeCell .pif Config.cmdCmd 0x1 base))
      (fun t => t.pif.cont == [.op .pifJoybusParse]) = true := by decide
/-- 45 R348: "and then `CIC.Main` starts again from its first line". -/
theorem test_cic_reset_restarts_main : ok (exec .cicReset base)
    (fun t => t.cic.cont == [.op .resetCounter, .pos .resetCounted, .op .cicMain]) = true := by decide
theorem test_meets_HandshakePhases_settle : served.active = .pif ∧ served.isr ≠ none := by decide
theorem test_meets_LockoutAndGetChecksum : { base with pifPc := .awaitLockout }.pifPc = .awaitLockout ∧
    { base with pifPc := .awaitChecksum }.pifPc = .awaitChecksum := by decide
theorem test_meets_CheckChecksumPhase :
    (let s := { writeCell .pif Config.stMain 0x4 base with pifPc := .awaitAck };
      s.pifPc = .awaitAck ∧ cellBit .pif Config.stMain 2 s = true) ∧
    (let s := { writeCell .pif Config.stMain 0xB base with pifPc := .awaitAck };
      s.pifPc = .awaitAck ∧ cellBit .pif Config.stMain 2 s = false) := by decide
/-- All twelve pairs equal; the first unequal; the last unequal. -/
theorem test_meets_ChecksumCompared :
    (∀ i < 12, readCell .pif (cellAt (Config.cksWin + base.cfg.cksOff) i) base = readCell .pif (cellAt Config.cksCpu i) base) ∧
    (let s := writeCell .pif (cellAt Config.cksCpu 0) 1 base;
      readCell .pif (cellAt (Config.cksWin + s.cfg.cksOff) 0) s ≠ readCell .pif (cellAt Config.cksCpu 0) s) ∧
    (let s := writeCell .pif (cellAt Config.cksCpu 11) 1 base;
      readCell .pif (cellAt (Config.cksWin + s.cfg.cksOff) 11) s ≠ readCell .pif (cellAt Config.cksCpu 11) s) := by decide
theorem test_meets_BootTimerGate :
    cellBit .pif Config.cmdCmd 3 (writeCell .pif Config.cmdCmd 0x8 base) = true ∧
    (let s := initTimer .boot 0xFFFE (writeCell .pif Config.cmdCmd 0x7 base);
      cellBit .pif Config.cmdCmd 3 s = false ∧ timerValue .boot s ≠ 65535) ∧
    (let s := initTimer .boot 0xFFFF (writeCell .pif Config.cmdCmd 0x7 base);
      cellBit .pif Config.cmdCmd 3 s = false ∧ timerValue .boot s = 65535) ∧
    { base with pifPc := .bootTimerGate }.pifPc = .bootTimerGate := by decide
theorem test_meets_EnterRunning : base.cfg.compareKeyInit = .specDefault := by decide
theorem test_meets_FlagsElsewhere : (base.pifPc ≠ .awaitLockout ∧ base.pifPc ≠ .awaitChecksum ∧ base.pifPc ≠ .awaitAck ∧
    base.pifPc ≠ .bootTimerGate) ∧ base.isr = none ∧
    { base with isr := some ⟨.b, .running, []⟩ }.isr = some ⟨.b, .running, []⟩ := by decide
theorem test_meets_RunningLoopOrder :
    cellBit .pif Config.stMain 1 (writeCell .pif Config.stMain 0x5 base) = false ∧
    (let s := writeCell .pif Config.stMain 0x3 base;
      cellBit .pif Config.stMain 1 s = true ∧ cellBit .pif Config.stMain 0 s = true) ∧
    (let s := writeCell .pif Config.stMain 0x2 base;
      cellBit .pif Config.stMain 1 s = true ∧ cellBit .pif Config.stMain 0 s = false) := by decide
/-- CompareExchange, CicOperations: a bit that differs; one that agrees at the last index, and at an earlier one. -/
theorem test_meets_CompareExchange :
    (let s := deliver .pif 1 base;
      retBit .pif s ≠ cellBit .pif (cellAt Config.cmp1 9) 0 s) ∧
    (retBit .pif base = cellBit .pif (cellAt Config.cmp1 15) 0 base ∧ compareNext base.cfg 15 = 0 ∧
      compareNext base.cfg 14 ≠ 0) ∧ compareNext { cfg with cmpDir := .down } 1 = 0 ∧
    base.cfg.compareStart = .specDefault ∧ base.cfg.cmpDir = .up := by decide
theorem test_meets_ChallengeExchange : challengeVerified base.cfg [] (readCells .pif Config.shChal 32 base) = true ∧
    base.cfg.chalVerify = .specDefault := by decide
theorem test_meets_ResettingSequence :
    peerClk (portRead .pif .cic (alone 2)).1 = true ∧
    (let s := initTimer .reset 0xFFFE (alone 1);
      peerClk (portRead .pif .cic s).1 = false ∧ timerValue .reset s ≠ 65535) ∧
    (let s := initTimer .reset 0xFFFF (alone 1);
      peerClk (portRead .pif .cic s).1 = false ∧ timerValue .reset s = 65535) := by decide

theorem test_meets_TransferItemRecorded :
    (let s := { base with parse := ⟨0xFC, 4, false⟩ };
      s.parse.stop = false ∧ s.parse.ch < 5 ∧ s.parse.p < 0xFE) ∧
    { base with parse := ⟨0x80, 0, true⟩ }.parse.stop = true ∧ 5 ≤ { base with parse := ⟨0x80, 5, false⟩ }.parse.ch ∧
    0xFE ≤ { base with parse := ⟨0xFE, 0, false⟩ }.parse.p := by decide
/-- V20, with the data `AB CD` and the receive space `5E`. -/
theorem test_meets_SourceFrameListParses :
    ∀ k < 6, readByte .pif (BitVec.ofNat 8 (0x80 + 2 * k))
      (writeCells .pif 0x80 [0, 2, 0, 1, 0xA, 0xB, 0xC, 0xD, 5, 0xE, 0xF, 0xE] base) =
        [0x02, 0x01, 0xAB, 0xCD, 0x5E, 0xFE].getD k 0 := by decide

/-- A state in which the host has laid ready the next values of the JoyBus ports. -/
def readyWith (l : List (Port × Nibble)) : State := { base with supply := l }

theorem test_meets_TransferServesSelectedChannel :
    (∀ ch : Fin 5, (portRead .pif .jbChSel (readyWith [(.jbChSel, BitVec.ofNat 4 ch.val)])).1.toNat % 8 = ch.val) ∧
    (∀ v ∈ [(5 : Nibble), 6, 7, 0xF], 5 ≤ (portRead .pif .jbChSel (readyWith [(.jbChSel, v)])).1.toNat % 8) ∧
    cellBit .pif (Config.jbStat 4) 0 (writeCell .pif (Config.jbStat 4) 0x3 base) = true ∧
    (let s := writeCell .pif (Config.jbStat 0) 0x2 base;
      cellBit .pif (Config.jbStat 0) 0 s = false ∧ cellBit .pif (Config.jbStat 0) 1 s = true) ∧
    cellBit .pif (Config.jbStat 0) 0 base = false ∧ cellBit .pif (Config.jbStat 0) 1 base = false := by decide
theorem test_meets_JoybusControlAndWait :
    bitOf (portRead .pif .jbStatus (readyWith [(.jbStatus, 4)])).1 2 = true ∧
    (∀ e ∈ [(0 : Nibble), 1, 2, 3, 0xC], let s := readyWith [(.jbStatus, 0), (.jbError, e)];
      bitOf (portRead .pif .jbStatus s).1 2 = false ∧
        (portRead .pif .jbError (portRead .pif .jbStatus s).2).1 = e) := by decide
/-- ChannelExchangeOpens: each of its three cases, with the offset of V23 and with an offset below the region. -/
theorem test_meets_ChannelExchangeOpens :
    (let s := writeCells .pif 0x80 [0, 1, 0, 0] (writeByte .pif (Config.jbOffHi 0) 0x80 base);
      windowWrap (readCell .pif (Config.jbOffHi 0) s ++ readCell .pif (Config.jbOffLo 0) s) = 0x80 ∧
      (readCell .pif 0x80 s ++ readCell .pif (windowWrap 0x81) s).toNat % 64 = 1) ∧
    (let s := writeCells .pif 0x80 [4, 0, 0, 1] base;
      windowWrap (readCell .pif (Config.jbOffHi 0) s ++ readCell .pif (Config.jbOffLo 0) s) = 0x80 ∧
      (readCell .pif 0x80 s ++ readCell .pif (windowWrap 0x81) s).toNat % 64 = 0 ∧
      (readCell .pif 0x82 s ++ readCell .pif (windowWrap 0x83) s).toNat % 64 = 1) ∧
    (readCell .pif 0x80 base ++ readCell .pif (windowWrap 0x81) base).toNat % 64 = 0 := by decide
theorem test_meets_ChannelBytes : base.pif.ret = 0 ∧ (deliver .pif 1 base).pif.ret ≠ 0 ∧
    (0x82 : Addr) ≠ Config.saveA := by decide

/-- The window alone, at either end of a buffer of 20, and at the end of the longest. -/
theorem test_meets_CicMain :
    [((0 : Byte), (16 : Byte)), (4, 20), (0, 20), (16, 32)].map (fun x =>
      (x.1.toNat + 16).ble x.2.toNat && x.2.toNat.ble 32) = [true, true, true, true] ∧
    ((base.cfg.seedWinOff, base.cfg.seedXferLen) = (0, 16)) ∧
    cellBit .cic Config.cst 0 (writeCell .cic Config.cst 1 base) = true ∧ cellBit .cic Config.cst 0 base = false := by decide

theorem test_meets_CicSelectorChooses : { base with cicPc := .idle }.cic.cont = [] ∧
    { base with cicPc := .idle }.cicPc = .idle := by decide

/-- A running state in which both sources are pending; `en` is what stands in `INTEN`. -/
def pending (a b : Bool) (en : Nibble) : State :=
  { portWrite .pif .inten en base with pifPc := .running, ie := true, ifa := a, ifb := b }

theorem test_meets_Poll :
    (let s := pending true true 3;
      s.ie = true ∧ s.isr = none ∧ s.ifa = true ∧ bitOf s.pifLatch.inten 0 = true) ∧
    (let s := pending true true 2;
      s.ie = true ∧ s.isr = none ∧ (s.ifa && bitOf s.pifLatch.inten 0) = false ∧ s.ifb = true ∧
        bitOf s.pifLatch.inten 1 = true) ∧
    (let s := pending false true 1;
      (s.ifa && bitOf s.pifLatch.inten 0) = false ∧ (s.ifb && bitOf s.pifLatch.inten 1) = false) ∧
    { pending true true 3 with ie := false }.ie = false ∧
    { pending true true 3 with isr := some ⟨.a, .running, []⟩ }.isr ≠ none := by decide

theorem test_meets_InterruptEntryAndReturn : served.isr = some ⟨.a, .running, [.pos .runTest]⟩ ∧ base.isr = none ∧
    ok (exec (.intEntry .b) base) (fun t => ok (exec .intReturn t) fun u => u.ie) = true := by decide
theorem test_meets_FatalAction : (raiseFatal .compareMismatch base).pifPc = .fatal := by decide

/-- A halted PIF with an open transfer. -/
def halting (k : XKind) (a : Bool) : State := { base with halted := true, pifPc := .peripheralIdle, ifa := a, xfer := some k }

theorem test_meets_HaltAndAcknowledge : ∀ a ∈ [true, false],
    (halting .read4 a).halted = true ∧ (halting .read4 a).pifPc ≠ .fatal ∧ (halting .read4 a).ifa = a := by decide
theorem test_meets_ServiceOfInterruptA : served.isr = some ⟨.a, .running, [.pos .runTest]⟩ ∧
    cellBit .pif Config.stMain 1 (writeCell .pif Config.stMain 2 served) = true ∧
    cellBit .pif Config.stMain 1 (writeCell .pif Config.stMain 5 served) = false := by decide
theorem test_meets_HostActions :
    (base.halted = false ∧ base.xfer = none) ∧ (halting .read4 false).halted = true ∧
    (∀ k ∈ [XKind.write4, .write64], ∀ a ∈ [(0x80 : Addr), 0xFF], let s := halting k false;
      s.halted = true ∧ s.ifa = false ∧ 0x80 ≤ a.toNat ∧ s.xfer = some k) ∧
    ((0x7F : Addr).toNat < 0x80 ∧ (halting .read64 false).xfer ∉ [some .write4, some .write64] ∧
      (halting .read4 true).ifa = true) := by decide

theorem test_meets_invariants : MemoriesCanonical base ∧ TasksOwned base ∧ FatalHasCause base ∧ ParseAligned base := by
  refine ⟨⟨by decide, by decide⟩, ⟨by decide, by decide, fun r h => nomatch h⟩, ?_, by decide, by decide⟩
  rintro (h | h | ⟨r, h, _⟩)
  · exact nomatch h
  · exact nomatch h
  · exact nomatch h
theorem test_meets_step_has_a_next_state : ok (step base) (fun t => t.active == .cic) = true ∧
    ok (engineStep .cic base) (fun t => t.cicPc == .boot) = true ∧
    ok (engineStep .pif base) (fun t => t.cicPc == .boot) = true := by decide
theorem test_meets_FatalIsNeverLeft : let s := raiseFatal .regionMismatch base;
    s.pifPc = .fatal ∧ s.opField = none ∧ s.script.head? ≠ some .powerOn ∧ ok (step s) (fun t => t.pifPc == .fatal) = true := by
  decide
theorem test_meets_FatalIsNeverLeft_owned : TasksOwned (raiseFatal .regionMismatch base) :=
  ⟨by decide, by decide, fun r h => nomatch h⟩
theorem test_meets_InterruptsOnlyAtPollPoints :
    ok (runTask (.op .poll) (pending true false 3)) (fun u => u.isr != none) = true ∧
    ok (runTask (.op (.intEntry .a)) base) (fun u => u.isr != none) = true ∧
    ok (runTask (.op .intReturn) served) (fun u => u.ie) = true ∧ served.ie = false ∧
    ok (runTask (.pos .seedReceived) base) (fun u => u.ie) = true ∧ base.ie = false := by decide

end Sys2Proof.Tests
end

