-- ==== Sys2Proof/Proofs/Edits.lean ====
section
/-! What an engine can do to the state, said once: every operation and every inner position is a chain of the elementary
updates of `Edits`, each named by the engine that makes it. An invariant or a frame of the whole machine is then one
induction over these updates. -/

namespace Sys2Proof.Machine

/-- The parse position is on the first cell of a byte of the shared region or after it (44 R274). -/
def ParsePos.Aligned (p : ParsePos) : Prop := 0x80 ≤ p.p ∧ p.p % 2 = 0

theorem parseAligned_iff (s : State) : ParseAligned s ↔ s.parse.Aligned := Iff.rfl

/-- `Edits s w t`: updates that an operation of engine `w` may make lead from `s` to `t`. Of the other engine they reach
what a bit exchange reaches, the rules from `linkWrite` to `dropTask` (41 R178, R181); `S_FATAL` is set with a cause
only. -/
inductive Edits (s : State) : Who → State → Prop
  | refl {w : Who} : Edits s w s
  | cell {w : Who} {t : State} {a : Addr} {x : Nibble} : Edits s w t → Edits s w (writeCell w a x t)
  | registers {w : Who} {t : State} {f : Engine → Engine} (hf : ∀ E, (f E).mem = E.mem ∧ (f E).cont = E.cont) :
      Edits s w t → Edits s w (modEng w f t)
  | push {w : Who} {t : State} {ts : List Task} (hts : ts.all (Task.allowed w) = true) :
      Edits s w t → Edits s w (push w ts t)
  | abandon {w : Who} {t : State} : Edits s w t → Edits s w (setCont w [] t)
  | portWrite {w : Who} {t : State} {p : Port} {x : Nibble} : Edits s w t → Edits s w (portWrite w p x t)
  | portRead {w : Who} {t : State} {p : Port} : Edits s w t → Edits s w (portRead w p t).2
  | draw {w : Who} {t : State} {n : Nat} : Edits s w t → Edits s w { t with draws := n }
  | linkWrite {w v : Who} {t : State} {x : Nibble} : Edits s w t → Edits s w (Machine.portWrite v .cic x t)
  | linkRead {w v : Who} {t : State} : Edits s w t → Edits s w (Machine.portRead v .cic t).2
  | setC {w v : Who} {t : State} {c : Bool} : Edits s w t → Edits s w (setC v c t)
  | deliver {w v : Who} {t : State} {x : Byte} : Edits s w t → Edits s w (deliver v x t)
  | dropTask {w v : Who} {t : State} : Edits s w t → Edits s w (dropTask v t)
  | cicPc {t : State} {pc : CicPc} : Edits s .cic t → Edits s .cic { t with cicPc := pc }
  | ie {t : State} {b : Bool} : Edits s .pif t → Edits s .pif { t with ie := b }
  | pifPc {t : State} {pc : PifPc} (hpc : pc ≠ .fatal) : Edits s .pif t → Edits s .pif { t with pifPc := pc }
  | parse {t : State} {p : ParsePos} (hp : t.parse.Aligned → p.Aligned) :
      Edits s .pif t → Edits s .pif { t with parse := p }
  | fatal {t : State} {c : FatalCause} : Edits s .pif t → Edits s .pif { t with fcause := some c, pifPc := .fatal }
  | takeInterrupt {t : State} {x : IntSrc} : Edits s .pif t → Edits s .pif (takeInterrupt x t)
  | returnInterrupt {t : State} : Edits s .pif t → Edits s .pif (returnInterrupt t)
  | beginHalt {t : State} : Edits s .pif t → Edits s .pif (beginHalt t)
  | endHalt {t : State} : Edits s .pif t → Edits s .pif (endHalt t)

/-- The answer of an operation of engine `w` is a state that its updates lead to, or a refusal. -/
inductive Answers (s : State) (w : Who) : Result → Prop
  | next {t : State} : Edits s w t → Answers s w (.next t)
  | refused (q : Refusal) : Answers s w (.refused q)

theorem Answers.edits {s t : State} {w : Who} : Answers s w (.next t) → Edits s w t
  | .next h => h

section
variable {s t : State} {w : Who}

/-! ## Memory -/

theorem edits_setBit {a : Addr} {b : BitVec 2} (h : Edits s w t) : Edits s w (setBit w a b t) := .cell h

theorem edits_resetBit {a : Addr} {b : BitVec 2} (h : Edits s w t) : Edits s w (resetBit w a b t) := .cell h

theorem edits_writeByte {a : Addr} {v : Byte} (h : Edits s w t) : Edits s w (writeByte w a v t) := .cell (.cell h)

theorem edits_writeCells {base : Addr} {vs : List Nibble} (h : Edits s w t) : Edits s w (writeCells w base vs t) := by
  induction vs generalizing base t with
  | nil => exact h
  | cons v vs ih => exact ih (.cell h)

theorem edits_incByte {a : Addr} (h : Edits s w t) : Edits s w (incByte w a t).2 := edits_writeByte h

theorem edits_tickChain {a : Addr} (h : Edits s w t) : Edits s w (tickChain w a t).2 := by
  unfold tickChain
  dsimp only
  split
  · exact edits_incByte (edits_incByte h)
  · exact edits_incByte h

theorem edits_initTimer {x : Timer} {v : Word16} (h : Edits s .pif t) : Edits s .pif (initTimer x v t) :=
  edits_writeByte (edits_writeByte h)

theorem edits_tickTimer {x : Timer} (h : Edits s .pif t) : Edits s .pif (tickTimer x t).2 := edits_tickChain h

theorem edits_passes {f : State → State} {n : Nat} (hf : ∀ u, Edits s w u → Edits s w (f u)) (h : Edits s w t) :
    Edits s w (passes n f t) := passes_invariant hf n h

theorem edits_decodePasses {a : Addr} {n : Nat} (h : Edits s w t) : Edits s w (passes n (decodePass w a) t) :=
  edits_passes (fun _ => edits_writeCells) h

theorem edits_encodePasses {a : Addr} {n : Nat} (h : Edits s w t) : Edits s w (passes n (encodePass w a) t) :=
  edits_passes (fun _ => edits_writeCells) h

theorem edits_comparePasses {a : Addr} {n : Nat} (h : Edits s w t) : Edits s w (passes n (comparePass w a) t) :=
  edits_passes (fun _ => edits_writeCells) h

/-! ## Registers -/

theorem edits_setB {p : Pointer} (h : Edits s w t) : Edits s w (setB w p t) := .registers (fun _ => ⟨rfl, rfl⟩) h

theorem edits_swapPointers (h : Edits s w t) : Edits s w (swapPointers w t) := .registers (fun _ => ⟨rfl, rfl⟩) h

theorem edits_drawRegisters {k b : Bool} (h : Edits s w t) : Edits s w (drawRegisters w k b t) :=
  .draw (.registers (fun _ => ⟨rfl, rfl⟩) h)

theorem edits_settle {k : Bool} (h : Edits s w t) : Edits s w (settle w k t) := edits_drawRegisters h

/-! ## The serial link -/

theorem edits_bitExchange {writer reader : Who} (h : Edits s w t) : Edits s w (bitExchange writer reader t) :=
  .deliver (.setC (.linkWrite (.linkWrite (.linkRead (.linkRead (.linkWrite h))))))

theorem edits_startWriteBit {v : Bool} (h : Edits s w t) : Edits s w (startWriteBit w v t) := .push rfl (.portWrite h)

theorem edits_ackTurn (h : Edits s w t) : Edits s w (ackTurn w t) := by
  unfold ackTurn
  split
  · exact edits_bitExchange (.dropTask h)
  · split
    · exact .push rfl h
    · dsimp only
      split
      · exact .portWrite (.portRead h)
      · exact .push rfl (.portRead h)

theorem edits_readBitTurn (h : Edits s w t) : Edits s w (readBitTurn w t) := by
  unfold readBitTurn
  split
  · split
    · exact edits_bitExchange (.dropTask h)
    · exact .push rfl h
  · exact .deliver (.setC (.portWrite (.portRead (.portWrite h))))

theorem edits_takeNibbleBit {left : Nat} {acc : Nibble} (h : Edits s w t) :
    Edits s w (takeNibbleBit w left acc t) := by
  cases left with
  | zero => exact .deliver h
  | succ k => exact .push rfl h

/-! ## Interrupts, the fatal action, the halt -/

theorem edits_raiseFatal {c : FatalCause} (h : Edits s .pif t) : Edits s .pif (raiseFatal c t) :=
  .abandon (edits_drawRegisters (.fatal (.portWrite (.ie h))))

theorem edits_pollInterrupts (h : Edits s .pif t) : Edits s .pif (pollInterrupts t) := by
  unfold pollInterrupts
  split
  · split
    · exact .takeInterrupt h
    · split
      · exact .takeInterrupt h
      · exact h
  · exact h

theorem edits_ackTransfer (h : Edits s .pif t) : Edits s .pif (ackTransfer t) := .beginHalt (.portWrite h)

theorem edits_fatalStrobe (h : Edits s .pif t) : Edits s .pif (fatalStrobe t) := .portWrite (.portWrite h)

theorem edits_joybusService (h : Edits s .pif t) : Edits s .pif (joybusService t) := .push rfl h

theorem edits_challengeAsked (h : Edits s .pif t) : Edits s .pif (challengeAsked t) := by
  unfold challengeAsked
  split
  · exact edits_setBit h
  · exact edits_joybusService h

theorem edits_writeService (h : Edits s .pif t) : Edits s .pif (writeService t) := .push rfl h

theorem edits_writeServed (h : Edits s .pif t) : Edits s .pif (writeServed t) := by
  unfold writeServed
  split
  · exact .push rfl h
  · exact h

/-! ## The PIF boot sequencer -/

theorem edits_judgeHello {a b : Bool} (h : Edits s .pif t) : Edits s .pif (judgeHello a b t) := by
  unfold judgeHello
  split
  · exact .cell h
  · exact edits_raiseFatal h

/-- Every hello code is an operation of the PIF. -/
theorem allowed_decodeHello (a b : Bool) : Task.allowed .pif (.op (decodeHello a b)) = true := by
  cases a <;> cases b <;> rfl

theorem edits_startupJudge {a : Bool} (h : Edits s .pif t) : Edits s .pif (startupJudge a t) :=
  .push (by simp only [List.all_cons, allowed_decodeHello]; rfl) h

/-- Two control fields at once, over a `t` that stays a variable: with the state of `startupFinish` written out, the
comparison of the two updates would evaluate its decode passes. -/
theorem edits_ie_pifPc {b : Bool} {pc : PifPc} (hpc : pc ≠ .fatal) (h : Edits s .pif t) :
    Edits s .pif { t with ie := b, pifPc := pc } :=
  .pifPc (t := { t with ie := b }) hpc (.ie h)

theorem edits_startupFinish (h : Edits s .pif t) : Edits s .pif (startupFinish t) :=
  edits_settle (edits_ie_pifPc (by decide) (.portWrite (edits_decodePasses h)))

theorem edits_skipAll (h : Edits s .pif t) : Edits s .pif (skipAll t) := .cell (.cell (.cell (.cell (.cell h))))

theorem edits_lockoutSeen (h : Edits s .pif t) : Edits s .pif (lockoutSeen t) :=
  .pifPc (by decide) (edits_skipAll (.portWrite h))

theorem edits_getChecksumSeen (h : Edits s .pif t) : Edits s .pif (getChecksumSeen t) :=
  .pifPc (by decide) (edits_setBit (edits_writeCells h))

theorem edits_checkChecksumSeen (h : Edits s .pif t) : Edits s .pif (checkChecksumSeen t) := by
  unfold checkChecksumSeen
  split
  · exact .pifPc (by decide) h
  · exact .push rfl h

theorem edits_handshakeSeen {x : Handshake} (h : Edits s .pif t) : Edits s .pif (handshakeSeen x t) := by
  cases x with
  | lockout => exact edits_lockoutSeen h
  | getChecksum => exact edits_getChecksumSeen h
  | checkChecksum => exact edits_checkChecksumSeen h

/-- Every handshake phase is an operation of the PIF. -/
theorem allowed_handshakeOp (x : Handshake) : Task.allowed .pif (.op (handshakeOp x)) = true := by
  cases x <;> rfl

theorem edits_awaitTest {x : Handshake} (h : Edits s .pif t) : Edits s .pif (awaitTest x t) := by
  unfold awaitTest
  split
  · exact edits_handshakeSeen (.push rfl h)
  · exact .push (by simp [allowed_handshakeOp]) h

theorem edits_gateTest (h : Edits s .pif t) : Edits s .pif (gateTest t) := by
  unfold gateTest
  dsimp only
  split
  · exact .push rfl h
  · split
    · exact edits_raiseFatal (edits_tickTimer h)
    · exact .push rfl (edits_tickTimer h)

/-! ## The PIF security loop -/

theorem edits_runTest (h : Edits s .pif t) : Edits s .pif (runTest t) := by
  unfold runTest
  split
  · exact edits_settle (.pifPc (by decide) h)
  · split
    · exact .push rfl (.pifPc (by decide) h)
    · exact .push rfl h

theorem edits_compareIndex {i : Nibble} (h : Edits s .pif t) : Edits s .pif (compareIndex i t) := .push rfl h

theorem edits_compareKeyed (h : Edits s .pif t) : Edits s .pif (compareKeyed t) :=
  edits_compareIndex (edits_settle (edits_comparePasses (edits_comparePasses h)))

theorem edits_compareCheck {i : Nibble} (h : Edits s .pif t) : Edits s .pif (compareCheck i t) := by
  unfold compareCheck
  split
  · exact edits_raiseFatal h
  · split
    · exact edits_settle h
    · exact edits_compareIndex h

theorem edits_challengeVerify {sent : List Nibble} (h : Edits s .pif t) : Edits s .pif (challengeVerify sent t) := by
  unfold challengeVerify
  split
  · exact .push rfl (edits_resetBit h)
  · exact edits_raiseFatal h

theorem edits_resetWait (h : Edits s .pif t) : Edits s .pif (resetWait t) := by
  unfold resetWait
  dsimp only
  split
  · exact .push rfl (.portRead h)
  · split
    · exact edits_raiseFatal (edits_tickTimer (.portRead h))
    · exact .push rfl (edits_tickTimer (.portRead h))

theorem edits_resetReady (h : Edits s .pif t) : Edits s .pif (resetReady t) :=
  edits_settle (.pifPc (by decide) (.portWrite (edits_resetBit (edits_setBit (.portWrite (.portWrite h))))))

/-! ## The JoyBus multiplexer -/

theorem ParsePos.Aligned.advance {p : ParsePos} (h : p.Aligned) (k c : Nat) :
    ({ p with p := p.p + 2 * k, ch := c } : ParsePos).Aligned := by
  obtain ⟨hlow, heven⟩ := h
  constructor
  · dsimp only; omega
  · dsimp only; omega

theorem edits_itemSkip (h : Edits s .pif t) : Edits s .pif (itemSkip t) := .parse (fun hp => hp.advance 1 _) h

theorem edits_applyItem {i : JbItem} (h : Edits s .pif t) : Edits s .pif (applyItem i t) := by
  cases i with
  | skip => exact edits_itemSkip h
  | reset => exact edits_itemSkip (.cell h)
  | nop => exact .parse (fun hp => hp.advance 1 _) h
  | stop => exact .parse id h
  | xfer tx rx => exact .parse (fun hp => hp.advance _ _) (.cell (.cell (.cell h)))

theorem edits_parseItems {n : Nat} (h : Edits s .pif t) : Edits s .pif (parseItems n t) := by
  induction n generalizing t with
  | zero => exact h
  | succ n ih =>
    unfold parseItems
    split
    · exact ih (edits_applyItem h)
    · exact h

theorem edits_channelServed {ch : Fin 5} (h : Edits s .pif t) : Edits s .pif (channelServed ch t) := by
  unfold channelServed
  split
  · exact edits_settle h
  · exact .push rfl h

theorem edits_exchangeEnd (h : Edits s .pif t) : Edits s .pif (exchangeEnd t) := edits_settle (.portWrite h)

theorem edits_rxLoop {rq d : Addr} {n : Nat} (h : Edits s .pif t) : Edits s .pif (rxLoop rq d n t) := by
  cases n with
  | zero => exact edits_exchangeEnd h
  | succ k => exact .push rfl h

theorem edits_txLoop {rq d : Addr} {n m : Nat} (h : Edits s .pif t) : Edits s .pif (txLoop rq d n m t) := by
  cases n with
  | zero => exact edits_rxLoop (.portWrite h)
  | succ k => exact .push rfl h

theorem edits_recordError {rq : Addr} (h : Edits s .pif t) : Edits s .pif (recordError rq t) :=
  .cell (.draw (.cell h))

theorem edits_channelFailed {rq : Addr} (h : Edits s .pif t) : Edits s .pif (channelFailed rq t) :=
  edits_exchangeEnd (edits_recordError h)

theorem edits_txByte {rq d : Addr} {n m : Nat} (h : Edits s .pif t) : Edits s .pif (txByte rq d n m t) := by
  unfold txByte
  split
  · exact edits_txLoop (.portWrite (.portWrite h))
  · exact edits_channelFailed h

theorem edits_rxByte {rq d : Addr} {n : Nat} (h : Edits s .pif t) : Edits s .pif (rxByte rq d n t) := by
  unfold rxByte
  split
  · exact edits_rxLoop (.cell (.portRead (.cell (.portRead h))))
  · exact edits_channelFailed h

/-! ## The CIC -/

theorem edits_cicDie (h : Edits s .cic t) : Edits s .cic (cicDie t) := .abandon (edits_settle (.cicPc h))

theorem edits_resetCount {left : Nat} {held : Bool} (h : Edits s .cic t) : Edits s .cic (resetCount left held t) := by
  cases left with
  | zero => exact .setC (edits_settle h)
  | succ k => exact .push rfl (edits_tickChain (.portRead h))

theorem edits_cicSendSeed (h : Edits s .cic t) : Edits s .cic (cicSendSeed t) :=
  .push rfl (edits_settle (edits_encodePasses (edits_writeCells h)))

theorem edits_cicSendChecksum (h : Edits s .cic t) : Edits s .cic (cicSendChecksum t) := by
  unfold cicSendChecksum
  split
  · exact .push rfl h
  · exact .push rfl (edits_settle (edits_encodePasses (edits_writeCells h)))

theorem edits_cicKeyed (h : Edits s .cic t) : Edits s .cic (cicKeyed t) :=
  .push rfl (edits_settle (.cicPc (edits_writeCells (edits_writeCells h))))

/-- Every selector is an operation of the CIC. -/
theorem allowed_decodeCicCmd (a b : Bool) : Task.allowed .cic (.op (decodeCicCmd a b)) = true := by
  cases a <;> cases b <;> rfl

theorem edits_cicSelectSecond {a : Bool} (h : Edits s .cic t) : Edits s .cic (cicSelectSecond a t) :=
  .push (by simp [allowed_decodeCicCmd]) h

theorem edits_cicCompareIndex {i : Nibble} {ok : Bool} (h : Edits s .cic t) : Edits s .cic (cicCompareIndex i ok t) :=
  .push rfl h

theorem edits_cicComparePut {i : Nibble} {ok : Bool} (h : Edits s .cic t) : Edits s .cic (cicComparePut i ok t) := by
  unfold cicComparePut
  split
  · split
    · exact .push rfl (edits_settle (.cicPc h))
    · exact edits_cicDie h
  · exact edits_cicCompareIndex h

end

end Sys2Proof.Machine
end

