-- ==== Sys2Proof/Proofs/Tasks.lean ====
section
/-! Every operation and every inner position is a chain of `Edits` of the engine that has it, and so is a step of an engine
whose tasks are its own. -/

namespace Sys2Proof.Machine

/-! ## Operations whose answer has branches -/

theorem answers_ite {s : State} {w : Who} {c : Prop} [Decidable c] {t u : State} (ht : Edits s w t)
    (hu : Edits s w u) : Answers s w (.next (if c then t else u)) := by
  split
  · exact .next ht
  · exact .next hu

theorem answers_execPifChecksumCompare (s : State) : Answers s .pif (execPifChecksumCompare s) := by
  unfold execPifChecksumCompare
  split
  · exact .next (edits_settle .refl)
  · exact .next (edits_raiseFatal .refl)

theorem answers_execPifJoybusTransfer (s : State) : Answers s .pif (execPifJoybusTransfer s) := by
  unfold execPifJoybusTransfer
  dsimp only
  split
  · split
    · exact .next (.push rfl (.portRead .refl))
    · split
      · exact .next (.push rfl (.portRead .refl))
      · exact .next (.push rfl (.portRead .refl))
  · exact .refused _

theorem answers_execJbWaitReady (s : State) : Answers s .pif (execJbWaitReady s) := by
  unfold execJbWaitReady
  dsimp only
  split
  · exact .next (edits_settle (.deliver (.portRead .refl)))
  · split
    · exact .next (edits_settle (.deliver (.portRead (.portRead .refl))))
    · exact .next (.push rfl (.portRead (.portRead .refl)))

theorem answers_execReadBuf (a : Addr) (n : Byte) (s : State) : Answers s s.active (execReadBuf a n s) := by
  unfold execReadBuf
  split
  · exact .next .refl
  · exact .next (.push rfl .refl)

theorem answers_execWriteBuf (a : Addr) (n : Byte) (s : State) : Answers s s.active (execWriteBuf a n s) := by
  unfold execWriteBuf
  split
  · exact .next .refl
  · exact .next (.push rfl .refl)

/-- The services of the transfer kinds are operations of the PIF. -/
theorem allowed_xkindInstr (k : XKind) : Task.allowed .pif (.op (xkindInstr k)) = true := by
  cases k <;> rfl

theorem answers_execPifIntA (s : State) : Answers s .pif (execPifIntA s) :=
  .next (.push (by simp only [List.all_cons, allowed_xkindInstr]; rfl) (.portRead .refl))

theorem answers_execCicChallenge (s : State) : Answers s .cic (execCicChallenge s) := by
  unfold execCicChallenge
  split
  · exact .next (.push rfl (.cicPc .refl))
  · exact .next (.push rfl (.cicPc .refl))

/-! ## Every operation -/

/-- What an operation answers: updates of the engine that has it, and of the engine whose turn it is for an operation that
both have (log 30). -/
theorem exec_answers (i : Instr) (s : State) : Answers s ((opOwner i).getD s.active) (exec i s) := by
  cases i with
  | cmdLockout => exact answers_ite (edits_lockoutSeen .refl) .refl
  | cmdGetChecksum => exact answers_ite (edits_getChecksumSeen .refl) .refl
  | cmdCheckChecksum => exact answers_ite (edits_checkChecksumSeen .refl) .refl
  | cmdAck => exact .next (edits_setBit .refl)
  | cmdJoybus => exact answers_ite (.push rfl .refl) .refl
  | cmdChallenge => exact answers_ite (edits_challengeAsked .refl) .refl
  | cmdBit2 => exact .next .refl
  | cmdTerminate => exact answers_ite (.push rfl .refl) .refl
  | xkindRead4 => exact .next (.push rfl .refl)
  | xkindWrite4 => exact .next (edits_writeService .refl)
  | xkindRead64 => exact answers_ite (edits_challengeAsked .refl) (edits_joybusService .refl)
  | xkindWrite64 => exact .next (edits_writeService .refl)
  | hello00 => exact .next (edits_judgeHello .refl)
  | hello01 => exact .next (edits_judgeHello .refl)
  | hello10 => exact .next (edits_judgeHello .refl)
  | hello11 => exact .next (edits_judgeHello .refl)
  | ciccmdCompare => exact .next (.push rfl .refl)
  | ciccmdChallenge => exact .next (.push rfl .refl)
  | ciccmdReset => exact .next (.push rfl .refl)
  | ciccmdReserved => exact .next (edits_cicDie .refl)
  | jbSkip => exact .next (edits_applyItem (i := .skip) .refl)
  | jbReset => exact .next (edits_applyItem (i := .reset) .refl)
  | jbStop => exact .next (edits_applyItem (i := .stop) .refl)
  | jbNop => exact .next (edits_applyItem (i := .nop) .refl)
  | jbXfer tx rx => exact .next (edits_applyItem (i := .xfer tx rx) .refl)
  | jbRx rx => exact .next (.deliver .refl)
  | frame tx rx data recv => exact answers_ite (edits_applyItem (i := .xfer tx rx) .refl) .refl
  | jbcIdle => exact .next (.portWrite .refl)
  | jbcTx => exact .next (.portWrite .refl)
  | jbcRx => exact .next (.portWrite .refl)
  | jbcReset => exact .next (.portWrite .refl)
  | jbcXferAck => exact .next (.portWrite .refl)
  | read a => exact .next (.deliver .refl)
  | write a x => exact .next (.cell .refl)
  | bitTest a b => exact .next (.deliver .refl)
  | bitSet a b => exact .next (edits_setBit .refl)
  | bitReset a b => exact .next (edits_resetBit .refl)
  | swap => exact .next (edits_swapPointers .refl)
  | incPage => exact .next (edits_setB .refl)
  | incFull => exact .next (edits_setB .refl)
  | setPointer a => exact .next (edits_setB .refl)
  | add4 x y => exact .next (.deliver .refl)
  | adc4 x y => exact .next (.deliver (.setC .refl))
  | com4 x => exact .next (.deliver .refl)
  | sub4 x y => exact .next (.deliver .refl)
  | inc8 a => exact .next (.deliver (edits_incByte .refl))
  | portRead p => exact .next (.deliver (.portRead .refl))
  | portWrite p x => exact .next (.portWrite .refl)
  | writeBit v => exact .next (edits_startWriteBit .refl)
  | readBit => exact .next (edits_readBitTurn .refl)
  | readNibble => exact .next (.push rfl .refl)
  | writeNibble n => exact .next (.push rfl .refl)
  | readBuf a n => exact answers_execReadBuf a n s
  | writeBuf a n => exact answers_execWriteBuf a n s
  | pifStartup => exact .next (.push rfl (.portWrite .refl))
  | pifAwaitLockout => exact .next (.push rfl .refl)
  | pifAwaitChecksum => exact .next (.push rfl .refl)
  | pifAwaitAck => exact .next (.push rfl .refl)
  | pifChecksumExchange => exact .next (.push rfl .refl)
  | pifChecksumCompare => exact answers_execPifChecksumCompare s
  | pifBootTimerGate => exact .next (.push rfl (edits_initTimer .refl))
  | pifEnterRunning =>
    exact .next (edits_settle (.pifPc (by decide)
      (edits_setBit (edits_writeCells (edits_writeCells (.portWrite .refl))))))
  | pifRunningLoop => exact .next (.push rfl .refl)
  | pifCompareExchange => exact .next (.push rfl .refl)
  | pifChallengeExchange => exact .next (.push rfl .refl)
  | pifResetting => exact .next (.push rfl (.ie .refl))
  | pifJoybusParse =>
    exact .next (edits_settle (edits_parseItems (.parse (fun _ => ⟨by decide, by decide⟩) (edits_skipAll .refl))))
  | pifJoybusTransfer => exact answers_execPifJoybusTransfer s
  | jbChannelReset => exact .next (.push rfl (.portWrite .refl))
  | jbChannelExchange ch => exact .next (edits_txLoop (.portWrite .refl))
  | jbWaitReady => exact answers_execJbWaitReady s
  | jbError rq => exact .next (edits_settle (edits_recordError .refl))
  | decodeRound a => exact .next (edits_settle (edits_writeCells .refl))
  | encodeRound a => exact .next (edits_settle (edits_writeCells .refl))
  | compareRound a => exact .next (edits_settle (edits_writeCells .refl))
  | challengeTransform a =>
    exact .next (.registers (fun _ => ⟨rfl, rfl⟩) (edits_settle (edits_writeCells .refl)))
  | complementAll a => exact .next (edits_settle (edits_writeCells .refl))
  | resetCounter => exact .next (.push rfl (edits_writeByte (edits_writeByte .refl)))
  | cicMain => exact .next (.push rfl (.portWrite (.cicPc .refl)))
  | cicCompare =>
    exact .next (edits_cicCompareIndex (edits_settle (edits_comparePasses (edits_comparePasses (.cicPc .refl)))))
  | cicChallenge => exact answers_execCicChallenge s
  | cicReset => exact .next (.push rfl (.cicPc .refl))
  | poll => exact .next (edits_pollInterrupts .refl)
  | intEntry x => exact .next (.takeInterrupt .refl)
  | intReturn => exact .next (.returnInterrupt .refl)
  | fatal c => exact .next (edits_raiseFatal .refl)
  | halt => exact .next (.beginHalt .refl)
  | ackTransfer => exact .next (edits_ackTransfer .refl)
  | pifIntA => exact answers_execPifIntA s
  | pifIntB => exact .next (.push rfl (.portWrite (.portWrite (edits_resetBit .refl))))
  | timerInit x v => exact .next (edits_initTimer .refl)
  | timerTick x => exact .next (.deliver (edits_tickTimer .refl))

/-! ## Every inner position -/

/-- What an inner position does when it is reached: updates of the engine that has it. -/
theorem edits_resume (p : Pos) (s : State) : Edits s (p.owner.getD s.active) (resume p s) := by
  cases p with
  | ackWait => exact edits_ackTurn .refl
  | nibbleBits left acc => exact edits_takeNibbleBit .refl
  | storeNibble a => exact .cell .refl
  | settle => exact edits_settle .refl
  | helloFirst => exact .push rfl .refl
  | helloSecond b => exact edits_startupJudge .refl
  | seedReceived => exact edits_startupFinish .refl
  | awaitTest x => exact edits_awaitTest .refl
  | checksumReceived => exact edits_settle (edits_decodePasses .refl)
  | checksumPassed => exact .pifPc (by decide) .refl
  | gateTest => exact edits_gateTest .refl
  | runTest => exact edits_runTest .refl
  | challengeReturned => exact .push rfl (.pifPc (by decide) .refl)
  | compareKeyed => exact edits_compareKeyed .refl
  | compareCheck i => exact edits_compareCheck .refl
  | challengeSend => exact .push rfl .refl
  | challengeVerify sent => exact edits_challengeVerify .refl
  | resetSelected => exact .push rfl (edits_initTimer .refl)
  | resetWait => exact edits_resetWait .refl
  | resetReady => exact edits_resetReady .refl
  | channelServed ch => exact edits_channelServed .refl
  | channelResetEnd => exact edits_settle (.portWrite .refl)
  | txByte rq d n m => exact edits_txByte .refl
  | rxByte rq d n => exact edits_rxByte .refl
  | wake => exact .endHalt .refl
  | writeServed => exact edits_writeServed .refl
  | serviceEnd x => exact edits_settle .refl
  | fatalStrobe => exact edits_fatalStrobe .refl
  | helloSent => exact edits_cicSendSeed .refl
  | seedSent => exact edits_cicSendChecksum .refl
  | cicKey => exact edits_cicKeyed .refl
  | cicIdle => exact .push rfl .refl
  | selectFirst => exact .push rfl .refl
  | selectSecond a => exact edits_cicSelectSecond .refl
  | compareGot i ok => exact .push rfl .refl
  | comparePut i ok => exact edits_cicComparePut .refl
  | challengeSent => exact .push rfl (edits_settle (.cicPc .refl))
  | resetCount left held => exact edits_resetCount .refl
  | resetCounted => exact .push rfl (edits_settle (edits_setBit .refl))

/-! ## Every task, and the next one of an engine -/

theorem runTask_answers (x : Task) (s : State) : Answers s (x.owner.getD s.active) (runTask x s) := by
  cases x with
  | op i => exact exec_answers i s
  | pos p => exact .next (edits_resume p s)

/-- A task that an engine may have is its own, or one that acts on the engine whose turn it is. -/
theorem owner_getD_of_allowed {w : Who} {x : Task} (h : x.allowed w = true) : x.owner.getD w = w := by
  unfold Task.allowed at h
  cases hx : x.owner with
  | none => rfl
  | some v => simpa [hx] using h

/-- The task that control state selects is the PIF's own (10 R24). -/
theorem allowed_pifEntry {pc : PifPc} {x : Task} (h : pifEntry pc = some x) : x.allowed .pif = true := by
  cases pc <;> cases h <;> rfl

/-- The task that control state selects is the CIC's own (10 R25). -/
theorem allowed_cicEntry {pc : CicPc} {x : Task} (h : cicEntry pc = some x) : x.allowed .cic = true := by
  cases pc <;> cases h <;> rfl

/-- The next task of an engine was the first of its position and is dropped from there, or it stood in no position, is the
engine's own, and changes nothing. -/
theorem fetchTask_cases {w : Who} {s u : State} {x : Task} (h : fetchTask w s = some (x, u)) :
    ((s.eng w).cont.head? = some x ∧ u = dropTask w s) ∨ (x.allowed w = true ∧ u = s) := by
  cases w with
  | pif =>
    simp only [fetchTask, fetchPif] at h
    split at h
    · cases h; exact .inr ⟨rfl, rfl⟩
    · split at h
      · split at h
        · cases h; exact .inr ⟨rfl, rfl⟩
        · cases h
      · split at h
        next y ys hc => cases h; exact .inl ⟨by simp [hc], by simp [dropTask, setCont, modEng, hc]⟩
        next =>
          obtain ⟨y, hy, e⟩ := Option.map_eq_some_iff.1 h
          cases e; exact .inr ⟨allowed_pifEntry hy, rfl⟩
  | cic =>
    simp only [fetchTask, fetchCic] at h
    split at h
    · cases h
    · split at h
      next y ys hc => cases h; exact .inl ⟨by simp [hc], by simp [dropTask, setCont, modEng, hc]⟩
      next =>
        obtain ⟨y, hy, e⟩ := Option.map_eq_some_iff.1 h
        cases e; exact .inr ⟨allowed_cicEntry hy, rfl⟩

/-- A step of an engine: nothing but the turn, or a task fetched and run, each an update by some engine. -/
theorem engineStep_cases {w : Who} {s t : State} (h : engineStep w s = .next t) :
    t = { s with active := w } ∨
    ∃ x u, fetchTask w { s with active := w } = some (x, u) ∧ Edits u (x.owner.getD u.active) t := by
  unfold engineStep at h
  dsimp only at h
  split at h
  next x u hf => exact .inr ⟨x, u, hf, (h ▸ runTask_answers x u : Answers u _ (.next t)).edits⟩
  next => cases h; exact .inl rfl

end Sys2Proof.Machine
end

