-- ==== Sys2Proof/Proofs/Control.lean ====
section
/-! The control invariants: an engine's tasks stay its own, `S_FATAL` keeps its cause, the parse position stays aligned.
Each is one induction over `Edits`, then carried from the updates to the step. -/

namespace Sys2Proof.Machine

/-! ## Tasks -/

theorem tasksOwned_iff (s : State) : TasksOwned s ↔
    (∀ v, ∀ x ∈ (s.eng v).cont, x.allowed v = true) ∧
      ∀ r : IsrRecord, s.isr = some r → ∀ x ∈ r.position, x.allowed .pif = true := by
  constructor
  · rintro ⟨hp, hc, hi⟩
    refine ⟨fun v => ?_, hi⟩
    cases v with
    | pif => exact hp
    | cic => exact hc
  · rintro ⟨he, hi⟩
    exact ⟨he .pif, he .cic, hi⟩

/-- An update that gives no engine a task it had not, and leaves the in-service record, keeps the tasks owned. -/
theorem TasksOwned.of_subset {s t : State} (h : TasksOwned s) (hc : ∀ v, (t.eng v).cont ⊆ (s.eng v).cont)
    (hi : t.isr = s.isr) : TasksOwned t := by
  rw [tasksOwned_iff] at h ⊢
  obtain ⟨he, hr⟩ := h
  exact ⟨fun v x hx => he v x (hc v hx), hi ▸ hr⟩

theorem TasksOwned.of_cont {s t : State} (h : TasksOwned s) (hc : ∀ v, (t.eng v).cont = (s.eng v).cont)
    (hi : t.isr = s.isr) : TasksOwned t := h.of_subset (fun v => by rw [hc v]; exact List.Subset.refl _) hi

theorem cont_modEng {f : Engine → Engine} (hf : ∀ E, (f E).cont = E.cont) (v w : Who) (s : State) :
    ((modEng w f s).eng v).cont = (s.eng v).cont := by
  by_cases h : v = w
  · subst h; rw [eng_modEng_same, hf]
  · rw [eng_modEng_ne h]

theorem cont_portRead (v w : Who) (p : Port) (s : State) : ((portRead w p s).2.eng v).cont = (s.eng v).cont := by
  simp [portRead, suppliedValue_eng]

theorem isr_portRead (w : Who) (p : Port) (s : State) : (portRead w p s).2.isr = s.isr :=
  portRead_unchanged w p s .isr (by simp [portSupply])

theorem cont_dropTask_subset (v w : Who) (s : State) : ((dropTask w s).eng v).cont ⊆ (s.eng v).cont := by
  by_cases h : v = w
  · subst h; rw [dropTask_cont]; exact List.tail_subset _
  · rw [eng_dropTask_ne h]; exact List.Subset.refl _

theorem cont_abandon_subset (v w : Who) (s : State) : ((setCont w [] s).eng v).cont ⊆ (s.eng v).cont := by
  by_cases h : v = w
  · subst h; rw [setCont_cont]; exact List.nil_subset _
  · rw [eng_setCont_ne h]; exact List.Subset.refl _

theorem tasksOwned_push {w : Who} {ts : List Task} (hts : ts.all (Task.allowed w) = true) {s : State}
    (h : TasksOwned s) : TasksOwned (push w ts s) := by
  rw [tasksOwned_iff] at h ⊢
  obtain ⟨he, hr⟩ := h
  refine ⟨fun v x hx => ?_, by simpa using hr⟩
  by_cases hv : v = w
  · subst hv
    rw [push_cont, List.mem_append] at hx
    exact hx.elim (List.all_eq_true.1 hts x) (he v x)
  · rw [eng_push_ne hv] at hx
    exact he v x hx

/-- Interrupt entry puts the PIF's tasks aside and leaves it a service of its own (60 R366). -/
theorem tasksOwned_takeInterrupt {s : State} (h : TasksOwned s) (x : IntSrc) : TasksOwned (takeInterrupt x s) := by
  obtain ⟨hp, hc, _⟩ := h
  have service : Task.allowed .pif (.op (serviceOf x)) = true := by cases x <;> rfl
  have entered : (takeInterrupt x s).pif.cont = [.op (serviceOf x)] ∧ (takeInterrupt x s).cic = s.cic ∧
      (takeInterrupt x s).isr = some ⟨x, s.pifPc, s.pif.cont⟩ := by cases x <;> exact ⟨rfl, rfl, rfl⟩
  obtain ⟨epif, ecic, eisr⟩ := entered
  refine ⟨?_, ecic ▸ hc, ?_⟩
  · rw [epif]; simpa using service
  · intro r hr
    rw [eisr] at hr
    cases hr
    exact hp

/-- Interrupt return gives the PIF back the tasks put aside (60 R368). -/
theorem tasksOwned_returnInterrupt {s : State} (h : TasksOwned s) : TasksOwned (returnInterrupt s) := by
  obtain ⟨hp, hc, hr⟩ := h
  cases hi : s.isr with
  | none =>
    have e : returnInterrupt s = { swapPointers .pif s with ie := true } := by simp [returnInterrupt, hi]
    rw [e]
    exact ⟨hp, hc, hr⟩
  | some r =>
    have e : returnInterrupt s = setCont .pif r.position
        { swapPointers .pif s with pifPc := r.pc, isr := none, ie := true } := by simp [returnInterrupt, hi]
    rw [e]
    exact ⟨hr r hi, hc, fun _ h => nomatch h⟩

/-- No update gives an engine a task of the other. -/
theorem tasksOwned_of_edits {s t : State} {w : Who} (h : Edits s w t) (hs : TasksOwned s) : TasksOwned t := by
  induction h with
  | refl => exact hs
  | push hts _ ih => exact tasksOwned_push hts ih
  | takeInterrupt _ ih => exact tasksOwned_takeInterrupt ih _
  | returnInterrupt _ ih => exact tasksOwned_returnInterrupt ih
  | abandon _ ih => exact ih.of_subset (fun _ => cont_abandon_subset _ _ _) (by simp)
  | dropTask _ ih => exact ih.of_subset (fun _ => cont_dropTask_subset _ _ _) (by simp)
  | cell _ ih | setC _ ih | deliver _ ih | portWrite _ ih | linkWrite _ ih =>
    exact ih.of_cont (fun _ => by simp) (by simp)
  | registers hf _ ih => exact ih.of_cont (fun _ => cont_modEng (fun E => (hf E).2) _ _ _) (by simp)
  | portRead _ ih | linkRead _ ih => exact ih.of_cont (fun _ => cont_portRead _ _ _ _) (isr_portRead _ _ _)
  | draw _ ih | cicPc _ ih | ie _ ih | pifPc _ _ ih | parse _ _ ih | fatal _ ih | beginHalt _ ih | endHalt _ ih =>
    exact ih

/-! ## The cause of `S_FATAL` -/

theorem FatalHasCause.of_same {s t : State} (h : FatalHasCause s) (hpc : t.pifPc = s.pifPc)
    (hhalt : t.haltPc = s.haltPc) (hisr : t.isr = s.isr) (hcause : t.fcause = s.fcause) : FatalHasCause t := by
  unfold FatalHasCause
  rwa [hpc, hhalt, hisr, hcause]

/-- An update that leaves the control state, what is saved of it, and the cause. -/
theorem FatalHasCause.of_unchanged {s t : State} {l : List Field} (h : FatalHasCause s) (hu : Unchanged l s t)
    (hl : ∀ f ∈ [Field.pifPc, .haltPc, .isr, .fcause], f ∉ l) : FatalHasCause t :=
  h.of_same (hu .pifPc (hl _ (by simp))) (hu .haltPc (hl _ (by simp))) (hu .isr (hl _ (by simp)))
    (hu .fcause (hl _ (by simp)))

theorem fatalHasCause_pifPc {s : State} (h : FatalHasCause s) {pc : PifPc} (hpc : pc ≠ .fatal) :
    FatalHasCause { s with pifPc := pc } := by
  rintro (e | saved)
  · exact absurd e hpc
  · exact h (.inr saved)

/-- Interrupt entry saves the control state it finds (60 R366). -/
theorem fatalHasCause_takeInterrupt {s : State} (h : FatalHasCause s) (x : IntSrc) :
    FatalHasCause (takeInterrupt x s) := by
  have kept : (takeInterrupt x s).pifPc = s.pifPc ∧ (takeInterrupt x s).haltPc = s.haltPc ∧
      (takeInterrupt x s).fcause = s.fcause ∧ (takeInterrupt x s).isr = some ⟨x, s.pifPc, s.pif.cont⟩ := by
    cases x <;> exact ⟨rfl, rfl, rfl, rfl⟩
  obtain ⟨epc, ehalt, ecause, eisr⟩ := kept
  unfold FatalHasCause
  rw [epc, ehalt, ecause, eisr]
  rintro (e | e | ⟨r, hr, e⟩)
  · exact h (.inl e)
  · exact h (.inr (.inl e))
  · cases hr; exact h (.inl e)

/-- Interrupt return gives back the control state saved (60 R368). -/
theorem fatalHasCause_returnInterrupt {s : State} (h : FatalHasCause s) : FatalHasCause (returnInterrupt s) := by
  cases hi : s.isr with
  | none =>
    have e : returnInterrupt s = { swapPointers .pif s with ie := true } := by simp [returnInterrupt, hi]
    rw [e]
    exact h
  | some r =>
    have e : returnInterrupt s = setCont .pif r.position
        { swapPointers .pif s with pifPc := r.pc, isr := none, ie := true } := by simp [returnInterrupt, hi]
    rw [e]
    rintro (e | e | ⟨_, hr, _⟩)
    · exact h (.inr (.inr ⟨r, hi, e⟩))
    · exact h (.inr (.inl e))
    · exact nomatch hr

/-- `HALT` saves the control state it finds (60 R380). -/
theorem fatalHasCause_beginHalt {s : State} (h : FatalHasCause s) : FatalHasCause (beginHalt s) := by
  rintro (e | e | e)
  · exact nomatch e
  · exact h (.inl e)
  · exact h (.inr (.inr e))

/-- The end of a `HALT` gives back the control state saved (60 R380). -/
theorem fatalHasCause_endHalt {s : State} (h : FatalHasCause s) : FatalHasCause (endHalt s) := by
  rintro (e | e | e)
  · exact h (.inr (.inl e))
  · exact h (.inr (.inl e))
  · exact h (.inr (.inr e))

/-- No update comes to `S_FATAL`, or saves it, without a cause. -/
theorem fatalHasCause_of_edits {s t : State} {w : Who} (h : Edits s w t) (hs : FatalHasCause s) :
    FatalHasCause t := by
  induction h with
  | refl => exact hs
  | pifPc hpc _ ih => exact fatalHasCause_pifPc ih hpc
  | fatal _ _ => exact fun _ => nofun
  | takeInterrupt _ ih => exact fatalHasCause_takeInterrupt ih _
  | returnInterrupt _ ih => exact fatalHasCause_returnInterrupt ih
  | beginHalt _ ih => exact fatalHasCause_beginHalt ih
  | endHalt _ ih => exact fatalHasCause_endHalt ih
  | cell _ ih | registers _ _ ih | push _ _ ih | abandon _ ih | portWrite _ ih | linkWrite _ ih | setC _ ih
  | deliver _ ih | dropTask _ ih => exact ih.of_same (by simp) (by simp) (by simp) (by simp)
  | portRead _ ih | linkRead _ ih => exact ih.of_unchanged (portRead_unchanged _ _ _) (by simp [portSupply])
  | draw _ ih | cicPc _ ih | ie _ ih | parse _ _ ih => exact ih

/-! ## The parse position -/

theorem ParseAligned.of_same {s t : State} (h : ParseAligned s) (hp : t.parse = s.parse) : ParseAligned t := by
  rw [parseAligned_iff, hp]
  exact h

/-- No update moves the parse position off a byte of the region (44 R274). -/
theorem parseAligned_of_edits {s t : State} {w : Who} (h : Edits s w t) (hs : ParseAligned s) : ParseAligned t := by
  induction h with
  | refl => exact hs
  | parse hp _ ih => exact hp ih
  | cell _ ih | registers _ _ ih | push _ _ ih | abandon _ ih | portWrite _ ih | linkWrite _ ih | setC _ ih
  | deliver _ ih | dropTask _ ih => exact ih.of_same (by simp)
  | portRead _ ih | linkRead _ ih => exact ih.of_same (portRead_unchanged _ _ _ .parse (by simp [portSupply]))
  | takeInterrupt _ ih => exact ih.of_same (takeInterrupt_unchanged _ _ .parse (by simp))
  | returnInterrupt _ ih => exact ih.of_same (returnInterrupt_unchanged _ .parse (by simp))
  | draw _ ih | cicPc _ ih | ie _ ih | pifPc _ _ ih | fatal _ ih | beginHalt _ ih | endHalt _ ih => exact ih

/-! ## From updates to the step -/

/-- What a step keeps of control: each of the three conditions by itself. -/
def KeepsControl (s t : State) : Prop :=
  (TasksOwned s → TasksOwned t) ∧ (FatalHasCause s → FatalHasCause t) ∧ (ParseAligned s → ParseAligned t)

theorem KeepsControl.trans {s t u : State} (h : KeepsControl s t) (k : KeepsControl t u) : KeepsControl s u := by
  obtain ⟨ho, hf, hp⟩ := h
  obtain ⟨ko, kf, kp⟩ := k
  exact ⟨ko ∘ ho, kf ∘ hf, kp ∘ hp⟩

theorem keepsControl_of_edits {s t : State} {w : Who} (h : Edits s w t) : KeepsControl s t :=
  ⟨tasksOwned_of_edits h, fatalHasCause_of_edits h, parseAligned_of_edits h⟩

theorem keepsControl_exec {i : Instr} {s t : State} (h : exec i s = .next t) : KeepsControl s t :=
  keepsControl_of_edits (h ▸ exec_answers i s : Answers s _ (.next t)).edits

/-- Fetching a task drops it from the position at most. -/
theorem keepsControl_fetchTask {w : Who} {s u : State} {x : Task} (h : fetchTask w s = some (x, u)) :
    KeepsControl s u := by
  obtain ⟨_, rfl⟩ | ⟨_, rfl⟩ := fetchTask_cases h
  · exact keepsControl_of_edits (w := w) (.dropTask .refl)
  · exact ⟨id, id, id⟩

theorem keepsControl_engineStep {w : Who} {s t : State} (h : engineStep w s = .next t) : KeepsControl s t := by
  have turn : KeepsControl s { s with active := w } := ⟨id, id, id⟩
  obtain rfl | ⟨x, u, hf, hu⟩ := engineStep_cases h
  · exact turn
  · exact (turn.trans (keepsControl_fetchTask hf)).trans (keepsControl_of_edits hu)

/-- After power-on there is no task, no saved record, no fatal state, and the parse is at its start (10 R49). -/
theorem keepsControl_powerOn (s : State) : KeepsControl s (powerOn s) := by
  refine ⟨fun _ => ⟨nofun, nofun, nofun⟩, fun _ => ?_, fun _ => ⟨Nat.le_refl 0x80, (by decide : 0x80 % 2 = 0)⟩⟩
  rintro (e | e | ⟨_, e, _⟩)
  · exact nomatch e
  · exact nomatch e
  · exact nomatch e

theorem keepsControl_hostAction {a : HostAct} {s t : State} (h : hostAction a s = .next t) : KeepsControl s t := by
  cases a with
  | powerOn => cases h; exact keepsControl_powerOn s
  | supply p x => cases h; exact ⟨id, id, id⟩
  | request k =>
    simp only [hostAction] at h
    split at h
    · cases h
    · cases h; exact ⟨id, id, id⟩
  | sharedWrite a x =>
    simp only [hostAction] at h
    split at h
    · cases h; exact keepsControl_of_edits (w := .pif) (.cell .refl)
    · cases h
  | sharedRead a =>
    simp only [hostAction] at h
    split at h
    · cases h; exact ⟨id, id, id⟩
    · cases h
  | complete =>
    simp only [hostAction] at h
    split at h
    · cases h; exact ⟨id, id, id⟩
    · cases h
  | resetButton => cases h; exact ⟨id, id, id⟩
  | schedule w => exact keepsControl_engineStep h

theorem keepsControl_fieldStep {f : Format} {bytes : List Byte} {s t : State} (h : fieldStep f bytes s = .next t) :
    KeepsControl s t := by
  have taken (o : Option (Format × List Byte)) : KeepsControl s { s with opField := o } := ⟨id, id, id⟩
  unfold fieldStep at h
  split at h
  · exact (taken _).trans (keepsControl_exec h)
  · split at h
    · cases h; exact taken none
    · cases h

/-- Where the engines alternate, the turn is passed after the step of an engine. -/
theorem alternate_next {r : Result} {t : State} (h : alternate r = .next t) :
    ∃ u, r = .next u ∧ t = { u with active := u.active.other } := by
  cases r with
  | next u => cases h; exact ⟨u, rfl, rfl⟩
  | fault f => cases f
  | refused q => cases h

theorem keepsControl_step {s t : State} (h : step s = .next t) : KeepsControl s t := by
  unfold step at h
  split at h
  · exact keepsControl_fieldStep h
  · split at h
    next a rest _ =>
      have read : KeepsControl s { s with script := rest } := ⟨id, id, id⟩
      exact read.trans (keepsControl_hostAction h)
    next =>
      obtain ⟨u, hu, rfl⟩ := alternate_next h
      have passed : KeepsControl u { u with active := u.active.other } := ⟨id, id, id⟩
      exact (keepsControl_engineStep hu).trans passed

/-- Settles O56: every update of `Edits` keeps each of the three conditions, and a step is made of such updates, a host
action or power-on. -/
theorem stepKeepsControlInvariants : Obligations.StepKeepsControlInvariants :=
  fun _ _ h => keepsControl_step h

end Sys2Proof.Machine
end

