-- ==== Sys2Proof/Proofs/Isolation.lean ====
section
/-! The frame of an engine's step: one induction over `Edits` again, with the parts that an engine reaches. -/

namespace Sys2Proof.Machine

/-- All that a step of an engine can change: its own parts, of the other engine what a bit exchange changes, its control
state, what the host laid ready, the draw counter and the turn. -/
def engineReach : Who → List Field
  | .cic => engineParts .cic ++ linkParts .pif ++ [.cicPc, .supply, .kindDue, .draws, .active]
  | .pif => engineParts .pif ++ linkParts .cic ++ [.pifPc, .ie, .ifa, .ifb, .isr, .halted, .haltPc, .fcause, .parse,
      .supply, .kindDue, .draws, .active]

theorem latch_mem_engineParts (w : Who) (p : Port) : Field.latch w p ∈ engineParts w := by
  cases p <;> simp [engineParts, allPorts]

/-- A change of one engine's own state changes that engine's parts. -/
theorem modEng_unchanged (w : Who) (f : Engine → Engine) (s : State) : Unchanged (engineParts w) s (modEng w f s) := by
  intro g hg
  cases g with
  | mem v | regA v | regX v | ptrB v | ptrSB v | carry v | log v | position v | ret v =>
    have hv : v ≠ w := fun e => hg (by simp [e, engineParts])
    simp [Field.same, readCell, eng_modEng_ne hv]
  | latch v p =>
    have hv : v ≠ w := fun e => hg (e ▸ latch_mem_engineParts v p)
    have he := eng_modEng_ne hv f s
    cases v with
    | pif => simp only [State.eng_pif] at he; simp [Field.same, latchOf, he]
    | cic => simp only [State.eng_cic] at he; simp [Field.same, latchOf, he]
  | _ => simp [Field.same]

/-- The PIF's control state and parse position are parts of their own. -/
theorem pifControl_unchanged (s : State) (pc hpc : PifPc) (ie ifa halted : Bool) (c : Option FatalCause)
    (p : ParsePos) : Unchanged [.pifPc, .ie, .ifa, .halted, .haltPc, .fcause, .parse] s
      { s with pifPc := pc, haltPc := hpc, ie := ie, ifa := ifa, halted := halted, fcause := c, parse := p } := by
  intro f hf
  cases f with
  | mem v => cases v <;> exact fun _ => rfl
  | regA v | regX v | ptrB v | ptrSB v | carry v | log v | position v | ret v => cases v <;> rfl
  | latch v q => cases v <;> rfl
  | pifPc | ie | ifa | halted | haltPc | fcause | parse => simp at hf
  | _ => rfl

theorem cicPc_unchanged (s : State) (pc : CicPc) : Unchanged [.cicPc] s { s with cicPc := pc } := by
  intro f hf
  cases f with
  | mem v => cases v <;> exact fun _ => rfl
  | regA v | regX v | ptrB v | ptrSB v | carry v | log v | position v | ret v => cases v <;> rfl
  | latch v q => cases v <;> rfl
  | cicPc => simp at hf
  | _ => rfl

/-- The draw counter and the turn belong to neither engine. -/
theorem draws_active_unchanged (s : State) (n : Nat) (w : Who) :
    Unchanged [.draws, .active] s { s with draws := n, active := w } := by
  intro f hf
  cases f with
  | mem v => cases v <;> exact fun _ => rfl
  | regA v | regX v | ptrB v | ptrSB v | carry v | log v | position v | ret v => cases v <;> rfl
  | latch v q => cases v <;> rfl
  | draws | active => simp at hf
  | _ => rfl

/-! ## What is in reach -/

theorem engineParts_subset_reach (w : Who) : ∀ f ∈ engineParts w, f ∈ engineReach w := by cases w <;> decide

/-- What a bit exchange changes is in reach of an engine, its own and the other's. -/
theorem linkParts_subset_reach (v w : Who) : ∀ f ∈ linkParts v, f ∈ engineReach w := by
  cases v <;> cases w <;> decide

/-- What a read of either engine's port uses up is in reach. -/
theorem portRead_subset_reach (v w : Who) : ∀ f ∈ Field.log v :: portSupply, f ∈ engineReach w := by
  cases v <;> cases w <;> decide

theorem draws_active_subset_reach (w : Who) : ∀ f ∈ [Field.draws, .active], f ∈ engineReach w := by
  cases w <;> decide

theorem Unchanged.reach_of_modEng (w : Who) (f : Engine → Engine) (s : State) :
    Unchanged (engineReach w) s (modEng w f s) := (modEng_unchanged w f s).mono (engineParts_subset_reach w)

theorem Unchanged.reach_of_link {l : List Field} (v w : Who) {s t : State} (h : Unchanged l s t)
    (hl : ∀ f ∈ l, f ∈ linkParts v) : Unchanged (engineReach w) s t :=
  h.mono fun f hf => linkParts_subset_reach v w f (hl f hf)

theorem Unchanged.reach_of_portRead (v w : Who) (p : Port) (s : State) :
    Unchanged (engineReach w) s (portRead v p s).2 := (portRead_unchanged v p s).mono (portRead_subset_reach v w)

theorem Unchanged.reach_of_portWrite (w : Who) (p : Port) (x : Nibble) (s : State) :
    Unchanged (engineReach w) s (portWrite w p x s) := by
  refine (portWrite_unchanged w p x s).mono fun f hf => engineParts_subset_reach w f ?_
  simp only [List.mem_cons, List.not_mem_nil, or_false] at hf
  obtain rfl | rfl := hf
  · exact latch_mem_engineParts w p
  · simp [engineParts]

theorem Unchanged.reach_of_pifControl (s : State) (pc hpc : PifPc) (ie ifa halted : Bool) (c : Option FatalCause)
    (p : ParsePos) : Unchanged (engineReach .pif) s
      { s with pifPc := pc, haltPc := hpc, ie := ie, ifa := ifa, halted := halted, fcause := c, parse := p } :=
  (pifControl_unchanged s pc hpc ie ifa halted c p).mono (by decide)

/-- The updates of an engine stay within its reach. -/
theorem unchanged_of_edits {s t : State} {w : Who} (h : Edits s w t) : Unchanged (engineReach w) s t := by
  induction h with
  | refl => exact Unchanged.refl _ s
  | cell _ ih | registers _ _ ih | push _ _ ih | abandon _ ih => exact ih.trans' (.reach_of_modEng _ _ _)
  | portWrite _ ih => exact ih.trans' (.reach_of_portWrite _ _ _ _)
  | portRead _ ih | linkRead _ ih => exact ih.trans' (.reach_of_portRead _ _ _ _)
  | @linkWrite _ v _ _ _ ih => exact ih.trans' (.reach_of_link v _ (portWrite_unchanged _ _ _ _) (by simp [linkParts]))
  | @setC _ v _ _ _ ih => exact ih.trans' (.reach_of_link v _ (setC_unchanged _ _ _) (by simp [linkParts]))
  | @deliver _ v _ _ _ ih => exact ih.trans' (.reach_of_link v _ (deliver_unchanged _ _ _) (by simp [linkParts]))
  | @dropTask _ v _ _ ih => exact ih.trans' (.reach_of_link v _ (dropTask_unchanged _ _) (by simp [linkParts]))
  | draw _ ih => exact ih.trans' ((draws_active_unchanged _ _ _).mono (draws_active_subset_reach _))
  | cicPc _ ih => exact ih.trans' ((cicPc_unchanged _ _).mono (by decide))
  | takeInterrupt _ ih => exact ih.trans' ((takeInterrupt_unchanged _ _).mono (by decide))
  | returnInterrupt _ ih => exact ih.trans' ((returnInterrupt_unchanged _).mono (by decide))
  | ie _ ih | pifPc _ _ ih | parse _ _ ih | fatal _ ih | beginHalt _ ih | endHalt _ ih =>
    exact ih.trans' (.reach_of_pifControl _ _ _ _ _ _ _ _)

/-! ## From updates to the step of an engine -/

/-- Where the tasks are owned, the task an engine fetches is one that it may have. -/
theorem allowed_fetchTask {w : Who} {s u : State} {x : Task} (hs : TasksOwned s)
    (h : fetchTask w s = some (x, u)) : x.allowed w = true := by
  obtain ⟨hx, _⟩ | ⟨hx, _⟩ := fetchTask_cases h
  · exact ((tasksOwned_iff s).1 hs).1 w x (List.mem_of_mem_head? hx)
  · exact hx

theorem unchanged_fetchTask {w : Who} {s u : State} {x : Task} (h : fetchTask w s = some (x, u)) :
    Unchanged (engineReach w) s u := by
  obtain ⟨_, rfl⟩ | ⟨_, rfl⟩ := fetchTask_cases h
  · exact unchanged_of_edits (.dropTask .refl)
  · exact Unchanged.refl _ _

theorem active_fetchTask {w : Who} {s u : State} {x : Task} (h : fetchTask w s = some (x, u)) :
    u.active = s.active := by
  obtain ⟨_, rfl⟩ | ⟨_, rfl⟩ := fetchTask_cases h
  · simp
  · rfl

/-- A step of an engine whose tasks are its own stays within the engine's reach. -/
theorem unchanged_engineStep {w : Who} {s t : State} (hs : TasksOwned s) (h : engineStep w s = .next t) :
    Unchanged (engineReach w) s t := by
  have turn : Unchanged (engineReach w) s { s with active := w } :=
    (draws_active_unchanged s s.draws w).mono (draws_active_subset_reach w)
  obtain rfl | ⟨x, u, hf, hu⟩ := engineStep_cases h
  · exact turn
  · have owner : x.owner.getD u.active = w := by
      rw [active_fetchTask hf]
      exact owner_getD_of_allowed (allowed_fetchTask (s := { s with active := w }) hs hf)
    rw [owner] at hu
    exact (turn.trans' (unchanged_fetchTask hf)).trans' (unchanged_of_edits hu)

/-- Settles O59: an engine whose tasks are its own takes a step made of its own updates, and these stay within its
reach. -/
theorem enginesAreIsolated : Obligations.EnginesAreIsolated :=
  ⟨fun _ _ hs h => unchanged_engineStep hs h, fun _ _ hs h => unchanged_engineStep hs h⟩

end Sys2Proof.Machine
end

