-- ==== Sys2Proof/Proofs/Moves.lean ====
section
/-! A step of the machine taken apart: what an operation does, what the host, the notional field and the turn change, and
power-on. An invariant of the whole machine is then one induction over `Edits` and one over such a chain. -/

namespace Sys2Proof.Machine

/-- Nothing differs but what the host, the notional field and the turn of the engines set (30 R101; 60 R400, R406). -/
def SameBesidesStimulus (s t : State) : Prop :=
  t = { s with ifa := t.ifa, ifb := t.ifb, xfer := t.xfer, kindDue := t.kindDue, supply := t.supply, seen := t.seen,
               script := t.script, active := t.active, opField := t.opField }

/-- `Moves s t`: a step, or a part of one, may lead from `s` to `t`. -/
inductive Moves (s : State) : State → Prop
  | refl : Moves s s
  | edits {t u : State} {w : Who} (e : Edits t w u) : Moves s t → Moves s u
  | stimulus {t u : State} (e : SameBesidesStimulus t u) : Moves s t → Moves s u
  | powerOn {t : State} : Moves s t → Moves s (powerOn t)

theorem moves_exec {i : Instr} {s t u : State} (h : Moves s t) (e : exec i t = .next u) : Moves s u :=
  .edits (e ▸ exec_answers i t : Answers t _ (.next u)).edits h

theorem moves_engineStep {w : Who} {s t u : State} (h : Moves s t) (e : engineStep w t = .next u) : Moves s u := by
  have turn : Moves s { t with active := w } := .stimulus rfl h
  obtain rfl | ⟨x, v, fetched, run⟩ := engineStep_cases e
  · exact turn
  · obtain ⟨_, rfl⟩ | ⟨_, rfl⟩ := fetchTask_cases fetched
    · exact .edits run (.edits (w := w) (.dropTask .refl) turn)
    · exact .edits run turn

theorem moves_hostAction {a : HostAct} {s t u : State} (h : Moves s t) (e : hostAction a t = .next u) : Moves s u := by
  cases a with
  | powerOn => cases e; exact .powerOn h
  | supply p x => cases e; exact .stimulus rfl h
  | resetButton => cases e; exact .stimulus rfl h
  | schedule w => exact moves_engineStep h e
  | request k =>
    simp only [hostAction] at e
    split at e
    · cases e
    · cases e; exact .stimulus rfl h
  | sharedWrite a x =>
    simp only [hostAction] at e
    split at e
    · cases e; exact .edits (w := .pif) (.cell .refl) h
    · cases e
  | sharedRead a =>
    simp only [hostAction] at e
    split at e
    · cases e; exact .stimulus rfl h
    · cases e
  | complete =>
    simp only [hostAction] at e
    split at e
    · cases e; exact .stimulus rfl h
    · cases e

theorem moves_fieldStep {f : Format} {bytes : List Byte} {s t u : State} (h : Moves s t)
    (e : fieldStep f bytes t = .next u) : Moves s u := by
  have taken (o : Option (Format × List Byte)) : Moves s { t with opField := o } := .stimulus rfl h
  unfold fieldStep at e
  split at e
  · exact moves_exec (taken _) e
  · split at e
    · cases e; exact taken none
    · cases e

/-- A step is a chain of moves. -/
theorem moves_step {s t : State} (h : step s = .next t) : Moves s t := by
  unfold step at h
  split at h
  · exact moves_fieldStep .refl h
  · split at h
    next a rest _ =>
      have read : Moves s { s with script := rest } := .stimulus rfl .refl
      exact moves_hostAction read h
    next =>
      obtain ⟨u, hu, rfl⟩ := alternate_next h
      exact .stimulus rfl (moves_engineStep .refl hu)

end Sys2Proof.Machine
end

