-- ==== Sys2Proof/Proofs/Canonical.lean ====
section
/-! The canonical form of the memories, kept by every update of `Edits` and by every move. -/

namespace Sys2Proof.Machine

/-- An update that leaves each engine its memory keeps the form. -/
theorem MemoriesCanonical.of_mem {s t : State} (h : MemoriesCanonical s)
    (hm : ∀ v, (t.eng v).mem = (s.eng v).mem) : MemoriesCanonical t := canonical_of_mem h (hm .pif) (hm .cic)

theorem mem_modEng {f : Engine → Engine} (hf : ∀ E, (f E).mem = E.mem) (v w : Who) (s : State) :
    ((modEng w f s).eng v).mem = (s.eng v).mem := by
  by_cases h : v = w
  · subst h; rw [eng_modEng_same, hf]
  · rw [eng_modEng_ne h]

/-- Interrupt entry reaches no cell (60 R366). -/
theorem mem_takeInterrupt (v : Who) (x : IntSrc) (s : State) : ((takeInterrupt x s).eng v).mem = (s.eng v).mem := by
  cases x <;> cases v <;> rfl

/-- Interrupt return reaches no cell (60 R368). -/
theorem mem_returnInterrupt (v : Who) (s : State) : ((returnInterrupt s).eng v).mem = (s.eng v).mem := by
  unfold returnInterrupt
  dsimp only
  split
  · exact (setCont_mem v .pif _ _).trans (swapPointers_mem v .pif s)
  · exact swapPointers_mem v .pif s

/-- The one update that reaches a cell is a write, and a write keeps the form. -/
theorem canonical_of_edits {s t : State} {w : Who} (h : Edits s w t) (hs : MemoriesCanonical s) :
    MemoriesCanonical t := by
  induction h with
  | refl => exact hs
  | cell _ ih => exact canonical_writeCell ih _ _ _
  | registers hf _ ih => exact ih.of_mem fun _ => mem_modEng (fun E => (hf E).1) _ _ _
  | portRead _ ih | linkRead _ ih => exact canonical_portRead ih _ _
  | takeInterrupt _ ih => exact ih.of_mem fun _ => mem_takeInterrupt _ _ _
  | returnInterrupt _ ih => exact ih.of_mem fun _ => mem_returnInterrupt _ _
  | push _ _ ih | abandon _ ih | dropTask _ ih | portWrite _ ih | linkWrite _ ih | setC _ ih | deliver _ ih =>
    exact ih.of_mem fun _ => by simp
  | draw _ ih | cicPc _ ih | ie _ ih | pifPc _ _ ih | parse _ _ ih | fatal _ ih | beginHalt _ ih | endHalt _ ih =>
    exact ih

/-- The host's stimulus stands in no memory. -/
theorem SameBesidesStimulus.canonical {s t : State} (e : SameBesidesStimulus s t) (hs : MemoriesCanonical s) :
    MemoriesCanonical t := by
  rw [e]
  exact hs

/-- After power-on no cell is listed (10 R49). -/
theorem canonical_powerOn (s : State) : MemoriesCanonical (powerOn s) := ⟨Memory.wf_nil, Memory.wf_nil⟩

theorem canonical_of_moves {s t : State} (h : Moves s t) (hs : MemoriesCanonical s) : MemoriesCanonical t := by
  induction h with
  | refl => exact hs
  | edits e _ ih => exact canonical_of_edits e ih
  | stimulus e _ ih => exact e.canonical ih
  | powerOn _ _ => exact canonical_powerOn _

/-- Settles O55: a step is a chain of moves, and each move keeps the form. -/
theorem stepKeepsMemoriesCanonical : Obligations.StepKeepsMemoriesCanonical :=
  fun _ _ hs h => canonical_of_moves (moves_step h) hs

end Sys2Proof.Machine
end

