-- ==== Sys2Proof/Proofs/Reset.lean ====
section
/-! The state after reset: the table of 10 R49, and the conditions that a step keeps. -/

namespace Sys2Proof.Machine

theorem eng_reset (w : Who) : State.reset.eng w = Engine.reset := by
  cases w with
  | pif => rfl
  | cic => rfl

/-- No cell is listed at reset, and an unlisted cell reads 0 (40 R140). -/
theorem readCell_reset (w : Who) (a : Addr) : readCell w a State.reset = 0 := by
  rw [readCell, eng_reset]
  rfl

/-- Of the ports the CIC has, and of all of the PIF's, the latches are 0 (20 R86, 45 R351). -/
theorem latchOf_reset {w : Who} {p : Port} (h : hasPort w p = true) : latchOf w p State.reset = some 0 := by
  cases w with
  | pif => cases p <;> rfl
  | cic =>
    cases p with
    | cic | reset => rfl
    | _ => exact nomatch h

/-- Settles O4: the power-on table of 10 R49, its cells by `readCell_reset` and its latches by `latchOf_reset`. -/
theorem powerOnDefaults : Obligations.PowerOnDefaults := by
  have warmClear : cellBit .pif Config.stMain 2 State.reset = false := by
    rw [cellBit, readCell_reset]
    rfl
  refine ⟨fun w => ?_, rfl, rfl, rfl, rfl, rfl, rfl, rfl, rfl, warmClear⟩
  rw [eng_reset]
  exact ⟨readCell_reset w, rfl, rfl, rfl, rfl, rfl, fun _ => latchOf_reset⟩

theorem tasksOwned_reset : TasksOwned State.reset := ⟨nofun, nofun, nofun⟩

/-- At reset `S_FATAL` stands neither in `pc` nor in what `HALT` or an interrupt has saved. -/
theorem fatalHasCause_reset : FatalHasCause State.reset := by
  rintro (hpc | hhalt | ⟨_, hisr, _⟩)
  · exact nomatch hpc
  · exact nomatch hhalt
  · exact nomatch hisr

/-- The parse starts on the first cell of the shared region. -/
theorem parseAligned_reset : ParseAligned State.reset := ⟨Nat.le_refl 0x80, (by decide : 0x80 % 2 = 0)⟩

/-- Settles O57: each condition by itself. -/
theorem resetMeetsTheInvariants : Obligations.ResetMeetsTheInvariants :=
  ⟨reset_memory_wf, tasksOwned_reset, fatalHasCause_reset, parseAligned_reset⟩

end Sys2Proof.Machine
end

