-- ==== Sys2Proof/Proofs/Encoding.lean ====
section
/-! Decoding inverts encoding (30 R100 to R121): what is read back of each operand and of each format's bytes, and which
flags a command byte has. -/

namespace Sys2Proof

/-! ## Operand bytes -/

/-- A value of at most 8 bits is read back from the byte that holds it. -/
theorem setWidth_byte {n : Nat} (hn : n ≤ 8) (y : BitVec n) : (y.setWidth 8).setWidth n = y := by
  rw [BitVec.setWidth_setWidth_of_le _ hn, BitVec.setWidth_eq]

theorem portOfCode_portCode (p : Port) : portOfCode (portCode p) = some p := by cases p <;> rfl

theorem timerOfCode_timerCode (t : Timer) : timerOfCode (timerCode t) = some t := by cases t <;> rfl

theorem intSrcOfCode_intSrcCode (x : IntSrc) : intSrcOfCode (intSrcCode x) = some x := by cases x <;> rfl

theorem causeOfCode_causeCode (c : FatalCause) : causeOfCode (causeCode c) = some c := by cases c <;> rfl

theorem channelOfCode_channelCode : ∀ ch : Fin 5, channelOfCode (channelCode ch) = some ch := by decide

/-- A 16-bit value is its high byte before its low byte. -/
theorem highByte_append_lowByte (v : Word16) : (v >>> 8).setWidth 8 ++ v.setWidth 8 = v := by
  apply BitVec.eq_of_toNat_eq
  have hv : v.toNat < 2 ^ 16 := v.isLt
  simp only [BitVec.toNat_append, BitVec.toNat_setWidth, BitVec.toNat_ushiftRight, Nat.shiftRight_eq_div_pow]
  rw [← Nat.shiftLeft_add_eq_or_of_lt (Nat.mod_lt _ (by decide)), Nat.shiftLeft_eq]
  omega

/-- An operand narrower than a byte is read back from its byte. -/
theorem operand1_value {n : Nat} (hn : n ≤ 8) (f : BitVec n → Instr) (y : BitVec n) (rest : List Byte) :
    operand1 (fun b => f (b.setWidth n)) (y.setWidth 8 :: rest) = some (f y, rest) := by
  simp only [operand1, setWidth_byte hn]

/-- A byte operand and one narrower than a byte are read back. -/
theorem operand2_addr_value {n : Nat} (hn : n ≤ 8) (f : Byte → BitVec n → Instr) (a : Byte) (y : BitVec n)
    (rest : List Byte) :
    operand2 (fun a b => f a (b.setWidth n)) (a :: y.setWidth 8 :: rest) = some (f a y, rest) := by
  simp only [operand2, setWidth_byte hn]

/-- Two operands narrower than a byte are read back. -/
theorem operand2_values {n : Nat} (hn : n ≤ 8) (f : BitVec n → BitVec n → Instr) (x y : BitVec n) (rest : List Byte) :
    operand2 (fun a b => f (a.setWidth n) (b.setWidth n)) (x.setWidth 8 :: y.setWidth 8 :: rest) =
      some (f x y, rest) := by
  simp only [operand2, setWidth_byte hn]

/-- An operand that is the code of a value is read as that value. -/
theorem operandOf_code {α : Type} {code : Byte → Option α} {b : Byte} {a : α} (h : code b = some a) (f : α → Instr)
    (rest : List Byte) : operandOf code f (b :: rest) = some (f a, rest) := by
  simp [operandOf, h]

theorem opPortWrite_code (p : Port) (v : Nibble) (rest : List Byte) :
    opPortWrite (portCode p :: v.setWidth 8 :: rest) = some (.portWrite p v, rest) := by
  simp only [opPortWrite, portOfCode_portCode, setWidth_byte (by decide : 4 ≤ 8), Option.map_some]

theorem opTimerInit_code (t : Timer) (v : Word16) (rest : List Byte) :
    opTimerInit (timerCode t :: v.setWidth 8 :: (v >>> 8).setWidth 8 :: rest) = some (.timerInit t v, rest) := by
  simp only [opTimerInit, timerOfCode_timerCode, Option.map_some]
  rw [highByte_append_lowByte]

/-! ## Formats whose bytes have a form of their own -/

/-- A `TX` byte that is no special one begins a transfer item (30 R117). -/
theorem decodeJbtx_xfer {tx : Byte} (h : specialTx tx = false) (rx : Byte) (rest : List Byte) :
    decodeJbtx (tx :: rx :: rest) = some (.jbXfer tx rx, rest) := by
  simp only [specialTx, Bool.or_eq_false_iff, beq_eq_false_iff_ne] at h
  obtain ⟨⟨⟨hskip, hreset⟩, hstop⟩, hnop⟩ := h
  simp only [decodeJbtx, if_neg hskip, if_neg hreset, if_neg hnop, if_neg hstop, operand1]

/-- A frame takes from what follows its two counts exactly the bytes they name (30 R116). -/
theorem decodeFrame_append {tx rx : Byte} {data recv : List Byte} (htx : specialTx tx = false)
    (hdata : data.length = jbCount tx) (hrecv : recv.length = jbCount rx) (rest : List Byte) :
    decodeFrame (tx :: rx :: (data ++ recv ++ rest)) = some (.frame tx rx data recv, rest) := by
  simp [decodeFrame, htx, ← hdata, ← hrecv]

/-- Settles O1: an operation without operands and one of whole bytes decodes by evaluation; every other operand is read
back by the lemma of its kind. -/
theorem decodeInvertsEncode : Obligations.DecodeInvertsEncode := by
  intro i rest h
  cases i with
  | jbXfer tx rx => exact decodeJbtx_xfer (by simpa [Instr.wellFormed] using h) rx rest
  | frame tx rx data recv =>
    simp only [Instr.wellFormed, Bool.and_eq_true, Bool.not_eq_true', beq_iff_eq] at h
    obtain ⟨⟨htx, hdata⟩, hrecv⟩ := h
    exact decodeFrame_append htx hdata hrecv rest
  | write a v => exact operand2_addr_value (by decide) Instr.write a v rest
  | bitTest a b => exact operand2_addr_value (by decide) Instr.bitTest a b rest
  | bitSet a b => exact operand2_addr_value (by decide) Instr.bitSet a b rest
  | bitReset a b => exact operand2_addr_value (by decide) Instr.bitReset a b rest
  | add4 x y => exact operand2_values (by decide) Instr.add4 x y rest
  | adc4 x y => exact operand2_values (by decide) Instr.adc4 x y rest
  | sub4 x y => exact operand2_values (by decide) Instr.sub4 x y rest
  | com4 x => exact operand1_value (by decide) Instr.com4 x rest
  | writeNibble v => exact operand1_value (by decide) Instr.writeNibble v rest
  | writeBit v => cases v <;> rfl
  | portRead p => exact operandOf_code (portOfCode_portCode p) _ rest
  | portWrite p v => exact opPortWrite_code p v rest
  | jbChannelExchange ch => exact operandOf_code (channelOfCode_channelCode ch) _ rest
  | intEntry x => exact operandOf_code (intSrcOfCode_intSrcCode x) _ rest
  | fatal c => exact operandOf_code (causeOfCode_causeCode c) _ rest
  | timerInit t v => exact opTimerInit_code t v rest
  | timerTick t => exact operandOf_code (timerOfCode_timerCode t) _ rest
  | _ => rfl

/-! ## The command byte -/

/-- No flag stands in two rows of the table of 30 R104. -/
theorem cmdRows_mask_unique : ∀ r ∈ cmdRows, ∀ r' ∈ cmdRows, r.2 = r'.2 → r.1 = r'.1 := by decide

/-- A flag of the table is set exactly when the byte has a bit of its mask. -/
theorem mem_cmdFlags {m : Byte} {i : Instr} (hrow : (m, i) ∈ cmdRows) (b : Byte) : i ∈ cmdFlags b ↔ b &&& m ≠ 0 := by
  simp only [cmdFlags, cmdMatches, List.mem_map, List.mem_filter, bne_iff_ne]
  constructor
  · rintro ⟨r, ⟨hr, hbit⟩, hi⟩
    have hmask : r.1 = m := cmdRows_mask_unique r hr (m, i) hrow hi
    rwa [hmask] at hbit
  · exact fun hbit => ⟨(m, i), ⟨hrow, hbit⟩, rfl⟩

/-- A mask of one bit meets a byte exactly when that bit is set. -/
theorem and_twoPow_ne_zero {k : Nat} (hk : k < 8) (b : Byte) : b &&& BitVec.twoPow 8 k ≠ 0 ↔ bitOf b k = true := by
  rw [BitVec.and_twoPow, bitOf]
  split
  · next hset =>
    have hbit : (BitVec.twoPow 8 k).getLsbD k = true := by simp [hk]
    refine iff_of_true (fun hzero => ?_) hset
    rw [hzero] at hbit
    simp at hbit
  · next hclear => exact iff_of_false (fun hne => hne rfl) hclear

/-- The rows of 30 R104 by the number of their bit. -/
def flagBits : List (Nat × Instr) :=
  [(7, .cmdAck), (6, .cmdCheckChecksum), (5, .cmdGetChecksum), (4, .cmdLockout), (3, .cmdTerminate), (2, .cmdBit2),
   (1, .cmdChallenge), (0, .cmdJoybus)]

theorem flagBits_row : ∀ r ∈ flagBits, r.1 < 8 ∧ (BitVec.twoPow 8 r.1, r.2) ∈ cmdRows := by decide

theorem mem_cmdFlags_bit {k : Nat} {i : Instr} (h : (k, i) ∈ flagBits) (b : Byte) :
    i ∈ cmdFlags b ↔ bitOf b k = true := by
  obtain ⟨hk, hrow⟩ := flagBits_row (k, i) h
  exact (mem_cmdFlags hrow b).trans (and_twoPow_ne_zero hk b)

/-- Settles O3: the flags by `mem_cmdFlags_bit`, each written word by evaluation. -/
theorem writtenWordsDecode : Obligations.WrittenWordsDecode :=
  ⟨fun b _ _ h => mem_cmdFlags_bit h b,
    rfl, rfl, rfl, rfl, rfl, rfl, rfl, rfl, rfl, rfl, rfl, rfl, rfl, rfl, rfl, rfl, rfl⟩

end Sys2Proof
end

