-- ==== Sys2Proof/Proofs/Dispatch.lean ====
section
/-! What a step runs (30 R101; 60 R400, R406), and where a command flag has no effect (30 R105, R106). -/

namespace Sys2Proof.Machine

/-! ## The notional field -/

theorem step_of_field {s : State} {f : Format} {bytes : List Byte} (h : s.opField = some (f, bytes)) :
    step s = fieldStep f bytes s := by
  simp only [step, h]

theorem fieldStep_of_decode {f : Format} {bytes r : List Byte} {i : Instr} (h : decode f bytes = some (i, r))
    (s : State) : fieldStep f bytes s = exec i { s with opField := fieldRest f bytes } := by
  simp only [fieldStep, h]

/-- Only a command byte leaves something in the field. -/
theorem fieldRest_of_ne_cmd {f : Format} (h : f ≠ .cmd) (bytes : List Byte) : fieldRest f bytes = none := by
  cases f with
  | cmd => exact absurd rfl h
  | _ => rfl

/-- A byte with a flag decodes to its first flag, and the byte left over has the others. -/
theorem decodeCmd_of_flags {b : Byte} {i : Instr} {is : List Instr} (h : cmdFlags b = i :: is) :
    ∃ r : Byte, cmdFlags r = is ∧ decodeCmd b = some (i, r) ∧ (r = 0 ↔ is = []) := by
  cases hd : decodeCmd b with
  | none =>
    obtain rfl := (decodeCmd_none b).1 hd
    exact nomatch h
  | some x =>
    obtain ⟨hflags, hlast⟩ := decodeCmd_flags hd
    rw [h, List.cons.injEq] at hflags
    obtain ⟨rfl, rfl⟩ := hflags
    exact ⟨x.2, rfl, rfl, hlast⟩

/-- A command byte runs its first set flag; the others stay in the field (30 R105; log 34). -/
theorem decode_cmd_of_flags {b : Byte} {i : Instr} {is : List Instr} (h : cmdFlags b = i :: is) (bs : List Byte) :
    ∃ r : Byte, cmdFlags r = is ∧ decode .cmd (b :: bs) = some (i, if is = [] then bs else r :: bs) ∧
      fieldRest .cmd (b :: bs) = if is = [] then none else some (.cmd, [r]) := by
  obtain ⟨r, hr, hd, hlast⟩ := decodeCmd_of_flags h
  exact ⟨r, hr, by simp only [decode, hd, hlast, Option.map_some],
    by simp only [fieldRest, hd, hlast, Option.bind_some]⟩

/-- A command byte with no flag set is taken from the field without effect. -/
theorem fieldStep_cmd_zero (bs : List Byte) (s : State) :
    fieldStep .cmd (0 :: bs) s = .next { s with opField := none } := rfl

theorem fieldStep_refused {f : Format} {bytes : List Byte} (h : decode f bytes = none)
    (hcmd : f = .cmd → bytes.head? ≠ some 0) (s : State) : fieldStep f bytes s = .refused .undecodable := by
  have hflag : noFlagSet f bytes = false := by
    simpa [noFlagSet] using hcmd
  simp [fieldStep, h, hflag]

/-- A word is read as a command byte only where it has one of two single flags, so nothing of it stays in the field
(log 2). -/
theorem fieldRest_word (bytes : List Byte) : fieldRest (wordFormat bytes) bytes = none := by
  cases bytes with
  | nil => rfl
  | cons b bs =>
    unfold wordFormat
    dsimp only
    split
    · rfl
    · split
      · next h =>
        obtain rfl | rfl := h
        · rfl
        · rfl
      · rfl

/-- A word placed in the field runs as the operation that is read from it. -/
theorem step_withFetchWord {nbits w : Nat} {i : Instr} (h : decodeTableWord nbits w = some i) (s : State) :
    step (s.withFetchWord nbits w) = exec i { s with opField := none } := by
  obtain ⟨⟨j, r⟩, hd, rfl⟩ := Option.map_eq_some_iff.1 h
  rw [step_of_field rfl, fieldStep_of_decode hd, fieldRest_word]
  rfl

/-! ## The host's next action, and the next task -/

theorem step_of_script {s : State} {a : HostAct} {rest : List HostAct} (hf : s.opField = none)
    (hs : s.script = a :: rest) : step s = hostAction a { s with script := rest } := by
  simp only [step, hf, hs]

theorem step_of_no_script {s : State} (hf : s.opField = none) (hs : s.script = []) :
    step s = alternate (engineStep s.active s) := by
  simp only [step, hf, hs]

theorem engineStep_of_fetch {w : Who} {s u : State} {x : Task}
    (h : fetchTask w { s with active := w } = some (x, u)) : engineStep w s = runTask x u := by
  simp only [engineStep, h]

theorem engineStep_of_no_task {w : Who} {s : State} (h : fetchTask w { s with active := w } = none) :
    engineStep w s = .next { s with active := w } := by
  simp only [engineStep, h]

/-- With nothing left to do a PIF that is not halted takes up what its control state selects (10 R24). -/
theorem engineStep_pif_entry {s : State} {x : Task} (hc : s.pif.cont = []) (hh : s.halted = false)
    (hx : pifEntry s.pifPc = some x) : engineStep .pif s = runTask x { s with active := .pif } := by
  have hpc : s.pifPc ≠ .fatal := fun e => by rw [e] at hx; exact nomatch hx
  exact engineStep_of_fetch (by simp [fetchTask, fetchPif, hpc, hh, hc, hx])

/-- With nothing left to do the CIC takes up what its control state selects (10 R25). -/
theorem engineStep_cic_entry {s : State} {x : Task} (hc : s.cic.cont = []) (hx : cicEntry s.cicPc = some x) :
    engineStep .cic s = runTask x { s with active := .cic } := by
  have hpc : s.cicPc ≠ .dead := fun e => by rw [e] at hx; exact nomatch hx
  exact engineStep_of_fetch (by simp [fetchTask, fetchCic, hpc, hc, hx])

/-- A dead CIC has no step (45 R350). -/
theorem engineStep_cic_dead {s : State} (h : s.cicPc = .dead) :
    engineStep .cic s = .next { s with active := .cic } :=
  engineStep_of_no_task (by simp [fetchTask, fetchCic, h])

/-- The operations of the PIF's control states (10 R24). -/
def pifOperations : List (PifPc × Instr) :=
  [(.coldBoot, .pifStartup), (.awaitLockout, .pifAwaitLockout), (.awaitChecksum, .pifAwaitChecksum),
   (.awaitAck, .pifAwaitAck), (.bootTimerGate, .pifBootTimerGate), (.running, .pifRunningLoop),
   (.challengePending, .pifChallengeExchange), (.resetting, .pifResetting)]

theorem pifEntry_of_mem : ∀ r ∈ pifOperations, pifEntry r.1 = some (.op r.2) := by decide

/-- The operations of the CIC's control states but the idle loop (10 R25; log 36). -/
def cicOperations : List (CicPc × Instr) :=
  [(.boot, .cicMain), (.compare, .cicCompare), (.challenge, .cicChallenge), (.reset, .cicReset)]

theorem cicEntry_of_mem : ∀ r ∈ cicOperations, cicEntry r.1 = some (.op r.2) := by decide

/-- Settles O2, clause by clause: the field, the script, the engine whose turn it is, and its control state. -/
theorem stepRunsTheDecodedOperation : Obligations.StepRunsTheDecodedOperation := by
  refine ⟨?_, ?_, ?_, ?_, ?_, ?_, ?_, ?_, fun _ _ => rfl, ?_, ?_, ?_⟩
  · exact fun s f bytes r i hf hd => (step_of_field hf).trans (fieldStep_of_decode hd s)
  · exact fun f bytes h => fieldRest_of_ne_cmd h bytes
  · exact fun b bs i is h => decode_cmd_of_flags h bs
  · exact fun s bs hf => (step_of_field hf).trans (fieldStep_cmd_zero bs s)
  · exact fun s nbits w i h => step_withFetchWord h s
  · exact fun s f bytes hf hd hcmd => (step_of_field hf).trans (fieldStep_refused hd hcmd s)
  · exact fun s a rest hf hs => step_of_script hf hs
  · intro s u x hf hs hx
    rw [step_of_no_script hf hs, engineStep_of_fetch hx]
  · intro s hf hs hx
    rw [step_of_no_script hf hs, engineStep_of_no_task hx]
    rfl
  · rintro s pc i hc hh rfl hi
    exact engineStep_pif_entry hc hh (pifEntry_of_mem _ hi)
  · rintro s pc i hc rfl hi
    exact engineStep_cic_entry hc (cicEntry_of_mem _ hi)

/-! ## Flags elsewhere -/

/-- Interrupt A is not in service where what is in service, if anything, is Interrupt B. -/
theorem not_inServiceA {s : State} (h : ∀ r, s.isr = some r → r.src = .b) : ¬inServiceA s = true := by
  unfold inServiceA
  split
  · next r hr => simp [h r hr]
  · simp

/-- A flag whose guard is not met leaves the state as it is. -/
theorem next_ite_neg {c : Prop} [Decidable c] (h : ¬c) (t s : State) :
    (.next (if c then t else s) : Result) = .next s := by
  rw [if_neg h]

/-- Settles O25: each flag's guard, the control state or the service, is not met. -/
theorem flagsElsewhereHaveNoEffect : Obligations.FlagsElsewhereHaveNoEffect := by
  intro s
  refine ⟨fun h => next_ite_neg h _ s, fun h => next_ite_neg h _ s, fun h => next_ite_neg h _ s,
    fun h => next_ite_neg h _ s, fun h => ?_, rfl⟩
  exact ⟨next_ite_neg (not_inServiceA h) _ s, next_ite_neg (not_inServiceA h) _ s⟩

end Sys2Proof.Machine
end

