-- ==== Sys2Proof/Proofs/Patterns.lean ====
section
/-! What the machine does once it has decoded a pattern of 30: the hello code, a transfer item, the command values and the
wait of the JoyBus, the selector of the CIC, and the expansions of the link primitives. -/

namespace Sys2Proof.Machine

/-! ## An answer that only puts tasks before the others, and one cell written -/

/-- An answer that puts tasks before what an engine has still to do changes that engine's position alone. -/
theorem continues_of_push {r : Result} {w : Who} {ts : List Task} {s : State} (h : r = .next (push w ts s)) :
    ∃ t, r = .next t ∧ Continues w ts s t ∧ Unchanged [.position w] s t :=
  ⟨_, h, push_cont w ts s, push_unchanged w ts s⟩

/-- An answer that puts tasks there unless `c` holds, and else leaves the state as it is. -/
theorem continues_of_ite_push {r : Result} {c : Prop} [Decidable c] {w : Who} {ts : List Task} {s : State}
    (h : r = if c then .next s else .next (push w ts s)) :
    ∃ t, r = .next t ∧ Unchanged [.position w] s t ∧ Continues w (if c then [] else ts) s t := by
  by_cases hc : c
  · rw [if_pos hc] at h ⊢
    exact ⟨s, h, Unchanged.refl _ s, rfl⟩
  · rw [if_neg hc] at h ⊢
    exact ⟨_, h, push_unchanged w ts s, push_cont w ts s⟩

theorem writeCell_outside (w : Who) (a : Addr) (x : Nibble) (s : State) :
    CellsUnchangedOutside w [a] s (writeCell w a x s) := fun _ hb =>
  readCell_writeCell_ne (fun e => hb (by simp [e])) w w x s

/-! ## The link primitives above one bit (41 R184 to R186) -/

/-- Settles O14: each expansion is a `push` of the shorter primitives, and a buffer of no nibbles pushes nothing. -/
theorem nibbleAndBufferExpansions : Obligations.NibbleAndBufferExpansions := fun s _ _ _ =>
  ⟨continues_of_push rfl, continues_of_push rfl, continues_of_ite_push rfl, continues_of_ite_push rfl,
    _, rfl, readCell_writeCell_same _ _ _ s, writeCell_outside _ _ _ s, writeCell_unchanged _ _ _ s⟩

/-! ## The hello code (30 R113, 42 R203) -/

theorem exec_decodeHello (T R : Bool) (s : State) : exec (decodeHello T R) s = .next (judgeHello T R s) := by
  cases T <;> cases R <;> rfl

/-- The region bit of a hello code is the console's where the code's region is. -/
theorem eq_regionBit_iff (R : Bool) (g : Region) : R = regionBit g ↔ g = if R then .pal else .ntsc := by
  cases R <;> cases g <;> decide

/-- Settles O18: `judgeHello` is one write of `OSINFO`, or the fatal action. -/
theorem helloCodeJudged : Obligations.HelloCodeJudged := by
  refine ⟨⟨rfl, rfl, rfl, rfl⟩, fun s T R => ?_⟩
  rw [exec_decodeHello, judgeHello, Ne, ← eq_regionBit_iff]
  constructor
  · intro h
    rw [if_pos h]
    exact ⟨_, rfl, readCell_writeCell_same _ _ _ s, writeCell_outside _ _ _ s, writeCell_unchanged _ _ _ s⟩
  · intro h
    rw [if_neg h]
    exact ⟨_, rfl, raiseFatal_spec _ s⟩

/-! ## A transfer item of the frame list (44 R280, 30 R116, R118) -/

/-- A count is the low six bits of its byte (30 R116). -/
theorem jbCount_eq_mod (b : Byte) : jbCount b = b.toNat % 64 := by
  rw [jbCount, BitVec.toNat_and]
  exact Nat.and_two_pow_sub_one_eq_mod b.toNat 6

/-- Cells at different places of the channel table are different cells, modulo 256. -/
theorem jbTable_add_ne {i j : Nat} (h : i % 256 ≠ j % 256) :
    Config.jbTable + BitVec.ofNat 8 i ≠ Config.jbTable + BitVec.ofNat 8 j := by
  rw [Ne, BitVec.add_right_inj]
  exact fun e => h (congrArg BitVec.toNat e)

theorem jbOffHi_ne_jbOffLo (ch : Nat) : Config.jbOffHi ch ≠ Config.jbOffLo ch := jbTable_add_ne (by omega)

theorem jbOffHi_ne_jbStat (ch : Nat) : Config.jbOffHi ch ≠ Config.jbStat ch := jbTable_add_ne (by omega)

theorem jbOffLo_ne_jbStat (ch : Nat) : Config.jbOffLo ch ≠ Config.jbStat ch := jbTable_add_ne (by omega)

/-- Moving the parse position moves nothing else. -/
theorem parse_unchanged (p : ParsePos) (s : State) : Unchanged [.parse] s { s with parse := p } := by
  intro f hf
  cases f with
  | parse => simp at hf
  | mem w => cases w <;> exact fun _ => rfl
  | latch w q => cases w <;> rfl
  | _ => rfl

/-- Moving the parse position reaches no cell. -/
theorem readCell_parse (w : Who) (a : Addr) (p : ParsePos) (s : State) :
    readCell w a { s with parse := p } = readCell w a s := by cases w <;> rfl

/-- The table entry of channel `ch` as a transfer item at the address `pos` records it (44 R280). -/
def recordItem (ch : Nat) (pos : Addr) (s : State) : State :=
  writeCell .pif (Config.jbStat ch) statActive
    (writeCell .pif (Config.jbOffLo ch) (pos.extractLsb' 0 4)
      (writeCell .pif (Config.jbOffHi ch) (pos.extractLsb' 4 4) s))

theorem itemXfer_eq (tx rx : Byte) (s : State) :
    itemXfer tx rx s = { recordItem s.parse.ch (BitVec.ofNat 8 s.parse.p) s with
      parse := ⟨s.parse.p + 2 * (2 + jbCount tx + jbCount rx), s.parse.ch + 1, s.parse.stop⟩ } := rfl

/-- The three cells that an entry has after it is recorded. -/
theorem recordItem_cells (ch : Nat) (pos : Addr) (s : State) :
    readCell .pif (Config.jbOffHi ch) (recordItem ch pos s) = pos.extractLsb' 4 4 ∧
    readCell .pif (Config.jbOffLo ch) (recordItem ch pos s) = pos.extractLsb' 0 4 ∧
    readCell .pif (Config.jbStat ch) (recordItem ch pos s) = statActive := by
  unfold recordItem
  refine ⟨?_, ?_, readCell_writeCell_same _ _ _ _⟩
  · rw [readCell_writeCell_ne (jbOffHi_ne_jbStat ch), readCell_writeCell_ne (jbOffHi_ne_jbOffLo ch),
      readCell_writeCell_same]
  · rw [readCell_writeCell_ne (jbOffLo_ne_jbStat ch), readCell_writeCell_same]

theorem recordItem_outside (ch : Nat) (pos : Addr) (s : State) :
    CellsUnchangedOutside .pif [Config.jbOffHi ch, Config.jbOffLo ch, Config.jbStat ch] s (recordItem ch pos s) := by
  intro a ha
  simp only [List.mem_cons, List.not_mem_nil, or_false, not_or] at ha
  obtain ⟨hhi, hlo, hstat⟩ := ha
  rw [recordItem, readCell_writeCell_ne hstat, readCell_writeCell_ne hlo, readCell_writeCell_ne hhi]

theorem recordItem_unchanged (ch : Nat) (pos : Addr) (s : State) : Unchanged [.mem .pif] s (recordItem ch pos s) :=
  ((writeCell_unchanged _ _ _ s).trans' (writeCell_unchanged _ _ _ _)).trans' (writeCell_unchanged _ _ _ _)

/-- The high nibble of the address of a parse position. -/
theorem toNat_highNibble (p : Nat) : ((BitVec.ofNat 8 p).extractLsb' 4 4).toNat = p / 16 % 16 := by
  simp only [BitVec.extractLsb'_toNat, BitVec.toNat_ofNat, Nat.shiftRight_eq_div_pow]
  omega

/-- The low nibble of the address of a parse position. -/
theorem toNat_lowNibble (p : Nat) : ((BitVec.ofNat 8 p).extractLsb' 0 4).toNat = p % 16 := by
  simp only [BitVec.extractLsb'_toNat, BitVec.toNat_ofNat, Nat.shiftRight_zero]
  omega

theorem parseOpen_iff (s : State) :
    parseOpen s = true ↔ s.parse.stop = false ∧ s.parse.ch < 5 ∧ s.parse.p < 0xFE := by
  simp only [parseOpen, Bool.and_eq_true, Bool.not_eq_true', decide_eq_true_eq, and_assoc]
  rfl

/-- A frame is the item it is while the parse is open, and nothing after it (log 15). -/
theorem exec_frame (tx rx : Byte) (data recv : List Byte) (s : State) :
    exec (.frame tx rx data recv) s = .next (if parseOpen s then itemXfer tx rx s else s) := rfl

/-- Settles O31: the item by the laws of `recordItem`; a frame by whether the parse is open; `JBRX` by its count. -/
theorem transferItemRecorded : Obligations.TransferItemRecorded := by
  refine ⟨fun s tx rx => ?_, fun s tx rx data recv => ⟨fun hstop hch hp => ?_, fun h => ?_⟩, fun s rx => ?_⟩
  · obtain ⟨hhi, hlo, hstat⟩ := recordItem_cells s.parse.ch (BitVec.ofNat 8 s.parse.p) s
    refine ⟨_, congrArg Host.Outcome.next (itemXfer_eq tx rx s), ?_, ?_, ?_, fun a ha => ?_, ?_, ?_⟩
    · rw [readCell_parse, hhi, toNat_highNibble]
    · rw [readCell_parse, hlo, toNat_lowNibble]
    · rw [readCell_parse, hstat]
      rfl
    · rw [readCell_parse, recordItem_outside _ _ s a ha]
    · rw [jbCount_eq_mod, jbCount_eq_mod]
    · exact (recordItem_unchanged _ _ s).trans (parse_unchanged _ _)
  · have hopen : parseOpen s = true := (parseOpen_iff s).2 ⟨hstop, hch, hp⟩
    rw [exec_frame, if_pos hopen]
    rfl
  · have hclosed : ¬parseOpen s = true := by
      rw [parseOpen_iff]
      rintro ⟨hstop, hch, hp⟩
      rcases h with h | h | h
      · simp [hstop] at h
      · omega
      · omega
    rw [exec_frame, if_neg hclosed]
  · exact ⟨_, rfl, jbCount_eq_mod rx, deliver_unchanged _ _ s⟩

/-! ## The control port of the JoyBus and the wait (30 R121, 44 R292, R294) -/

/-- A command value written to `P_JB_CTRL`. -/
theorem jbCtrl_written (v : Nibble) (s : State) : (portWrite .pif .jbCtrl v s).pifLatch.jbCtrl = v ∧
    Logged .pif [.write .jbCtrl v] s (portWrite .pif .jbCtrl v s) ∧
    Unchanged [.latch .pif .jbCtrl, .log .pif] s (portWrite .pif .jbCtrl v s) :=
  ⟨rfl, rfl, portWrite_unchanged .pif .jbCtrl v s⟩

/-- The status a turn of the wait reads, and the state after that read (44 R294). -/
def statusRead (s : State) : Nibble × State := portRead .pif .jbStatus s

/-- The error a turn of the wait reads where the status is not ready, and the state after that read (44 R294). -/
def errorRead (s : State) : Nibble × State := portRead .pif .jbError (statusRead s).2

/-- A wait that is over: its result delivered, the registers at any value. -/
def waitOver (v : Byte) (s : State) : State := settle .pif false (deliver .pif v s)

theorem exec_jbWaitReady_ready {s : State} (h : jbReady (statusRead s).1 = true) :
    exec .jbWaitReady s = .next (waitOver waitOk (statusRead s).2) :=
  if_pos h

theorem exec_jbWaitReady_not_ready {s : State} (h : ¬jbReady (statusRead s).1 = true) :
    exec .jbWaitReady s = if jbFailed (errorRead s).1 then .next (waitOver waitError (errorRead s).2)
      else .next (push .pif [.op .jbWaitReady] (errorRead s).2) :=
  if_neg h

theorem statusRead_log (s : State) :
    (statusRead s).2.pif.log = .read .jbStatus (statusRead s).1 :: s.pif.log := portRead_log .pif .jbStatus s

theorem errorRead_log (s : State) : (errorRead s).2.pif.log =
    .read .jbError (errorRead s).1 :: .read .jbStatus (statusRead s).1 :: s.pif.log := by
  rw [← statusRead_log]
  exact portRead_log .pif .jbError (statusRead s).2

theorem errorRead_unchanged (s : State) : Unchanged (.log .pif :: portSupply) s (errorRead s).2 :=
  (portRead_unchanged .pif .jbStatus s).trans' (portRead_unchanged .pif .jbError _)

/-- All that a wait that is over changes besides what it read. -/
theorem waitOver_unchanged (v : Byte) {s t : State} (h : Unchanged (.log .pif :: portSupply) s t) :
    Unchanged (.ret .pif :: .log .pif :: .carry .pif :: (scratchRegisters .pif ++ portSupply)) s (waitOver v t) :=
  ((h.trans (deliver_unchanged .pif v t)).trans (settle_unchanged_carry .pif false _)).mono (by decide)

/-- Settles O35: the command values by `jbCtrl_written`, the wait by the laws of its two reads. -/
theorem joybusControlAndWait : Obligations.JoybusControlAndWait := by
  refine ⟨?_, fun s => ?_, fun s => ?_, fun s hready => ?_, fun s hready => ?_⟩
  · intro i v hi s
    simp only [List.mem_cons, Prod.mk.injEq, List.not_mem_nil, or_false] at hi
    rcases hi with ⟨rfl, rfl⟩ | ⟨rfl, rfl⟩ | ⟨rfl, rfl⟩ | ⟨rfl, rfl⟩ | ⟨rfl, rfl⟩ <;>
      exact ⟨_, rfl, jbCtrl_written _ s⟩
  · exact ⟨_, rfl, rfl, rfl, rfl,
      (portWrite_unchanged .pif .jbCtrl jbcReset s).trans (push_unchanged .pif _ _)⟩
  · exact ⟨_, rfl, rfl, rfl,
      (portWrite_unchanged .pif .jbCtrl jbcIdle s).trans (settle_unchanged_carry .pif false _)⟩
  · exact ⟨_, exec_jbWaitReady_ready hready, rfl, statusRead_log s,
      waitOver_unchanged _ (portRead_unchanged .pif .jbStatus s)⟩
  · have hexec := exec_jbWaitReady_not_ready (ne_true_of_eq_false hready)
    by_cases hfail : jbFailed (errorRead s).1 = true
    · rw [if_pos hfail] at hexec
      exact ⟨_, _, hexec, rfl, errorRead_log s, fun _ => ⟨rfl, waitOver_unchanged _ (errorRead_unchanged s)⟩,
        fun hok => absurd hfail (ne_true_of_eq_false hok)⟩
    · rw [if_neg hfail] at hexec
      refine ⟨_, _, hexec, rfl, errorRead_log s, fun hbad => absurd hbad hfail, fun _ => ⟨?_, ?_⟩⟩
      · have hcont : (errorRead s).2.pif.cont = s.pif.cont := errorRead_unchanged s (.position .pif) (by decide)
        exact congrArg ([.op .jbWaitReady] ++ ·) hcont
      · exact ((errorRead_unchanged s).trans (push_unchanged .pif _ _)).mono (by decide)

/-! ## The selector of the CIC (30 R114, 45 R340 to R349) -/

/-- Any number of rounds at a window writes cells of the window's engine alone. -/
theorem comparePasses_unchanged (n : Nat) (w : Who) (a : Addr) (s : State) :
    Unchanged [.mem w] s (passes n (comparePass w a) s) :=
  passes_invariant (fun _ h => h.trans' (writeCells_unchanged w a _ _)) n (Unchanged.refl _ s)

/-- The end of the rounds and the first index change no more than the CIC's registers and position besides. -/
theorem cicCompareIndex_unchanged (i : Nibble) (ok : Bool) {s t : State} (h : Unchanged [.mem .cic] s t) :
    Unchanged (.mem .cic :: .position .cic :: .carry .cic :: scratchRegisters .cic) s
      (cicCompareIndex i ok (settle .cic false t)) :=
  ((h.trans (settle_unchanged_carry .cic false t)).trans (push_unchanged .cic _ _)).mono (by decide)

/-- `CIC.Compare` comes to its control state, and changes besides what rounds and a first index change. -/
theorem exec_cicCompare_enters (s : State) : ∃ t, exec .cicCompare s = .next t ∧ t.cicPc = .compare ∧
    Unchanged (.cicPc :: .mem .cic :: .position .cic :: .carry .cic :: scratchRegisters .cic) s t := by
  have hrounds (u : State) := (comparePasses_unchanged 3 .cic Config.cmp0 u).trans'
    (comparePasses_unchanged 3 .cic Config.cmp1 _)
  have hindex (u : State) (i : Nibble) := cicCompareIndex_unchanged i true (hrounds u)
  exact ⟨_, rfl, hindex { s with cicPc := .compare } _ .cicPc (by decide),
    (cicPc_unchanged s .compare).trans (hindex _ _)⟩

/-- Settles O46: the loop and the selectors by their pushes, each operation by what it enters, the reserved pair by
`cicDie`. -/
theorem cicSelectorChooses : Obligations.CicSelectorChooses := by
  refine ⟨⟨rfl, rfl, rfl, rfl⟩, fun _ => continues_of_push rfl, fun _ hc hpc => ?_, fun _ => continues_of_push rfl,
    fun _ _ => continues_of_push rfl, ?_, ?_, fun s => ?_⟩
  · exact engineStep_cic_entry hc (by rw [hpc]; rfl)
  · intro i ts hi s
    simp only [List.mem_cons, Prod.mk.injEq, List.not_mem_nil, or_false] at hi
    rcases hi with ⟨rfl, rfl⟩ | ⟨rfl, rfl⟩ | ⟨rfl, rfl⟩ <;> exact continues_of_push rfl
  · intro i pc hi s
    simp only [List.mem_cons, Prod.mk.injEq, List.not_mem_nil, or_false] at hi
    rcases hi with ⟨rfl, rfl⟩ | ⟨rfl, rfl⟩ | ⟨rfl, rfl⟩
    · exact exec_cicCompare_enters s
    · exact ⟨_, rfl, rfl, ((cicPc_unchanged s .challenge).trans (push_unchanged .cic _ _)).mono (by decide)⟩
    · exact ⟨_, rfl, rfl, ((cicPc_unchanged s .reset).trans (push_unchanged .cic _ _)).mono (by decide)⟩
  · exact ⟨_, rfl, rfl, cicDie_unchanged s, engineStep_cic_dead rfl⟩

end Sys2Proof.Machine
end

