-- ==== Sys2Proof/Proofs/Primitives.lean ====
section
/-! The primitives of the memory and register model (40 R140 to R155) and the timers (60 R390, R391): what each returns as
a number, which cells it stores, and the counting of a pair and of a chain of two pairs. -/

namespace Sys2Proof.Machine

/-! ## Returned values as numbers (40 R140, R143, R151 to R154) -/

/-- A nibble is returned as itself (log 7). -/
theorem toNat_nibble_setWidth (x : Nibble) : (x.setWidth 8).toNat = x.toNat :=
  BitVec.toNat_setWidth_of_le (by decide)

theorem toNat_bitByte (b : Bool) : (bitByte b).toNat = b.toNat := by cases b <;> rfl

theorem toNat_bitByte_bitOf (x : Nibble) (i : Nat) : (bitByte (bitOf x i)).toNat = x.toNat / 2 ^ i % 2 :=
  (toNat_bitByte _).trans (Nat.toNat_testBit x.toNat i)

theorem toNat_add4 (x y : Nibble) : (add4 x y).toNat = (x.toNat + y.toNat) % 16 := BitVec.toNat_add x y

theorem toNat_com4 (x : Nibble) : (com4 x).toNat = 15 - x.toNat := BitVec.toNat_not

theorem toNat_sub4 (x y : Nibble) : ((sub4 x y).toNat : Int) = ((x.toNat : Int) - y.toNat) % 16 := by
  have hx := x.isLt
  have hy := y.isLt
  rw [sub4, BitVec.toNat_sub]
  omega

/-- Value and carry of `adc4` are the low four bits and the fifth bit of one sum (40 R152). -/
theorem adcCarry_adcValue (x y : Nibble) (c : Bool) :
    16 * (adcCarry x y c).toNat + (adcValue x y c).toNat = x.toNat + y.toNat + c.toNat := by
  have hx := x.isLt
  have hy := y.isLt
  have hc := c.toNat_lt
  have hvalue : (adcValue x y c).toNat = adcSum x y c % 16 := BitVec.toNat_ofNat _ 4
  rw [hvalue, adcCarry, adcSum]
  by_cases h : 16 ≤ x.toNat + y.toNat + c.toNat
  · rw [decide_eq_true h, Bool.toNat_true]
    omega
  · rw [decide_eq_false h, Bool.toNat_false]
    omega

/-- Settles O5: each answer is one `deliver`, after a `setC` for `adc4`, and the value is that of its rule. -/
theorem valuePrimitives : Obligations.ValuePrimitives := by
  intro s a b x y
  refine ⟨⟨_, rfl, ?_, deliver_unchanged _ _ s⟩, ⟨_, rfl, ?_, deliver_unchanged _ _ s⟩,
    ⟨_, rfl, ?_, deliver_unchanged _ _ s⟩, ⟨_, rfl, ?_, deliver_unchanged _ _ s⟩,
    ⟨_, rfl, ?_, deliver_unchanged _ _ s⟩, ⟨_, rfl, ?_, ?_, ?_⟩⟩
  · rw [deliver_ret, toNat_nibble_setWidth]
  · rw [deliver_ret, testBit, toNat_bitByte_bitOf]
  · rw [deliver_ret, toNat_nibble_setWidth, toNat_add4]
  · rw [deliver_ret, toNat_nibble_setWidth, toNat_com4]
  · rw [deliver_ret, toNat_nibble_setWidth, toNat_sub4]
  · rw [deliver_ret, deliver_C, setC_C, toNat_nibble_setWidth, adcCarry_adcValue]
  · rw [deliver_ret, toNat_nibble_setWidth]
    exact BitVec.isLt _
  · exact ((setC_unchanged _ _ s).trans (deliver_unchanged _ _ _)).mono (by simp)

/-! ## One cell stored (40 R141, R144, R145) -/

theorem bitOf_bitMask (b : BitVec 2) (i : Nat) : bitOf (bitMask b) i = decide (b.toNat = i) := by
  have hb : b.toNat < 4 := b.isLt
  have hmask : bitMask b = BitVec.twoPow 4 b.toNat := (BitVec.twoPow_eq 4 b.toNat).symm
  rw [hmask, bitOf, BitVec.getLsbD_twoPow, decide_eq_true hb, Bool.true_and]

theorem cellBit_setBit (w : Who) (a : Addr) (b : BitVec 2) (i : Nat) (s : State) :
    cellBit w a i (setBit w a b s) = if i = b.toNat then true else cellBit w a i s := by
  have hmask := bitOf_bitMask b i
  rw [cellBit, setBit, readCell_writeCell_same]
  simp only [bitOf, cellBit, BitVec.getLsbD_or] at hmask ⊢
  rw [hmask]
  by_cases h : i = b.toNat <;> simp [h, eq_comm]

theorem cellBit_resetBit {i : Nat} (hi : i < 4) (w : Who) (a : Addr) (b : BitVec 2) (s : State) :
    cellBit w a i (resetBit w a b s) = if i = b.toNat then false else cellBit w a i s := by
  have hmask := bitOf_bitMask b i
  rw [cellBit, resetBit, readCell_writeCell_same]
  simp only [bitOf, cellBit, BitVec.getLsbD_and, BitVec.getLsbD_not] at hmask ⊢
  rw [hmask]
  by_cases h : i = b.toNat <;> simp [h, hi, eq_comm]

/-- Settles O6: each of the three is one `writeCell`. -/
theorem cellWritesStoreOneCell : Obligations.CellWritesStoreOneCell := fun s a b v =>
  ⟨⟨_, rfl, readCell_writeCell_same _ a v s, writeCell_outside _ a v s, writeCell_unchanged _ a v s⟩,
    ⟨_, rfl, fun i _ => cellBit_setBit _ a b i s, writeCell_outside _ a _ s, writeCell_unchanged _ a _ s⟩,
    ⟨_, rfl, fun _ hi => cellBit_resetBit hi _ a b s, writeCell_outside _ a _ s, writeCell_unchanged _ a _ s⟩⟩

/-! ## The pointers (40 R146 to R148, R150) -/

/-- A second exchange restores the state whole (40 R146). -/
theorem swapPointers_swapPointers (w : Who) (s : State) : swapPointers w (swapPointers w s) = s := by cases w <;> rfl

theorem exec_swap (s : State) : exec .swap s = .next (swapPointers s.active s) := rfl

theorem exec_swap_twice (s : State) : exec .swap (swapPointers s.active s) = .next s := by
  rw [exec_swap, swapPointers_active, swapPointers_swapPointers]

theorem toAddr_pointerOf (a : Addr) : (pointerOf a).toAddr = a :=
  BitVec.extractLsb'_append_extractLsb'_eq_extractLsb' (by rfl) |>.trans BitVec.extractLsb'_eq_self

theorem toNat_toAddr_incFull (p : Pointer) : p.incFull.toAddr.toNat = (p.toAddr.toNat + 1) % 256 := by
  rw [Pointer.incFull, toAddr_pointerOf]
  exact BitVec.toNat_add p.toAddr 1

theorem toNat_incPage_lo (p : Pointer) : p.incPage.lo.toNat = (p.lo.toNat + 1) % 16 := BitVec.toNat_add p.lo 1

/-- Settles O7: an exchange that undoes itself, and three writes of `B`. -/
theorem pointerOperations : Obligations.PointerOperations := by
  intro s a
  refine ⟨⟨_, s, exec_swap s, swapPointers_B _ s, swapPointers_SB _ s, swapPointers_unchanged _ s, exec_swap_twice s,
    Unchanged.refl [] s⟩, ⟨_, rfl, ?_, ?_, setB_unchanged _ _ s⟩, ⟨_, rfl, ?_, setB_unchanged _ _ s⟩,
    ⟨_, rfl, ?_, setB_unchanged _ _ s⟩⟩
  · rw [setB_B, Pointer.incPage]
  · rw [setB_B, toNat_incPage_lo]
  · rw [setB_B, toNat_toAddr_incFull]
  · rw [setB_B, toAddr_pointerOf]

/-! ## Cells outside those stored to -/

theorem CellsUnchangedOutside.trans {w : Who} {l m : List Addr} {s t u : State} (h : CellsUnchangedOutside w l s t)
    (k : CellsUnchangedOutside w m t u) : CellsUnchangedOutside w (l ++ m) s u := fun a ha =>
  (k a fun hm => ha (List.mem_append_right l hm)).trans (h a fun hl => ha (List.mem_append_left m hl))

theorem CellsUnchangedOutside.mono {w : Who} {l m : List Addr} {s t : State} (h : CellsUnchangedOutside w l s t)
    (hm : l ⊆ m) : CellsUnchangedOutside w m s t := fun a ha => h a fun hl => ha (hm hl)

theorem CellsUnchangedOutside.deliver {w : Who} {l : List Addr} {s t : State} (h : CellsUnchangedOutside w l s t)
    (v : Who) (x : Byte) : CellsUnchangedOutside w l s (deliver v x t) := fun a ha =>
  (readCell_deliver w a v x t).trans (h a ha)

theorem writeByte_outside (w : Who) (a : Addr) (v : Byte) (s : State) :
    CellsUnchangedOutside w [a, a + 1] s (writeByte w a v s) :=
  (writeCell_outside w a _ s).trans (writeCell_outside w (a + 1) _ _)

theorem readByte_of_outside {w : Who} {l : List Addr} {s t : State} (h : CellsUnchangedOutside w l s t) {a : Addr}
    (ha : a ∉ l) (ha' : a + 1 ∉ l) : readByte w a t = readByte w a s := by
  rw [readByte, readByte, h a ha, h (a + 1) ha']

@[simp] theorem readByte_deliver (v w : Who) (a : Addr) (x : Byte) (s : State) :
    readByte v a (deliver w x s) = readByte v a s := by
  simp only [readByte, readCell_deliver]

/-! ## Counting a pair (40 R155) -/

theorem toNat_byte_succ (v : Byte) : (v + 1).toNat = (v.toNat + 1) % 256 := BitVec.toNat_add v 1

theorem byte_eq_0xFF_iff (v : Byte) : v = 0xFF ↔ v.toNat = 255 := BitVec.toNat_inj.symm

/-- The value an operation returns for a condition it has told. -/
theorem bitByte_eq_ite {b : Bool} {p : Prop} [Decidable p] (h : b = true ↔ p) : bitByte b = if p then 1 else 0 :=
  if_congr h rfl rfl

/-! ## A chain of two pairs (10 R42, 60 R390, R391) -/

/-- The number a chain of two pairs at `a` holds, its low pair first (10 R42). -/
def chainValue (w : Who) (a : Addr) (s : State) : Nat :=
  256 * (readByte w (a + 2) s).toNat + (readByte w a s).toNat

theorem timerValue_eq_chainValue (T : Timer) (s : State) : timerValue T s = chainValue .pif (timerBase T) s := rfl

@[simp] theorem chainValue_deliver (v w : Who) (a : Addr) (x : Byte) (s : State) :
    chainValue v a (deliver w x s) = chainValue v a s := by
  simp only [chainValue, readByte_deliver]

/-- The four cells of a chain are those of its two pairs. -/
theorem cellsFrom_four (a : Addr) : cellsFrom a 4 = [a, a + 1] ++ [a + 2, a + 2 + 1] := by
  simp [cellsFrom, cellAt, List.range_succ, BitVec.add_assoc]

/-- The low pair stored leaves the high pair. -/
theorem readByte_high_of_low_outside {w : Who} {a : Addr} {s t : State}
    (h : CellsUnchangedOutside w [a, a + 1] s t) : readByte w (a + 2) t = readByte w (a + 2) s :=
  readByte_of_outside h (by simp) (by simp [BitVec.add_assoc])

/-- The high pair stored leaves the low pair. -/
theorem readByte_low_of_high_outside {w : Who} {a : Addr} {s t : State}
    (h : CellsUnchangedOutside w [a + 2, a + 2 + 1] s t) : readByte w a t = readByte w a s :=
  readByte_of_outside h (by simp [BitVec.add_assoc]) (by simp [BitVec.add_assoc])

theorem tickChain_of_full {w : Who} {a : Addr} {s : State} (h : readByte w a s = 0xFF) :
    tickChain w a s = incByte w (a + 2) (incByte w a s).2 := if_pos ((incByte_spec w a s).2.1.2 h)

theorem tickChain_of_not_full {w : Who} {a : Addr} {s : State} (h : readByte w a s ≠ 0xFF) :
    tickChain w a s = (false, (incByte w a s).2) := if_neg (mt (incByte_spec w a s).2.1.1 h)

/-- One count of a chain: the number steps modulo 65536, the overflow is told, the four cells alone are stored to. With
the low pair full both pairs count, else the low pair alone (60 R391). -/
theorem tickChain_spec (w : Who) (a : Addr) (s : State) :
    chainValue w a (tickChain w a s).2 = (chainValue w a s + 1) % 65536 ∧
    ((tickChain w a s).1 = true ↔ chainValue w a s = 65535) ∧
    CellsUnchangedOutside w (cellsFrom a 4) s (tickChain w a s).2 := by
  obtain ⟨hlow, -, -, hlowOut⟩ := incByte_spec w a s
  obtain ⟨hhigh, hover, -, hhighOut⟩ := incByte_spec w (a + 2) (incByte w a s).2
  rw [readByte_high_of_low_outside hlowOut] at hhigh hover
  have hlowLt := (readByte w a s).isLt
  have hhighLt := (readByte w (a + 2) s).isLt
  rw [byte_eq_0xFF_iff] at hover
  by_cases hfull : readByte w a s = 0xFF
  · rw [tickChain_of_full hfull, cellsFrom_four]
    rw [byte_eq_0xFF_iff] at hfull
    refine ⟨?_, ?_, hlowOut.trans hhighOut⟩
    · rw [chainValue, hhigh, readByte_low_of_high_outside hhighOut, hlow, toNat_byte_succ, toNat_byte_succ, chainValue]
      omega
    · rw [hover, chainValue]
      omega
  · rw [tickChain_of_not_full hfull, cellsFrom_four]
    rw [byte_eq_0xFF_iff] at hfull
    refine ⟨?_, ?_, hlowOut.mono (List.subset_append_left _ _)⟩
    · rw [chainValue, readByte_high_of_low_outside hlowOut, hlow, toNat_byte_succ, chainValue]
      omega
    · rw [chainValue]
      simp only [Bool.false_eq_true, false_iff]
      omega

theorem tickTimer_value (T : Timer) (s : State) :
    timerValue T (tickTimer T s).2 = (timerValue T s + 1) % 65536 := (tickChain_spec .pif (timerBase T) s).1

theorem tickTimer_overflow (T : Timer) (s : State) : (tickTimer T s).1 = true ↔ timerValue T s = 65535 :=
  (tickChain_spec .pif (timerBase T) s).2.1

theorem tickTimer_outside (T : Timer) (s : State) :
    CellsUnchangedOutside .pif (cellsFrom (timerBase T) 4) s (tickTimer T s).2 :=
  (tickChain_spec .pif (timerBase T) s).2.2

theorem timerValue_initTimer (T : Timer) (v : Word16) (s : State) : timerValue T (initTimer T v s) = v.toNat := by
  have hv := v.isLt
  rw [timerValue, initTimer, readByte_writeByte, readByte_low_of_high_outside (writeByte_outside _ _ _ _),
    readByte_writeByte, BitVec.extractLsb'_toNat, BitVec.extractLsb'_toNat, Nat.shiftRight_eq_div_pow]
  omega

theorem initTimer_outside (T : Timer) (v : Word16) (s : State) :
    CellsUnchangedOutside .pif (cellsFrom (timerBase T) 4) s (initTimer T v s) := by
  rw [cellsFrom_four]
  exact (writeByte_outside _ _ _ s).trans (writeByte_outside _ _ _ _)

theorem initTimer_unchanged (T : Timer) (v : Word16) (s : State) : Unchanged [.mem .pif] s (initTimer T v s) :=
  (writeByte_unchanged _ _ _ s).trans' (writeByte_unchanged _ _ _ _)

/-- Ticks before the overflow count one each. -/
theorem timerValue_iterate_tickTimer (T : Timer) (s : State) {n : Nat} (h : timerValue T s + n < 65536) :
    timerValue T ((fun u => (tickTimer T u).2)^[n] s) = timerValue T s + n := by
  induction n with
  | zero => rfl
  | succ n ih =>
    rw [Function.iterate_succ_apply', tickTimer_value, ih (by omega)]
    exact Nat.mod_eq_of_lt h

/-- Settles O8: `inc8` by what counting a pair does, a timer by its chain, the run of ticks by induction on their
number. -/
theorem counters : Obligations.Counters := by
  refine ⟨fun s a => ?_, fun s T v => ?_, fun s T => ?_, fun s T n h => ?_⟩
  · obtain ⟨hvalue, hover, hframe, hout⟩ := incByte_spec s.active a s
    refine ⟨_, rfl, ?_, ?_, hout.deliver _ _, hframe.trans (deliver_unchanged _ _ _)⟩
    · rw [readByte_deliver, hvalue, toNat_byte_succ]
    · rw [deliver_ret, bitByte_eq_ite hover]
  · exact ⟨_, rfl, timerValue_initTimer T v s, initTimer_outside T v s, initTimer_unchanged T v s⟩
  · refine ⟨_, rfl, ?_, ?_, (tickTimer_outside T s).deliver _ _,
      (tickChain_unchanged .pif (timerBase T) s).trans (deliver_unchanged _ _ _)⟩
    · rw [timerValue_eq_chainValue, chainValue_deliver]
      exact tickTimer_value T s
    · exact (deliver_ret .pif _ _).trans (bitByte_eq_ite (tickTimer_overflow T s))
  · have hcount := timerValue_iterate_tickTimer T s h
    exact ⟨hcount, by rw [tickTimer_overflow, hcount]⟩

end Sys2Proof.Machine
end

section
/-! Port writes and reads, and the link primitives of one bit in a single-engine model (41 R170 to R181). -/

namespace Sys2Proof.Machine

/-! ## Events one after another -/

theorem Logged.trans {w : Who} {es fs : List Event} {s t u : State} (h : Logged w es s t) (k : Logged w fs t u) :
    Logged w (es ++ fs) s u := by
  rw [Logged] at h k ⊢
  rw [k, h, List.reverse_append, List.append_assoc]

/-- Where the log is not among what has changed, no event was added. -/
theorem Unchanged.logged_nil {l : List Field} {s t : State} (h : Unchanged l s t) {w : Who} (hw : Field.log w ∉ l) :
    Logged w [] s t := h (.log w) hw

/-! ## Port writes and reads (41 R170, R171) -/

theorem portWrite_logged (w : Who) (p : Port) (x : Nibble) (s : State) :
    Logged w [.write p x] s (portWrite w p x s) := portWrite_log w p x s

theorem portRead_logged (w : Who) (p : Port) (s : State) :
    Logged w [.read p (portRead w p s).1] s (portRead w p s).2 := portRead_log w p s

/-- Settles O9: a port operation is one `portWrite`. -/
theorem portWriteLatchesAndLogs : Obligations.PortWriteLatchesAndLogs := fun s p v =>
  ⟨_, rfl, latchOf_portWrite_same _ p v s, portWrite_logged _ p v s, portWrite_unchanged _ p v s⟩

/-- The value of a status read with kind `k` due, of which the host supplies `x` (60 R400; log 26). -/
def kindValue (x : Nibble) (k : XKind) : Nibble := (x &&& 0xC) ||| xkindBits k

theorem decodeXkind_kindValue (x : Nibble) (k : XKind) : decodeXkind (kindValue x k) = k := by
  revert x; cases k <;> decide

theorem bitOf_kindValue_high (x : Nibble) (k : XKind) :
    bitOf (kindValue x k) 2 = bitOf x 2 ∧ bitOf (kindValue x k) 3 = bitOf x 3 := by
  revert x; cases k <;> decide

/-- The first read of the status after a request has its kind in the low bits, and the kind is no longer due. -/
theorem suppliedValue_kind {k : XKind} {s : State} (h : s.kindDue = some k) (w : Who) :
    suppliedValue w .jbStatus s =
      (kindValue (hostValue .jbStatus s).1 k, { (hostValue .jbStatus s).2 with kindDue := none }) := by
  simp [suppliedValue, h, kindValue]

/-- Every other read that is not a paired one of the link is answered by the host alone. -/
theorem suppliedValue_host {p : Port} {s : State} (hlink : p = .cic → s.cfg.paired = false)
    (hkind : ¬(p = .jbStatus ∧ s.kindDue ≠ none)) (w : Who) : suppliedValue w p s = hostValue p s := by
  have hpaired : ¬(p = .cic ∧ s.cfg.paired = true) := fun h => by simp [hlink h.1] at h
  have hdue : (if p = .jbStatus then s.kindDue else none) = none := by
    split
    · next hp => exact not_not.1 fun hk => hkind ⟨hp, hk⟩
    · rfl
  simp only [suppliedValue, if_neg hpaired, hdue]

/-- What a read uses up of what is laid ready is what the host's value uses up. -/
theorem suppliedValue_supply {p : Port} {s : State} (hlink : p = .cic → s.cfg.paired = false) (w : Who) :
    (suppliedValue w p s).2.supply = (hostValue p s).2.supply ∧
      (suppliedValue w p s).2.draws = (hostValue p s).2.draws := by
  by_cases hk : p = .jbStatus ∧ s.kindDue ≠ none
  · obtain ⟨rfl, hdue⟩ := hk
    obtain ⟨k, hdue⟩ := Option.ne_none_iff_exists'.1 hdue
    rw [suppliedValue_kind hdue]
    exact ⟨rfl, rfl⟩
  · rw [suppliedValue_host hlink hk]
    exact ⟨rfl, rfl⟩

/-- The value read where the host has laid `x` ready first (60 R400). -/
theorem portRead_laid {p : Port} {before after : List (Port × Nibble)} {x : Nibble} {s : State}
    (hlink : p = .cic → s.cfg.paired = false) (hs : s.supply = before ++ (p, x) :: after)
    (hb : ∀ c ∈ before, c.1 ≠ p) (w : Who) :
    (portRead w p s).2.supply = before ++ after ∧ (portRead w p s).2.draws = s.draws ∧
    (if p = .jbStatus ∧ s.kindDue ≠ none then
      bitOf (portRead w p s).1 2 = bitOf x 2 ∧ bitOf (portRead w p s).1 3 = bitOf x 3
      else (portRead w p s).1 = x ∧ (portRead w p s).2.kindDue = s.kindDue) := by
  have hhost := hostValue_laid hs hb
  obtain ⟨hsupply, hdraws⟩ := suppliedValue_supply hlink w
  simp only [portRead, logEvent_supply, logEvent_draws, logEvent_kindDue]
  refine ⟨by rw [hsupply, hhost], by rw [hdraws, hhost], ?_⟩
  split
  · next hk =>
    obtain ⟨rfl, hdue⟩ := hk
    obtain ⟨k, hdue⟩ := Option.ne_none_iff_exists'.1 hdue
    rw [suppliedValue_kind hdue, hhost]
    exact bitOf_kindValue_high x k
  · next hk =>
    rw [suppliedValue_host hlink hk, hhost]
    exact ⟨rfl, rfl⟩

/-- A read of the status with a kind due tells the kind, which is no longer due (60 R400). -/
theorem portRead_kind {k : XKind} {s : State} (h : s.kindDue = some k) (w : Who) :
    decodeXkind (portRead w .jbStatus s).1 = k ∧ (portRead w .jbStatus s).2.kindDue = none := by
  have hvalue := suppliedValue_kind h w
  constructor
  · rw [portRead, hvalue]
    exact decodeXkind_kindValue _ k
  · rw [portRead, logEvent_kindDue, hvalue]

/-- With nothing laid ready for the port the queue stays. -/
theorem portRead_keeps_supply {p : Port} {s : State} (h : ∀ c ∈ s.supply, c.1 ≠ p) (w : Who) :
    (portRead w p s).2.supply = s.supply := by
  by_cases hlink : p = .cic ∧ s.cfg.paired = true
  · obtain ⟨rfl, hpaired⟩ := hlink
    rw [portRead_paired w s hpaired, logEvent_supply]
  · obtain ⟨hsupply, -⟩ := suppliedValue_supply (fun hp => Bool.eq_false_iff.2 fun e => hlink ⟨hp, e⟩) w
    rw [portRead, logEvent_supply, hsupply, hostValue_free h]

/-- Settles O10: the operation is one `portRead` and one `deliver`, so that each clause is what `portRead` supplies. -/
theorem portReadSuppliesAndLogs : Obligations.PortReadSuppliesAndLogs := by
  intro s p
  refine ⟨_, (portRead s.active p s).1, rfl, deliver_ret _ _ _, ?_, ?_, ?_, ?_, ?_, ?_⟩
  · exact (deliver_log _ _ _ _).trans (portRead_logged _ p s)
  · exact ((portRead_unchanged _ p s).trans (deliver_unchanged _ _ _)).mono (by simp +contextual [or_imp])
  · rintro rfl hpaired
    rw [portRead_paired _ s hpaired]
    exact ⟨rfl, ((logEvent_unchanged _ _ s).trans (deliver_unchanged _ _ _)).mono (by simp)⟩
  · rintro k rfl hdue
    rw [deliver_kindDue]
    exact portRead_kind hdue _
  · intro before after x hlink hs hb
    rw [deliver_supply, deliver_draws, deliver_kindDue]
    exact portRead_laid hlink hs hb _
  · intro h
    rw [deliver_supply]
    exact portRead_keeps_supply h _

/-! ## The link of a single-engine model (41 R177, R181) -/

@[simp] theorem Latches.set_cic (l : Latches) (x : Nibble) : (l.set .cic x).cic = x := rfl

/-- The link released is the latch at 0 (41 R174). -/
theorem linkOut_released : linkOut false false = 0 := rfl

/-- A turn of the acknowledgment loop is one look, and the release where it shows the peer's clock. -/
theorem ackTurn_alone {s : State} (h : s.cfg.paired = false) (w : Who) :
    ackTurn w s = if peerClk (portRead w .cic s).1 = true then portWrite w .cic 0 (portRead w .cic s).2
      else push w [.pos .ackWait] (portRead w .cic s).2 := by
  simp [ackTurn, h, linkOut_released]

/-- The sample of a bit after the probe of it. -/
def probedRead (w : Who) (s : State) : Nibble × State := portRead w .cic (portWrite w .cic (linkOut true false) s)

theorem readBitTurn_alone {s : State} (h : s.cfg.paired = false) (w : Who) :
    readBitTurn w s = deliver w (bitByte (bitOf (probedRead w s).1 0))
      (setC w (bitOf (probedRead w s).1 0) (portWrite w .cic 0 (probedRead w s).2)) := by
  simp [readBitTurn, h, linkOut_released, probedRead, peerData]

theorem probedRead_logged (w : Who) (s : State) :
    Logged w [.write .cic (linkOut true false), .read .cic (probedRead w s).1] s (probedRead w s).2 :=
  (portWrite_logged w .cic _ s).trans (portRead_logged w .cic _)

theorem probedRead_unchanged (w : Who) (s : State) :
    Unchanged (.latch w .cic :: .log w :: portSupply) s (probedRead w s).2 :=
  ((portWrite_unchanged w .cic _ s).trans (portRead_unchanged w .cic _)).mono (by simp +contextual)

/-- Settles O11: assertion, one turn of the loop by whether it sees the peer's clock, and the whole of `ReadBit`. -/
theorem linkPrimitivesAlone : Obligations.LinkPrimitivesAlone := by
  refine ⟨fun s v => ?_, fun s h => ?_, fun s h => ?_⟩
  · refine ⟨_, rfl, ?_, ?_, ?_, ?_⟩
    · simp [startWriteBit]
    · exact (push_log _ _ _ _).trans (portWrite_logged _ _ _ s)
    · simp [Continues, startWriteBit]
    · exact ((portWrite_unchanged _ _ _ s).trans (push_unchanged _ _ _)).mono (by simp)
  · refine ⟨_, congrArg Host.Outcome.next (ackTurn_alone h s.active), ?_⟩
    have hlook := portRead_logged s.active .cic s
    have hframe := portRead_unchanged s.active .cic s
    cases hclk : peerClk (portRead s.active .cic s).1 with
    | true =>
      rw [if_pos rfl]
      refine .inl ⟨rfl, by simp, hlook.trans (portWrite_logged _ _ _ _), ?_⟩
      exact (hframe.trans (portWrite_unchanged _ _ _ _)).mono (by simp +contextual [or_imp])
    | false =>
      rw [if_neg Bool.false_ne_true]
      refine .inr ⟨rfl, (push_log _ _ _ _).trans hlook, ?_, ?_⟩
      · rw [Continues, push_cont, cont_portRead]
      · exact (hframe.trans (push_unchanged _ _ _)).mono (by simp +contextual [or_imp])
  · refine ⟨_, (probedRead s.active s).1, congrArg Host.Outcome.next (readBitTurn_alone h s.active), ?_, ?_, ?_, ?_,
      deliver_ret _ _ _, ?_⟩
    · intro before after x hs hb
      obtain ⟨hsupply, -, hvalue⟩ := portRead_laid (s := portWrite s.active .cic (linkOut true false) s) (p := .cic)
        (fun _ => by simp [h]) (by simpa using hs) hb s.active
      exact ⟨hvalue.1, by simpa [probedRead] using hsupply⟩
    · simp
    · rw [Logged, deliver_log, setC_log]
      exact (probedRead_logged s.active s).trans (portWrite_logged _ .cic 0 _)
    · simp
    · exact (((probedRead_unchanged _ s).trans (portWrite_unchanged _ _ _ _)).trans
        ((setC_unchanged _ _ _).trans (deliver_unchanged _ _ _))).mono (by simp +contextual [or_imp])

end Sys2Proof.Machine
end

section
/-! The link of a paired model: how an engine's step takes its next task, the joint transition of one bit, and where an
engine is held or goes on alone (41 R176 to R181). -/

namespace Sys2Proof.Machine

/-! ## The turn, and the next task of an engine that can step -/

/-- The state in which it is the turn of engine `e`. -/
def turnTo (e : Who) (s : State) : State := { s with active := e }

@[simp] theorem turnTo_active (e : Who) (s : State) : (turnTo e s).active = e := rfl

@[simp] theorem turnTo_cfg (e : Who) (s : State) : (turnTo e s).cfg = s.cfg := rfl

@[simp] theorem turnTo_eng (v e : Who) (s : State) : (turnTo e s).eng v = s.eng v := by cases v <;> rfl

@[simp] theorem readCell_turnTo (v : Who) (a : Addr) (e : Who) (s : State) :
    readCell v a (turnTo e s) = readCell v a s := by rw [readCell, turnTo_eng, readCell]

theorem turnTo_unchanged (e : Who) (s : State) : Unchanged [.active] s (turnTo e s) := by
  intro f hf
  cases f with
  | active => simp at hf
  | mem w => exact fun a => readCell_turnTo w a e s
  | latch w q => exact latchOf_congr w q (by rw [turnTo_eng]) rfl
  | regA w | regX w | ptrB w | ptrSB w | carry w | log w | position w | ret w => rw [Field.same, turnTo_eng]
  | _ => rfl

/-- An engine has a step: the PIF is neither fatal nor halted, the CIC is not dead. -/
def CanStep (w : Who) (s : State) : Prop :=
  match w with
  | .pif => s.pifPc ≠ .fatal ∧ s.halted = false
  | .cic => s.cicPc ≠ .dead

theorem BothCanStep.canStep {s : State} (h : BothCanStep s) (w : Who) : CanStep w s := by
  obtain ⟨hpc, hhalt, hdead⟩ := h
  cases w with
  | pif => exact ⟨hpc, hhalt⟩
  | cic => exact hdead

theorem Who.eq_or_eq_other (e w : Who) : e = w ∨ e = w.other := by cases e <;> cases w <;> decide

/-! ## Positions -/

/-- A task put back after an event was logged. -/
theorem push_logEvent (w : Who) (ts : List Task) (e : Event) (s : State) :
    push w ts (logEvent w e s) = logEvent w e (push w ts s) := by cases w <;> rfl

theorem setCont_comm (w : Who) (ks ls : List Task) (s : State) :
    setCont w ks (setCont w.other ls s) = setCont w.other ls (setCont w ks s) := by
  cases w <;> rfl

theorem dropTask_of_cont {w : Who} {s : State} {x : Task} {ks : List Task} (h : (s.eng w).cont = x :: ks) :
    dropTask w s = setCont w ks s := by
  cases w <;> simp_all [dropTask, setCont, modEng]

theorem atReadBit_iff (w : Who) (s : State) : atReadBit w s = true ↔ (s.eng w).cont.head? = some (.op .readBit) := by
  simp [atReadBit]

theorem atAckWait_iff (w : Who) (s : State) : atAckWait w s = true ↔ (s.eng w).cont.head? = some (.pos .ackWait) := by
  simp [atAckWait]

@[simp] theorem eng_other_setCont (w : Who) (ks : List Task) (s : State) :
    (setCont w ks s).eng w.other = s.eng w.other := eng_setCont_ne w.other_ne ks s

@[simp] theorem eng_setCont_other (w : Who) (ks : List Task) (s : State) :
    (setCont w.other ks s).eng w = s.eng w := eng_setCont_ne w.ne_other ks s

/-! ## The next task of an engine that can step -/

/-- The turn of engine `w`, with the tasks `ks` still to do. -/
def turnWith (w : Who) (ks : List Task) (s : State) : State := setCont w ks (turnTo w s)

@[simp] theorem turnWith_active (w : Who) (ks : List Task) (s : State) : (turnWith w ks s).active = w := by
  simp [turnWith]

@[simp] theorem turnWith_cfg (w : Who) (ks : List Task) (s : State) : (turnWith w ks s).cfg = s.cfg := by
  simp [turnWith]

@[simp] theorem turnWith_cont (w : Who) (ks : List Task) (s : State) : ((turnWith w ks s).eng w).cont = ks := by
  simp [turnWith]

@[simp] theorem turnWith_ret (v w : Who) (ks : List Task) (s : State) :
    ((turnWith w ks s).eng v).ret = (s.eng v).ret := by
  simp [turnWith]

@[simp] theorem turnWith_C (v w : Who) (ks : List Task) (s : State) : ((turnWith w ks s).eng v).C = (s.eng v).C := by
  simp [turnWith]

@[simp] theorem turnWith_latch (v w : Who) (ks : List Task) (s : State) :
    ((turnWith w ks s).eng v).latch = (s.eng v).latch := by
  simp [turnWith]

@[simp] theorem eng_other_turnWith (w : Who) (ks : List Task) (s : State) :
    (turnWith w ks s).eng w.other = s.eng w.other := by simp [turnWith]

@[simp] theorem eng_turnWith_other (w : Who) (ks : List Task) (s : State) :
    (turnWith w.other ks s).eng w = s.eng w := by simp [turnWith]

@[simp] theorem readCell_turnWith (v : Who) (a : Addr) (w : Who) (ks : List Task) (s : State) :
    readCell v a (turnWith w ks s) = readCell v a s := by simp [turnWith]

theorem turnWith_unchanged (w : Who) (ks : List Task) (s : State) :
    Unchanged [.active, .position w] s (turnWith w ks s) :=
  (turnTo_unchanged w s).trans (setCont_unchanged w ks _)

/-- Tasks put before those left. -/
theorem push_turnWith (w : Who) (ts ks : List Task) (s : State) :
    push w ts (turnWith w ks s) = turnWith w (ts ++ ks) s := by cases w <;> rfl

/-- A turn that puts its own task back is the turn alone. -/
theorem push_turnWith_of_cont {w : Who} {s : State} {x : Task} {ks : List Task} (h : (s.eng w).cont = x :: ks) :
    push w [x] (turnWith w ks s) = turnTo w s := by
  rw [push_turnWith, List.singleton_append, ← h]
  cases w <;> rfl

/-- An engine that has a step and something left to do takes the first of it. -/
theorem engineStep_of_cont {w : Who} {s : State} {x : Task} {ks : List Task} (h : CanStep w s)
    (hc : (s.eng w).cont = x :: ks) : engineStep w s = runTask x (turnWith w ks s) := by
  apply engineStep_of_fetch
  cases w with
  | pif =>
    obtain ⟨hpc, hhalt⟩ := h
    rw [State.eng_pif] at hc
    simp [fetchTask, fetchPif, hpc, hhalt, hc, turnWith, turnTo]
  | cic =>
    have hdead : s.cicPc ≠ .dead := h
    rw [State.eng_cic] at hc
    simp [fetchTask, fetchCic, hdead, hc, turnWith, turnTo]

theorem engineStep_ackWait {w : Who} {s : State} {ks : List Task} (h : CanStep w s)
    (hc : (s.eng w).cont = .pos .ackWait :: ks) : engineStep w s = .next (ackTurn w (turnWith w ks s)) := by
  rw [engineStep_of_cont h hc, runTask, resume, turnWith_active]

theorem engineStep_readBit {w : Who} {s : State} {ks : List Task} (h : CanStep w s)
    (hc : (s.eng w).cont = .op .readBit :: ks) : engineStep w s = .next (readBitTurn w (turnWith w ks s)) := by
  rw [engineStep_of_cont h hc]
  show execReadBit _ = _
  rw [execReadBit, turnWith_active]

/-! ## A turn of a link primitive in a paired model (41 R179, R180) -/

section
variable {s : State} (h : s.cfg.paired = true) (w : Who)
include h

theorem ackTurn_exchange (hr : atReadBit w.other s = true) :
    ackTurn w s = bitExchange w w.other (dropTask w.other s) := by
  simp [ackTurn, h, hr]

theorem ackTurn_stuck (hr : ¬atReadBit w.other s = true) (ha : atAckWait w.other s = true) :
    ackTurn w s = push w [.pos .ackWait] s := by
  simp [ackTurn, h, hr, ha]

theorem ackTurn_look (hr : ¬atReadBit w.other s = true) (ha : ¬atAckWait w.other s = true)
    (hclk : peerClk (s.eng w.other).latch.cic = false) :
    ackTurn w s = push w [.pos .ackWait] (logEvent w (.read .cic (s.eng w.other).latch.cic) s) := by
  simp [ackTurn, h, hr, ha, portRead_paired w s h, hclk]

theorem readBitTurn_exchange (ha : atAckWait w.other s = true) :
    readBitTurn w s = bitExchange w.other w (dropTask w.other s) := by
  simp [readBitTurn, h, ha]

theorem readBitTurn_held (ha : ¬atAckWait w.other s = true) : readBitTurn w s = push w [.op .readBit] s := by
  simp [readBitTurn, h, ha]

end

/-! ## The exchange of one bit (41 R178) -/

@[simp] theorem peerData_linkOut (clk v : Bool) : peerData (linkOut clk v) = v := by cases clk <;> cases v <;> rfl

/-- The exchange as the updates it makes, in the order of 41 R178: probe, look of the writer, sample of the reader,
release of the reader, release of the writer, and the bit delivered. -/
theorem bitExchange_paired {s : State} {w : Who} {v : Bool} (h : s.cfg.paired = true)
    (hv : (s.eng w).latch.cic = linkOut true v) :
    bitExchange w w.other s = deliver w.other (bitByte v) (setC w.other v (portWrite w .cic 0 (portWrite w.other .cic 0
      (logEvent w.other (.read .cic (linkOut true v)) (logEvent w (.read .cic (linkOut true false))
        (portWrite w.other .cic (linkOut true false) s)))))) := by
  have hlook := portRead_paired w (portWrite w.other .cic (linkOut true false) s) (by simpa using h)
  have hsample := portRead_paired w.other (logEvent w (.read .cic (linkOut true false))
    (portWrite w.other .cic (linkOut true false) s)) (by simpa using h)
  rw [portWrite_latch, Latches.set_cic] at hlook
  rw [Who.other_other, logEvent_latch, eng_portWrite_ne w.ne_other, hv] at hsample
  simp only [bitExchange, hlook, hsample, linkOut_released, peerData_linkOut]

section
variable {s : State} {w : Who} {v : Bool} (h : s.cfg.paired = true) (hv : (s.eng w).latch.cic = linkOut true v)
include h hv

/-- The reader is left with the writer's bit. -/
theorem bitExchange_bit : ((bitExchange w w.other s).eng w.other).C = v ∧
    ((bitExchange w w.other s).eng w.other).ret = bitByte v := by
  simp [bitExchange_paired h hv]

/-- Both latches are released. -/
theorem bitExchange_latches : ((bitExchange w w.other s).eng w).latch.cic = 0 ∧
    ((bitExchange w w.other s).eng w.other).latch.cic = 0 := by
  simp [bitExchange_paired h hv, eng_portWrite_ne w.other_ne]

/-- The writer looks and releases; the reader probes, samples and releases. -/
theorem bitExchange_logged :
    Logged w [.read .cic (linkOut true false), .write .cic 0] s (bitExchange w w.other s) ∧
    Logged w.other [.write .cic (linkOut true false), .read .cic (linkOut true v), .write .cic 0] s
      (bitExchange w w.other s) := by
  simp [bitExchange_paired h hv, Logged, eng_portWrite_ne w.other_ne, eng_portWrite_ne w.ne_other,
    eng_logEvent_ne w.other_ne, eng_logEvent_ne w.ne_other]

theorem bitExchange_cont (u : Who) : ((bitExchange w w.other s).eng u).cont = (s.eng u).cont := by
  simp [bitExchange_paired h hv]

theorem bitExchange_active : (bitExchange w w.other s).active = s.active := by
  simp [bitExchange_paired h hv]

theorem bitExchange_unchanged : Unchanged [.latch w .cic, .latch w.other .cic, .log w, .log w.other, .carry w.other,
    .ret w.other] s (bitExchange w w.other s) := by
  rw [bitExchange_paired h hv]
  have hreader (x : Nibble) (u : State) := portWrite_unchanged w.other .cic x u
  exact ((((hreader _ s).trans (logEvent_unchanged w _ _)).trans (logEvent_unchanged w.other _ _)).trans
    (((hreader _ _).trans (portWrite_unchanged w .cic _ _)).trans
      ((setC_unchanged w.other _ _).trans (deliver_unchanged w.other _ _)))).mono (by simp)

end

/-- An exchange after changes `l` that reach no log: what it leaves, seen from the state before them. -/
theorem bitExchange_after {l : List Field} {s u t : State} {w : Who} {v : Bool} (hl : Unchanged l s u)
    (hlw : Field.log w ∉ l) (hlr : Field.log w.other ∉ l) (h : u.cfg.paired = true)
    (hv : (u.eng w).latch.cic = linkOut true v) (ht : bitExchange w w.other u = t) :
    ((t.eng w.other).C = v ∧ (t.eng w.other).ret = bitByte v) ∧
    ((t.eng w).latch.cic = 0 ∧ (t.eng w.other).latch.cic = 0) ∧
    Logged w [.read .cic (linkOut true false), .write .cic 0] s t ∧
    Logged w.other [.write .cic (linkOut true false), .read .cic (linkOut true v), .write .cic 0] s t ∧
    ((t.eng w).cont = (u.eng w).cont ∧ (t.eng w.other).cont = (u.eng w.other).cont ∧ t.active = u.active) ∧
    Unchanged (l ++ [.latch w .cic, .latch w.other .cic, .log w, .log w.other, .carry w.other, .ret w.other]) s t := by
  subst ht
  obtain ⟨hwrote, hread⟩ := bitExchange_logged h hv
  exact ⟨bitExchange_bit h hv, bitExchange_latches h hv, (hl.logged_nil hlw).trans hwrote,
    (hl.logged_nil hlr).trans hread, ⟨bitExchange_cont h hv w, bitExchange_cont h hv w.other, bitExchange_active h hv⟩,
    hl.trans (bitExchange_unchanged h hv)⟩

/-- Where the writer has asserted and the reader is at its start, a step of either engine is the exchange, with both
primitives over (41 R179). -/
theorem engineStep_exchange {s : State} {w : Who} {ks ls : List Task} (h : s.cfg.paired = true) (hs : BothCanStep s)
    (hw : (s.eng w).cont = .pos .ackWait :: ks) (hr : (s.eng w.other).cont = .op .readBit :: ls) (e : Who) :
    engineStep e s = .next (bitExchange w w.other (setCont w ks (setCont w.other ls (turnTo e s)))) := by
  obtain rfl | rfl := e.eq_or_eq_other w
  · have hread : atReadBit e.other (turnWith e ks s) = true := by simp [atReadBit_iff, hr]
    have hdrop := dropTask_of_cont (s := turnWith e ks s) ((congrArg Engine.cont (eng_other_turnWith e ks s)).trans hr)
    rw [engineStep_ackWait (hs.canStep e) hw, ackTurn_exchange (by simpa using h) e hread, hdrop, turnWith,
      setCont_comm]
  · have hack : atAckWait w.other.other (turnWith w.other ls s) = true := by simp [atAckWait_iff, hw]
    have hdrop := dropTask_of_cont (s := turnWith w.other ls s)
      ((congrArg Engine.cont (eng_turnWith_other w ls s)).trans hw)
    rw [engineStep_readBit (hs.canStep _) hr, readBitTurn_exchange (by simpa using h) _ hack, Who.other_other, hdrop,
      turnWith]

/-- Settles O12: the step is the exchange after both tasks are dropped; by itself `ReadBit` drops the writer's only. -/
theorem pairedBitExchange : Obligations.PairedBitExchange := by
  refine ⟨fun s w v ks ls h hs hw hv hr e => ?_, fun s v ks h hw hv => ?_⟩
  · have hdropped := (turnTo_unchanged e s).trans ((setCont_unchanged w.other ls _).trans (setCont_unchanged w ks _))
    obtain ⟨⟨hC, hret⟩, ⟨hwriter, hreader⟩, hwrote, hread, ⟨hwcont, hrcont, hturn⟩, hframe⟩ :=
      bitExchange_after hdropped (by simp) (by simp) (by simpa using h) (by simpa using hv) rfl
    refine ⟨_, engineStep_exchange h hs hw hr e, hC, hret, hwriter, hreader, hwrote, hread, ?_, ?_, ?_,
      hframe.mono (by simp)⟩
    · simpa using hwcont
    · simpa using hrcont
    · simpa using hturn
  · generalize hpeer : s.active.other = w at hw hv ⊢
    have hactive : s.active = w.other := by rw [← hpeer, Who.other_other]
    have hack : atAckWait s.active.other s = true := by simp [atAckWait_iff, hpeer, hw]
    have hturn := readBitTurn_exchange h s.active hack
    rw [hpeer, dropTask_of_cont hw] at hturn
    obtain ⟨⟨hC, hret⟩, ⟨hwriter, hreader⟩, hwrote, hread, ⟨hwcont, -, -⟩, hframe⟩ :=
      bitExchange_after (setCont_unchanged w ks s) (by simp) (by simp) (by simpa using h) (by simpa using hv) rfl
    rw [← hactive] at hC hret hreader hread hframe hwriter hwrote hwcont
    refine ⟨_, congrArg Host.Outcome.next hturn, hC, hret, by simpa using hwcont, hreader, hwriter, hread, hwrote,
      hframe.mono ?_⟩
    rw [hactive]
    cases w <;> simp [Who.other]

/-! ## Held, stuck, alone (41 R179, R180) -/

/-- Settles O13: a turn that puts its own task back, or one look after which the task is put back. -/
theorem linkHeldOrStuck : Obligations.LinkHeldOrStuck := by
  refine ⟨fun s w ks h hs hw hpeer => ?_, fun s w ks ls h hs hw hpeer => ?_,
    fun s w ks h hpif hcic hw hread hack hclk => ?_⟩
  · have hack : ¬atAckWait w.other (turnWith w ks s) = true := by simpa [atAckWait_iff] using hpeer
    rw [engineStep_readBit (hs.canStep w) hw, readBitTurn_held (by simpa using h) w hack,
      push_turnWith_of_cont hw]
    rfl
  · have hack : atAckWait w.other (turnWith w ks s) = true := by simp [atAckWait_iff, hpeer]
    have hread : ¬atReadBit w.other (turnWith w ks s) = true := by simp [atReadBit_iff, hpeer]
    rw [engineStep_ackWait (hs.canStep w) hw, ackTurn_stuck (by simpa using h) w hread hack,
      push_turnWith_of_cont hw]
    rfl
  · have hcan : CanStep w s := by
      cases w with
      | pif => exact hpif rfl
      | cic => exact hcic rfl
    have hread' : ¬atReadBit w.other (turnWith w ks s) = true := by simpa [atReadBit_iff] using hread
    have hack' : ¬atAckWait w.other (turnWith w ks s) = true := by simpa [atAckWait_iff] using hack
    rw [engineStep_ackWait hcan hw, ackTurn_look (by simpa using h) w hread' hack' (by simpa using hclk),
      push_logEvent, push_turnWith_of_cont hw, eng_other_turnWith]
    refine ⟨_, rfl, ?_, by simp, ?_⟩
    · simp [Logged]
    · exact ((turnTo_unchanged w s).trans (logEvent_unchanged w _ _)).mono (by simp)

end Sys2Proof.Machine
end

section
/-! Nibbles and buffers over a paired link: schedules of engine steps after which both operations are over (41 R184 to
R186). -/

namespace Sys2Proof.Machine

/-! ## Schedules -/

/-- A schedule of engine steps leads from one state to the other. -/
def Scheduled (s t : State) : Prop := ∃ sched : List Who, runSchedule sched s = .next t

theorem Scheduled.refl (s : State) : Scheduled s s := ⟨[], rfl⟩

theorem runSchedule_cons {e : Who} {es : List Who} {s t : State} (h : engineStep e s = .next t) :
    runSchedule (e :: es) s = runSchedule es t := by
  simp only [runSchedule, h]

/-- A step of an engine before a schedule. -/
theorem Scheduled.step {e : Who} {s t u : State} (h : engineStep e s = .next t) (k : Scheduled t u) :
    Scheduled s u := by
  obtain ⟨es, hes⟩ := k
  exact ⟨e :: es, (runSchedule_cons h).trans hes⟩

theorem Scheduled.trans {s t u : State} (h : Scheduled s t) (k : Scheduled t u) : Scheduled s u := by
  obtain ⟨es, hes⟩ := h
  induction es generalizing s with
  | nil => cases hes; exact k
  | cons e es ih =>
    simp only [runSchedule] at hes
    split at hes
    next v hv => exact .step hv (ih hes)
    next => cases hes
    next => cases hes

/-! ## The frame of a transfer -/

/-- What a transfer from engine `w` to the other changes, but for the reader's memory. -/
def transferParts (w : Who) : List Field :=
  [.latch w .cic, .latch w.other .cic, .log w, .log w.other, .position w, .position w.other, .carry w.other,
    .ret w.other, .active]

/-- The two engines are paired and both have a step. -/
def LinkReady (s : State) : Prop := s.cfg.paired = true ∧ BothCanStep s

/-- A transfer leaves the engines paired and running, also where it stores to the reader's memory. -/
theorem LinkReady.of_frame {s t : State} {w : Who} (h : LinkReady s)
    (hf : Unchanged (.mem w.other :: transferParts w) s t) : LinkReady t := by
  have hcfg : t.cfg = s.cfg := hf .cfg (by simp [transferParts])
  have hpc : t.pifPc = s.pifPc := hf .pifPc (by simp [transferParts])
  have hhalted : t.halted = s.halted := hf .halted (by simp [transferParts])
  have hcic : t.cicPc = s.cicPc := hf .cicPc (by simp [transferParts])
  rw [LinkReady, BothCanStep, hcfg, hpc, hhalted, hcic]
  exact h

/-- The bits `bs` have gone from engine `w` to the other: their events in both logs, and the frame. -/
structure LinkRun (w : Who) (bs : List Bool) (s t : State) : Prop where
  frame : Unchanged (transferParts w) s t
  writerLog : Logged w (writerEvents bs) s t
  readerLog : Logged w.other (readerEvents bs) s t

theorem LinkRun.trans {w : Who} {bs cs : List Bool} {s t u : State} (h : LinkRun w bs s t) (k : LinkRun w cs t u) :
    LinkRun w (bs ++ cs) s u where
  frame := h.frame.trans' k.frame
  writerLog := by
    rw [writerEvents, List.flatMap_append]
    exact h.writerLog.trans k.writerLog
  readerLog := by
    rw [readerEvents, List.flatMap_append]
    exact h.readerLog.trans k.readerLog

theorem LinkReady.of_run {w : Who} {bs : List Bool} {s t : State} (h : LinkReady s) (k : LinkRun w bs s t) :
    LinkReady t := h.of_frame (k.frame.mono fun _ => List.mem_cons_of_mem _)

/-- A change that reaches no log is a run of no bits. -/
theorem Unchanged.run_nil {l : List Field} {w : Who} {s t : State} (h : Unchanged l s t)
    (hl : ∀ f ∈ l, f ∈ transferParts w) (hw : Field.log w ∉ l) (hr : Field.log w.other ∉ l) :
    LinkRun w [] s t where
  frame := h.mono hl
  writerLog := h.logged_nil hw
  readerLog := h.logged_nil hr

/-- A step of the writer that only puts tasks before those left is a run of no bits. -/
theorem run_turnWith_writer (w : Who) (ks : List Task) (s : State) : LinkRun w [] s (turnWith w ks s) :=
  (turnWith_unchanged w ks s).run_nil (by simp [transferParts]) (by simp) (by simp)

/-- A step of the reader that only puts tasks before those left is a run of no bits. -/
theorem run_turnWith_reader (w : Who) (ks : List Task) (s : State) : LinkRun w [] s (turnWith w.other ks s) :=
  (turnWith_unchanged w.other ks s).run_nil (by simp [transferParts]) (by simp) (by simp)

/-- The writer `w` has sent the bits `bs` and goes on with `ks`; the reader has `v` as its value and `c` in `C` and
goes on with `ls`; both latches are released. -/
structure Received (w : Who) (bs : List Bool) (v : Byte) (c : Bool) (ks ls : List Task) (s t : State) : Prop where
  run : LinkRun w bs s t
  writerCont : (t.eng w).cont = ks
  readerCont : (t.eng w.other).cont = ls
  value : (t.eng w.other).ret = v
  carry : (t.eng w.other).C = c
  writerLatch : (t.eng w).latch.cic = 0
  readerLatch : (t.eng w.other).latch.cic = 0

theorem Received.after {w : Who} {bs cs : List Bool} {v : Byte} {c : Bool} {ks ls : List Task} {s t u : State}
    (k : Received w cs v c ks ls t u) (h : LinkRun w bs s t) : Received w (bs ++ cs) v c ks ls s u :=
  { k with run := h.trans k.run }

/-! ## One bit (41 R177, R178, R181) -/

/-- The writer asserts (O11), and one joint step ends both primitives (O12). -/
theorem bit_crosses {s : State} {w : Who} {b : Bool} {ks ls : List Task} (hs : LinkReady s)
    (hw : (s.eng w).cont = .op (.writeBit b) :: ks) (hr : (s.eng w.other).cont = .op .readBit :: ls) :
    ∃ t, Scheduled s t ∧ Received w [b] (bitByte b) b ks ls s t := by
  obtain ⟨assert_spec, -, -⟩ := linkPrimitivesAlone
  obtain ⟨exchange_spec, -⟩ := pairedBitExchange
  obtain ⟨u, hassert, hlatch, hlog, hcont, hset⟩ := assert_spec (turnWith w ks s) b
  rw [turnWith_active] at hlatch hlog hcont hset
  have hturn := turnWith_unchanged w ks s
  have hsu : Unchanged (transferParts w) s u := (hturn.trans hset).mono (by simp [transferParts])
  have hucont : (u.eng w).cont = .pos .ackWait :: ks := by rw [hcont, turnWith_cont]; rfl
  have hurest : (u.eng w.other).cont = .op .readBit :: ls :=
    ((hturn.trans hset) (.position w.other) (by simp [w.other_ne])).trans hr
  obtain ⟨hpaired, hrun⟩ := hs.of_frame (hsu.mono fun _ => List.mem_cons_of_mem _)
  obtain ⟨t, hstep, hC, hret, hwl, hrl, hwlog, hrlog, hwc, hrc, -, hframe⟩ :=
    exchange_spec u w b ks ls hpaired hrun hucont hlatch hurest w
  obtain ⟨-, hcan⟩ := hs
  refine ⟨t, .step ((engineStep_of_cont (hcan.canStep w) hw).trans hassert) (.step hstep (.refl t)),
    ⟨hsu.trans' hframe, ?_, ?_⟩, hwc, hrc, hret, hC, hwl, hrl⟩
  · exact ((hturn.logged_nil (by simp)).trans hlog).trans hwlog
  · exact ((hturn.trans hset).logged_nil (by simp [w.other_ne])).trans hrlog

/-! ## A nibble (41 R184, R185) -/

/-- The bits of a nibble so far, with one more below them (41 R184). -/
def appendBit (acc : Nibble) (b : Bool) : Nibble := (acc <<< 1) ||| bitNibble b

theorem bitOf_bitByte (b : Bool) : bitOf (bitByte b) 0 = b := by cases b <;> rfl

theorem takeNibbleBit_last {w : Who} {s : State} {b : Bool} (h : (s.eng w).ret = bitByte b) (acc : Nibble) :
    takeNibbleBit w 0 acc s = deliver w ((appendBit acc b).setWidth 8) s := by
  rw [takeNibbleBit, retBit, h, bitOf_bitByte, appendBit]

theorem takeNibbleBit_more {w : Who} {s : State} {b : Bool} (h : (s.eng w).ret = bitByte b) (k : Nat) (acc : Nibble) :
    takeNibbleBit w (k + 1) acc s = push w [.op .readBit, .pos (.nibbleBits k (appendBit acc b))] s := by
  rw [takeNibbleBit, retBit, h, bitOf_bitByte, appendBit]

/-- The reader takes the bit it has read. -/
theorem engineStep_nibbleBits {w : Who} {s : State} {k : Nat} {acc : Nibble} {ks : List Task} (h : CanStep w s)
    (hc : (s.eng w).cont = .pos (.nibbleBits k acc) :: ks) :
    engineStep w s = .next (takeNibbleBit w k acc (turnWith w ks s)) := by
  rw [engineStep_of_cont h hc, runTask, resume, turnWith_active]

/-- The tasks that send the bits `bs`. -/
def writeBits (bs : List Bool) : List Task := bs.map fun b => .op (.writeBit b)

/-- A run of bits: each is exchanged, then taken into the nibble; the last one delivers it. -/
theorem bits_cross {w : Who} {ks ls : List Task} (b : Bool) (bs : List Bool) {acc : Nibble} {s : State}
    (hs : LinkReady s) (hw : (s.eng w).cont = writeBits (b :: bs) ++ ks)
    (hr : (s.eng w.other).cont = .op .readBit :: .pos (.nibbleBits bs.length acc) :: ls) :
    ∃ t, Scheduled s t ∧ Received w (b :: bs) ((List.foldl appendBit acc (b :: bs)).setWidth 8)
      ((b :: bs).getLast (List.cons_ne_nil b bs)) ks ls s t := by
  induction bs generalizing b acc s with
  | nil =>
    obtain ⟨u, hsu, hu⟩ := bit_crosses hs hw hr
    obtain ⟨-, hcan⟩ := hs.of_run hu.run
    have hvalue : ((turnWith w.other ls u).eng w.other).ret = bitByte b := (turnWith_ret _ _ _ _).trans hu.value
    have htake := engineStep_nibbleBits (hcan.canStep w.other) hu.readerCont
    rw [List.length_nil, takeNibbleBit_last hvalue] at htake
    have hrun : LinkRun w [] u (deliver w.other ((appendBit acc b).setWidth 8) (turnWith w.other ls u)) :=
      ((turnWith_unchanged _ _ u).trans (deliver_unchanged _ _ _)).run_nil (by simp [transferParts]) (by simp) (by simp)
    exact ⟨_, hsu.trans (.step htake (.refl _)), hu.run.trans hrun, by simpa using hu.writerCont, by simp,
      deliver_ret _ _ _, by simpa using hu.carry, by simpa using hu.writerLatch, by simpa using hu.readerLatch⟩
  | cons c cs ih =>
    obtain ⟨u, hsu, hu⟩ := bit_crosses hs hw hr
    have hready := hs.of_run hu.run
    obtain ⟨-, hcan⟩ := id hready
    have hvalue : ((turnWith w.other ls u).eng w.other).ret = bitByte b := (turnWith_ret _ _ _ _).trans hu.value
    have htake := engineStep_nibbleBits (hcan.canStep w.other) hu.readerCont
    rw [List.length_cons, takeNibbleBit_more hvalue, push_turnWith] at htake
    have hrun := run_turnWith_reader w ([.op .readBit, .pos (.nibbleBits cs.length (appendBit acc b))] ++ ls) u
    obtain ⟨t, hut, ht⟩ := ih c (hready.of_run hrun) (by simpa [writeBits] using hu.writerCont)
      (turnWith_cont _ _ _)
    exact ⟨t, hsu.trans (.step htake hut), (ht.after hrun).after hu.run⟩

/-- The bits of a nibble, taken one below the other, are the nibble. -/
theorem foldl_linkBits (n : Nibble) : List.foldl appendBit 0 (linkBits n) = n := by revert n; decide

theorem LinkReady.engineStep_writeNibble {s : State} {w : Who} {n : Nibble} {ks : List Task} (hs : LinkReady s)
    (hc : (s.eng w).cont = .op (.writeNibble n) :: ks) :
    engineStep w s = .next (turnWith w (writeBits (linkBits n) ++ ks) s) := by
  obtain ⟨-, hcan⟩ := hs
  rw [engineStep_of_cont (hcan.canStep w) hc, ← push_turnWith]
  show execWriteNibble n _ = _
  rw [execWriteNibble, turnWith_active]
  rfl

theorem LinkReady.engineStep_readNibble {s : State} {w : Who} {ks : List Task} (hs : LinkReady s)
    (hc : (s.eng w).cont = .op .readNibble :: ks) :
    engineStep w s = .next (turnWith w ([.op .readBit, .pos (.nibbleBits 3 0)] ++ ks) s) := by
  obtain ⟨-, hcan⟩ := hs
  rw [engineStep_of_cont (hcan.canStep w) hc, ← push_turnWith]
  show execReadNibble _ = _
  rw [execReadNibble, turnWith_active]

/-- Both operations expand (30 R125), and their bits cross, bit 3 first. -/
theorem nibble_crosses {s : State} {w : Who} {n : Nibble} {ks ls : List Task} (hs : LinkReady s)
    (hw : (s.eng w).cont = .op (.writeNibble n) :: ks) (hr : (s.eng w.other).cont = .op .readNibble :: ls) :
    ∃ t, Scheduled s t ∧ Received w (linkBits n) (n.setWidth 8) (bitOf n 0) ks ls s t := by
  have hsend := hs.engineStep_writeNibble hw
  have hsent := run_turnWith_writer w (writeBits (linkBits n) ++ ks) s
  have htake := (hs.of_run hsent).engineStep_readNibble (w := w.other) (by simpa using hr)
  have htaken := run_turnWith_reader w ([.op .readBit, .pos (.nibbleBits 3 0)] ++ ls)
    (turnWith w (writeBits (linkBits n) ++ ks) s)
  have hstarted := hsent.trans htaken
  obtain ⟨t, hut, ht⟩ := bits_cross (ks := ks) (ls := ls) (bitOf n 3) [bitOf n 2, bitOf n 1, bitOf n 0]
    (hs.of_run hstarted) (by rw [eng_turnWith_other, turnWith_cont]; rfl) (turnWith_cont _ _ _)
  have hvalue : List.foldl appendBit 0 [bitOf n 3, bitOf n 2, bitOf n 1, bitOf n 0] = n := foldl_linkBits n
  rw [hvalue] at ht
  exact ⟨t, .step hsend (.step htake hut), ht.after hstarted⟩

/-- Settles O15: a schedule of `nibble_crosses`. -/
theorem nibbleCrossesTheLink : Obligations.NibbleCrossesTheLink := by
  intro s w n ks ls hpaired hrun hw hr
  obtain ⟨t, ⟨sched, hsched⟩, ht⟩ := nibble_crosses ⟨hpaired, hrun⟩ hw hr
  exact ⟨sched, t, hsched, ht.writerCont, ht.readerCont, ht.value, ht.carry, ht.run.writerLog, ht.run.readerLog,
    ht.writerLatch, ht.readerLatch, ht.run.frame⟩

end Sys2Proof.Machine
end

section
/-! A buffer over a paired link: one cell after the other, lowest address first (41 R186). -/

namespace Sys2Proof.Machine

/-! ## The steps of a buffer's operations -/

namespace LinkReady
variable {s : State} {w : Who} {ks : List Task} (hs : LinkReady s)
include hs

theorem engineStep_writeBuf_zero {base : Addr} (hc : (s.eng w).cont = .op (.writeBuf base 0) :: ks) :
    engineStep w s = .next (turnWith w ks s) := by
  obtain ⟨-, hcan⟩ := hs
  exact engineStep_of_cont (hcan.canStep w) hc

theorem engineStep_readBuf_zero {base : Addr} (hc : (s.eng w).cont = .op (.readBuf base 0) :: ks) :
    engineStep w s = .next (turnWith w ks s) := by
  obtain ⟨-, hcan⟩ := hs
  exact engineStep_of_cont (hcan.canStep w) hc

theorem engineStep_writeBuf {base : Addr} {n : Byte} (hn : n ≠ 0)
    (hc : (s.eng w).cont = .op (.writeBuf base n) :: ks) :
    engineStep w s = .next (turnWith w
      (.op (.writeNibble (readCell w base s)) :: .op (.writeBuf (base + 1) (n - 1)) :: ks) s) := by
  obtain ⟨-, hcan⟩ := hs
  rw [engineStep_of_cont (hcan.canStep w) hc]
  show execWriteBuf base n _ = _
  rw [execWriteBuf, if_neg hn, turnWith_active, push_turnWith, readCell_turnWith]
  rfl

theorem engineStep_readBuf {base : Addr} {n : Byte} (hn : n ≠ 0)
    (hc : (s.eng w).cont = .op (.readBuf base n) :: ks) :
    engineStep w s = .next (turnWith w
      (.op .readNibble :: .pos (.storeNibble base) :: .op (.readBuf (base + 1) (n - 1)) :: ks) s) := by
  obtain ⟨-, hcan⟩ := hs
  rw [engineStep_of_cont (hcan.canStep w) hc]
  show execReadBuf base n _ = _
  rw [execReadBuf, if_neg hn, turnWith_active, push_turnWith]
  rfl

theorem engineStep_storeNibble {a : Addr} {x : Nibble} (hc : (s.eng w).cont = .pos (.storeNibble a) :: ks)
    (hx : (s.eng w).ret = x.setWidth 8) : engineStep w s = .next (writeCell w a x (turnWith w ks s)) := by
  obtain ⟨-, hcan⟩ := hs
  have hnibble : retNibble w (turnWith w ks s) = x := by
    rw [retNibble, turnWith_ret, hx, BitVec.setWidth_setWidth_of_le _ (by decide), BitVec.setWidth_eq]
  rw [engineStep_of_cont (hcan.canStep w) hc, runTask, resume, turnWith_active, hnibble]

end LinkReady

/-! ## One cell, and a buffer -/

/-- `k` cells have gone from `src` of engine `w` to `dst` of the other; the two go on with `ks` and `ls`. -/
structure BufferMoved (w : Who) (src dst : Addr) (k : Nat) (ks ls : List Task) (s t : State) : Prop where
  frame : Unchanged (.mem w.other :: transferParts w) s t
  writerCont : (t.eng w).cont = ks
  readerCont : (t.eng w.other).cont = ls
  cells : ∀ i < k, readCell w.other (cellAt dst i) t = readCell w (cellAt src i) s
  outside : CellsUnchangedOutside w.other (cellsFrom dst k) s t

/-- The writer's memory is not changed. -/
theorem BufferMoved.writerCell {w : Who} {src dst : Addr} {k : Nat} {ks ls : List Task} {s t : State}
    (h : BufferMoved w src dst k ks ls s t) (a : Addr) : readCell w a t = readCell w a s :=
  h.frame (.mem w) (by simp [transferParts, w.ne_other]) a

theorem cellsFrom_succ (base : Addr) (k : Nat) :
    cellsFrom base (k + 1) = cellsFrom base 1 ++ cellsFrom (base + 1) k := by
  simp [cellsFrom, List.range_succ_eq_map, cellAt_zero, cellAt_succ]

/-- A cell is none of the cells after it, in a buffer that does not come round to it. -/
theorem notMem_cellsFrom_succ {k : Nat} (h : k < 256) (base : Addr) : base ∉ cellsFrom (base + 1) k := by
  intro hm
  obtain ⟨i, hi, e⟩ := mem_cellsFrom.1 hm
  rw [← cellAt_succ] at e
  have := cellAt_inj (base := base) (i := 0) (j := i + 1) (by omega) (by omega) ((cellAt_zero base).trans e)
  omega

/-- A cell, then the cells after it. -/
theorem BufferMoved.cons {w : Who} {src dst : Addr} {k : Nat} {ks ls ks' ls' : List Task} {s t u : State} (hk : k < 256)
    (h : BufferMoved w src dst 1 ks ls s t) (m : BufferMoved w (src + 1) (dst + 1) k ks' ls' t u) :
    BufferMoved w src dst (k + 1) ks' ls' s u where
  frame := h.frame.trans' m.frame
  writerCont := m.writerCont
  readerCont := m.readerCont
  cells
    | 0, _ => by
      have hkept := m.outside (cellAt dst 0) (by rw [cellAt_zero]; exact notMem_cellsFrom_succ hk dst)
      rw [hkept, h.cells 0 Nat.zero_lt_one]
    | i + 1, hi => by
      rw [cellAt_succ, m.cells i (by omega), h.writerCell, cellAt_succ]
  outside := by
    rw [cellsFrom_succ]
    exact h.outside.trans m.outside

/-- A buffer of no cells. -/
theorem BufferMoved.zero {w : Who} {ks ls : List Task} {s t : State} (h : LinkRun w [] s t)
    (hw : (t.eng w).cont = ks) (hr : (t.eng w.other).cont = ls) (src dst : Addr) :
    BufferMoved w src dst 0 ks ls s t where
  frame := h.frame.mono fun _ => List.mem_cons_of_mem _
  writerCont := hw
  readerCont := hr
  cells i hi := absurd hi (Nat.not_lt_zero i)
  outside a _ := h.frame (.mem w.other) (by simp [transferParts]) a

/-- The first cell of a buffer: both operations expand, its nibble crosses, the reader stores it. -/
theorem cell_crosses {s : State} {w : Who} {src dst : Addr} {n : Byte} {ks ls : List Task} (hs : LinkReady s)
    (hn : n ≠ 0) (hw : (s.eng w).cont = .op (.writeBuf src n) :: ks)
    (hr : (s.eng w.other).cont = .op (.readBuf dst n) :: ls) :
    ∃ t, Scheduled s t ∧ BufferMoved w src dst 1 (.op (.writeBuf (src + 1) (n - 1)) :: ks)
      (.op (.readBuf (dst + 1) (n - 1)) :: ls) s t := by
  have hsend := hs.engineStep_writeBuf hn hw
  have hsent := run_turnWith_writer w
    (.op (.writeNibble (readCell w src s)) :: .op (.writeBuf (src + 1) (n - 1)) :: ks) s
  have hsentReady := hs.of_run hsent
  have htake := hsentReady.engineStep_readBuf hn ((congrArg Engine.cont (eng_other_turnWith w _ s)).trans hr)
  have hstarted := hsent.trans (run_turnWith_reader w
    (.op .readNibble :: .pos (.storeNibble dst) :: .op (.readBuf (dst + 1) (n - 1)) :: ls) _)
  obtain ⟨u, hsu, hu⟩ := nibble_crosses (hs.of_run hstarted)
    ((congrArg Engine.cont (eng_turnWith_other w _ _)).trans (turnWith_cont w _ s)) (turnWith_cont _ _ _)
  have hrun := hstarted.trans hu.run
  have hstore := (hs.of_run hrun).engineStep_storeNibble hu.readerCont hu.value
  have hstored := (turnWith_unchanged w.other (.op (.readBuf (dst + 1) (n - 1)) :: ls) u).trans
    (writeCell_unchanged w.other dst (readCell w src s) _)
  refine ⟨_, .step hsend (.step htake (hsu.trans (.step hstore (.refl _)))), ?_, ?_, ?_, ?_, ?_⟩
  · exact (hrun.frame.trans hstored).mono (by simp [transferParts])
  · simpa using hu.writerCont
  · simp
  · intro i hi
    obtain rfl : i = 0 := by omega
    rw [cellAt_zero, cellAt_zero, readCell_writeCell_same]
  · intro a ha
    have hkept : readCell w.other a u = readCell w.other a s := hrun.frame (.mem w.other) (by simp [transferParts]) a
    have hne : a ≠ dst := fun e => ha (mem_cellsFrom.2 ⟨0, Nat.zero_lt_one, by rw [cellAt_zero, e]⟩)
    rw [readCell_writeCell_ne hne, readCell_turnWith, hkept]

/-- A whole buffer crosses, by induction on its length. -/
theorem buffer_crosses {w : Who} {ks ls : List Task} (k : Nat) {s : State} {src dst : Addr} {n : Byte}
    (hk : n.toNat = k) (hs : LinkReady s) (hw : (s.eng w).cont = .op (.writeBuf src n) :: ks)
    (hr : (s.eng w.other).cont = .op (.readBuf dst n) :: ls) :
    ∃ t, Scheduled s t ∧ BufferMoved w src dst k ks ls s t := by
  induction k generalizing s src dst n with
  | zero =>
    obtain rfl : n = 0 := BitVec.eq_of_toNat_eq hk
    have hsent := run_turnWith_writer w ks s
    have hsend := hs.engineStep_writeBuf_zero hw
    have htake := (hs.of_run hsent).engineStep_readBuf_zero
      ((congrArg Engine.cont (eng_other_turnWith w ks s)).trans hr)
    exact ⟨_, .step hsend (.step htake (.refl _)),
      .zero (hsent.trans (run_turnWith_reader w ls _)) (by simp) (turnWith_cont _ _ _) src dst⟩
  | succ k ih =>
    have hn : n ≠ 0 := fun e => by simp [e] at hk
    have hlt := n.isLt
    have hpred : (n - 1).toNat = k := by bv_omega
    obtain ⟨t, hst, ht⟩ := cell_crosses hs hn hw hr
    obtain ⟨u, htu, hu⟩ := ih hpred (hs.of_frame ht.frame) ht.writerCont ht.readerCont
    exact ⟨u, hst.trans htu, ht.cons (by omega) hu⟩

/-- Settles O16: a schedule of `buffer_crosses`. -/
theorem bufferCrossesTheLink : Obligations.BufferCrossesTheLink := by
  intro s w src dst n ks ls hpaired hrun hw hr
  obtain ⟨t, ⟨sched, hsched⟩, ht⟩ := buffer_crosses n.toNat rfl ⟨hpaired, hrun⟩ hw hr
  exact ⟨sched, t, hsched, ht.writerCont, ht.readerCont, ht.cells, ht.outside, ht.frame⟩

end Sys2Proof.Machine
end

section
/-! The PIF boot sequencer (42 R200 to R221): what decode passes do to a window, the start, the three phases of the
handshake, the compare, the gate, and the entry into the steady state. -/

namespace Sys2Proof.Machine

/-! ## What a frame keeps of the cells -/

/-- Where a memory is not among what has changed, its runs of cells read as before. -/
theorem Unchanged.readCells {l : List Field} {s t : State} (h : Unchanged l s t) {w : Who} (hw : Field.mem w ∉ l)
    (base : Addr) (n : Nat) : readCells w base n t = readCells w base n s :=
  List.map_congr_left fun i _ => h (.mem w) hw (cellAt base i)

theorem readCells_eq_iff {v w : Who} {a b : Addr} {n : Nat} {s t : State} :
    readCells v a n s = readCells w b n t ↔
      ∀ i < n, readCell v (cellAt a i) s = readCell w (cellAt b i) t := by
  simp only [readCells, List.map_inj_left, List.mem_range]

theorem cellAt_mem_cellsFrom {i n : Nat} (hi : i < n) (base : Addr) : cellAt base i ∈ cellsFrom base n :=
  mem_cellsFrom.2 ⟨i, hi, rfl⟩

theorem writeCells_outside (w : Who) (base : Addr) (vs : List Nibble) (s : State) :
    CellsUnchangedOutside w (cellsFrom base vs.length) s (writeCells w base vs s) := fun a ha =>
  readCell_writeCells_outside w base a vs s ha

theorem setBit_outside (w : Who) (a : Addr) (b : BitVec 2) (s : State) :
    CellsUnchangedOutside w [a] s (setBit w a b s) := writeCell_outside w a _ s

theorem setBit_unchanged (w : Who) (a : Addr) (b : BitVec 2) (s : State) : Unchanged [.mem w] s (setBit w a b s) :=
  writeCell_unchanged w a _ s

/-- A copied run of cells reads as its source did. -/
theorem readCell_writeCells_readCells {i n : Nat} (hi : i < n) (hn : n ≤ 256) (v w : Who) (src dst : Addr)
    (s t : State) :
    readCell w (cellAt dst i) (writeCells w dst (readCells v src n s) t) = readCell v (cellAt src i) s := by
  have hlen := length_readCells v src n s
  rw [readCell_writeCells w dst _ t (by omega) (by omega) 0, getD_readCells hi]

/-! ## The control state of the PIF -/

theorem pifPc_unchanged (pc : PifPc) (s : State) : Unchanged [.pifPc] s { s with pifPc := pc } := by
  intro f hf
  cases f with
  | pifPc => simp at hf
  | mem w => cases w <;> exact fun _ => rfl
  | latch w q => cases w <;> rfl
  | _ => rfl

theorem ie_unchanged (b : Bool) (s : State) : Unchanged [.ie] s { s with ie := b } := by
  intro f hf
  cases f with
  | ie => simp at hf
  | mem w => cases w <;> exact fun _ => rfl
  | latch w q => cases w <;> rfl
  | _ => rfl

/-! ## Decode passes over a window (45 R310, R311) -/

theorem decodePass_window (e : Who) (a : Addr) (s : State) :
    readCells e a 16 (decodePass e a s) = decodeCells roundStart (readCells e a 16 s) := by
  have hlen : (decodeCells roundStart (readCells e a 16 s)).length = 16 :=
    (length_decodeCells _ _).trans (length_readCells e a 16 s)
  have hback := readCells_writeCells e a (decodeCells roundStart (readCells e a 16 s)) s (by omega)
  rwa [hlen] at hback

theorem decodePass_outside (e : Who) (a : Addr) (s : State) :
    CellsUnchangedOutside e (cellsFrom a 16) s (decodePass e a s) := by
  have hout := writeCells_outside e a (decodeCells roundStart (readWindow e a s)) s
  rwa [length_decodeCells, readWindow, length_readCells] at hout

/-- `n` passes are `n` decodings of the window's list. -/
theorem decodePasses_window (n : Nat) (e : Who) (a : Addr) (s : State) :
    readCells e a 16 (passes n (decodePass e a) s) = (decodeCells roundStart)^[n] (readCells e a 16 s) := by
  induction n generalizing s with
  | zero => rfl
  | succ n ih => rw [passes, ih, decodePass_window, Function.iterate_succ_apply]

theorem decodePasses_outside (n : Nat) (e : Who) (a : Addr) (s : State) :
    CellsUnchangedOutside e (cellsFrom a 16) s (passes n (decodePass e a) s) :=
  passes_invariant (P := CellsUnchangedOutside e (cellsFrom a 16) s)
    (fun u h b hb => (decodePass_outside e a u b hb).trans (h b hb)) n fun _ _ => rfl

theorem decodePasses_unchanged (n : Nat) (e : Who) (a : Addr) (s : State) :
    Unchanged [.mem e] s (passes n (decodePass e a) s) :=
  passes_invariant (fun _ h => h.trans' (writeCells_unchanged e a _ _)) n (Unchanged.refl _ s)

/-! ## `PIF.Startup` (42 R200 to R208) -/

/-- The end of `PIF.Startup` once the window is decoded: Interrupt A on, the handshake open (42 R207, R208). -/
def openHandshake (s : State) : State :=
  settle .pif false { portWrite .pif .inten (intenOut true false) s with ie := true, pifPc := .awaitLockout }

theorem startupFinish_eq (s : State) :
    startupFinish s = openHandshake (passes 2 (decodePass .pif (seedWin s.cfg)) s) := rfl

theorem openHandshake_unchanged (s : State) :
    Unchanged (.latch .pif .inten :: .log .pif :: .ie :: .pifPc :: .carry .pif :: scratchRegisters .pif) s
      (openHandshake s) :=
  (((portWrite_unchanged .pif .inten _ s).trans (ie_unchanged true _)).trans
    (pifPc_unchanged .awaitLockout _)).trans (settle_unchanged_carry .pif false _)

theorem openHandshake_logged (s : State) : Logged .pif [.write .inten 1] s (openHandshake s) := rfl

theorem openHandshake_control (s : State) : (openHandshake s).pifLatch.inten = 1 ∧ (openHandshake s).ie = true ∧
    (openHandshake s).pifPc = .awaitLockout := ⟨rfl, rfl, rfl⟩

/-- The window decoded and the handshake opened (42 R207, R208). -/
theorem startupFinish_spec (s : State) :
    readCells .pif (seedWin s.cfg) 16 (startupFinish s) =
      decodeCells 0xF (decodeCells 0xF (readCells .pif (seedWin s.cfg) 16 s)) ∧
    CellsUnchangedOutside .pif (cellsFrom (seedWin s.cfg) 16) s (startupFinish s) ∧
    (startupFinish s).pifLatch.inten = 1 ∧ Logged .pif [.write .inten 1] s (startupFinish s) ∧
    (startupFinish s).ie = true ∧ (startupFinish s).pifPc = .awaitLockout ∧
    Unchanged (.mem .pif :: .latch .pif .inten :: .log .pif :: .ie :: .pifPc :: .carry .pif :: scratchRegisters .pif) s
      (startupFinish s) := by
  have hpasses := decodePasses_unchanged 2 .pif (seedWin s.cfg) s
  have hopen := openHandshake_unchanged (passes 2 (decodePass .pif (seedWin s.cfg)) s)
  obtain ⟨hinten, hie, hpc⟩ := openHandshake_control (passes 2 (decodePass .pif (seedWin s.cfg)) s)
  rw [startupFinish_eq]
  refine ⟨?_, fun a ha => ?_, hinten, ?_, hie, hpc, hpasses.trans hopen⟩
  · rw [hopen.readCells (by decide), decodePasses_window]
    rfl
  · exact (hopen (.mem .pif) (by decide) a).trans (decodePasses_outside 2 .pif _ s a ha)
  · exact (hpasses.logged_nil (by decide)).trans (openHandshake_logged _)

/-- Settles O17: the hello bits and the seed by their pushes, the end by `startupFinish_spec`. -/
theorem startupSequence : Obligations.StartupSequence :=
  ⟨fun s => ⟨_, rfl, rfl, portWrite_logged .pif .cic 0 s, rfl,
      (portWrite_unchanged .pif .cic _ s).trans (push_unchanged .pif _ _)⟩,
    fun _ => continues_of_push rfl, fun _ _ => continues_of_push rfl, fun s => ⟨_, rfl, startupFinish_spec s⟩⟩

/-! ## A turn of a handshake phase (42 R209) -/

theorem awaitTest_clear {h : Handshake} {s : State}
    (hbit : cellBit .pif Config.cmdStatus (handshakeBit h).toNat s = false) :
    awaitTest h s = push .pif [.op (handshakeOp h)] s := if_neg (ne_true_of_eq_false hbit)

theorem awaitTest_set {h : Handshake} {s : State}
    (hbit : cellBit .pif Config.cmdStatus (handshakeBit h).toNat s = true) :
    awaitTest h s = handshakeSeen h (push .pif [.pos .settle] s) := if_pos hbit

/-- With its bit set the test is the phase's own part, run where the end of the phase stands next. -/
theorem awaitTest_runs {P : State → State → Prop} {h : Handshake} (hP : ∀ u, P u (handshakeSeen h u)) {s : State}
    (hbit : cellBit .pif Config.cmdStatus (handshakeBit h).toNat s = true) :
    ∃ u t, Continues .pif [.pos .settle] s u ∧ Unchanged [.position .pif] s u ∧
      runTask (.pos (.awaitTest h)) s = .next t ∧ P u t :=
  ⟨_, _, push_cont .pif _ s, push_unchanged .pif _ s, congrArg Host.Outcome.next (awaitTest_set hbit), hP _⟩

theorem exec_cmdLockout {s : State} (h : s.pifPc = .awaitLockout) :
    exec .cmdLockout s = .next (handshakeSeen .lockout s) := congrArg Host.Outcome.next (if_pos h)

theorem exec_cmdGetChecksum {s : State} (h : s.pifPc = .awaitChecksum) :
    exec .cmdGetChecksum s = .next (handshakeSeen .getChecksum s) := congrArg Host.Outcome.next (if_pos h)

theorem exec_cmdCheckChecksum {s : State} (h : s.pifPc = .awaitAck) :
    exec .cmdCheckChecksum s = .next (handshakeSeen .checkChecksum s) := congrArg Host.Outcome.next (if_pos h)

/-- A turn's test, with the flag `f` whose operation does the phase's part in the control state `pc`. -/
theorem handshake_turn {h : Handshake} {pc : PifPc} {f : Instr}
    (hf : ∀ {u : State}, u.pifPc = pc → exec f u = .next (handshakeSeen h u)) (s : State) :
    (cellBit .pif Config.cmdStatus (handshakeBit h).toNat s = false →
      ∃ t, runTask (.pos (.awaitTest h)) s = .next t ∧ Continues .pif [.op (handshakeOp h)] s t ∧
        Unchanged [.position .pif] s t) ∧
    (cellBit .pif Config.cmdStatus (handshakeBit h).toNat s = true → s.pifPc = pc →
      ∃ u, Continues .pif [.pos .settle] s u ∧ Unchanged [.position .pif] s u ∧
        runTask (.pos (.awaitTest h)) s = exec f u) := by
  constructor
  · intro hbit
    exact continues_of_push (congrArg Host.Outcome.next (awaitTest_clear hbit))
  · intro hbit hpc
    exact ⟨_, push_cont .pif _ s, push_unchanged .pif _ s,
      (congrArg Host.Outcome.next (awaitTest_set hbit)).trans (hf ((push_pifPc .pif _ s).trans hpc)).symm⟩

/-- Settles O19: each phase begins with its pushes, its test is `handshake_turn` with its flag, and the end is
`settle`. -/
theorem handshakePhasesPollAndTest : Obligations.HandshakePhasesPollAndTest := by
  refine ⟨fun i h hmem s => ?_, fun k h pc i f hmem s => ?_, fun s =>
    ⟨settle s.active false s, rfl, settle_unchanged_carry _ _ s, ?_⟩⟩
  · simp only [List.mem_cons, Prod.mk.injEq, List.not_mem_nil, or_false] at hmem
    rcases hmem with ⟨rfl, rfl⟩ | ⟨rfl, rfl⟩ | ⟨rfl, rfl⟩ <;> exact continues_of_push rfl
  · simp only [List.mem_cons, Prod.mk.injEq, List.not_mem_nil, or_false] at hmem
    rcases hmem with ⟨rfl, rfl, rfl, rfl, rfl⟩ | ⟨rfl, rfl, rfl, rfl, rfl⟩ | ⟨rfl, rfl, rfl, rfl, rfl⟩
    · exact handshake_turn exec_cmdLockout s
    · exact handshake_turn exec_cmdGetChecksum s
    · exact handshake_turn exec_cmdCheckChecksum s
  · intro hactive hisr
    rw [hactive]
    exact settle_keeps_pointers false s (Option.isSome_iff_ne_none.2 hisr)

/-! ## Phases (a) and (b) (42 R210 to R213) -/

/-- Channels skipped one after another: their status cells read skip, every other cell reads as before. -/
theorem readCell_skipChannels (cs : List Nat) (a : Addr) (s : State) :
    readCell .pif a (cs.foldl (fun s c => writeCell .pif (Config.jbStat c) statSkip s) s) =
      if a ∈ cs.map Config.jbStat then statSkip else readCell .pif a s := by
  induction cs generalizing s with
  | nil => rfl
  | cons c cs ih =>
    rw [List.foldl_cons, ih, readCell_writeCell]
    by_cases hc : a = Config.jbStat c <;> simp [hc]

theorem readCell_skipAll (a : Addr) (s : State) : readCell .pif a (skipAll s) =
    if a ∈ (List.range 5).map Config.jbStat then statSkip else readCell .pif a s :=
  readCell_skipChannels (List.range 5) a s

theorem skipAll_unchanged (s : State) : Unchanged [.mem .pif] s (skipAll s) :=
  List.foldlRecOn [0, 1, 2, 3, 4] (fun s c => writeCell .pif (Config.jbStat c) statSkip s)
    (motive := Unchanged [.mem .pif] s) (Unchanged.refl _ s) fun _ h _ _ => h.trans' (writeCell_unchanged _ _ _ _)

/-- What phase (a) does (42 R210). -/
theorem lockoutSeen_done (s : State) : LockoutDone s (lockoutSeen s) := by
  have hwrite := portWrite_unchanged .pif .romLock 1 s
  have hpc := pifPc_unchanged .awaitChecksum (skipAll (portWrite .pif .romLock 1 s))
  have hskip := skipAll_unchanged (portWrite .pif .romLock 1 s)
  have hcell (a : Addr) : readCell .pif a (lockoutSeen s) =
      if a ∈ (List.range 5).map Config.jbStat then statSkip else readCell .pif a s := by
    rw [lockoutSeen, hpc (.mem .pif) (by decide) a, readCell_skipAll, readCell_portWrite]
  refine ⟨rfl, rfl, fun ch hch => ?_, fun a ha => ?_, rfl, ((hwrite.trans hskip).trans hpc).mono (by decide)⟩
  · rw [hcell, if_pos (List.mem_map_of_mem (List.mem_range.2 hch))]
    rfl
  · rw [hcell, if_neg ha]

/-- The checksum that the CPU left in the shared region, copied (42 R212). -/
def copyChecksum (s : State) : State := writeCells .pif Config.cksCpu (readCells .pif Config.shCks 12 s) s

theorem copyChecksum_cell {i : Nat} (hi : i < 12) (s : State) :
    readCell .pif (cellAt Config.cksCpu i) (copyChecksum s) = readCell .pif (cellAt Config.shCks i) s :=
  readCell_writeCells_readCells hi (by decide) _ _ _ _ _ _

theorem copyChecksum_outside (s : State) :
    CellsUnchangedOutside .pif (cellsFrom Config.cksCpu 12) s (copyChecksum s) := by
  have hout := writeCells_outside .pif Config.cksCpu (readCells .pif Config.shCks 12 s) s
  rwa [length_readCells] at hout

/-- The checksum is not copied over the command byte. -/
theorem cmdStatus_notMem_cksCpu : Config.cmdStatus ∉ cellsFrom Config.cksCpu 12 := by decide

/-- The checksum copied and acknowledged (42 R213). -/
def acknowledgeChecksum (s : State) : State := setBit .pif Config.cmdStatus bitAck (copyChecksum s)

theorem acknowledgeChecksum_cell {i : Nat} (hi : i < 12) (s : State) :
    readCell .pif (cellAt Config.cksCpu i) (acknowledgeChecksum s) = readCell .pif (cellAt Config.shCks i) s := by
  have hne : cellAt Config.cksCpu i ∉ [Config.cmdStatus] := fun h =>
    cmdStatus_notMem_cksCpu (List.mem_singleton.1 h ▸ cellAt_mem_cellsFrom hi _)
  rw [acknowledgeChecksum, setBit_outside _ _ _ _ _ hne, copyChecksum_cell hi]

theorem acknowledgeChecksum_bit (i : Nat) (s : State) : cellBit .pif Config.cmdStatus i (acknowledgeChecksum s) =
    if i = 3 then true else cellBit .pif Config.cmdStatus i s := by
  rw [acknowledgeChecksum, cellBit_setBit]
  refine if_congr Iff.rfl rfl ?_
  rw [cellBit, copyChecksum_outside s _ cmdStatus_notMem_cksCpu, cellBit]

theorem acknowledgeChecksum_outside (s : State) :
    CellsUnchangedOutside .pif (Config.cmdStatus :: cellsFrom Config.cksCpu 12) s (acknowledgeChecksum s) :=
  ((copyChecksum_outside s).trans (setBit_outside _ _ _ _)).mono (by simp)

theorem acknowledgeChecksum_unchanged (s : State) : Unchanged [.mem .pif] s (acknowledgeChecksum s) :=
  (writeCells_unchanged .pif _ _ s).trans' (setBit_unchanged _ _ _ _)

/-- What phase (b) does (42 R212, R213). -/
theorem getChecksumSeen_done (s : State) : ChecksumCopied s (getChecksumSeen s) := by
  have hpc := pifPc_unchanged .awaitAck (acknowledgeChecksum s)
  have hcell (a : Addr) : readCell .pif a (getChecksumSeen s) = readCell .pif a (acknowledgeChecksum s) :=
    hpc (.mem .pif) (by decide) a
  refine ⟨fun i hi => ?_, fun i _ => ?_, fun a ha => ?_, rfl, (acknowledgeChecksum_unchanged s).trans hpc⟩
  · rw [hcell, acknowledgeChecksum_cell hi]
  · rw [← acknowledgeChecksum_bit, cellBit, hcell, cellBit]
  · rw [hcell, acknowledgeChecksum_outside s a ha]

/-- Settles O20: each phase by what it does, reached by its flag and by its test; `ACK` is one `setBit`. -/
theorem lockoutAndGetChecksum : Obligations.LockoutAndGetChecksum :=
  ⟨fun s hpc => ⟨_, exec_cmdLockout hpc, lockoutSeen_done s⟩,
    fun _ hbit => awaitTest_runs (h := .lockout) lockoutSeen_done hbit,
    fun s hpc => ⟨_, exec_cmdGetChecksum hpc, getChecksumSeen_done s⟩,
    fun _ hbit => awaitTest_runs (h := .getChecksum) getChecksumSeen_done hbit,
    fun s => ⟨_, rfl, fun i _ => cellBit_setBit _ _ bitAck i s, setBit_outside _ _ _ s, setBit_unchanged _ _ _ s⟩⟩

/-! ## Phase (c) (42 R214 to R217) -/

theorem checkChecksumSeen_warm {s : State} (h : cellBit .pif Config.stMain 2 s = true) :
    checkChecksumSeen s = { s with pifPc := .bootTimerGate } := if_pos h

theorem checkChecksumSeen_cold {s : State} (h : ¬cellBit .pif Config.stMain 2 s = true) : checkChecksumSeen s =
    push .pif [.op .pifChecksumExchange, .op .pifChecksumCompare, .pos .checksumPassed] s := if_neg h

/-- What phase (c) does: nothing more on a warm boot, exchange and compare on a cold one (42 R214, R217). -/
theorem checkChecksumSeen_taken (s : State) : ChecksumPhaseTaken s (checkChecksumSeen s) := by
  unfold ChecksumPhaseTaken
  by_cases hwarm : cellBit .pif Config.stMain 2 s = true
  · rw [if_pos hwarm, checkChecksumSeen_warm hwarm]
    exact ⟨rfl, pifPc_unchanged _ s⟩
  · rw [if_neg hwarm, checkChecksumSeen_cold hwarm]
    exact ⟨rfl, push_unchanged _ _ s⟩

/-- The checksum window decoded (42 R215). -/
theorem checksumDecoded_spec (s : State) :
    readCells .pif Config.cksWin 16 (checksumDecoded s) =
      (decodeCells 0xF)^[4] (readCells .pif Config.cksWin 16 s) ∧
    CellsUnchangedOutside .pif (cellsFrom Config.cksWin 16) s (checksumDecoded s) ∧
    Unchanged (.mem .pif :: .carry .pif :: scratchRegisters .pif) s (checksumDecoded s) := by
  have hpasses := decodePasses_unchanged 4 .pif Config.cksWin s
  have hsettle := settle_unchanged_carry .pif false (passes 4 (decodePass .pif Config.cksWin) s)
  unfold checksumDecoded
  refine ⟨?_, fun a ha => ?_, hpasses.trans hsettle⟩
  · rw [hsettle.readCells (by decide), decodePasses_window]
    rfl
  · rw [readCell_settle, decodePasses_outside 4 .pif _ s a ha]

/-- Settles O21: the branch by `checkChecksumSeen_taken`, the exchange by its push and `checksumDecoded_spec`. -/
theorem checkChecksumPhase : Obligations.CheckChecksumPhase :=
  ⟨fun s hpc => ⟨_, exec_cmdCheckChecksum hpc, checkChecksumSeen_taken s⟩,
    fun _ hbit => awaitTest_runs (h := .checkChecksum) checkChecksumSeen_taken hbit,
    fun _ => continues_of_push rfl, fun s => ⟨_, rfl, checksumDecoded_spec s⟩,
    fun s => ⟨_, rfl, rfl, pifPc_unchanged _ s⟩⟩

/-! ## The compare (42 R216) -/

theorem exec_checksumCompare_equal {s : State} (h : checksumOfCic s = checksumOfCpu s) :
    exec .pifChecksumCompare s = .next (settle .pif false s) := if_pos h

theorem exec_checksumCompare_unequal {s : State} (h : checksumOfCic s ≠ checksumOfCpu s) :
    exec .pifChecksumCompare s = .next (raiseFatal .checksumMismatch s) := if_neg h

/-- Settles O22: the two lists are equal exactly when all pairs are (`readCells_eq_iff`). -/
theorem checksumCompared : Obligations.ChecksumCompared := by
  refine fun s => ⟨fun hall => ?_, fun i hi hne => ?_⟩
  · exact ⟨_, exec_checksumCompare_equal (readCells_eq_iff.2 hall), settle_unchanged_carry _ _ s⟩
  · have hlists : checksumOfCic s ≠ checksumOfCpu s := fun e => hne (readCells_eq_iff.1 e i hi)
    exact ⟨_, exec_checksumCompare_unequal hlists, raiseFatal_spec _ s⟩

/-! ## The boot-timer gate (42 R220) -/

theorem gateTest_terminated {s : State} (h : cellBit .pif Config.cmdCmd 3 s = true) :
    gateTest s = push .pif [.op .pifEnterRunning, .pos .settle] s := if_pos h

theorem gateTest_waiting {s : State} (h : cellBit .pif Config.cmdCmd 3 s = false) :
    gateTest s = if (tickTimer .boot s).1 = true then raiseFatal .bootTimerExhausted (tickTimer .boot s).2
      else push .pif [.op .poll, .pos .gateTest] (tickTimer .boot s).2 := if_neg (ne_true_of_eq_false h)

/-- Before the overflow a turn counts one and goes round. -/
theorem gateTest_counting {s : State} (h : cellBit .pif Config.cmdCmd 3 s = false)
    (hvalue : timerValue .boot s ≠ 65535) :
    gateTest s = push .pif [.op .poll, .pos .gateTest] (tickTimer .boot s).2 := by
  rw [gateTest_waiting h, if_neg (mt (tickTimer_overflow .boot s).1 hvalue)]

theorem gateTest_exhausted {s : State} (h : cellBit .pif Config.cmdCmd 3 s = false)
    (hvalue : timerValue .boot s = 65535) :
    gateTest s = raiseFatal .bootTimerExhausted (tickTimer .boot s).2 := by
  rw [gateTest_waiting h, if_pos ((tickTimer_overflow .boot s).2 hvalue)]

theorem tickTimer_unchanged (T : Timer) (s : State) : Unchanged [.mem .pif] s (tickTimer T s).2 :=
  tickChain_unchanged .pif (timerBase T) s

@[simp] theorem timerValue_push (T : Timer) (w : Who) (ts : List Task) (s : State) :
    timerValue T (push w ts s) = timerValue T s := by
  simp only [timerValue, readByte, readCell_push]

theorem timerValue_lt (T : Timer) (s : State) : timerValue T s < 65536 := by
  have hhigh := (readByte .pif (timerBase T + 2) s).isLt
  have hlow := (readByte .pif (timerBase T) s).isLt
  rw [timerValue]
  omega

/-- Tasks put before the others after a change of memory alone. -/
theorem continues_push_of_mem {w : Who} {s t : State} (h : Unchanged [.mem w] s t) (ts : List Task) :
    Continues w ts s (push w ts t) ∧ Unchanged [.mem w, .position w] s (push w ts t) := by
  have hcont : (t.eng w).cont = (s.eng w).cont := h (.position w) (by simp)
  exact ⟨(push_cont w ts t).trans (congrArg (ts ++ ·) hcont), h.trans (push_unchanged w ts t)⟩

/-- Settles O23: the start by the laws of `initTimer`, a turn by the three equations of `gateTest` and the laws of
`tickTimer`. -/
theorem bootTimerGate : Obligations.BootTimerGate := by
  refine ⟨fun s => ?_, fun s hbit => ?_, fun s hbit hvalue => ?_, fun s hbit hvalue => ?_, fun s hpc => ?_⟩
  · refine ⟨_, rfl, ?_, fun a ha => ?_, continues_push_of_mem (initTimer_unchanged .boot _ s) _⟩
    · rw [timerValue_push, timerValue_initTimer]
    · rw [readCell_push, initTimer_outside .boot _ s a ha]
  · exact continues_of_push (congrArg Host.Outcome.next (gateTest_terminated hbit))
  · have hlt := timerValue_lt .boot s
    refine ⟨_, congrArg Host.Outcome.next (gateTest_counting hbit hvalue), ?_, fun a ha => ?_,
      continues_push_of_mem (tickTimer_unchanged .boot s) _⟩
    · rw [timerValue_push, tickTimer_value]
      omega
    · rw [readCell_push, tickTimer_outside .boot s a ha]
  · exact ⟨_, _, congrArg Host.Outcome.next (gateTest_exhausted hbit hvalue), tickTimer_unchanged .boot s,
      tickTimer_outside .boot s, raiseFatal_spec _ _⟩
  · exact continues_of_push (congrArg Host.Outcome.next (if_pos hpc))

/-! ## `PIF.EnterRunning` (42 R221) -/

/-- A window holds the cells it was made from. -/
theorem toWindow_readCells (w : Who) (a : Addr) (s : State) :
    (toWindow (readCells w a 16 s)).toList = readCells w a 16 s :=
  List.map_congr_left (l := List.range 16) (f := fun i => (readCells w a 16 s).getD i 0) fun _ hi =>
    getD_readCells (List.mem_range.1 hi) w a s 0

/-- The two compare segments of the PIF stored (45 R320). -/
def storeSegments (k : Window × Window) (s : State) : State :=
  writeCells .pif Config.cmp1 k.2.toList (writeCells .pif Config.cmp0 k.1.toList s)

theorem storeSegments_outside (k : Window × Window) (s : State) :
    CellsUnchangedOutside .pif (cellsFrom Config.cmp0 16 ++ cellsFrom Config.cmp1 16) s (storeSegments k s) := by
  have hfirst := writeCells_outside .pif Config.cmp0 k.1.toList s
  have hsecond := writeCells_outside .pif Config.cmp1 k.2.toList (writeCells .pif Config.cmp0 k.1.toList s)
  rw [Vector.length_toList] at hfirst hsecond
  exact hfirst.trans hsecond

theorem storeSegments_unchanged (k : Window × Window) (s : State) : Unchanged [.mem .pif] s (storeSegments k s) :=
  (writeCells_unchanged .pif _ _ s).trans' (writeCells_unchanged .pif _ _ _)

/-- The two segments lie apart. -/
theorem cmp0_notMem_cmp1 : ∀ i < 16, cellAt Config.cmp0 i ∉ cellsFrom Config.cmp1 16 := by decide

/-- The windows at `a` and `b`, stored as they are. -/
theorem storeSegments_cells {i : Nat} (hi : i < 16) (a b : Addr) (s t : State) :
    readCell .pif (cellAt Config.cmp0 i)
      (storeSegments (toWindow (readCells .pif a 16 s), toWindow (readCells .pif b 16 s)) t) =
        readCell .pif (cellAt a i) s ∧
    readCell .pif (cellAt Config.cmp1 i)
      (storeSegments (toWindow (readCells .pif a 16 s), toWindow (readCells .pif b 16 s)) t) =
        readCell .pif (cellAt b i) s := by
  have hapart := cmp0_notMem_cmp1 i hi
  simp only [storeSegments, toWindow_readCells]
  refine ⟨?_, readCell_writeCells_readCells hi (by decide) _ _ _ _ _ _⟩
  rw [readCell_writeCells_outside _ _ _ _ _ (by rwa [length_readCells]),
    readCell_writeCells_readCells hi (by decide)]

/-- The segments that `PIF.EnterRunning` stores (42 R221). -/
def runningSegments (s : State) : Window × Window :=
  keySegments s.cfg (toWindow (readCells .pif (seedWin s.cfg) 16 s)) (toWindow (readCells .pif Config.cksWin 16 s))

theorem runningSegments_default {s : State} (h : s.cfg.compareKeyInit = .specDefault) :
    runningSegments s =
      (toWindow (readCells .pif (seedWin s.cfg) 16 s), toWindow (readCells .pif Config.cksWin 16 s)) := by
  rw [runningSegments, keySegments, h]

/-- The segments stored and `RUNNING` set (42 R221). -/
def keyedRunning (k : Window × Window) (s : State) : State :=
  setBit .pif Config.stMain bitRunning (storeSegments k s)

/-- The end of `PIF.EnterRunning`: the steady state (42 R221). -/
def enterSteady (s : State) : State := settle .pif false { s with pifPc := .running }

/-- `ST_MAIN` is in neither segment. -/
theorem stMain_notMem_segments : Config.stMain ∉ cellsFrom Config.cmp0 16 ++ cellsFrom Config.cmp1 16 := by decide

theorem keyedRunning_bit (k : Window × Window) (i : Nat) (s : State) :
    cellBit .pif Config.stMain i (keyedRunning k s) = if i = 1 then true else cellBit .pif Config.stMain i s := by
  rw [keyedRunning, cellBit_setBit]
  refine if_congr Iff.rfl rfl ?_
  rw [cellBit, storeSegments_outside k s _ stMain_notMem_segments, cellBit]

theorem keyedRunning_segment {a : Addr} (h : a ∈ cellsFrom Config.cmp0 16 ++ cellsFrom Config.cmp1 16)
    (k : Window × Window) (s : State) : readCell .pif a (keyedRunning k s) = readCell .pif a (storeSegments k s) :=
  setBit_outside .pif Config.stMain bitRunning _ a fun e => stMain_notMem_segments (List.mem_singleton.1 e ▸ h)

theorem keyedRunning_outside (k : Window × Window) (s : State) :
    CellsUnchangedOutside .pif (Config.stMain :: (cellsFrom Config.cmp0 16 ++ cellsFrom Config.cmp1 16)) s
      (keyedRunning k s) :=
  ((storeSegments_outside k s).trans (setBit_outside _ _ _ _)).mono (by simp)

theorem keyedRunning_unchanged (k : Window × Window) (s : State) : Unchanged [.mem .pif] s (keyedRunning k s) :=
  (storeSegments_unchanged k s).trans' (setBit_unchanged _ _ _ _)

theorem enterSteady_unchanged (s : State) :
    Unchanged (.pifPc :: .carry .pif :: scratchRegisters .pif) s (enterSteady s) :=
  (pifPc_unchanged .running s).trans (settle_unchanged_carry .pif false _)

theorem exec_pifEnterRunning (s : State) : exec .pifEnterRunning s =
    .next (enterSteady (keyedRunning (runningSegments s) (portWrite .pif .inten 3 s))) := by
  have hwrite := portWrite_unchanged .pif .inten 3 s
  rw [runningSegments, ← hwrite.readCells (by decide), ← hwrite.readCells (by decide)]
  rfl

/-- Settles O24: a port write, then the cells by the laws of `keyedRunning`, then the end by its frame. -/
theorem enterRunning : Obligations.EnterRunning := by
  intro s
  have hwrite := portWrite_unchanged .pif .inten 3 s
  have hkeyed := keyedRunning_unchanged (runningSegments s) (portWrite .pif .inten 3 s)
  have hsteady := enterSteady_unchanged (keyedRunning (runningSegments s) (portWrite .pif .inten 3 s))
  have hcell := hsteady (.mem .pif) (by decide)
  refine ⟨_, exec_pifEnterRunning s, ?_, ?_, rfl, fun i _ => ?_, fun hkey i hi => ?_, fun a ha => ?_,
    ((hwrite.trans hkeyed).trans hsteady).mono (by decide)⟩
  · have hlatch := (hkeyed.trans hsteady) (.latch .pif .inten) (by decide)
    exact Option.some_inj.1 (hlatch.trans (latchOf_portWrite_same .pif .inten 3 s))
  · exact (portWrite_logged .pif .inten 3 s).trans ((hkeyed.trans hsteady).logged_nil (by decide))
  · rw [cellBit, hcell, ← cellBit, keyedRunning_bit, cellBit, readCell_portWrite, cellBit]
  · rw [hcell, hcell, keyedRunning_segment (List.mem_append_left _ (cellAt_mem_cellsFrom hi _)),
      keyedRunning_segment (List.mem_append_right _ (cellAt_mem_cellsFrom hi _)), runningSegments_default hkey]
    exact storeSegments_cells hi _ _ s _
  · rw [hcell, keyedRunning_outside _ _ a ha, readCell_portWrite]

end Sys2Proof.Machine
end

section
/-! The PIF security loop (43 R240 to R264): the order of a turn's tests, the compare exchange with its rounds, the
challenge exchange, and the way back to cold boot. -/

namespace Sys2Proof.Machine

/-! ## Tasks put first after other changes, and cells that a change does not reach -/

/-- Tasks put before the others after changes that leave the position alone. -/
theorem Unchanged.continues_push {l : List Field} {s t : State} (h : Unchanged l s t) {w : Who}
    (hw : Field.position w ∉ l) (ts : List Task) :
    Continues w ts s (push w ts t) ∧ Unchanged (l ++ [.position w]) s (push w ts t) := by
  have hcont : (t.eng w).cont = (s.eng w).cont := h (.position w) hw
  exact ⟨(push_cont w ts t).trans (congrArg (ts ++ ·) hcont), h.trans (push_unchanged w ts t)⟩

/-- A run of cells apart from those stored to reads as before. -/
theorem CellsUnchangedOutside.readCells {w : Who} {l : List Addr} {s t : State} (h : CellsUnchangedOutside w l s t)
    {base : Addr} {n : Nat} (hbase : ∀ i < n, cellAt base i ∉ l) : readCells w base n t = readCells w base n s :=
  readCells_eq_iff.2 fun i hi => h _ (hbase i hi)

/-- Where the PIF's memory is not among what has changed, its timers hold what they held. -/
theorem Unchanged.timerValue {l : List Field} {s t : State} (h : Unchanged l s t) (hw : Field.mem .pif ∉ l)
    (T : Timer) : timerValue T t = timerValue T s := by
  have hcell (a : Addr) : readCell .pif a t = readCell .pif a s := h (.mem .pif) hw a
  simp only [Machine.timerValue, readByte, hcell]

/-- Where a memory is not among what has changed, the bits of its cells are as before. -/
theorem Unchanged.cellBit {l : List Field} {s t : State} (h : Unchanged l s t) {w : Who} (hw : Field.mem w ∉ l)
    (a : Addr) (i : Nat) : cellBit w a i t = cellBit w a i s := congrArg (bitOf · i) (h (.mem w) hw a)

theorem resetBit_outside (w : Who) (a : Addr) (b : BitVec 2) (s : State) :
    CellsUnchangedOutside w [a] s (resetBit w a b s) := writeCell_outside w a _ s

theorem resetBit_unchanged (w : Who) (a : Addr) (b : BitVec 2) (s : State) :
    Unchanged [.mem w] s (resetBit w a b s) := writeCell_unchanged w a _ s

/-! ## The running loop (43 R240, R241, R243) -/

theorem runTest_notRunning {s : State} (h : cellBit .pif Config.stMain 1 s = false) :
    runTest s = settle .pif false { s with pifPc := .resetting } := if_pos h

theorem runTest_running {s : State} (h : cellBit .pif Config.stMain 1 s = true) :
    runTest s = if cellBit .pif Config.stMain 0 s = true then
        push .pif [.op .pifChallengeExchange, .pos .challengeReturned] { s with pifPc := .challengePending }
      else push .pif [.op .pifCompareExchange, .op .pifRunningLoop] s := if_neg (ne_false_of_eq_true h)

theorem runTest_challenge {s : State} (hrun : cellBit .pif Config.stMain 1 s = true)
    (hchal : cellBit .pif Config.stMain 0 s = true) :
    runTest s =
      push .pif [.op .pifChallengeExchange, .pos .challengeReturned] { s with pifPc := .challengePending } := by
  rw [runTest_running hrun, if_pos hchal]

theorem runTest_compare {s : State} (hrun : cellBit .pif Config.stMain 1 s = true)
    (hchal : cellBit .pif Config.stMain 0 s = false) :
    runTest s = push .pif [.op .pifCompareExchange, .op .pifRunningLoop] s := by
  rw [runTest_running hrun, if_neg (ne_true_of_eq_false hchal)]

/-- Settles O26: the turn by its push, its tests by the three equations of `runTest`, and the way back after a challenge
by a change of control state. -/
theorem runningLoopOrder : Obligations.RunningLoopOrder := by
  refine ⟨fun _ => continues_of_push rfl, fun s hrun => ?_, fun s hrun hchal => ?_, fun s hrun hchal => ?_,
    fun s => ?_⟩
  · exact ⟨_, congrArg Host.Outcome.next (runTest_notRunning hrun), rfl,
      (pifPc_unchanged .resetting s).trans (settle_unchanged_carry .pif false _)⟩
  · exact ⟨_, congrArg Host.Outcome.next (runTest_challenge hrun hchal), rfl,
      (pifPc_unchanged .challengePending s).continues_push (by decide) _⟩
  · exact continues_of_push (congrArg Host.Outcome.next (runTest_compare hrun hchal))
  · exact ⟨_, rfl, rfl, (pifPc_unchanged .running s).continues_push (by decide) _⟩

/-! ## Rounds over a compare segment (45 R322) -/

theorem comparePass_window (e : Who) (a : Addr) (s : State) :
    toWindow (readCells e a 16 (comparePass e a s)) = Config.compareRound (toWindow (readCells e a 16 s)) := by
  have hback := readCells_writeCells e a (Config.compareRound (toWindow (readCells e a 16 s))).toList s
    (by rw [Vector.length_toList]; decide)
  rw [Vector.length_toList] at hback
  rw [← Vector.toList_inj, toWindow_readCells, comparePass, readWindow, hback]

theorem comparePass_outside (e : Who) (a : Addr) (s : State) :
    CellsUnchangedOutside e (cellsFrom a 16) s (comparePass e a s) := by
  have hout := writeCells_outside e a (Config.compareRound (toWindow (readWindow e a s))).toList s
  rwa [Vector.length_toList] at hout

theorem comparePasses_window (n : Nat) (e : Who) (a : Addr) (s : State) :
    toWindow (readCells e a 16 (passes n (comparePass e a) s)) =
      Config.compareRound^[n] (toWindow (readCells e a 16 s)) := by
  induction n generalizing s with
  | zero => rfl
  | succ n ih => rw [passes, ih, comparePass_window, Function.iterate_succ_apply]

theorem comparePasses_outside (n : Nat) (e : Who) (a : Addr) (s : State) :
    CellsUnchangedOutside e (cellsFrom a 16) s (passes n (comparePass e a) s) :=
  passes_invariant (P := CellsUnchangedOutside e (cellsFrom a 16) s)
    (fun u h b hb => (comparePass_outside e a u b hb).trans (h b hb)) n fun _ _ => rfl

/-- The segments of the PIF after their rounds (43 R245). -/
def segmentRounds (s : State) : State :=
  passes 3 (comparePass .pif Config.cmp1) (passes 3 (comparePass .pif Config.cmp0) s)

theorem cmp1_notMem_cmp0 : ∀ i < 16, cellAt Config.cmp1 i ∉ cellsFrom Config.cmp0 16 := by
  intro i hi hmem
  obtain ⟨j, hj, he⟩ := mem_cellsFrom.1 hmem
  exact cmp0_notMem_cmp1 j hj (he ▸ cellAt_mem_cellsFrom hi _)

theorem segmentRounds_cmp0 (s : State) : toWindow (readCells .pif Config.cmp0 16 (segmentRounds s)) =
    Config.compareRound^[3] (toWindow (readCells .pif Config.cmp0 16 s)) := by
  rw [segmentRounds, (comparePasses_outside 3 .pif Config.cmp1 _).readCells cmp0_notMem_cmp1, comparePasses_window]

theorem segmentRounds_cmp1 (s : State) : toWindow (readCells .pif Config.cmp1 16 (segmentRounds s)) =
    Config.compareRound^[3] (toWindow (readCells .pif Config.cmp1 16 s)) := by
  rw [segmentRounds, comparePasses_window, (comparePasses_outside 3 .pif Config.cmp0 s).readCells cmp1_notMem_cmp0]

theorem segmentRounds_outside (s : State) :
    CellsUnchangedOutside .pif (cellsFrom Config.cmp0 16 ++ cellsFrom Config.cmp1 16) s (segmentRounds s) :=
  (comparePasses_outside 3 .pif Config.cmp0 s).trans (comparePasses_outside 3 .pif Config.cmp1 _)

theorem segmentRounds_unchanged (s : State) : Unchanged [.mem .pif] s (segmentRounds s) :=
  (comparePasses_unchanged 3 .pif Config.cmp0 s).trans' (comparePasses_unchanged 3 .pif Config.cmp1 _)

/-! ## The compare exchange (43 R245, R247, R248) -/

/-- The PIF with the rounds over: its registers hold any value (log 31). -/
def roundsOver (s : State) : State := settle .pif false (segmentRounds s)

theorem compareKeyed_eq (s : State) : compareKeyed s =
    compareIndex (compareStart s.cfg (readCells .pif Config.cmp1 16 (roundsOver s))) (roundsOver s) := by
  have hcfg : (segmentRounds s).cfg = s.cfg := segmentRounds_unchanged s .cfg (by decide)
  rw [← hcfg]
  rfl

theorem readCell_roundsOver (a : Addr) (s : State) :
    readCell .pif a (roundsOver s) = readCell .pif a (segmentRounds s) := readCell_settle _ _ _ _ _

theorem readCells_roundsOver (a : Addr) (n : Nat) (s : State) :
    readCells .pif a n (roundsOver s) = readCells .pif a n (segmentRounds s) :=
  readCells_eq_iff.2 fun _ _ => readCell_roundsOver _ s

theorem roundsOver_unchanged (s : State) :
    Unchanged (.mem .pif :: .carry .pif :: scratchRegisters .pif) s (roundsOver s) :=
  (segmentRounds_unchanged s).trans (settle_unchanged_carry .pif false _)

/-- The default start is cell 7 of the segment, 1 where it is 0 (43 R247). -/
theorem compareStart_default {c : Params} (h : c.compareStart = .specDefault) (w : Who) (a : Addr) (s : State) :
    compareStart c (readCells w a 16 s) =
      if readCell w (cellAt a 7) s = 0 then 1 else readCell w (cellAt a 7) s := by
  simp only [compareStart, h, getD_readCells (n := 16) (i := 7) (by decide)]

theorem readCell_compareIndex (v : Who) (a : Addr) (i : Nibble) (s : State) :
    readCell v a (compareIndex i s) = readCell v a s := readCell_push _ _ _ _ _

theorem readCells_compareIndex (v : Who) (a : Addr) (n : Nat) (i : Nibble) (s : State) :
    readCells v a n (compareIndex i s) = readCells v a n s :=
  readCells_eq_iff.2 fun _ _ => readCell_compareIndex v _ i s

/-- What is next for an index: the PIF's bit out, the CIC's bit in, and the look at it. -/
theorem compareIndex_continues (i : Nibble) (s : State) :
    Continues .pif [.op (.writeBit (cellBit .pif (cellAt Config.cmp0 i.toNat) 0 s)), .op .readBit,
      .pos (.compareCheck i)] s (compareIndex i s) := push_cont .pif _ s

theorem compareCheck_mismatch {i : Nibble} {s : State}
    (h : retBit .pif s ≠ cellBit .pif (cellAt Config.cmp1 i.toNat) 0 s) :
    compareCheck i s = raiseFatal .compareMismatch s := if_pos h

theorem compareCheck_match {i : Nibble} {s : State}
    (h : retBit .pif s = cellBit .pif (cellAt Config.cmp1 i.toNat) 0 s) :
    compareCheck i s = if compareNext s.cfg i = 0 then settle .pif false s else compareIndex (compareNext s.cfg i) s :=
  if_neg (not_not.2 h)

/-- An index steps up or down modulo 16 (43 R245). -/
theorem compareNext_toNat (c : Params) (i : Nibble) :
    (c.cmpDir = .up → (compareNext c i).toNat = (i.toNat + 1) % 16) ∧
    (c.cmpDir = .down → (compareNext c i).toNat = (i.toNat + 15) % 16) := by
  refine ⟨fun h => ?_, fun h => ?_⟩
  · simp only [compareNext, h]
    exact BitVec.toNat_add i 1
  · simp only [compareNext, h]
    exact (BitVec.toNat_sub i 1).trans (congrArg (· % 16) (Nat.add_comm 15 i.toNat))

/-- The first index with its segments (43 R245, R247). -/
theorem compareKeyed_spec (s : State) : ∃ i : Nibble,
    toWindow (readCells .pif Config.cmp0 16 (compareKeyed s)) =
      Config.compareRound^[3] (toWindow (readCells .pif Config.cmp0 16 s)) ∧
    toWindow (readCells .pif Config.cmp1 16 (compareKeyed s)) =
      Config.compareRound^[3] (toWindow (readCells .pif Config.cmp1 16 s)) ∧
    CellsUnchangedOutside .pif (cellsFrom Config.cmp0 16 ++ cellsFrom Config.cmp1 16) s (compareKeyed s) ∧
    (s.cfg.compareStart = .specDefault → i = (if readCell .pif (cellAt Config.cmp1 7) (compareKeyed s) = 0 then 1
      else readCell .pif (cellAt Config.cmp1 7) (compareKeyed s))) ∧
    Continues .pif [.op (.writeBit (cellBit .pif (cellAt Config.cmp0 i.toNat) 0 (compareKeyed s))), .op .readBit,
      .pos (.compareCheck i)] s (compareKeyed s) ∧
    Unchanged (.mem .pif :: .position .pif :: .carry .pif :: scratchRegisters .pif) s (compareKeyed s) := by
  rw [compareKeyed_eq]
  generalize hi : compareStart s.cfg (readCells .pif Config.cmp1 16 (roundsOver s)) = i
  obtain ⟨hcont, hframe⟩ := (roundsOver_unchanged s).continues_push (w := .pif) (by decide)
    [.op (.writeBit (cellBit .pif (cellAt Config.cmp0 i.toNat) 0 (roundsOver s))), .op .readBit, .pos (.compareCheck i)]
  refine ⟨i, ?_, ?_, fun a ha => ?_, fun hstart => ?_, ?_, hframe.mono (by decide)⟩
  · rw [readCells_compareIndex, readCells_roundsOver, segmentRounds_cmp0]
  · rw [readCells_compareIndex, readCells_roundsOver, segmentRounds_cmp1]
  · rw [readCell_compareIndex, readCell_roundsOver, segmentRounds_outside s a ha]
  · rw [readCell_compareIndex, ← hi, compareStart_default hstart]
  · rw [(push_unchanged .pif _ (roundsOver s)).cellBit (t := compareIndex i (roundsOver s)) (by decide)]
    exact hcont

/-- Settles O27: the selector by its push, the rounds and the first index by `compareKeyed_spec`, an index by the two
equations of `compareCheck`. -/
theorem compareExchange : Obligations.CompareExchange := by
  refine ⟨fun s => continues_of_push rfl, fun s => ?_, fun s i => ⟨_, rfl, fun hbit => ?_, fun hbit hlast => ?_,
    fun hbit hmore => ?_⟩, compareNext_toNat⟩
  · obtain ⟨i, hspec⟩ := compareKeyed_spec s
    exact ⟨_, i, rfl, hspec⟩
  · rw [resume, compareCheck_mismatch hbit]
    exact raiseFatal_spec .compareMismatch s
  · rw [resume, compareCheck_match hbit, if_pos hlast]
    exact settle_unchanged_carry .pif false s
  · rw [resume, compareCheck_match hbit, if_neg hmore]
    exact ⟨push_unchanged .pif _ s, compareIndex_continues _ s⟩

/-! ## The challenge exchange (43 R250, R252) -/

theorem challengeVerify_passed {sent : List Nibble} {s : State}
    (h : challengeVerified s.cfg sent (readCells .pif Config.shChal 32 s) = true) :
    challengeVerify sent s = push .pif [.op .ackTransfer, .pos .settle] (resetBit .pif Config.stMain bitChalPend s) :=
  if_pos h

theorem challengeVerify_failed {sent : List Nibble} {s : State}
    (h : ¬challengeVerified s.cfg sent (readCells .pif Config.shChal 32 s) = true) :
    challengeVerify sent s = raiseFatal .challengeMismatch s := if_neg h

/-- The default check passes every response (43 R252). -/
theorem challengeVerified_default {c : Params} (h : c.chalVerify = .specDefault) (sent received : List Nibble) :
    challengeVerified c sent received = true := by
  rw [challengeVerified, h]

/-- Settles O28: selector and transfer by their pushes, the verdict by the two equations of `challengeVerify`. -/
theorem challengeExchange : Obligations.ChallengeExchange := by
  refine ⟨fun s => continues_of_push rfl, fun s => continues_of_push rfl, fun s sent => ⟨_, rfl, ?_,
    fun hdefault => challengeVerified_default hdefault _ _⟩⟩
  by_cases h : challengeVerified s.cfg sent (readCells .pif Config.shChal 32 s) = true
  · rw [if_pos h, resume, challengeVerify_passed h]
    refine ⟨fun i hi => ?_, fun a ha => ?_, (resetBit_unchanged .pif _ _ s).continues_push (by decide) _⟩
    · rw [(push_unchanged .pif _ _).cellBit (by decide), cellBit_resetBit hi]
      rfl
    · rw [readCell_push, resetBit_outside _ _ _ s a ha]
  · rw [if_neg h, resume, challengeVerify_failed h]
    exact raiseFatal_spec .challengeMismatch s

/-! ## The wait of `PIF.Resetting` (43 R260, R261) -/

/-- A look at the link that does not find the peer's clock, and the tick after it (43 R260). -/
def lookAndTick (s : State) : Bool × State := tickTimer .reset (portRead .pif .cic s).2

theorem resetWait_ready {s : State} (h : peerClk (portRead .pif .cic s).1 = true) :
    resetWait s = push .pif [.op .readBit, .pos .resetReady] (portRead .pif .cic s).2 := if_pos h

theorem resetWait_waiting {s : State} (h : peerClk (portRead .pif .cic s).1 = false) :
    resetWait s = if (lookAndTick s).1 = true then raiseFatal .resetTimerExhausted (lookAndTick s).2
      else push .pif [.pos .resetWait] (lookAndTick s).2 := if_neg (ne_true_of_eq_false h)

/-- A look at the link counts no tick. -/
theorem timerValue_look (T : Timer) (s : State) : timerValue T (portRead .pif .cic s).2 = timerValue T s :=
  (portRead_unchanged .pif .cic s).timerValue (by decide) T

theorem lookAndTick_value (s : State) :
    timerValue .reset (lookAndTick s).2 = (timerValue .reset s + 1) % 65536 := by
  rw [lookAndTick, tickTimer_value, timerValue_look]

theorem lookAndTick_overflow (s : State) : (lookAndTick s).1 = true ↔ timerValue .reset s = 65535 := by
  rw [lookAndTick, tickTimer_overflow, timerValue_look]

theorem resetWait_counting {s : State} (h : peerClk (portRead .pif .cic s).1 = false)
    (hvalue : timerValue .reset s ≠ 65535) : resetWait s = push .pif [.pos .resetWait] (lookAndTick s).2 := by
  rw [resetWait_waiting h, if_neg (mt (lookAndTick_overflow s).1 hvalue)]

theorem resetWait_exhausted {s : State} (h : peerClk (portRead .pif .cic s).1 = false)
    (hvalue : timerValue .reset s = 65535) :
    resetWait s = raiseFatal .resetTimerExhausted (lookAndTick s).2 := by
  rw [resetWait_waiting h, if_pos ((lookAndTick_overflow s).2 hvalue)]

/-- The event of the look, the four cells of the timer, and what the look uses up are all that changes. -/
theorem lookAndTick_spec (s : State) :
    Logged .pif [.read .cic (portRead .pif .cic s).1] s (lookAndTick s).2 ∧
    CellsUnchangedOutside .pif (cellsFrom Config.resetTimer 4) s (lookAndTick s).2 ∧
    Unchanged (.mem .pif :: .log .pif :: portSupply) s (lookAndTick s).2 := by
  have hlook := portRead_unchanged .pif .cic s
  have htick := tickTimer_unchanged .reset (portRead .pif .cic s).2
  refine ⟨?_, fun a ha => ?_, (hlook.trans htick).mono (by decide)⟩
  · exact (portRead_logged .pif .cic s).trans (htick.logged_nil (by decide))
  · rw [lookAndTick, tickTimer_outside .reset _ a ha, hlook (.mem .pif) (by decide) a]

/-! ## The end of `PIF.Resetting` (43 R262 to R264) -/

/-- The NMI pulse: both signals raised, then released (43 R262). -/
def nmiPulse (s : State) : State := portWrite .pif .reset 0 (portWrite .pif .reset 3 s)

theorem nmiPulse_logged (s : State) : Logged .pif [.write .reset 3, .write .reset 0] s (nmiPulse s) :=
  (portWrite_logged .pif .reset 3 s).trans (portWrite_logged .pif .reset 0 _)

theorem nmiPulse_unchanged (s : State) : Unchanged [.latch .pif .reset, .log .pif] s (nmiPulse s) :=
  (portWrite_unchanged .pif .reset 3 s).trans' (portWrite_unchanged .pif .reset 0 _)

/-- The next boot marked warm, a pending challenge dropped (43 R262, R263). -/
def markWarm (s : State) : State :=
  resetBit .pif Config.stMain bitChalPend (setBit .pif Config.stMain bitWarm s)

theorem markWarm_bit {i : Nat} (hi : i < 4) (s : State) : cellBit .pif Config.stMain i (markWarm s) =
    if i = 2 then true else if i = 0 then false else cellBit .pif Config.stMain i s := by
  rw [markWarm, cellBit_resetBit hi, cellBit_setBit]
  by_cases hchal : i = bitChalPend.toNat
  · rw [hchal]
    rfl
  · rw [if_neg hchal]
    exact if_congr Iff.rfl rfl (if_neg hchal).symm

theorem markWarm_outside (s : State) : CellsUnchangedOutside .pif [Config.stMain] s (markWarm s) :=
  ((setBit_outside .pif _ _ s).trans (resetBit_outside .pif _ _ _)).mono (by simp)

theorem markWarm_unchanged (s : State) : Unchanged [.mem .pif] s (markWarm s) :=
  (setBit_unchanged .pif _ _ s).trans' (resetBit_unchanged .pif _ _ _)

/-- Both sources off, back to cold boot, the registers at any value (43 R262, R264). -/
def backToColdBoot (s : State) : State :=
  settle .pif false { portWrite .pif .inten 0 s with pifPc := .coldBoot }

theorem backToColdBoot_logged (s : State) : Logged .pif [.write .inten 0] s (backToColdBoot s) := rfl

theorem backToColdBoot_control (s : State) :
    (backToColdBoot s).pifLatch.inten = 0 ∧ (backToColdBoot s).pifPc = .coldBoot := ⟨rfl, rfl⟩

theorem backToColdBoot_unchanged (s : State) :
    Unchanged (.latch .pif .inten :: .log .pif :: .pifPc :: .carry .pif :: scratchRegisters .pif) s
      (backToColdBoot s) :=
  ((portWrite_unchanged .pif .inten 0 s).trans (pifPc_unchanged .coldBoot _)).trans
    (settle_unchanged_carry .pif false _)

theorem resetReady_eq (s : State) : resetReady s = backToColdBoot (markWarm (nmiPulse s)) := rfl

/-- All that the ready bit brings about (43 R262 to R264). -/
theorem resetReady_spec (s : State) :
    Logged .pif [.write .reset 3, .write .reset 0, .write .inten 0] s (resetReady s) ∧
    (resetReady s).pif.latch.reset = 0 ∧ (resetReady s).pifLatch.inten = 0 ∧ (resetReady s).pifPc = .coldBoot ∧
    (∀ i < 4, cellBit .pif Config.stMain i (resetReady s) =
      if i = 2 then true else if i = 0 then false else cellBit .pif Config.stMain i s) ∧
    CellsUnchangedOutside .pif [Config.stMain] s (resetReady s) ∧
    Unchanged (.mem .pif :: .latch .pif .reset :: .latch .pif .inten :: .log .pif :: .pifPc :: .carry .pif ::
      scratchRegisters .pif) s (resetReady s) := by
  have hpulse := nmiPulse_unchanged s
  have hwarm := markWarm_unchanged (nmiPulse s)
  have hback := backToColdBoot_unchanged (markWarm (nmiPulse s))
  obtain ⟨hinten, hpc⟩ := backToColdBoot_control (markWarm (nmiPulse s))
  rw [resetReady_eq]
  refine ⟨?_, rfl, hinten, hpc, fun i hi => ?_, fun a ha => ?_, ((hpulse.trans hwarm).trans hback).mono (by decide)⟩
  · exact ((nmiPulse_logged s).trans (hwarm.logged_nil (by decide))).trans (backToColdBoot_logged _)
  · rw [hback.cellBit (by decide), markWarm_bit hi, hpulse.cellBit (by decide)]
  · rw [hback (.mem .pif) (by decide), markWarm_outside _ a ha, hpulse (.mem .pif) (by decide)]

/-- Settles O29: the start by two changes and its push, the timer by the laws of `initTimer`, a turn of the wait by the
three equations of `resetWait`, the end by `resetReady_spec`. -/
theorem resettingSequence : Obligations.ResettingSequence := by
  refine ⟨fun s => ⟨_, rfl, rfl, (ie_unchanged false s).continues_push (by decide) _⟩, fun s => ⟨_, rfl, ?_,
    fun a ha => ?_, (initTimer_unchanged .reset _ s).continues_push (by decide) _⟩,
    fun s => ⟨_, rfl, fun hclk => ?_, fun hclk hvalue => ?_, fun hclk hvalue => ?_⟩,
    fun s => ⟨_, rfl, resetReady_spec s⟩⟩
  · rw [resume, resetSelected, timerValue_push, timerValue_initTimer]
  · rw [resume, resetSelected, readCell_push, initTimer_outside .reset _ s a ha]
  · obtain ⟨hcont, hframe⟩ := (portRead_unchanged .pif .cic s).continues_push (w := .pif) (by decide)
      [.op .readBit, .pos .resetReady]
    rw [resume, resetWait_ready hclk]
    exact ⟨(push_log .pif .pif _ _).trans (portRead_logged .pif .cic s), hcont, hframe.mono (by decide)⟩
  · obtain ⟨hlog, hout, hchange⟩ := lookAndTick_spec s
    obtain ⟨hcont, hframe⟩ := hchange.continues_push (w := .pif) (by decide) [.pos .resetWait]
    have hlt := timerValue_lt .reset s
    rw [resume, resetWait_counting hclk hvalue]
    refine ⟨(push_log .pif .pif _ _).trans hlog, ?_, fun a ha => ?_, hcont, hframe.mono (by decide)⟩
    · rw [timerValue_push, lookAndTick_value]
      omega
    · rw [readCell_push, hout a ha]
  · obtain ⟨hlog, hout, hchange⟩ := lookAndTick_spec s
    rw [resume, resetWait_exhausted hclk hvalue]
    exact ⟨_, hlog, hout, hchange, raiseFatal_spec _ _⟩

end Sys2Proof.Machine
end

section
/-! The frame list of the JoyBus (44 R270 to R283): what an item does, said once as a mark in the channel table and a move of
the parse position; the parse as a chain of items; and why a second parse of the same list gives the same table. -/

namespace Sys2Proof.Machine

/-! ## An item (44 R276 to R280) -/

/-- Where the parse stands after an item at `p`. -/
def itemParse (i : JbItem) (p : ParsePos) : ParsePos :=
  match i with
  | .skip => ⟨p.p + 2, p.ch + 1, p.stop⟩
  | .reset => ⟨p.p + 2, p.ch + 1, p.stop⟩
  | .nop => ⟨p.p + 2, p.ch, p.stop⟩
  | .stop => ⟨p.p, p.ch, true⟩
  | .xfer tx rx => ⟨p.p + 2 * (2 + jbCount tx + jbCount rx), p.ch + 1, p.stop⟩

/-- What an item at `p` writes in the channel table. -/
def markItem (i : JbItem) (p : ParsePos) (s : State) : State :=
  match i with
  | .skip => s
  | .reset => writeCell .pif (Config.jbStat p.ch) statReset s
  | .nop => s
  | .stop => s
  | .xfer _ _ => recordItem p.ch (BitVec.ofNat 8 p.p) s

/-- An item is its mark and its move. -/
theorem applyItem_eq (i : JbItem) (s : State) :
    applyItem i s = { markItem i s.parse s with parse := itemParse i s.parse } := by
  cases i with
  | skip => rfl
  | reset => rfl
  | nop => rfl
  | stop => rfl
  | xfer tx rx => rfl

/-- The three cells of a channel in the table (10 R39). -/
def channelCells (ch : Nat) : List Addr := [Config.jbOffHi ch, Config.jbOffLo ch, Config.jbStat ch]

theorem markItem_outside (i : JbItem) (p : ParsePos) (s : State) :
    CellsUnchangedOutside .pif (channelCells p.ch) s (markItem i p s) := by
  cases i with
  | skip => exact fun _ _ => rfl
  | reset => exact (writeCell_outside .pif _ _ s).mono (by simp [channelCells])
  | nop => exact fun _ _ => rfl
  | stop => exact fun _ _ => rfl
  | xfer tx rx => exact recordItem_outside _ _ s

theorem markItem_unchanged (i : JbItem) (p : ParsePos) (s : State) : Unchanged [.mem .pif] s (markItem i p s) := by
  cases i with
  | skip => exact Unchanged.refl _ s
  | reset => exact writeCell_unchanged _ _ _ s
  | nop => exact Unchanged.refl _ s
  | stop => exact Unchanged.refl _ s
  | xfer tx rx => exact recordItem_unchanged _ _ s

/-- A transfer item leaves a cell with the same value in any two states, or as it was in both. -/
theorem recordItem_writes_or_keeps (ch : Nat) (pos a : Addr) (x y : State) :
    readCell .pif a (recordItem ch pos y) = readCell .pif a (recordItem ch pos x) ∨
    (readCell .pif a (recordItem ch pos y) = readCell .pif a y ∧
      readCell .pif a (recordItem ch pos x) = readCell .pif a x) := by
  obtain ⟨hhi, hlo, hstat⟩ := recordItem_cells ch pos x
  obtain ⟨hhi', hlo', hstat'⟩ := recordItem_cells ch pos y
  by_cases ha : a ∈ channelCells ch
  · left
    simp only [channelCells, List.mem_cons, List.not_mem_nil, or_false] at ha
    obtain rfl | rfl | rfl := ha
    · exact hhi'.trans hhi.symm
    · exact hlo'.trans hlo.symm
    · exact hstat'.trans hstat.symm
  · exact .inr ⟨recordItem_outside ch pos y a ha, recordItem_outside ch pos x a ha⟩

/-- What an item leaves in a cell is either its own, whatever the state was, or what the cell held. -/
theorem markItem_writes_or_keeps (i : JbItem) (p : ParsePos) (a : Addr) (x y : State) :
    readCell .pif a (markItem i p y) = readCell .pif a (markItem i p x) ∨
    (readCell .pif a (markItem i p y) = readCell .pif a y ∧
      readCell .pif a (markItem i p x) = readCell .pif a x) := by
  cases i with
  | skip => exact .inr ⟨rfl, rfl⟩
  | reset =>
    simp only [markItem, readCell_writeCell]
    by_cases ha : a = Config.jbStat p.ch
    · simp [ha]
    · simp [ha]
  | nop => exact .inr ⟨rfl, rfl⟩
  | stop => exact .inr ⟨rfl, rfl⟩
  | xfer tx rx => exact recordItem_writes_or_keeps _ _ a x y

theorem applyItem_parse (i : JbItem) (s : State) : (applyItem i s).parse = itemParse i s.parse := by
  rw [applyItem_eq]

theorem readCell_applyItem (i : JbItem) (a : Addr) (s : State) :
    readCell .pif a (applyItem i s) = readCell .pif a (markItem i s.parse s) := by
  rw [applyItem_eq, readCell_parse]

theorem applyItem_unchanged (i : JbItem) (s : State) : Unchanged [.mem .pif, .parse] s (applyItem i s) := by
  rw [applyItem_eq]
  exact (markItem_unchanged i s.parse s).trans (parse_unchanged _ _)

/-- Settles O30: `JB.RESET` is a mark and a move of the parse position, the others a move alone. -/
theorem oneByteItems : Obligations.OneByteItems := by
  intro s
  refine ⟨⟨_, rfl, rfl, parse_unchanged _ s⟩, ⟨_, rfl, applyItem_parse .reset s, ?_, fun a ha => ?_,
    applyItem_unchanged .reset s⟩, ⟨_, rfl, rfl, parse_unchanged _ s⟩, ⟨_, rfl, rfl, parse_unchanged _ s⟩⟩
  · exact (readCell_applyItem .reset _ s).trans (readCell_writeCell_same _ _ _ s)
  · exact (readCell_applyItem .reset a s).trans (writeCell_outside _ _ _ s a ha)

/-! ## The channel table and the shared region -/

theorem channelCells_subset_table : ∀ ch < 5, channelCells ch ⊆ cellsFrom Config.jbTable 15 := by decide

theorem statusCells_subset_table : (List.range 5).map Config.jbStat ⊆ cellsFrom Config.jbTable 15 := by decide

/-- No cell of the shared region is one of the table (20 R80, R82). -/
theorem shared_notMem_table {a : Addr} (h : 0x80 ≤ a.toNat) : a ∉ cellsFrom Config.jbTable 15 := by
  intro hm
  obtain ⟨i, hi, rfl⟩ := mem_cellsFrom.1 hm
  simp only [cellAt, Config.jbTable] at h
  bv_omega

/-- The items move on by whole bytes (44 R274). -/
theorem ParsePos.Aligned.itemParse {p : ParsePos} (h : p.Aligned) (i : JbItem) : (Machine.itemParse i p).Aligned := by
  cases i with
  | skip => exact h.advance 1 _
  | reset => exact h.advance 1 _
  | nop => exact h.advance 1 _
  | stop => exact h
  | xfer tx rx => exact h.advance _ _

/-- An item moves on by a byte or more, or stops the parse. -/
theorem itemParse_advances (i : JbItem) (p : ParsePos) :
    p.p + 2 ≤ (itemParse i p).p ∨ (itemParse i p).stop = true := by
  cases i with
  | skip => exact .inl le_rfl
  | reset => exact .inl le_rfl
  | nop => exact .inl le_rfl
  | stop => exact .inr rfl
  | xfer tx rx =>
    left
    simp only [itemParse]
    omega

/-- A byte of the shared region is the same where its cells are: `Byte(p)` for `p` even and at most 0xFE. -/
theorem frameByte_congr {x y : State} (h : ∀ a : Addr, 0x80 ≤ a.toNat → readCell .pif a y = readCell .pif a x)
    {p : Nat} (hlow : 0x80 ≤ p) (hhigh : p < 0xFF) : frameByte p y = frameByte p x := by
  have hfirst : 0x80 ≤ (BitVec.ofNat 8 p).toNat := by
    rw [BitVec.toNat_ofNat]
    omega
  have hsecond : 0x80 ≤ (BitVec.ofNat 8 p + 1).toNat := by bv_omega
  rw [frameByte, frameByte, readByte, readByte, h _ hfirst, h _ hsecond]

/-- The item at a position before the command byte is read from the shared region alone (44 R274). -/
theorem itemAt_congr {x y : State} (hp : y.parse = x.parse) (halign : x.parse.Aligned) (hbound : x.parse.p < 0xFE)
    (h : ∀ a : Addr, 0x80 ≤ a.toNat → readCell .pif a y = readCell .pif a x) : itemAt y = itemAt x := by
  obtain ⟨hlow, heven⟩ := halign
  rw [itemAt, itemAt, hp, frameByte_congr h hlow (by omega), frameByte_congr h (by omega) (by omega)]

/-- An item of one of the five channels writes the table alone. -/
theorem applyItem_outside (i : JbItem) {s : State} (hch : s.parse.ch < 5) :
    CellsUnchangedOutside .pif (cellsFrom Config.jbTable 15) s (applyItem i s) := fun a ha => by
  rw [readCell_applyItem, markItem_outside i _ s a fun hm => ha (channelCells_subset_table _ hch hm)]

/-! ## The parse loop (44 R273, R274) -/

theorem parseItems_open {s : State} (h : parseOpen s = true) (n : Nat) :
    parseItems (n + 1) s = parseItems n (applyItem (itemAt s) s) := if_pos h

theorem parseItems_over {s : State} (h : parseOpen s = false) (n : Nat) : parseItems n s = s := by
  cases n with
  | zero => rfl
  | succ n => exact if_neg (ne_true_of_eq_false h)

theorem parseOpen_congr {x y : State} (hp : y.parse = x.parse) : parseOpen y = parseOpen x := by
  rw [parseOpen, parseOpen, hp]

/-- A parse that is over has met one of its three stops. -/
theorem parseOver_iff (s : State) :
    parseOpen s = false ↔ s.parse.stop = true ∨ 5 ≤ s.parse.ch ∨ 0xFE ≤ s.parse.p := by
  rw [← Bool.not_eq_true, parseOpen_iff]
  cases s.parse.stop with
  | true => simp
  | false =>
    simp only [true_and, Bool.false_eq_true, false_or]
    omega

theorem parseItems_add (m n : Nat) (s : State) : parseItems (m + n) s = parseItems n (parseItems m s) := by
  induction m generalizing s with
  | zero => rw [Nat.zero_add, parseItems]
  | succ m ih =>
    rw [Nat.add_right_comm]
    cases h : parseOpen s with
    | true => rw [parseItems_open h, parseItems_open h, ih]
    | false => rw [parseItems_over h, parseItems_over h, parseItems_over h]

/-- One more item at the end of the loop. -/
theorem parseItems_succ_of_open {n : Nat} {s : State} (h : parseOpen (parseItems n s) = true) :
    parseItems (n + 1) s = applyItem (itemAt (parseItems n s)) (parseItems n s) := by
  rw [parseItems_add, parseItems_open h, parseItems]

/-- Enough items bring the parse to one of its stops (44 R274). -/
theorem parseOpen_parseItems {n : Nat} {s : State} (h : 0xFE ≤ s.parse.p + 2 * n ∨ s.parse.stop = true) :
    parseOpen (parseItems n s) = false := by
  induction n generalizing s with
  | zero => exact (parseOver_iff s).2 (h.elim (.inr ∘ .inr) .inl)
  | succ n ih =>
    cases hopen : parseOpen s with
    | false => rwa [parseItems_over hopen]
    | true =>
      obtain ⟨hstop, -, -⟩ := (parseOpen_iff s).1 hopen
      have hlow : 0xFE ≤ s.parse.p + 2 * (n + 1) := h.resolve_right (by simp [hstop])
      rw [parseItems_open hopen]
      refine ih ?_
      rw [applyItem_parse]
      exact (itemParse_advances (itemAt s) s.parse).imp_left fun hmove => by omega

theorem parseItems_unchanged (n : Nat) (s : State) : Unchanged [.mem .pif, .parse] s (parseItems n s) := by
  induction n generalizing s with
  | zero => exact Unchanged.refl _ s
  | succ n ih =>
    cases h : parseOpen s with
    | true =>
      rw [parseItems_open h]
      exact (applyItem_unchanged _ s).trans' (ih _)
    | false =>
      rw [parseItems_over h]
      exact Unchanged.refl _ s

/-- The loop writes the channel table alone (44 R282). -/
theorem parseItems_outside (n : Nat) (s : State) :
    CellsUnchangedOutside .pif (cellsFrom Config.jbTable 15) s (parseItems n s) := by
  induction n generalizing s with
  | zero => exact fun _ _ => rfl
  | succ n ih =>
    intro a ha
    cases h : parseOpen s with
    | true =>
      obtain ⟨-, hch, -⟩ := (parseOpen_iff s).1 h
      rw [parseItems_open h, ih _ a ha, applyItem_outside _ hch a ha]
    | false => rw [parseItems_over h]

/-- The loop run again from a state in which some cells already hold what the loop leaves in them leaves the same cells:
the items are read from the shared region, and each cell is written alike in both runs or in neither. -/
theorem parseItems_again {n : Nat} {x y : State} (hp : y.parse = x.parse) (halign : x.parse.Aligned)
    (h : ∀ a : Addr, readCell .pif a y = readCell .pif a x ∨
      readCell .pif a y = readCell .pif a (parseItems n x)) (a : Addr) :
    readCell .pif a (parseItems n y) = readCell .pif a (parseItems n x) := by
  induction n generalizing x y with
  | zero => exact (h a).elim id id
  | succ n ih =>
    cases hopen : parseOpen x with
    | false =>
      rw [parseItems_over hopen] at h ⊢
      rw [parseItems_over ((parseOpen_congr hp).trans hopen)]
      exact (h a).elim id id
    | true =>
      obtain ⟨-, -, hbound⟩ := (parseOpen_iff x).1 hopen
      have hshared : ∀ b : Addr, 0x80 ≤ b.toNat → readCell .pif b y = readCell .pif b x := fun b hb =>
        (h b).elim id fun e => e.trans (parseItems_outside _ x b (shared_notMem_table hb))
      have hitem : itemAt y = itemAt x := itemAt_congr hp halign hbound hshared
      rw [parseItems_open hopen] at h ⊢
      rw [parseItems_open ((parseOpen_congr hp).trans hopen), hitem]
      refine ih ?_ ?_ fun b => ?_
      · rw [applyItem_parse, applyItem_parse, hp]
      · rw [applyItem_parse]
        exact halign.itemParse _
      · simp only [readCell_applyItem, hp]
        obtain hsame | ⟨hy, hx⟩ := markItem_writes_or_keeps (itemAt x) x.parse b x y
        · exact .inl hsame
        · rw [hy, hx]
          exact h b

/-! ## `PIF.JoybusParse` (44 R273, R275, R282) -/

/-- The state in which the parse takes its first item (44 R273, R275). -/
def openParse (s : State) : State := { skipAll s with parse := ⟨Config.shBase, 0, false⟩ }

/-- The state in which the parse is over, but for the registers. -/
def parsed (s : State) : State := parseItems parseBound (openParse s)

theorem exec_pifJoybusParse (s : State) : exec .pifJoybusParse s = .next (settle .pif false (parsed s)) := rfl

theorem readCell_openParse (a : Addr) (s : State) : readCell .pif a (openParse s) =
    if a ∈ (List.range 5).map Config.jbStat then statSkip else readCell .pif a s := by
  rw [openParse, readCell_parse, readCell_skipAll]

theorem openParse_outside (s : State) :
    CellsUnchangedOutside .pif ((List.range 5).map Config.jbStat) s (openParse s) := fun a ha => by
  rw [readCell_openParse, if_neg ha]

theorem openParse_skipped {ch : Nat} (hch : ch < 5) (s : State) :
    readCell .pif (Config.jbStat ch) (openParse s) = statSkip := by
  rw [readCell_openParse, if_pos (List.mem_map_of_mem (List.mem_range.2 hch))]

theorem openParse_unchanged (s : State) : Unchanged [.mem .pif, .parse] s (openParse s) :=
  (skipAll_unchanged s).trans (parse_unchanged _ _)

theorem openParse_aligned (s : State) : (openParse s).parse.Aligned :=
  (by decide : 0x80 ≤ Config.shBase ∧ Config.shBase % 2 = 0)

/-- The bound on the number of items is never what ends the parse (44 R274). -/
theorem parseOpen_parsed (s : State) : parseOpen (parsed s) = false :=
  parseOpen_parseItems (.inl (by decide : 0xFE ≤ Config.shBase + 2 * parseBound))

theorem parsed_outside (s : State) :
    CellsUnchangedOutside .pif (cellsFrom Config.jbTable 15) s (parsed s) := fun a ha =>
  (parseItems_outside _ _ a ha).trans ((openParse_outside s).mono statusCells_subset_table a ha)

theorem parsed_unchanged (s : State) : Unchanged [.mem .pif, .parse] s (parsed s) :=
  (openParse_unchanged s).trans' (parseItems_unchanged _ _)

/-- A parse of a memory that a parse has left leaves it as it is (44 R282). -/
theorem parsed_again {s t : State} (h : ∀ a : Addr, readCell .pif a t = readCell .pif a (parsed s)) (a : Addr) :
    readCell .pif a (parsed t) = readCell .pif a t := by
  rw [h]
  refine parseItems_again (n := parseBound) (x := openParse s) (y := openParse t) rfl (openParse_aligned s)
    (fun b => ?_) a
  rw [readCell_openParse, readCell_openParse]
  by_cases hb : b ∈ (List.range 5).map Config.jbStat
  · rw [if_pos hb, if_pos hb]
    exact .inl rfl
  · rw [if_neg hb]
    exact .inr (h b)

/-- The two bytes at the parse position decode to the operation of the item they are (30 R117). -/
theorem decode_jbtx_item (tx rx : Byte) : ∃ (i : Instr) (r : List Byte), decode .jbtx [tx, rx] = some (i, r) ∧
    ∀ s : State, exec i s = .next (applyItem (decodeJbItem tx rx) s) := by
  by_cases hskip : tx = 0x00
  · subst hskip
    exact ⟨.jbSkip, [rx], rfl, fun _ => rfl⟩
  by_cases hreset : tx = 0xFD
  · subst hreset
    exact ⟨.jbReset, [rx], rfl, fun _ => rfl⟩
  by_cases hnop : tx = 0xFF
  · subst hnop
    exact ⟨.jbNop, [rx], rfl, fun _ => rfl⟩
  by_cases hstop : tx = 0xFE
  · subst hstop
    exact ⟨.jbStop, [rx], rfl, fun _ => rfl⟩
  · have hspecial : specialTx tx = false := by
      simp only [specialTx, Bool.or_eq_false_iff, beq_eq_false_iff_ne]
      exact ⟨⟨⟨hskip, hreset⟩, hstop⟩, hnop⟩
    refine ⟨.jbXfer tx rx, [], decodeJbtx_xfer hspecial rx [], fun s => ?_⟩
    rw [decodeJbItem, if_neg hskip, if_neg hreset, if_neg hnop, if_neg hstop]
    rfl

/-- The first link of the chain of a parse at which one of the stops holds is where the parse ends. -/
theorem parsed_first_over (s : State) : ∃ n, (∀ k < n, parseOpen (parseItems k (openParse s)) = true) ∧
    parseOpen (parseItems n (openParse s)) = false ∧ parsed s = parseItems n (openParse s) := by
  have hover : ∃ n, parseOpen (parseItems n (openParse s)) = false := ⟨parseBound, parseOpen_parsed s⟩
  have hle : Nat.find hover ≤ parseBound := Nat.find_le (parseOpen_parsed s)
  have hfirst := Nat.find_spec hover
  refine ⟨Nat.find hover, fun k hk => Bool.of_not_eq_false (Nat.find_min hover hk), hfirst, ?_⟩
  rw [parsed, ← Nat.add_sub_of_le hle, parseItems_add, parseItems_over hfirst]

/-- Settles O32: the frame by the laws of `parsed`, the second parse by `parsed_again`, and the chain by the loop run for
one item more at each link. -/
theorem parseWritesOnlyTheTable : Obligations.ParseWritesOnlyTheTable := by
  intro s
  have hcell (a : Addr) : readCell .pif a (settle .pif false (parsed s)) = readCell .pif a (parsed s) :=
    readCell_settle _ _ _ _ _
  obtain ⟨n, hopen, hover, hend⟩ := parsed_first_over s
  refine ⟨_, _, exec_pifJoybusParse s, fun a ha => ?_, ?_, ⟨exec_pifJoybusParse _, fun a => ?_⟩, n,
    fun k => parseItems k (openParse s), fun ch hch => openParse_skipped hch s, openParse_outside s, rfl,
    openParse_unchanged s, fun k hk => ?_, (parseOver_iff _).1 hover, ?_, fun a => ?_⟩
  · rw [hcell, parsed_outside s a ha]
  · exact (parsed_unchanged s).trans (settle_unchanged_carry .pif false _)
  · rw [readCell_settle, parsed_again hcell]
  · obtain ⟨hstop, hch, hp⟩ := (parseOpen_iff _).1 (hopen k hk)
    obtain ⟨i, r, hdecode, hexec⟩ := decode_jbtx_item (frameByte (parseItems k (openParse s)).parse.p
      (parseItems k (openParse s))) (frameByte ((parseItems k (openParse s)).parse.p + 2) (parseItems k (openParse s)))
    refine ⟨hstop, hch, hp, i, r, hdecode, ?_⟩
    rw [hexec]
    exact congrArg Host.Outcome.next (parseItems_succ_of_open (hopen k hk)).symm
  · rw [settle_parse, hend]
  · rw [hcell, hend]

/-! ## The frame list of the source (44 R283) -/

/-- The parse of a list that begins with a transfer item and a sentinel is over after the two. -/
theorem parsed_item_then_stop {s : State} {i : JbItem} (hfirst : itemAt (openParse s) = i)
    (hgoes : parseOpen (applyItem i (openParse s)) = true)
    (hsecond : itemAt (applyItem i (openParse s)) = .stop) :
    parsed s = applyItem .stop (applyItem i (openParse s)) := by
  have hstopped : parseOpen (applyItem .stop (applyItem i (openParse s))) = false := (parseOver_iff _).2 (.inl rfl)
  rw [parsed, parseBound, parseItems_open rfl, hfirst, parseItems_open hgoes, hsecond, parseItems_over hstopped]

/-- A change of the table leaves the bytes of the frame list. -/
theorem frameByte_of_table {s t : State} (h : CellsUnchangedOutside .pif (cellsFrom Config.jbTable 15) s t) {p : Nat}
    (hlow : 0x80 ≤ p) (hhigh : p < 0xFF) : frameByte p t = frameByte p s :=
  frameByte_congr (fun a ha => h a (shared_notMem_table ha)) hlow hhigh

/-- The cells of the channels from 1 on are not those of channel 0. -/
theorem laterChannels_notMem : ∀ ch < 5, 1 ≤ ch → ∀ a ∈ channelCells ch, a ∉ channelCells 0 := by decide

/-- The offset cells of a channel are no status cells. -/
theorem offsets_notMem_status : ∀ ch < 5, Config.jbOffHi ch ∉ (List.range 5).map Config.jbStat ∧
    Config.jbOffLo ch ∉ (List.range 5).map Config.jbStat := by decide

/-- The parse of the source's frame list: channel 0 is recorded at 0x80, and the sentinel stops the parse. -/
theorem parsed_sourceList {s : State} (htx : frameByte 0x80 s = 0x02) (hrx : frameByte 0x82 s = 0x01)
    (hsentinel : frameByte 0x8A s = 0xFE) :
    parsed s = applyItem .stop (applyItem (.xfer 0x02 0x01) (openParse s)) := by
  have hopen := (openParse_outside s).mono statusCells_subset_table
  have hitem := applyItem_outside (.xfer 0x02 0x01) (s := openParse s) (by decide : 0 < 5)
  refine parsed_item_then_stop ?_ rfl ?_
  · rw [← frameByte_of_table hopen (by decide) (by decide)] at htx hrx
    exact congrArg₂ decodeJbItem htx hrx
  · rw [← frameByte_of_table hopen (by decide) (by decide), ← frameByte_of_table hitem (by decide) (by decide)]
      at hsentinel
    exact congrArg (decodeJbItem · _) hsentinel

/-- Settles O33: by `parsed_sourceList` the table is what one `recordItem` leaves of five skipped channels. -/
theorem sourceFrameListParses : Obligations.SourceFrameListParses := by
  intro s d0 d1 s0 hbytes
  have hparsed := parsed_sourceList (hbytes 0 (by decide)) (hbytes 1 (by decide)) (hbytes 5 (by decide))
  have hcell (a : Addr) : readCell .pif a (settle .pif false (parsed s)) =
      readCell .pif a (recordItem 0 0x80 (openParse s)) := by
    rw [readCell_settle, hparsed, readCell_applyItem, markItem, readCell_applyItem]
    rfl
  obtain ⟨hhi, hlo, hstat⟩ := recordItem_cells 0 0x80 (openParse s)
  refine ⟨_, exec_pifJoybusParse s, (hcell _).trans hhi, (hcell _).trans hlo, (hcell _).trans hstat,
    fun ch h1 h4 => ?_, ?_⟩
  · have hch : ch < 5 := Nat.lt_succ_of_le h4
    have hkept : ∀ a ∈ channelCells ch, readCell .pif a (settle .pif false (parsed s)) =
        readCell .pif a (openParse s) := fun a ha =>
      (hcell a).trans (recordItem_outside 0 0x80 _ a (laterChannels_notMem ch hch h1 a ha))
    obtain ⟨hoffHi, hoffLo⟩ := offsets_notMem_status ch hch
    refine ⟨?_, ?_, ?_⟩
    · rw [hkept _ (by simp [channelCells]), openParse_skipped hch]
      rfl
    · rw [hkept _ (by simp [channelCells]), openParse_outside s _ hoffHi]
    · rw [hkept _ (by simp [channelCells]), openParse_outside s _ hoffLo]
  · rw [settle_parse, hparsed, applyItem_parse, applyItem_parse]
    rfl

end Sys2Proof.Machine
end

section
/-! The JoyBus transfer (44 R288 to R298): the channel loop, the exchange of a channel byte by byte, and the error path. -/

namespace Sys2Proof.Machine

/-! ## Events, tasks and frame together -/

/-- What a part of a PIF operation did: the events in order, the tasks put first, and all that it changed. -/
structure Turned (es : List Event) (ts : List Task) (l : List Field) (s t : State) : Prop where
  logged : Logged .pif es s t
  continues : Continues .pif ts s t
  frame : Unchanged l s t

/-- One part after another that has put no task first. -/
theorem Turned.after {es fs : List Event} {ts : List Task} {l m : List Field} {s t u : State}
    (h : Turned es [] l s t) (k : Turned fs ts m t u) : Turned (es ++ fs) ts (l ++ m) s u where
  logged := h.logged.trans k.logged
  continues := Eq.trans k.continues (congrArg (ts ++ ·) h.continues)
  frame := h.frame.trans k.frame

theorem Turned.mono {es : List Event} {ts : List Task} {l m : List Field} {s t : State} (h : Turned es ts l s t)
    (hm : ∀ f ∈ l, f ∈ m) : Turned es ts m s t := ⟨h.logged, h.continues, h.frame.mono hm⟩

/-- A change of neither log nor position. -/
theorem Unchanged.turned {l : List Field} {s t : State} (h : Unchanged l s t) (hlog : Field.log .pif ∉ l)
    (hpos : Field.position .pif ∉ l) : Turned [] [] l s t := ⟨h (.log .pif) hlog, h (.position .pif) hpos, h⟩

theorem turned_portWrite (p : Port) (x : Nibble) (s : State) :
    Turned [.write p x] [] [.latch .pif p, .log .pif] s (portWrite .pif p x s) :=
  ⟨portWrite_logged .pif p x s, portWrite_cont .pif .pif p x s, portWrite_unchanged .pif p x s⟩

theorem turned_portRead (p : Port) (s : State) :
    Turned [.read p (portRead .pif p s).1] [] (.log .pif :: portSupply) s (portRead .pif p s).2 :=
  ⟨portRead_logged .pif p s, portRead_unchanged .pif p s (.position .pif) (by simp [portSupply]),
    portRead_unchanged .pif p s⟩

theorem turned_writeCell (a : Addr) (x : Nibble) (s : State) : Turned [] [] [.mem .pif] s (writeCell .pif a x s) :=
  (writeCell_unchanged .pif a x s).turned (by decide) (by decide)

theorem turned_push (ts : List Task) (s : State) : Turned [] ts [.position .pif] s (push .pif ts s) :=
  ⟨push_log .pif .pif ts s, push_cont .pif ts s, push_unchanged .pif ts s⟩

theorem turned_settle (s : State) : Turned [] [] (.carry .pif :: scratchRegisters .pif) s (settle .pif false s) :=
  (settle_unchanged_carry .pif false s).turned (by decide) (by decide)

/-- A read of a port reaches no cell. -/
theorem readCell_portRead (p : Port) (a : Addr) (s : State) :
    readCell .pif a (portRead .pif p s).2 = readCell .pif a s :=
  portRead_unchanged .pif p s (.mem .pif) (by simp [portSupply]) a

/-! ## The channel loop (44 R288, R289, R291) -/

/-- What serving a channel puts first, by its status: nothing for `SKIP`, then `RESET`, then the exchange (44 R288). -/
def serveTasks (ch : Fin 5) (s : State) : List Task :=
  if bitOf (readCell .pif (Config.jbStat ch.val) s) 0 then [.pos (.channelServed ch)]
  else if bitOf (readCell .pif (Config.jbStat ch.val) s) 1 then [.op .jbChannelReset, .pos (.channelServed ch)]
  else [.op (.jbChannelExchange ch), .pos (.channelServed ch)]

theorem serveTasks_skip {ch : Fin 5} {s : State} (h : cellBit .pif (Config.jbStat ch.val) 0 s = true) :
    serveTasks ch s = [.pos (.channelServed ch)] := if_pos h

theorem serveTasks_reset {ch : Fin 5} {s : State} (hskip : cellBit .pif (Config.jbStat ch.val) 0 s = false)
    (hreset : cellBit .pif (Config.jbStat ch.val) 1 s = true) :
    serveTasks ch s = [.op .jbChannelReset, .pos (.channelServed ch)] :=
  (if_neg (ne_true_of_eq_false hskip)).trans (if_pos hreset)

theorem serveTasks_exchange {ch : Fin 5} {s : State} (hskip : cellBit .pif (Config.jbStat ch.val) 0 s = false)
    (hreset : cellBit .pif (Config.jbStat ch.val) 1 s = false) :
    serveTasks ch s = [.op (.jbChannelExchange ch), .pos (.channelServed ch)] :=
  (if_neg (ne_true_of_eq_false hskip)).trans (if_neg (ne_true_of_eq_false hreset))

/-- The read of the channel number leaves the channel's status. -/
theorem serveTasks_portRead (ch : Fin 5) (p : Port) (s : State) :
    serveTasks ch (portRead .pif p s).2 = serveTasks ch s := by
  rw [serveTasks, serveTasks, readCell_portRead]

/-- A number that names a channel: the channel is served as its status says. -/
theorem exec_pifJoybusTransfer_served {s : State} {ch : Fin 5} (h : chSel (portRead .pif .jbChSel s).1 = ch.val) :
    exec .pifJoybusTransfer s = .next (push .pif (serveTasks ch s) (portRead .pif .jbChSel s).2) := by
  have hlt : chSel (portRead .pif .jbChSel s).1 < 5 := h.trans_lt ch.isLt
  obtain rfl : (⟨chSel (portRead .pif .jbChSel s).1, hlt⟩ : Fin 5) = ch := Fin.ext h
  rw [← serveTasks_portRead _ .jbChSel]
  show execPifJoybusTransfer s = _
  simp only [execPifJoybusTransfer, dif_pos hlt, serveTasks]
  split_ifs with hskip hreset
  · rfl
  · rfl
  · rfl

/-- A number above 4 is refused (44 R291). -/
theorem exec_pifJoybusTransfer_refused {s : State} (h : 5 ≤ chSel (portRead .pif .jbChSel s).1) :
    exec .pifJoybusTransfer s = .refused .channelOutOfRange := dif_neg (Nat.not_lt.2 h)

theorem channelServed_last {ch : Fin 5} (h : ch.val = 0) (s : State) :
    channelServed ch s = settle .pif false s := if_pos h

theorem channelServed_more {ch : Fin 5} (h : ch.val ≠ 0) (s : State) :
    channelServed ch s = push .pif [.op .pifJoybusTransfer] s := if_neg h

/-- Settles O34: a served channel by `serveTasks`, a refused number by its bound, the end of a turn by its two equations. -/
theorem transferServesSelectedChannel : Obligations.TransferServesSelectedChannel := by
  refine ⟨fun s ch hch => ?_, fun s h => exec_pifJoybusTransfer_refused h,
    fun s ch => ⟨_, rfl, fun h => ?_, fun h => ?_⟩⟩
  · obtain ⟨hlog, hcont, hframe⟩ := (turned_portRead .jbChSel s).after (turned_push (serveTasks ch s) _)
    refine ⟨_, exec_pifJoybusTransfer_served hch, hlog, hframe.mono (by decide), fun hskip => ?_,
      fun hskip hreset => ?_, fun hskip hreset => ?_⟩
    · rwa [← serveTasks_skip hskip]
    · rwa [← serveTasks_reset hskip hreset]
    · rwa [← serveTasks_exchange hskip hreset]
  · rw [resume, channelServed_last h]
    exact settle_unchanged_carry .pif false s
  · rw [resume, channelServed_more h]
    exact ⟨push_cont .pif _ s, push_unchanged .pif _ s⟩

/-! ## The window wrap (44 R296) -/

theorem windowWrap_spec : ∀ q : Addr, 0x80 ≤ (windowWrap q).toNat ∧ (0x80 ≤ q.toNat → windowWrap q = q) ∧
    (q.toNat < 0x80 → (windowWrap q).toNat = q.toNat + 0x80) := by decide

/-- The cell after a cell of the window is another. -/
theorem windowWrap_succ_ne : ∀ d : Addr, d ≠ windowWrap (d + 1) := by decide

/-! ## The loops of an exchange (44 R293) -/

theorem turned_exchangeEnd (s : State) : Turned [.write .jbCtrl 0] []
    (.latch .pif .jbCtrl :: .log .pif :: .carry .pif :: scratchRegisters .pif) s (exchangeEnd s) :=
  (turned_portWrite .jbCtrl jbcIdle s).after (turned_settle _)

theorem readCell_exchangeEnd (a : Addr) (s : State) : readCell .pif a (exchangeEnd s) = readCell .pif a s := by
  rw [exchangeEnd, readCell_settle, readCell_portWrite]

/-- With bytes to receive the loop waits for the next. -/
theorem turned_rxLoop {n : Nat} (h : n ≠ 0) (rq d : Addr) (s : State) :
    Turned [] [.op .jbWaitReady, .pos (.rxByte rq d (n - 1))] [.position .pif] s (rxLoop rq d n s) := by
  obtain ⟨k, rfl⟩ := Nat.exists_eq_succ_of_ne_zero h
  exact turned_push _ s

theorem rxLoop_zero (rq d : Addr) (s : State) : rxLoop rq d 0 s = exchangeEnd s := rfl

theorem readCell_rxLoop (rq d a : Addr) (n : Nat) (s : State) :
    readCell .pif a (rxLoop rq d n s) = readCell .pif a s := by
  cases n with
  | zero => exact readCell_exchangeEnd a s
  | succ k => exact readCell_push _ _ _ _ s

/-- With bytes to send the loop waits for the next. -/
theorem turned_txLoop {n : Nat} (h : n ≠ 0) (rq d : Addr) (rxc : Nat) (s : State) :
    Turned [] [.op .jbWaitReady, .pos (.txByte rq d (n - 1) rxc)] [.position .pif] s (txLoop rq d n rxc s) := by
  obtain ⟨k, rfl⟩ := Nat.exists_eq_succ_of_ne_zero h
  exact turned_push _ s

/-- After the last byte sent `JBC_RX` opens the receive phase. -/
theorem turned_txLoop_receive {rxc : Nat} (h : rxc ≠ 0) (rq d : Addr) (s : State) :
    Turned [.write .jbCtrl 2] [.op .jbWaitReady, .pos (.rxByte rq d (rxc - 1))]
      [.latch .pif .jbCtrl, .log .pif, .position .pif] s (txLoop rq d 0 rxc s) :=
  (turned_portWrite .jbCtrl jbcRx s).after (turned_rxLoop h rq d _)

/-- With nothing to receive either the channel is closed at once. -/
theorem turned_txLoop_end (rq d : Addr) (s : State) : Turned [.write .jbCtrl 2, .write .jbCtrl 0] []
    (.latch .pif .jbCtrl :: .log .pif :: .carry .pif :: scratchRegisters .pif) s (txLoop rq d 0 0 s) :=
  ((turned_portWrite .jbCtrl jbcRx s).after (turned_exchangeEnd _)).mono (by decide)

/-- All that the receive loop changes before its next wait or its end. -/
theorem rxLoop_unchanged (rq d : Addr) (n : Nat) (s : State) :
    Unchanged (.latch .pif .jbCtrl :: .log .pif :: .position .pif :: .carry .pif :: scratchRegisters .pif) s
      (rxLoop rq d n s) := by
  cases n with
  | zero => exact (turned_exchangeEnd s).frame.mono (by decide)
  | succ k => exact (push_unchanged .pif _ s).mono (by decide)

/-- All that the send loop changes before its next wait or its end. -/
theorem txLoop_unchanged (rq d : Addr) (n rxc : Nat) (s : State) :
    Unchanged (.latch .pif .jbCtrl :: .log .pif :: .position .pif :: .carry .pif :: scratchRegisters .pif) s
      (txLoop rq d n rxc s) := by
  cases n with
  | zero =>
    exact ((portWrite_unchanged .pif .jbCtrl jbcRx s).trans (rxLoop_unchanged rq d rxc _)).mono (by decide)
  | succ k => exact (push_unchanged .pif _ s).mono (by decide)

/-! ## The opening of an exchange (44 R293) -/

/-- The address of a channel's frame, from the table. -/
def frameAddr (ch : Fin 5) (s : State) : Addr :=
  windowWrap (readCell .pif (Config.jbOffHi ch.val) s ++ readCell .pif (Config.jbOffLo ch.val) s)

theorem exec_jbChannelExchange (ch : Fin 5) (s : State) : exec (.jbChannelExchange ch) s =
    .next (txLoop (windowWrap (frameAddr ch s + 2)) (windowWrap (frameAddr ch s + 4))
      (jbCount (windowByte (frameAddr ch s) s)) (jbCount (windowByte (windowWrap (frameAddr ch s + 2)) s))
      (portWrite .pif .jbCtrl jbcTx s)) := rfl

/-- Settles O36: the exchange is `JBC_TX` and the send loop, which opens one of three ways. -/
theorem channelExchangeOpens : Obligations.ChannelExchangeOpens := by
  refine ⟨windowWrap_spec, fun s ch q rq txc rxc hq hrq htxc hrxc => ?_⟩
  have hexec := exec_jbChannelExchange ch s
  rw [jbCount_eq_mod, jbCount_eq_mod, windowByte, windowByte, frameAddr, ← hq, ← hrq, ← htxc, ← hrxc] at hexec
  have hopen := turned_portWrite .jbCtrl jbcTx s
  refine ⟨_, hexec, fun htx => ?_, fun htx hrx => ?_, fun htx hrx => ?_⟩
  · obtain ⟨hlog, hcont, hframe⟩ := hopen.after (turned_txLoop htx rq (windowWrap (q + 4)) rxc _)
    exact ⟨hlog, hcont, hframe⟩
  · rw [htx]
    obtain ⟨hlog, hcont, hframe⟩ := hopen.after (turned_txLoop_receive hrx rq (windowWrap (q + 4)) _)
    exact ⟨hlog, hcont, hframe.mono (by decide)⟩
  · rw [htx, hrx]
    obtain ⟨hlog, -, hframe⟩ := hopen.after (turned_txLoop_end rq (windowWrap (q + 4)) _)
    exact ⟨hlog, hframe.mono (by decide)⟩

/-! ## The error path (44 R297) -/

theorem draws_unchanged (n : Nat) (s : State) : Unchanged [.draws] s { s with draws := n } := by
  intro f hf
  cases f with
  | draws => simp at hf
  | mem w => cases w <;> exact fun _ => rfl
  | latch w q => cases w <;> rfl
  | _ => rfl

/-- `SAVE_A` with any value. -/
def scratchSaveA (s : State) : State :=
  { writeCell .pif Config.saveA (Config.anyNibble s.draws) s with draws := s.draws + 1 }

theorem recordError_eq (rq : Addr) (s : State) : recordError rq s =
    writeCell .pif rq (readCell .pif rq (scratchSaveA s) ||| 8) (scratchSaveA s) := rfl

theorem scratchSaveA_unchanged (s : State) : Unchanged [.mem .pif, .draws] s (scratchSaveA s) :=
  (writeCell_unchanged .pif _ _ s).trans (draws_unchanged _ _)

theorem scratchSaveA_outside (s : State) : CellsUnchangedOutside .pif [Config.saveA] s (scratchSaveA s) := fun a ha =>
  (draws_unchanged _ _ (.mem .pif) (by decide) a).trans (writeCell_outside .pif _ _ s a ha)

theorem recordError_unchanged (rq : Addr) (s : State) : Unchanged [.mem .pif, .draws] s (recordError rq s) :=
  (scratchSaveA_unchanged s).trans' ((writeCell_unchanged .pif rq _ _).mono (by decide))

theorem recordError_outside (rq : Addr) (s : State) :
    CellsUnchangedOutside .pif [rq, Config.saveA] s (recordError rq s) :=
  ((scratchSaveA_outside s).trans (writeCell_outside .pif rq _ _)).mono (by simp)

/-- The error nibble is or-ed into the cell. -/
theorem recordError_cell {rq : Addr} (h : rq ≠ Config.saveA) (s : State) :
    readCell .pif rq (recordError rq s) = readCell .pif rq s ||| 8 := by
  rw [recordError_eq, readCell_writeCell_same, scratchSaveA_outside s rq (by simpa using h)]

theorem turned_recordError (rq : Addr) (s : State) : Turned [] [] [.mem .pif, .draws] s (recordError rq s) :=
  (recordError_unchanged rq s).turned (by decide) (by decide)

/-- The error nibble is bit 3. -/
theorem bitOf_or_errNibble : ∀ (c : Nibble), ∀ i < 4, bitOf (c ||| 8) i = if i = 3 then true else bitOf c i := by decide

theorem or_errNibble_twice (c : Nibble) : c ||| 8 ||| 8 = c ||| 8 := by rw [BitVec.or_assoc, BitVec.or_self]

/-- A second error on the same cell changes `SAVE_A` at most. -/
theorem recordError_again {rq : Addr} {s t : State} (h : ∀ a : Addr, readCell .pif a t =
    readCell .pif a (recordError rq s)) : CellsUnchangedOutside .pif [Config.saveA] t (recordError rq t) := by
  intro a ha
  have hsave : a ≠ Config.saveA := by simpa using ha
  by_cases hrq : a = rq
  · subst hrq
    rw [recordError_cell hsave, h, recordError_cell hsave, or_errNibble_twice]
  · exact recordError_outside rq t a (by simp [hrq, hsave])

/-- Settles O38: the operation is one `recordError`, and the registers at any value. -/
theorem joybusErrorRecorded : Obligations.JoybusErrorRecorded := by
  intro s rq
  have hcell (s : State) (a : Addr) : readCell .pif a (settle .pif false (recordError rq s)) =
      readCell .pif a (recordError rq s) := readCell_settle _ _ _ _ _
  refine ⟨_, _, rfl, fun hrq i hi => ?_, fun a ha => ?_, ?_, rfl, fun a ha => ?_⟩
  · rw [cellBit, hcell, recordError_cell hrq]
    exact bitOf_or_errNibble _ i hi
  · rw [hcell, recordError_outside rq s a ha]
  · exact ((recordError_unchanged rq s).trans (settle_unchanged_carry .pif false _)).mono (by decide)
  · rw [hcell, recordError_again (hcell s) a ha]

/-! ## A byte of an exchange (44 R293, R298) -/

/-- A data byte goes out, high nibble first. -/
def sendByte (d : Addr) (s : State) : State :=
  portWrite .pif .jbData (readCell .pif (windowWrap (d + 1)) s) (portWrite .pif .jbData (readCell .pif d s) s)

theorem turned_sendByte (d : Addr) (s : State) :
    Turned [.write .jbData (readCell .pif d s), .write .jbData (readCell .pif (windowWrap (d + 1)) s)] []
      [.latch .pif .jbData, .log .pif] s (sendByte d s) :=
  ((turned_portWrite .jbData _ s).after (turned_portWrite .jbData _ _)).mono (by decide)

theorem txByte_ok {s : State} (h : s.pif.ret = 0) (rq d : Addr) (n rxc : Nat) :
    txByte rq d n rxc s = txLoop rq (windowWrap (windowWrap (d + 1) + 1)) n rxc (sendByte d s) := by
  rw [sendByte, ← readCell_portWrite .pif (windowWrap (d + 1)) .pif .jbData (readCell .pif d s) s]
  exact if_pos h

/-- The high nibble of a received byte, read and stored. -/
def receiveHigh (d : Addr) (s : State) : State :=
  writeCell .pif d (portRead .pif .jbData s).1 (portRead .pif .jbData s).2

/-- A byte comes in, high nibble first, and is stored. -/
def receiveByte (d : Addr) (s : State) : State :=
  writeCell .pif (windowWrap (d + 1)) (portRead .pif .jbData (receiveHigh d s)).1
    (portRead .pif .jbData (receiveHigh d s)).2

theorem receiveByte_cells (d : Addr) (s : State) :
    readCell .pif d (receiveByte d s) = (portRead .pif .jbData s).1 ∧
    readCell .pif (windowWrap (d + 1)) (receiveByte d s) = (portRead .pif .jbData (receiveHigh d s)).1 := by
  refine ⟨?_, readCell_writeCell_same _ _ _ _⟩
  rw [receiveByte, readCell_writeCell_ne (windowWrap_succ_ne d), readCell_portRead, receiveHigh,
    readCell_writeCell_same]

theorem receiveByte_outside (d : Addr) (s : State) :
    CellsUnchangedOutside .pif [d, windowWrap (d + 1)] s (receiveByte d s) := by
  intro a ha
  simp only [List.mem_cons, List.not_mem_nil, or_false, not_or] at ha
  obtain ⟨hhigh, hlow⟩ := ha
  rw [receiveByte, readCell_writeCell_ne hlow, readCell_portRead, receiveHigh, readCell_writeCell_ne hhigh,
    readCell_portRead]

theorem turned_receiveByte (d : Addr) (s : State) :
    Turned [.read .jbData (portRead .pif .jbData s).1, .read .jbData (portRead .pif .jbData (receiveHigh d s)).1] []
      (.mem .pif :: .log .pif :: portSupply) s (receiveByte d s) :=
  ((((turned_portRead .jbData s).after (turned_writeCell d _ _)).after
    (turned_portRead .jbData (receiveHigh d s))).after (turned_writeCell _ _ _)).mono (by decide)

theorem rxByte_ok {s : State} (h : s.pif.ret = 0) (rq d : Addr) (n : Nat) :
    rxByte rq d n s = rxLoop rq (windowWrap (windowWrap (d + 1) + 1)) n (receiveByte d s) := if_pos h

theorem txByte_failed {s : State} (h : s.pif.ret ≠ 0) (rq d : Addr) (n rxc : Nat) :
    txByte rq d n rxc s = channelFailed rq s := if_neg h

theorem rxByte_failed {s : State} (h : s.pif.ret ≠ 0) (rq d : Addr) (n : Nat) :
    rxByte rq d n s = channelFailed rq s := if_neg h

theorem turned_channelFailed (rq : Addr) (s : State) : Turned [.write .jbCtrl 0] []
    (.mem .pif :: .latch .pif .jbCtrl :: .log .pif :: .carry .pif :: scratchRegisters .pif) s (channelFailed rq s) :=
  ((turned_recordError rq s).after (turned_exchangeEnd _)).mono (by decide)

theorem readCell_channelFailed (rq a : Addr) (s : State) :
    readCell .pif a (channelFailed rq s) = readCell .pif a (recordError rq s) := readCell_exchangeEnd a _

theorem runTask_failed {s : State} {p : Pos} {rq d : Addr} {n rxc : Nat} (h : s.pif.ret ≠ 0)
    (hp : p = .txByte rq d n rxc ∨ p = .rxByte rq d n) : runTask (.pos p) s = .next (channelFailed rq s) := by
  obtain rfl | rfl := hp
  · exact congrArg Host.Outcome.next (txByte_failed h rq d n rxc)
  · exact congrArg Host.Outcome.next (rxByte_failed h rq d n)

/-- Settles O37: after a good wait a byte is sent or received and its loop goes on; after a failed one the channel is
closed by `channelFailed`. -/
theorem channelBytes : Obligations.ChannelBytes := by
  refine ⟨fun s rq d d' n rxc out hret hd hout => ?_, fun s rq d n hret => ?_, fun s p rq d n rxc hret hp => ?_⟩
  · subst hd hout
    have hsend := turned_sendByte d s
    refine ⟨_, congrArg Host.Outcome.next (txByte_ok hret rq d n rxc), fun hn => ?_, fun hn hrx => ?_,
      fun hn hrx => ?_, (hsend.frame.trans (txLoop_unchanged _ _ _ _ _)).mono (by decide)⟩
    · obtain ⟨hlog, hcont, -⟩ := hsend.after (turned_txLoop hn rq _ rxc _)
      exact ⟨hlog, hcont⟩
    · rw [hn]
      obtain ⟨hlog, hcont, -⟩ := hsend.after (turned_txLoop_receive hrx rq _ _)
      exact ⟨hlog, hcont⟩
    · rw [hn, hrx]
      obtain ⟨hlog, hcont, -⟩ := hsend.after (turned_txLoop_end rq _ _)
      exact ⟨hlog, hcont⟩
  · have hreceive := turned_receiveByte d s
    obtain ⟨hhigh, hlow⟩ := receiveByte_cells d s
    refine ⟨_, _, _, congrArg Host.Outcome.next (rxByte_ok hret rq d n), rfl, (readCell_rxLoop _ _ _ _ _).trans hhigh,
      (readCell_rxLoop _ _ _ _ _).trans hlow, fun a ha => ?_, fun hn => ?_, fun hn => ?_,
      (hreceive.frame.trans (rxLoop_unchanged _ _ _ _)).mono (by decide)⟩
    · rw [readCell_rxLoop, receiveByte_outside d s a ha]
    · obtain ⟨hlog, hcont, -⟩ := hreceive.after (turned_rxLoop hn rq _ _)
      exact ⟨hlog, hcont⟩
    · rw [hn]
      obtain ⟨hlog, hcont, -⟩ := hreceive.after (turned_exchangeEnd _)
      exact ⟨hlog, hcont⟩
  · obtain ⟨hlog, -, hframe⟩ := turned_channelFailed rq s
    refine ⟨_, runTask_failed hret hp, hlog, rfl, fun hrq => ?_, fun a ha => ?_, hframe⟩
    · rw [readCell_channelFailed, recordError_cell hrq]
    · rw [readCell_channelFailed, recordError_outside rq s a ha]

end Sys2Proof.Machine
end

section
/-! The rounds over memory (45 R310 to R333): each stores a run of cells whole, so that a round is the function of lists
that it stores. -/

namespace Sys2Proof.Machine

/-! ## A run of cells stored whole -/

theorem readCells_writeCells_of_length {n : Nat} {vs : List Nibble} (hlen : vs.length = n) (hn : n ≤ 256) (w : Who)
    (base : Addr) (s : State) : readCells w base n (writeCells w base vs s) = vs := by
  subst hlen
  exact readCells_writeCells w base vs s hn

theorem writeCells_outside_of_length {n : Nat} {vs : List Nibble} (hlen : vs.length = n) (w : Who) (base : Addr)
    (s : State) : CellsUnchangedOutside w (cellsFrom base n) s (writeCells w base vs s) :=
  hlen ▸ writeCells_outside w base vs s

theorem readCell_of_readCells {w : Who} {base : Addr} {n i : Nat} {s : State} {vs : List Nibble}
    (h : readCells w base n s = vs) (hi : i < n) : readCell w (cellAt base i) s = vs.getD i 0 := by
  rw [← h, getD_readCells hi]

/-- A buffer that reads as before, with every cell outside it as before, is a memory that reads as before. -/
theorem readCell_eq_of_cells {w : Who} {base : Addr} {n : Nat} {s t : State}
    (hout : CellsUnchangedOutside w (cellsFrom base n) s t) (hcells : readCells w base n t = readCells w base n s)
    (a : Addr) : readCell w a t = readCell w a s := by
  by_cases ha : a ∈ cellsFrom base n
  · obtain ⟨i, hi, rfl⟩ := mem_cellsFrom.1 ha
    exact readCells_eq_iff.1 hcells i hi
  · exact hout a ha

/-- Changes one after another, within the same cells. -/
theorem CellsUnchangedOutside.trans' {w : Who} {l : List Addr} {s t u : State} (h : CellsUnchangedOutside w l s t)
    (k : CellsUnchangedOutside w l t u) : CellsUnchangedOutside w l s u := fun a ha => (k a ha).trans (h a ha)

/-- A change that reaches no cell, after one that reaches those listed. -/
theorem CellsUnchangedOutside.of_unchanged {w : Who} {l : List Addr} {m : List Field} {s t u : State}
    (h : CellsUnchangedOutside w l s t) (k : Unchanged m t u) (hw : Field.mem w ∉ m) :
    CellsUnchangedOutside w l s u := fun a ha => (k (.mem w) hw a).trans (h a ha)

/-- Drawing the registers reaches no cell. -/
theorem mem_notMem_scratch (w : Who) : Field.mem w ∉ Field.carry w :: scratchRegisters w := by
  simp [scratchRegisters]

/-! ## The rounds as lists (45 R310, R312, R313) -/

theorem getD_decodeCells_zero (l : List Nibble) : (decodeCells roundStart l).getD 0 0 = l.getD 0 0 := by
  cases l with
  | nil => rfl
  | cons t ts => exact BitVec.sub_zero t

theorem getD_encodeCells_zero (l : List Nibble) : (encodeCells roundStart l).getD 0 0 = l.getD 0 0 := by
  cases l with
  | nil => rfl
  | cons t ts => exact BitVec.add_zero t

/-- A decoded cell loses the cell before it, as that cell was, plus one. -/
theorem getD_decodeCells_succ {i : Nat} {l : List Nibble} (h : i + 1 < l.length) (r : Nibble) :
    (decodeCells r l).getD (i + 1) 0 = sub4 (l.getD (i + 1) 0) (add4 (l.getD i 0) 1) := by
  induction l generalizing r i with
  | nil => simp at h
  | cons t ts ih =>
    cases i with
    | zero =>
      cases ts with
      | nil => simp at h
      | cons u us => rfl
    | succ i => exact ih (Nat.lt_of_succ_lt_succ h) t

/-- An encoded cell gains the cell before it, as that cell has become, plus one. -/
theorem getD_encodeCells_succ {i : Nat} {l : List Nibble} (h : i + 1 < l.length) (r : Nibble) :
    (encodeCells r l).getD (i + 1) 0 = add4 (l.getD (i + 1) 0) (add4 ((encodeCells r l).getD i 0) 1) := by
  induction l generalizing r i with
  | nil => simp at h
  | cons t ts ih =>
    cases i with
    | zero =>
      cases ts with
      | nil => simp at h
      | cons u us => rfl
    | succ i => exact ih (Nat.lt_of_succ_lt_succ h) _

theorem decodeCells_encodeCells (r : Nibble) : Function.LeftInverse (decodeCells r) (encodeCells r) := by
  intro l
  induction l generalizing r with
  | nil => rfl
  | cons t ts ih =>
    rw [encodeCells, decodeCells, ih]
    exact congrArg (· :: ts) (BitVec.add_sub_cancel t _)

theorem encodeCells_decodeCells (r : Nibble) : Function.LeftInverse (encodeCells r) (decodeCells r) := by
  intro l
  induction l generalizing r with
  | nil => rfl
  | cons t ts ih =>
    have hback : add4 (sub4 t (add4 r 1)) (add4 r 1) = t := BitVec.sub_add_cancel t _
    rw [decodeCells, encodeCells, hback, ih]

/-! ## Encode passes over a window -/

theorem length_encodeCells_readCells (r : Nibble) (e : Who) (a : Addr) (s : State) :
    (encodeCells r (readCells e a 16 s)).length = 16 :=
  (length_encodeCells _ _).trans (length_readCells e a 16 s)

theorem encodePass_window (e : Who) (a : Addr) (s : State) :
    readCells e a 16 (encodePass e a s) = encodeCells roundStart (readCells e a 16 s) :=
  readCells_writeCells_of_length (length_encodeCells_readCells _ e a s) (by decide) e a s

theorem encodePass_outside (e : Who) (a : Addr) (s : State) :
    CellsUnchangedOutside e (cellsFrom a 16) s (encodePass e a s) :=
  writeCells_outside_of_length (length_encodeCells_readCells _ e a s) e a s

/-- `n` passes are `n` encodings of the window's list. -/
theorem encodePasses_window (n : Nat) (e : Who) (a : Addr) (s : State) :
    readCells e a 16 (passes n (encodePass e a) s) = (encodeCells roundStart)^[n] (readCells e a 16 s) := by
  induction n generalizing s with
  | zero => rfl
  | succ n ih => rw [passes, ih, encodePass_window, Function.iterate_succ_apply]

theorem encodePasses_outside (n : Nat) (e : Who) (a : Addr) (s : State) :
    CellsUnchangedOutside e (cellsFrom a 16) s (passes n (encodePass e a) s) :=
  passes_invariant (P := CellsUnchangedOutside e (cellsFrom a 16) s)
    (fun u h b hb => (encodePass_outside e a u b hb).trans (h b hb)) n fun _ _ => rfl

theorem encodePasses_unchanged (n : Nat) (e : Who) (a : Addr) (s : State) :
    Unchanged [.mem e] s (passes n (encodePass e a) s) :=
  passes_invariant (fun _ h => h.trans' (writeCells_unchanged e a _ _)) n (Unchanged.refl _ s)

/-! ## One round of either kind, and many of both (45 R310 to R313) -/

theorem toNat_nibble_one : (1 : Nibble).toNat = 1 := rfl

theorem readCell_decodePass {i : Nat} (hi : i < 16) (e : Who) (a : Addr) (s : State) :
    readCell e (cellAt a i) (decodePass e a s) = (decodeCells roundStart (readCells e a 16 s)).getD i 0 :=
  readCell_of_readCells (decodePass_window e a s) hi

theorem readCell_encodePass {i : Nat} (hi : i < 16) (e : Who) (a : Addr) (s : State) :
    readCell e (cellAt a i) (encodePass e a s) = (encodeCells roundStart (readCells e a 16 s)).getD i 0 :=
  readCell_of_readCells (encodePass_window e a s) hi

theorem readCell_decodePass_zero (e : Who) (a : Addr) (s : State) :
    readCell e (cellAt a 0) (decodePass e a s) = readCell e (cellAt a 0) s := by
  rw [readCell_decodePass (by decide), getD_decodeCells_zero, getD_readCells (by decide)]

theorem readCell_encodePass_zero (e : Who) (a : Addr) (s : State) :
    readCell e (cellAt a 0) (encodePass e a s) = readCell e (cellAt a 0) s := by
  rw [readCell_encodePass (by decide), getD_encodeCells_zero, getD_readCells (by decide)]

theorem toNat_decodePass_succ {i : Nat} (hi : i < 15) (e : Who) (a : Addr) (s : State) :
    ((readCell e (cellAt a (i + 1)) (decodePass e a s)).toNat : Int) =
      ((readCell e (cellAt a (i + 1)) s).toNat - ((readCell e (cellAt a i) s).toNat + 1)) % 16 := by
  have hlen : i + 1 < (readCells e a 16 s).length := by rw [length_readCells]; omega
  rw [readCell_decodePass (by omega), getD_decodeCells_succ hlen, getD_readCells (by omega), getD_readCells (by omega),
    toNat_sub4, toNat_add4]
  rw [toNat_nibble_one]
  omega

theorem toNat_encodePass_succ {i : Nat} (hi : i < 15) (e : Who) (a : Addr) (s : State) :
    (readCell e (cellAt a (i + 1)) (encodePass e a s)).toNat = ((readCell e (cellAt a (i + 1)) s).toNat +
      (readCell e (cellAt a i) (encodePass e a s)).toNat + 1) % 16 := by
  have hlen : i + 1 < (readCells e a 16 s).length := by rw [length_readCells]; omega
  rw [readCell_encodePass (by omega), readCell_encodePass (by omega), getD_encodeCells_succ hlen,
    getD_readCells (by omega), toNat_add4, toNat_add4]
  rw [toNat_nibble_one]
  omega

/-- Settles O39: the round is one `decodePass`, whose cells are those of `decodeCells`; then `A`, `X` and the pointers are
drawn. -/
theorem decodeRound : Obligations.DecodeRound := by
  refine fun s w => ⟨_, rfl, ?_, fun i hi => ?_, fun a ha => ?_,
    (writeCells_unchanged s.active w _ s).trans (settle_unchanged s.active _)⟩
  · rw [readCell_settle, readCell_decodePass_zero]
  · rw [readCell_settle, toNat_decodePass_succ hi]
  · rw [readCell_settle, decodePass_outside s.active w s a ha]

/-- Settles O40: the round is one `encodePass`, whose cells are those of `encodeCells`; then `A`, `X` and the pointers are
drawn. -/
theorem encodeRound : Obligations.EncodeRound := by
  refine fun s w => ⟨_, rfl, ?_, fun i hi => ?_, fun a ha => ?_,
    (writeCells_unchanged s.active w _ s).trans (settle_unchanged s.active _)⟩
  · rw [readCell_settle, readCell_encodePass_zero]
  · rw [readCell_settle, readCell_settle, toNat_encodePass_succ hi]
  · rw [readCell_settle, encodePass_outside s.active w s a ha]

/-- Settles O41: outside the window no pass stores; inside it `n` passes are `n` rounds of the list, and the rounds of
lists undo each other. -/
theorem roundsAreInverse : Obligations.RoundsAreInverse := by
  intro e w n s a
  constructor
  · have hout := (encodePasses_outside n e w s).trans' (decodePasses_outside n e w _)
    refine readCell_eq_of_cells hout ?_ a
    rw [decodePasses_window, encodePasses_window, (decodeCells_encodeCells roundStart).iterate n]
  · have hout := (decodePasses_outside n e w s).trans' (encodePasses_outside n e w _)
    refine readCell_eq_of_cells hout ?_ a
    rw [encodePasses_window, decodePasses_window, (encodeCells_decodeCells roundStart).iterate n]

/-! ## `CompareRound` and `ComplementAll` (45 R322, R333) -/

/-- Every cell of a buffer of `n` complemented (45 R333). -/
def complementPass (n : Nat) (e : Who) (buf : Addr) (s : State) : State :=
  writeCells e buf ((readCells e buf n s).map com4) s

theorem exec_complementAll (buf : Addr) (s : State) :
    exec (.complementAll buf) s = .next (settle s.active false (complementPass 32 s.active buf s)) := rfl

theorem com4_com4 (x : Nibble) : com4 (com4 x) = x := BitVec.not_not

theorem length_map_readCells (f : Nibble → Nibble) (e : Who) (buf : Addr) (n : Nat) (s : State) :
    ((readCells e buf n s).map f).length = n := by rw [List.length_map, length_readCells]

theorem complementPass_cells {n : Nat} (hn : n ≤ 256) (e : Who) (buf : Addr) (s : State) :
    readCells e buf n (complementPass n e buf s) = (readCells e buf n s).map com4 :=
  readCells_writeCells_of_length (length_map_readCells com4 e buf n s) hn e buf s

theorem complementPass_outside (n : Nat) (e : Who) (buf : Addr) (s : State) :
    CellsUnchangedOutside e (cellsFrom buf n) s (complementPass n e buf s) :=
  writeCells_outside_of_length (length_map_readCells com4 e buf n s) e buf s

theorem readCell_complementPass {n i : Nat} (hn : n ≤ 256) (hi : i < n) (e : Who) (buf : Addr) (s : State) :
    readCell e (cellAt buf i) (complementPass n e buf s) = com4 (readCell e (cellAt buf i) s) := by
  have hcells := complementPass_cells hn e buf s
  rw [readCells, readCells, List.map_map, List.map_inj_left] at hcells
  exact hcells i (List.mem_range.2 hi)

/-- Complemented again, in a state whose cells are those of the first complement, every cell is as before. -/
theorem complementPass_twice {n : Nat} (hn : n ≤ 256) {e : Who} {buf : Addr} {s t : State}
    (h : ∀ a, readCell e a t = readCell e a (complementPass n e buf s)) (a : Addr) :
    readCell e a (complementPass n e buf t) = readCell e a s := by
  have hout : CellsUnchangedOutside e (cellsFrom buf n) s (complementPass n e buf t) := fun b hb => by
    rw [complementPass_outside n e buf t b hb, h, complementPass_outside n e buf s b hb]
  refine readCell_eq_of_cells hout (readCells_eq_iff.2 fun i hi => ?_) a
  rw [readCell_complementPass hn hi, h, readCell_complementPass hn hi, com4_com4]

/-- Settles O42: the OPEN round by `comparePass_window`, the complement by `complementPass`, which undoes itself. -/
theorem compareRoundAndComplement : Obligations.CompareRoundAndComplement := by
  refine ⟨fun s w => ?_, fun s buf => ⟨_, _, exec_complementAll buf s, fun i hi => ?_, ?_, ?_,
    exec_complementAll buf _, fun a => ?_⟩⟩
  · have hsettle := settle_unchanged_carry s.active false (comparePass s.active w s)
    refine ⟨_, rfl, ?_, (comparePass_outside s.active w s).of_unchanged hsettle (mem_notMem_scratch _),
      (writeCells_unchanged s.active w _ s).trans hsettle⟩
    rw [hsettle.readCells (mem_notMem_scratch _), comparePass_window]
  · rw [readCell_settle, readCell_complementPass (by decide) hi, toNat_com4]
  · exact (complementPass_outside 32 _ buf s).of_unchanged (settle_unchanged_carry _ false _) (mem_notMem_scratch _)
  · exact (writeCells_unchanged _ buf _ s).trans (settle_unchanged_carry _ false _)
  · have hactive : (settle s.active false (complementPass 32 s.active buf s)).active = s.active := by
      rw [settle_active]
      exact writeCells_unchanged s.active buf _ s .active (by simp)
    rw [hactive, readCell_settle]
    exact complementPass_twice (by decide) (fun b => readCell_settle _ b _ _ _) a

/-! ## The challenge recurrence (45 R330 to R332) -/

/-- `y` of a step: the accumulator and the cell, each with what its own bit adds (45 R330). -/
def chalY (a b : Nibble) : Nibble := a + b + (if bitOf b 0 then 0 else 8) + (if bitOf a 1 then 0 else 4)

/-- `z` of a step: twice `y`, and 7 where no carry came in (45 R330). -/
def chalZ (y : Nibble) (c : Bool) : Nibble := y + y + if c then 0 else 7

theorem chalStep_eq (a : Nibble) (c : Bool) (b : Nibble) : chalStep a c b =
    (adcValue (chalY a b) (chalZ (chalY a b) c) c, adcCarry (chalY a b) (chalZ (chalY a b) c) c) := by
  have hy : (if bitOf a 1 then if bitOf b 0 then a + b else a + b + 8
      else (if bitOf b 0 then a + b else a + b + 8) + 4) = chalY a b := by
    unfold chalY
    split <;> split <;> simp only [add_zero]
  have hz (y : Nibble) : (if c then y + y else y + y + 7) = chalZ y c := by
    unfold chalZ
    split <;> simp only [add_zero]
  rw [← hz, ← hy]
  rfl

theorem toNat_ite_nibble (p : Prop) [Decidable p] (x y : Nibble) :
    (if p then x else y).toNat = if p then x.toNat else y.toNat := apply_ite BitVec.toNat p x y

theorem toNat_chalY (a b : Nibble) : (chalY a b).toNat =
    (a.toNat + b.toNat + (if bitOf b 0 then 0 else 8) + (if bitOf a 1 then 0 else 4)) % 16 := by
  simp only [chalY, BitVec.toNat_add, toNat_ite_nibble, BitVec.ofNat_eq_ofNat, BitVec.toNat_ofNat, Nat.reducePow,
    Nat.reduceMod]
  omega

theorem toNat_chalZ (y : Nibble) (c : Bool) : (chalZ y c).toNat = (2 * y.toNat + (if c then 0 else 7)) % 16 := by
  simp only [chalZ, BitVec.toNat_add, toNat_ite_nibble, BitVec.ofNat_eq_ofNat, BitVec.toNat_ofNat, Nat.reducePow,
    Nat.reduceMod]
  omega

/-- One step of the recurrence as numbers: the sum of `y`, `z` and the carry gives the value, before it is complemented, and
the next carry. -/
theorem chalStep_sum (a : Nibble) (c : Bool) (b : Nibble) :
    ((chalStep a c b).2 = true ↔ 16 ≤ (chalY a b).toNat + (chalZ (chalY a b) c).toNat + c.toNat) ∧
    (chalStep a c b).1.toNat = ((chalY a b).toNat + (chalZ (chalY a b) c).toNat + c.toNat) % 16 := by
  rw [chalStep_eq]
  exact ⟨decide_eq_true_iff, BitVec.toNat_ofNat _ 4⟩

/-- Cell `i` stored is the complement of what its step gives from the accumulator and carry of the cells before it. -/
theorem getD_chalCells {i : Nat} {l : List Nibble} (h : i < l.length) (k : Bool) (a : Nibble) (c : Bool) :
    (chalCells k a c l).1.getD i 0 =
      com4 (chalStep (chalCells k a c (l.take i)).2.1 (chalCells k a c (l.take i)).2.2 (l.getD i 0)).1 := by
  induction l generalizing a c i with
  | nil => simp at h
  | cons b bs ih =>
    cases i with
    | zero => rfl
    | succ i => exact ih (Nat.lt_of_succ_lt_succ h) _ _

/-- One more cell is one more step of accumulator and carry. -/
theorem chalCells_take_succ {i : Nat} {l : List Nibble} (h : i < l.length) (k : Bool) (a : Nibble) (c : Bool) :
    (chalCells k a c (l.take (i + 1))).2 =
      (if k then (chalCells k a c l).1.getD i 0 else
        (chalStep (chalCells k a c (l.take i)).2.1 (chalCells k a c (l.take i)).2.2 (l.getD i 0)).1,
       (chalStep (chalCells k a c (l.take i)).2.1 (chalCells k a c (l.take i)).2.2 (l.getD i 0)).2) := by
  induction l generalizing a c i with
  | nil => simp at h
  | cons b bs ih =>
    cases i with
    | zero => rfl
    | succ i => exact ih (Nat.lt_of_succ_lt_succ h) _ _

/-- What the recurrence leaves in `A` and `C` of an engine (45 R330). -/
def leaveAccumulator (w : Who) (r : Nibble × Bool) (s : State) : State :=
  modEng w (fun E => { E with A := r.1, C := r.2 }) s

theorem leaveAccumulator_unchanged (w : Who) (r : Nibble × Bool) (s : State) :
    Unchanged [.regA w, .carry w] s (leaveAccumulator w r s) := by
  intro f hf
  cases w <;> cases f with
  | regA v => cases v <;> simp_all [Field.same, leaveAccumulator, modEng, setEng]
  | carry v => cases v <;> simp_all [Field.same, leaveAccumulator, modEng, setEng]
  | mem v => cases v <;> exact fun _ => rfl
  | regX v | ptrB v | ptrSB v | log v | position v | ret v | latch v _ => cases v <;> rfl
  | _ => rfl

theorem leaveAccumulator_regs (w : Who) (r : Nibble × Bool) (s : State) :
    ((leaveAccumulator w r s).eng w).A = r.1 ∧ ((leaveAccumulator w r s).eng w).C = r.2 := by
  cases w <;> exact ⟨rfl, rfl⟩

/-- The recurrence with the constants of the configuration (45 R330). -/
def chalRun (c : Params) (l : List Nibble) : List Nibble × Nibble × Bool :=
  chalCells c.chalAccComplement c.chalA0 c.chalC0 l

/-- The buffer transformed, its registers not yet those of the rule. -/
def chalPass (w : Who) (buf : Addr) (s : State) : State :=
  writeCells w buf (chalRun s.cfg (readCells w buf 32 s)).1 s

theorem exec_challengeTransform (buf : Addr) (s : State) : exec (.challengeTransform buf) s =
    .next (leaveAccumulator s.active (chalRun s.cfg (readCells s.active buf 32 s)).2
      (settle s.active false (chalPass s.active buf s))) := rfl

theorem length_chalRun_readCells (w : Who) (buf : Addr) (s : State) :
    (chalRun s.cfg (readCells w buf 32 s)).1.length = 32 :=
  (length_chalCells _ _ _ _).trans (length_readCells w buf 32 s)

theorem chalPass_cells (w : Who) (buf : Addr) (s : State) :
    readCells w buf 32 (chalPass w buf s) = (chalRun s.cfg (readCells w buf 32 s)).1 :=
  readCells_writeCells_of_length (length_chalRun_readCells w buf s) (by decide) w buf s

theorem chalPass_outside (w : Who) (buf : Addr) (s : State) :
    CellsUnchangedOutside w (cellsFrom buf 32) s (chalPass w buf s) :=
  writeCells_outside_of_length (length_chalRun_readCells w buf s) w buf s

/-- A step of the recurrence over a buffer as its rule says it: from the accumulator and carry of the cells before it, the
cell stored and the next accumulator and carry. -/
theorem chalRun_step {i : Nat} {l : List Nibble} (hi : i < l.length) (p : Params) {a a' b : Nibble} {c c' : Bool}
    (hb : l.getD i 0 = b) (h : (chalRun p (l.take i)).2 = (a, c)) (h' : (chalRun p (l.take (i + 1))).2 = (a', c')) :
    ∃ y z : Nat,
      y = (a.toNat + b.toNat + (if bitOf b 0 then 0 else 8) + (if bitOf a 1 then 0 else 4)) % 16 ∧
      z = (2 * y + (if c then 0 else 7)) % 16 ∧ (c' = true ↔ 16 ≤ y + z + c.toNat) ∧
      ((chalRun p l).1.getD i 0).toNat = 15 - (y + z + c.toNat) % 16 ∧
      a'.toNat = if p.chalAccComplement then 15 - (y + z + c.toNat) % 16 else (y + z + c.toNat) % 16 := by
  have hcell := getD_chalCells hi p.chalAccComplement p.chalA0 p.chalC0
  have hnext := chalCells_take_succ hi p.chalAccComplement p.chalA0 p.chalC0
  rw [chalRun] at h h'
  rw [h, hb] at hcell hnext
  rw [h', hcell, Prod.mk.injEq] at hnext
  obtain ⟨ha', hc'⟩ := hnext
  obtain ⟨hcarry, hvalue⟩ := chalStep_sum a c b
  refine ⟨(chalY a b).toNat, (chalZ (chalY a b) c).toNat, toNat_chalY a b, toNat_chalZ _ c, ?_, ?_, ?_⟩
  · rw [hc', hcarry]
  · rw [chalRun, hcell, toNat_com4, hvalue]
  · rw [ha', toNat_ite_nibble, toNat_com4, hvalue]

/-- Settles O43: the accumulators and carries are those of the recurrence over the cells before each one, and each step is
`chalRun_step`. -/
theorem challengeTransform : Obligations.ChallengeTransform := by
  intro s buf
  have hsettle := settle_unchanged_carry s.active false (chalPass s.active buf s)
  have hleave := leaveAccumulator_unchanged s.active (chalRun s.cfg (readCells s.active buf 32 s)).2
    (settle s.active false (chalPass s.active buf s))
  have hregs := hsettle.trans hleave
  have hmem : Field.mem s.active ∉ Field.carry s.active :: scratchRegisters s.active ++
      [Field.regA s.active, Field.carry s.active] := by simp [scratchRegisters]
  have hlen := length_readCells s.active buf 32 s
  have hall : (readCells s.active buf 32 s).take 32 = readCells s.active buf 32 s := List.take_of_length_le hlen.le
  obtain ⟨hA, hC⟩ := leaveAccumulator_regs s.active (chalRun s.cfg (readCells s.active buf 32 s)).2
    (settle s.active false (chalPass s.active buf s))
  refine ⟨_, fun i => (chalRun s.cfg ((readCells s.active buf 32 s).take i)).2.1,
    fun i => (chalRun s.cfg ((readCells s.active buf 32 s).take i)).2.2, exec_challengeTransform buf s, rfl, rfl,
    fun i hi => ?_, ?_, ?_, (chalPass_outside s.active buf s).of_unchanged hregs hmem, ?_⟩
  · rw [hregs (.mem s.active) hmem, readCell_of_readCells (chalPass_cells s.active buf s) hi]
    exact chalRun_step (hlen.symm ▸ hi) s.cfg (getD_readCells hi s.active buf s 0) rfl rfl
  · simp only [hA, hall]
  · simp only [hC, hall]
  · exact ((writeCells_unchanged s.active buf _ s).trans hregs).mono (by simp [scratchRegisters])

end Sys2Proof.Machine
end

section
/-! The sequence of the CIC (45 R336 to R349): `resetCounter`, `CIC.Main` up to the keying, the compare, the challenge and
the reset. -/

namespace Sys2Proof.Machine

/-! ## What a frame keeps of bytes and chains -/

/-- Where a memory is not among what has changed, its bytes read as before. -/
theorem Unchanged.readByte {l : List Field} {s t : State} (h : Unchanged l s t) {w : Who} (hw : Field.mem w ∉ l)
    (a : Addr) : readByte w a t = readByte w a s :=
  congrArg₂ (· ++ ·) (h (.mem w) hw a) (h (.mem w) hw (a + 1))

/-- Where a memory is not among what has changed, its chains hold what they held. -/
theorem Unchanged.chainValue {l : List Field} {s t : State} (h : Unchanged l s t) {w : Who} (hw : Field.mem w ∉ l)
    (a : Addr) : chainValue w a t = chainValue w a s := by
  rw [Machine.chainValue, h.readByte hw, h.readByte hw, Machine.chainValue]

/-! ## `resetCounter` (45 R336) -/

/-- Both pairs of a chain at 0. -/
def clearChain (w : Who) (a : Addr) (s : State) : State := writeByte w (a + 2) 0 (writeByte w a 0 s)

theorem exec_resetCounter (s : State) : exec .resetCounter s =
    .next (push .cic [.pos (.resetCount s.cfg.rcIters true)] (clearChain .cic Config.rc s)) := rfl

theorem clearChain_pairs (w : Who) (a : Addr) (s : State) :
    readByte w a (clearChain w a s) = 0 ∧ readByte w (a + 2) (clearChain w a s) = 0 := by
  rw [clearChain, readByte_low_of_high_outside (writeByte_outside _ _ _ _), readByte_writeByte, readByte_writeByte]
  exact ⟨rfl, rfl⟩

theorem clearChain_outside (w : Who) (a : Addr) (s : State) :
    CellsUnchangedOutside w (cellsFrom a 4) s (clearChain w a s) := by
  rw [cellsFrom_four]
  exact (writeByte_outside w a 0 s).trans (writeByte_outside w (a + 2) 0 _)

theorem clearChain_unchanged (w : Who) (a : Addr) (s : State) : Unchanged [.mem w] s (clearChain w a s) :=
  (writeByte_unchanged w a 0 s).trans' (writeByte_unchanged w (a + 2) 0 _)

/-- One sample of the reset line, and one count. -/
def sampleAndCount (s : State) : State := (tickChain .cic Config.rc (portRead .cic .reset s).2).2

theorem resetCount_turn (k : Nat) (held : Bool) (s : State) : runTask (.pos (.resetCount (k + 1) held)) s =
    .next (push .cic [.pos (.resetCount k (held && bitOf (portRead .cic .reset s).1 0))] (sampleAndCount s)) := rfl

theorem resetCount_over (held : Bool) (s : State) :
    runTask (.pos (.resetCount 0 held)) s = .next (setC .cic held (settle .cic false s)) := rfl

/-- The event of the sample, the count of the chain, and what the read uses up are all that changes. -/
theorem sampleAndCount_spec (s : State) :
    Logged .cic [.read .reset (portRead .cic .reset s).1] s (sampleAndCount s) ∧
    chainValue .cic Config.rc (sampleAndCount s) = (chainValue .cic Config.rc s + 1) % 65536 ∧
    CellsUnchangedOutside .cic (cellsFrom Config.rc 4) s (sampleAndCount s) ∧
    Unchanged (.mem .cic :: .log .cic :: portSupply) s (sampleAndCount s) := by
  have hread := portRead_unchanged .cic .reset s
  have htick := tickChain_unchanged .cic Config.rc (portRead .cic .reset s).2
  obtain ⟨hcount, -, hout⟩ := tickChain_spec .cic Config.rc (portRead .cic .reset s).2
  refine ⟨?_, ?_, fun a ha => ?_, (hread.trans htick).mono (by decide)⟩
  · exact (portRead_logged .cic .reset s).trans (htick.logged_nil (by decide))
  · rw [sampleAndCount, hcount, hread.chainValue (by decide)]
  · rw [sampleAndCount, hout a ha, hread (.mem .cic) (by decide) a]

/-- Settles O44: the start by the laws of `clearChain`, a turn by `sampleAndCount_spec`, the end by one `setC`. -/
theorem resetCounter : Obligations.ResetCounter := by
  refine ⟨fun s => ?_, fun s k held => ?_, fun s held => ?_⟩
  · have hpush := push_unchanged .cic [.pos (.resetCount s.cfg.rcIters true)] (clearChain .cic Config.rc s)
    obtain ⟨hlow, hhigh⟩ := clearChain_pairs .cic Config.rc s
    refine ⟨_, exec_resetCounter s, ?_, ?_, (clearChain_outside .cic Config.rc s).of_unchanged hpush (by decide),
      (clearChain_unchanged .cic Config.rc s).continues_push (by decide) _⟩
    · rw [hpush.readByte (by decide), hlow]
    · rw [hpush.readByte (by decide), hhigh]
  · have hpush := push_unchanged .cic [.pos (.resetCount k (held && bitOf (portRead .cic .reset s).1 0))]
      (sampleAndCount s)
    obtain ⟨hlog, hcount, hout, hchange⟩ := sampleAndCount_spec s
    obtain ⟨hcont, hframe⟩ := hchange.continues_push (w := .cic) (by decide)
      [.pos (.resetCount k (held && bitOf (portRead .cic .reset s).1 0))]
    refine ⟨_, (portRead .cic .reset s).1, resetCount_turn k held s, hlog.trans (hpush.logged_nil (by decide)), hcont,
      ?_, hout.of_unchanged hpush (by decide), hframe.mono (by decide)⟩
    exact (hpush.chainValue (by decide) Config.rc).trans hcount
  · exact ⟨_, resetCount_over held s, setC_C .cic held _,
      ((settle_unchanged_carry .cic false s).trans (setC_unchanged .cic held _)).mono (by decide)⟩

/-! ## Back to the idle loop (45 R345) -/

/-- The end of an operation of the CIC: the idle loop in its control state, the registers at any value (log 31). -/
def backToIdle (s : State) : State := push .cic [.pos .cicIdle] (settle .cic false { s with cicPc := .idle })

theorem backToIdle_pc (s : State) : (backToIdle s).cicPc = .idle := rfl

theorem backToIdle_continues (s : State) : Continues .cic [.pos .cicIdle] s (backToIdle s) := rfl

theorem backToIdle_unchanged (s : State) :
    Unchanged (.cicPc :: .position .cic :: .carry .cic :: scratchRegisters .cic) s (backToIdle s) :=
  (((cicPc_unchanged s .idle).trans (settle_unchanged_carry .cic false _)).trans (push_unchanged .cic _ _)).mono
    (by decide)

/-! ## The hello code of `CIC.Main` (45 R340, R341) -/

/-- Everything before the hello code: the control state, and the link idle. -/
def linkIdled (s : State) : State := portWrite .cic .cic 0 { s with cicPc := .boot }

theorem exec_cicMain (s : State) : exec .cicMain s = .next (push .cic [.op (.writeBit s.cfg.variantT),
    .op (.writeBit (regionBit s.cfg.regionCic)), .pos .helloSent] (linkIdled s)) := rfl

theorem linkIdled_logged (s : State) : Logged .cic [.write .cic 0] s (linkIdled s) := rfl

theorem linkIdled_unchanged (s : State) : Unchanged [.cicPc, .latch .cic .cic, .log .cic] s (linkIdled s) :=
  (cicPc_unchanged s .boot).trans (portWrite_unchanged .cic .cic 0 _)

/-! ## A window inside a buffer -/

theorem cellAt_add (base off : Addr) (i : Nat) : cellAt (base + off) i = cellAt base (off.toNat + i) := by
  rw [cellAt, cellAt, BitVec.ofNat_add, BitVec.ofNat_toNat, BitVec.setWidth_eq, BitVec.add_assoc]

theorem cellsFrom_add_subset {off : Addr} {m n : Nat} (h : off.toNat + m ≤ n) (base : Addr) :
    cellsFrom (base + off) m ⊆ cellsFrom base n := by
  intro a ha
  obtain ⟨i, hi, rfl⟩ := mem_cellsFrom.1 ha
  rw [cellAt_add]
  exact cellAt_mem_cellsFrom (by omega) base

theorem cellAt_notMem_window {off : Addr} {m i : Nat} (hm : off.toNat + m ≤ 256) (hi : i < 256)
    (h : i < off.toNat ∨ off.toNat + m ≤ i) (base : Addr) : cellAt base i ∉ cellsFrom (base + off) m := by
  intro hmem
  obtain ⟨j, hj, he⟩ := mem_cellsFrom.1 hmem
  rw [cellAt_add] at he
  have hij := cellAt_inj hi (by omega) he
  omega

/-- A run of cells reads as the list whose values its cells hold. -/
theorem readCells_eq_of_getD {w : Who} {base : Addr} {n : Nat} {s : State} {vs : List Nibble} (hlen : vs.length = n)
    (h : ∀ i < n, readCell w (cellAt base i) s = vs.getD i 0) : readCells w base n s = vs := by
  refine List.ext_getElem ((length_readCells w base n s).trans hlen.symm) fun i hi hi' => ?_
  have hcell := h i (hlen ▸ hi')
  rw [List.getD_eq_getElem _ _ hi'] at hcell
  simpa [readCells] using hcell

/-! ## The seed of `CIC.Main` (45 R314, R342) -/

theorem seedCell_before {c : Params} {i : Nat} (h : i < c.seedWinOff.toNat) :
    seedCell c i = c.seedExtra.toList.getD i 0 := if_pos h

theorem seedCell_window (c : Params) {i : Nat} (h : i < 16) :
    seedCell c (c.seedWinOff.toNat + i) = (Config.seedDerive c.secret).toList.getD i 0 := by
  rw [seedCell, if_neg (by omega), if_pos (by omega), Nat.add_sub_cancel_left]

theorem seedCell_after {c : Params} {i : Nat} (h : c.seedWinOff.toNat + 16 ≤ i) :
    seedCell c i = c.seedExtra.toList.getD (i - 16) 0 := by
  rw [seedCell, if_neg (by omega), if_neg (by omega)]

/-- The seed buffer before scrambling (45 R314). -/
def seedPlaced (s : State) : State :=
  writeCells .cic Config.seedBuf ((List.range s.cfg.seedXferLen.toNat).map (seedCell s.cfg)) s

/-- The seed buffer with its window encoded twice (45 R342). -/
def seedScrambled (s : State) : State :=
  passes 2 (encodePass .cic (Config.seedBuf + (seedPlaced s).cfg.seedWinOff)) (seedPlaced s)

theorem length_seedCells (c : Params) :
    ((List.range c.seedXferLen.toNat).map (seedCell c)).length = c.seedXferLen.toNat := by
  rw [List.length_map, List.length_range]

theorem seedPlaced_outside (s : State) :
    CellsUnchangedOutside .cic (cellsFrom Config.seedBuf s.cfg.seedXferLen.toNat) s (seedPlaced s) :=
  writeCells_outside_of_length (length_seedCells s.cfg) .cic Config.seedBuf s

theorem seedPlaced_unchanged (s : State) : Unchanged [.mem .cic] s (seedPlaced s) := writeCells_unchanged .cic _ _ s

theorem seedScrambled_eq (s : State) : seedScrambled s =
    passes 2 (encodePass .cic (Config.seedBuf + s.cfg.seedWinOff)) (seedPlaced s) := by
  have hcfg : (seedPlaced s).cfg = s.cfg := seedPlaced_unchanged s .cfg (by decide)
  rw [seedScrambled, hcfg]

theorem seedScrambled_unchanged (s : State) : Unchanged [.mem .cic] s (seedScrambled s) :=
  (seedPlaced_unchanged s).trans' (encodePasses_unchanged 2 .cic _ _)

theorem cicSendSeed_eq (s : State) : cicSendSeed s =
    push .cic [.op (.writeBuf Config.seedBuf s.cfg.seedXferLen), .pos .seedSent]
      (settle .cic true (seedScrambled s)) := by
  have hcfg : (settle .cic true (seedScrambled s)).cfg = s.cfg :=
    (settle_cfg .cic true _).trans (seedScrambled_unchanged s .cfg (by decide))
  rw [← congrArg Params.seedXferLen hcfg]
  rfl

theorem readCell_seedPlaced {i : Nat} {s : State} (hi : i < s.cfg.seedXferLen.toNat) :
    readCell .cic (cellAt Config.seedBuf i) (seedPlaced s) = seedCell s.cfg i := by
  have hlen := length_seedCells s.cfg
  have hmax := s.cfg.seedXferLen.isLt
  rw [seedPlaced, readCell_writeCells .cic _ _ s (by omega) (by omega) 0, List.getD_eq_getElem _ _ (by omega),
    List.getElem_map, List.getElem_range]

theorem seedPlaced_window {s : State} (h : s.cfg.seedWinOff.toNat + 16 ≤ s.cfg.seedXferLen.toNat) :
    readCells .cic (Config.seedBuf + s.cfg.seedWinOff) 16 (seedPlaced s) =
      (Config.seedDerive s.cfg.secret).toList := by
  refine readCells_eq_of_getD (Vector.length_toList ..) fun i hi => ?_
  rw [cellAt_add, readCell_seedPlaced (by omega), seedCell_window s.cfg hi]

/-- The seed in its window, encoded twice. -/
theorem seedScrambled_window {s : State} (h : s.cfg.seedWinOff.toNat + 16 ≤ s.cfg.seedXferLen.toNat) :
    readCells .cic (Config.seedBuf + s.cfg.seedWinOff) 16 (seedScrambled s) =
      (encodeCells roundStart)^[2] (Config.seedDerive s.cfg.secret).toList := by
  rw [seedScrambled_eq, encodePasses_window, seedPlaced_window h]

/-- Around its window the buffer holds what was placed there. -/
theorem readCell_seedScrambled {i : Nat} {s : State} (hlen : s.cfg.seedWinOff.toNat + 16 ≤ s.cfg.seedXferLen.toNat)
    (hi : i < s.cfg.seedXferLen.toNat) (h : i < s.cfg.seedWinOff.toNat ∨ s.cfg.seedWinOff.toNat + 16 ≤ i) :
    readCell .cic (cellAt Config.seedBuf i) (seedScrambled s) = seedCell s.cfg i := by
  have hmax := s.cfg.seedXferLen.isLt
  rw [seedScrambled_eq, encodePasses_outside 2 .cic _ _ _ (cellAt_notMem_window (by omega) (by omega) h _),
    readCell_seedPlaced hi]

theorem seedScrambled_outside {s : State} (h : s.cfg.seedWinOff.toNat + 16 ≤ s.cfg.seedXferLen.toNat) :
    CellsUnchangedOutside .cic (cellsFrom Config.seedBuf s.cfg.seedXferLen.toNat) s (seedScrambled s) :=
  seedScrambled_eq s ▸
    (seedPlaced_outside s).trans' ((encodePasses_outside 2 .cic _ _).mono (cellsFrom_add_subset h _))

/-! ## The checksum of `CIC.Main` (45 R315, R343) -/

/-- The checksum window, encoded four times (45 R343). -/
def checksumScrambled (s : State) : State :=
  passes 4 (encodePass .cic Config.cksWin) (writeCells .cic Config.cksWin s.cfg.cksPlain.toList s)

theorem cicSendChecksum_warm {s : State} (h : cellBit .cic Config.cst 0 s = true) :
    cicSendChecksum s = push .cic [.pos .cicKey] s := if_pos h

theorem cicSendChecksum_cold {s : State} (h : cellBit .cic Config.cst 0 s = false) : cicSendChecksum s =
    push .cic [.op (.writeBuf Config.cksWin 16), .pos .cicKey] (settle .cic true (checksumScrambled s)) :=
  if_neg (ne_true_of_eq_false h)

theorem checksumScrambled_window (s : State) : readCells .cic Config.cksWin 16 (checksumScrambled s) =
    (encodeCells roundStart)^[4] s.cfg.cksPlain.toList := by
  rw [checksumScrambled, encodePasses_window, readCells_writeCells_of_length (Vector.length_toList ..) (by decide)]

theorem checksumScrambled_outside (s : State) :
    CellsUnchangedOutside .cic (cellsFrom Config.cksWin 16) s (checksumScrambled s) :=
  (writeCells_outside_of_length (Vector.length_toList ..) .cic _ s).trans' (encodePasses_outside 4 .cic _ _)

theorem checksumScrambled_unchanged (s : State) : Unchanged [.mem .cic] s (checksumScrambled s) :=
  (writeCells_unchanged .cic _ _ s).trans' (encodePasses_unchanged 4 .cic _ _)

/-- Registers drawn and tasks put first after a change of the CIC's memory alone. -/
theorem settle_continues_push {s t : State} (h : Unchanged [.mem .cic] s t) (ts : List Task) :
    Continues .cic ts s (push .cic ts (settle .cic true t)) ∧
    Unchanged (.mem .cic :: .position .cic :: scratchRegisters .cic) s (push .cic ts (settle .cic true t)) := by
  obtain ⟨hcont, hframe⟩ := (h.trans (settle_unchanged .cic t)).continues_push (w := .cic) (by decide) ts
  exact ⟨hcont, hframe.mono (by decide)⟩

/-! ## The keying (45 R320) -/

/-- The two compare segments of the CIC stored. -/
def cicSegmentsStored (k : Window × Window) (s : State) : State :=
  writeCells .cic Config.cmp1 k.2.toList (writeCells .cic Config.cmp0 k.1.toList s)

theorem cicKeyed_eq (s : State) : cicKeyed s = backToIdle
    (cicSegmentsStored (keySegments s.cfg (Config.seedDerive s.cfg.secret) s.cfg.cksPlain) s) := rfl

theorem keySegments_default {c : Params} (h : c.compareKeyInit = .specDefault) (seed cks : Window) :
    keySegments c seed cks = (seed, cks) := by
  rw [keySegments, h]

theorem cicSegmentsStored_cells (k : Window × Window) (s : State) :
    readCells .cic Config.cmp0 16 (cicSegmentsStored k s) = k.1.toList ∧
    readCells .cic Config.cmp1 16 (cicSegmentsStored k s) = k.2.toList := by
  have hfirst := readCells_writeCells_of_length (vs := k.1.toList) (Vector.length_toList ..) (by decide) .cic
    Config.cmp0 s
  have hapart := (writeCells_outside_of_length (vs := k.2.toList) (Vector.length_toList ..) .cic Config.cmp1
    (writeCells .cic Config.cmp0 k.1.toList s)).readCells cmp0_notMem_cmp1
  exact ⟨hapart.trans hfirst, readCells_writeCells_of_length (Vector.length_toList ..) (by decide) .cic _ _⟩

theorem cicSegmentsStored_outside (k : Window × Window) (s : State) :
    CellsUnchangedOutside .cic (cellsFrom Config.cmp0 16 ++ cellsFrom Config.cmp1 16) s (cicSegmentsStored k s) :=
  (writeCells_outside_of_length (Vector.length_toList ..) .cic Config.cmp0 s).trans
    (writeCells_outside_of_length (Vector.length_toList ..) .cic Config.cmp1 _)

theorem cicSegmentsStored_unchanged (k : Window × Window) (s : State) :
    Unchanged [.mem .cic] s (cicSegmentsStored k s) :=
  (writeCells_unchanged .cic _ _ s).trans' (writeCells_unchanged .cic _ _ _)

/-- Settles O45: the hello code by its port write and push, seed and checksum by what is placed and its encode passes, the
keying by `cicSegmentsStored` and `backToIdle`. -/
theorem cicMainSendsHelloSeedChecksum : Obligations.CicMainSendsHelloSeedChecksum := by
  refine ⟨fun s => ?_, fun s hwin hlen => ?_, fun s hwarm => ?_, fun s hcold => ?_, fun s => ?_⟩
  · exact ⟨_, exec_cicMain s, rfl, linkIdled_logged s, rfl, (linkIdled_unchanged s).continues_push (by decide) _⟩
  · have hend : Unchanged (scratchRegisters .cic ++ [Field.position .cic]) (seedScrambled s) (cicSendSeed s) := by
      rw [cicSendSeed_eq]
      exact (settle_unchanged .cic _).trans (push_unchanged .cic _ _)
    have hmem : Field.mem .cic ∉ scratchRegisters .cic ++ [Field.position .cic] := by decide
    refine ⟨_, rfl, ?_, fun i hi => ?_, fun i hi hi' => ?_, (seedScrambled_outside hwin).of_unchanged hend hmem, ?_⟩
    · rw [resume, hend.readCells hmem, seedScrambled_window hwin, roundStart]
    · rw [resume, hend (.mem .cic) hmem, readCell_seedScrambled hwin (by omega) (.inl hi), seedCell_before hi]
    · rw [resume, hend (.mem .cic) hmem, readCell_seedScrambled hwin hi' (.inr hi), seedCell_after hi]
    · rw [resume, cicSendSeed_eq]
      exact settle_continues_push (seedScrambled_unchanged s) _
  · exact continues_of_push (congrArg Host.Outcome.next (cicSendChecksum_warm hwarm))
  · have hend := (settle_unchanged .cic (checksumScrambled s)).trans
      (push_unchanged .cic [.op (.writeBuf Config.cksWin 16), .pos .cicKey] _)
    refine ⟨_, congrArg Host.Outcome.next (cicSendChecksum_cold hcold), ?_,
      (checksumScrambled_outside s).of_unchanged hend (by decide),
      settle_continues_push (checksumScrambled_unchanged s) _⟩
    rw [hend.readCells (by decide), checksumScrambled_window, roundStart]
  · have hkey (k : Window × Window) := cicSegmentsStored_unchanged k s
    have hend (k : Window × Window) := backToIdle_unchanged (cicSegmentsStored k s)
    refine ⟨_, congrArg Host.Outcome.next (cicKeyed_eq s), backToIdle_pc _, fun hdefault => ?_,
      (cicSegmentsStored_outside _ s).of_unchanged (hend _) (by decide), ?_, ((hkey _).trans (hend _)).mono (by decide)⟩
    · rw [(hend _).readCells (by decide), (hend _).readCells (by decide), keySegments_default hdefault]
      exact cicSegmentsStored_cells _ s
    · exact (backToIdle_continues _).trans (congrArg ([.pos .cicIdle] ++ ·) (hkey _ (.position .cic) (by decide)))

/-! ## `CIC.Compare` (45 R344) -/

/-- The segments of the CIC after their rounds. -/
def cicSegmentRounds (s : State) : State :=
  passes 3 (comparePass .cic Config.cmp1) (passes 3 (comparePass .cic Config.cmp0) s)

theorem cicSegmentRounds_cmp0 (s : State) : toWindow (readCells .cic Config.cmp0 16 (cicSegmentRounds s)) =
    Config.compareRound^[3] (toWindow (readCells .cic Config.cmp0 16 s)) := by
  rw [cicSegmentRounds, (comparePasses_outside 3 .cic Config.cmp1 _).readCells cmp0_notMem_cmp1, comparePasses_window]

theorem cicSegmentRounds_cmp1 (s : State) : toWindow (readCells .cic Config.cmp1 16 (cicSegmentRounds s)) =
    Config.compareRound^[3] (toWindow (readCells .cic Config.cmp1 16 s)) := by
  rw [cicSegmentRounds, comparePasses_window,
    (comparePasses_outside 3 .cic Config.cmp0 s).readCells cmp1_notMem_cmp0]

theorem cicSegmentRounds_outside (s : State) : CellsUnchangedOutside .cic
    (cellsFrom Config.cmp0 16 ++ cellsFrom Config.cmp1 16) s (cicSegmentRounds s) :=
  (comparePasses_outside 3 .cic Config.cmp0 s).trans (comparePasses_outside 3 .cic Config.cmp1 _)

theorem cicSegmentRounds_unchanged (s : State) : Unchanged [.mem .cic] s (cicSegmentRounds s) :=
  (comparePasses_unchanged 3 .cic Config.cmp0 s).trans' (comparePasses_unchanged 3 .cic Config.cmp1 _)

/-- The CIC in its compare with the rounds over: its registers hold any value (log 31). -/
def cicRoundsOver (s : State) : State := settle .cic false (cicSegmentRounds { s with cicPc := .compare })

/-- The index that a compare starts from. -/
def cicStart (s : State) : Nibble :=
  compareStart (cicRoundsOver s).cfg (readCells .cic Config.cmp1 16 (cicRoundsOver s))

theorem exec_cicCompare (s : State) :
    exec .cicCompare s = .next (cicCompareIndex (cicStart s) true (cicRoundsOver s)) := rfl

theorem cicRoundsOver_unchanged (s : State) :
    Unchanged (.cicPc :: .mem .cic :: .carry .cic :: scratchRegisters .cic) s (cicRoundsOver s) :=
  ((cicPc_unchanged s .compare).trans (cicSegmentRounds_unchanged _)).trans (settle_unchanged_carry .cic false _)

theorem cicStart_default {s : State} (h : s.cfg.compareStart = .specDefault) : cicStart s =
    if readCell .cic (cellAt Config.cmp1 7) (cicRoundsOver s) = 0 then 1
      else readCell .cic (cellAt Config.cmp1 7) (cicRoundsOver s) := by
  have hcfg : (cicRoundsOver s).cfg = s.cfg := cicRoundsOver_unchanged s .cfg (by decide)
  rw [cicStart, hcfg, compareStart_default h]

/-- The rounds of a compare and its first index (45 R344). -/
theorem cicCompare_starts (s : State) : ∃ t, ∃ i : Nibble, exec .cicCompare s = .next t ∧ t.cicPc = .compare ∧
    toWindow (readCells .cic Config.cmp0 16 t) =
      Config.compareRound^[3] (toWindow (readCells .cic Config.cmp0 16 s)) ∧
    toWindow (readCells .cic Config.cmp1 16 t) =
      Config.compareRound^[3] (toWindow (readCells .cic Config.cmp1 16 s)) ∧
    CellsUnchangedOutside .cic (cellsFrom Config.cmp0 16 ++ cellsFrom Config.cmp1 16) s t ∧
    (s.cfg.compareStart = .specDefault → i = (if readCell .cic (cellAt Config.cmp1 7) t = 0 then 1
      else readCell .cic (cellAt Config.cmp1 7) t)) ∧
    Continues .cic [.op .readBit, .pos (.compareGot i true)] s t ∧
    Unchanged (.cicPc :: .mem .cic :: .position .cic :: .carry .cic :: scratchRegisters .cic) s t := by
  have henter := cicPc_unchanged s .compare
  have hrounds := cicSegmentRounds_unchanged { s with cicPc := .compare }
  have hpush : Unchanged [.position .cic] (cicRoundsOver s) (cicCompareIndex (cicStart s) true (cicRoundsOver s)) :=
    push_unchanged .cic _ _
  have hend := (settle_unchanged_carry .cic false (cicSegmentRounds { s with cicPc := .compare })).trans hpush
  obtain ⟨hcont, hframe⟩ := (cicRoundsOver_unchanged s).continues_push (w := .cic) (by decide)
    [.op .readBit, .pos (.compareGot (cicStart s) true)]
  refine ⟨_, cicStart s, exec_cicCompare s, ?_, ?_, ?_, fun a ha => ?_, fun hstart => ?_, hcont,
    hframe.mono (by decide)⟩
  · exact (hend .cicPc (by decide)).trans (hrounds .cicPc (by decide))
  · rw [hend.readCells (by decide), cicSegmentRounds_cmp0, henter.readCells (by decide)]
  · rw [hend.readCells (by decide), cicSegmentRounds_cmp1, henter.readCells (by decide)]
  · rw [hend (.mem .cic) (by decide), cicSegmentRounds_outside _ a ha, henter (.mem .cic) (by decide)]
  · rw [hpush (.mem .cic) (by decide), cicStart_default hstart]

theorem cicComparePut_more {i : Nibble} {s : State} (h : compareNext s.cfg i ≠ 0) (ok : Bool) :
    cicComparePut i ok s = push .cic [.op .readBit, .pos (.compareGot (compareNext s.cfg i) ok)] s := if_neg h

theorem cicComparePut_passed {i : Nibble} {s : State} (h : compareNext s.cfg i = 0) :
    cicComparePut i true s = backToIdle s := if_pos h

theorem cicComparePut_failed {i : Nibble} {s : State} (h : compareNext s.cfg i = 0) :
    cicComparePut i false s = cicDie s := if_pos h

/-- In each of its three endings the CIC keeps what no ending reaches. -/
theorem cicComparePut_unchanged (i : Nibble) (ok : Bool) (s : State) :
    Unchanged (.cicPc :: .position .cic :: .carry .cic :: scratchRegisters .cic) s (cicComparePut i ok s) := by
  by_cases hlast : compareNext s.cfg i = 0
  · cases ok with
    | true => exact cicComparePut_passed hlast ▸ backToIdle_unchanged s
    | false => exact cicComparePut_failed hlast ▸ cicDie_unchanged s
  · rw [cicComparePut_more hlast]
    exact (push_unchanged .cic _ s).mono (by decide)

/-! ## `CIC.Reset` after its count (45 R348) -/

/-- The next boot marked warm, the registers at any value (45 R348; log 31). -/
def cicMarkedWarm (s : State) : State := settle .cic false (setBit .cic Config.cst bitCicWarm s)

theorem cicResetCounted_eq (s : State) :
    cicResetCounted s = push .cic [.op (.writeBit false)] (cicMarkedWarm s) := rfl

theorem cicMarkedWarm_unchanged (s : State) :
    Unchanged (.mem .cic :: .carry .cic :: scratchRegisters .cic) s (cicMarkedWarm s) :=
  (setBit_unchanged .cic _ _ s).trans (settle_unchanged_carry .cic false _)

/-- The warm mark with the other bits kept, and the ready bit (45 R348). -/
theorem cicResetCounted_spec (s : State) :
    (∀ i < 4, cellBit .cic Config.cst i (cicResetCounted s) = if i = 0 then true else cellBit .cic Config.cst i s) ∧
    CellsUnchangedOutside .cic [Config.cst] s (cicResetCounted s) ∧
    Continues .cic [.op (.writeBit false)] s (cicResetCounted s) ∧
    Unchanged (.mem .cic :: .position .cic :: .carry .cic :: scratchRegisters .cic) s (cicResetCounted s) := by
  have hend := (settle_unchanged_carry .cic false (setBit .cic Config.cst bitCicWarm s)).trans
    (push_unchanged .cic [.op (.writeBit false)] _)
  obtain ⟨hcont, hframe⟩ := (cicMarkedWarm_unchanged s).continues_push (w := .cic) (by decide) [.op (.writeBit false)]
  rw [cicResetCounted_eq]
  refine ⟨fun i _ => ?_, (setBit_outside .cic _ _ s).of_unchanged hend (by decide), hcont, hframe.mono (by decide)⟩
  exact (hend.cellBit (by decide) Config.cst i).trans (cellBit_setBit .cic Config.cst bitCicWarm i s)

/-- Settles O47: the compare by `cicCompare_starts` and the three equations of `cicComparePut`, challenge and reset by
their pushes, `backToIdle` and `cicResetCounted_spec`. -/
theorem CicEngine.cicOperations : Obligations.CicOperations := by
  refine ⟨cicCompare_starts, fun s i ok => continues_of_push rfl, fun s i ok => ⟨_, rfl, fun hmore => ?_,
    fun hlast hok => ?_, fun hlast hok => ?_, cicComparePut_unchanged i ok s⟩,
    fun s => ⟨_, rfl, rfl, (cicPc_unchanged s .challenge).continues_push (by decide) _⟩,
    fun s => ⟨_, rfl, backToIdle_pc s, backToIdle_continues s, backToIdle_unchanged s⟩,
    fun s => ⟨_, rfl, rfl, (cicPc_unchanged s .reset).continues_push (by decide) _⟩,
    fun s => ⟨_, rfl, cicResetCounted_spec s⟩⟩
  · rw [resume, cicComparePut_more hmore]
    exact ⟨push_unchanged .cic _ s, push_cont .cic _ s⟩
  · subst hok
    rw [resume, cicComparePut_passed hlast]
    exact ⟨backToIdle_pc s, backToIdle_continues s⟩
  · subst hok
    rw [resume, cicComparePut_failed hlast]
    rfl

end Sys2Proof.Machine
end

