-- ==== Sys2Proof/Proofs/Host.lean ====
section
/-! The actions of the host (60 R396 to R406): what each can do, and when it is refused. -/

namespace Sys2Proof.Machine

/-! ## Frames -/

/-- Of the parts named as changed, those that agree after all need no mention. -/
theorem Unchanged.narrow {l m : List Field} {s t : State} (h : Unchanged l s t)
    (hl : ∀ f ∈ l, f ∉ m → f.same s t) : Unchanged m s t := fun f hf =>
  if hmem : f ∈ l then hl f hmem hf else h f hmem

/-- What the host, the notional field and the turn of the engines set. -/
def stimulusFields : List Field := [.ifa, .ifb, .xfer, .kindDue, .supply, .seen, .script, .active, .opField]

theorem SameBesidesStimulus.unchanged {s t : State} (h : SameBesidesStimulus s t) : Unchanged stimulusFields s t := by
  intro f hf
  rw [h]
  cases f with
  | mem v => cases v <;> exact fun _ => rfl
  | regA v | regX v | ptrB v | ptrSB v | carry v | log v | position v | ret v => cases v <;> rfl
  | latch v q => cases v <;> rfl
  | ifa | ifb | xfer | kindDue | supply | seen | script | active | opField => simp [stimulusFields] at hf
  | _ => rfl

/-! ## What an action can do -/

/-- An action that is not refused is power-on, a step of the engine named, a store to a shared cell, or a change of the
stimulus alone. -/
theorem hostAction_cases {a : HostAct} {s t : State} (h : hostAction a s = .next t) :
    a = .powerOn ∨ (∃ w, a = .schedule w ∧ engineStep w s = .next t) ∨ (∃ b x, t = writeCell .pif b x s) ∨
      SameBesidesStimulus s t := by
  cases a with
  | powerOn => exact .inl rfl
  | schedule w => exact .inr (.inl ⟨w, rfl, h⟩)
  | supply p x => cases h; exact .inr (.inr (.inr rfl))
  | resetButton => cases h; exact .inr (.inr (.inr rfl))
  | sharedWrite b x =>
    simp only [hostAction] at h
    split at h
    · cases h; exact .inr (.inr (.inl ⟨b, x, rfl⟩))
    · cases h
  | request k =>
    simp only [hostAction] at h
    split at h
    · cases h
    · cases h; exact .inr (.inr (.inr rfl))
  | sharedRead b =>
    simp only [hostAction] at h
    split at h
    · cases h; exact .inr (.inr (.inr rfl))
    · cases h
  | complete =>
    simp only [hostAction] at h
    split at h
    · cases h; exact .inr (.inr (.inr rfl))
    · cases h

/-! ## Duties (60 R404) -/

theorem haltWindow_iff (s : State) : haltWindow s = true ↔ s.halted = true ∧ s.ifa = false := by
  simp [haltWindow]

theorem sharedReadAllowed_iff (a : Addr) (s : State) :
    (haltWindow s && inShared a) = true ↔ s.halted = true ∧ s.ifa = false ∧ 0x80 ≤ a.toNat := by
  simp [haltWindow, inShared, and_assoc]

/-- The open transfer is a write (30 R110). -/
theorem xferWrites_iff (s : State) :
    s.xfer.any XKindWrites = true ↔ s.xfer ∈ [some .write4, some .write64] := by
  cases s.xfer with
  | none => decide
  | some k => cases k <;> decide

theorem sharedWriteAllowed_iff (a : Addr) (s : State) :
    (haltWindow s && inShared a && s.xfer.any XKindWrites) = true ↔
      s.halted = true ∧ s.ifa = false ∧ 0x80 ≤ a.toNat ∧ s.xfer ∈ [some .write4, some .write64] := by
  rw [Bool.and_eq_true, sharedReadAllowed_iff, xferWrites_iff, and_assoc, and_assoc]

/-! ## Power-on (10 R49) -/

/-- What power-on keeps of the host's and the model's own fields (log 18). -/
def keptOverPowerOn : List Field :=
  [.log .pif, .log .cic, .script, .supply, .seen, .active, .opField, .draws, .cfg]

theorem powerOn_kept (s : State) : ∀ f ∈ keptOverPowerOn, f.same s (powerOn s) := by
  simp [keptOverPowerOn, Field.same, powerOn]

/-- All else is as at reset, from whatever state. -/
theorem powerOn_resets (s : State) : Unchanged keptOverPowerOn State.reset (powerOn s) := by
  intro f hf
  cases f with
  | mem v => cases v <;> exact fun _ => rfl
  | log v => cases v <;> simp [keptOverPowerOn] at hf
  | regA v | regX v | ptrB v | ptrSB v | carry v | position v | ret v => cases v <;> rfl
  | latch v q => cases v <;> rfl
  | script | supply | seen | active | opField | draws | cfg => simp [keptOverPowerOn] at hf
  | _ => rfl

/-! ## The actions -/

/-- A change of the stimulus by the parts it reaches. -/
theorem SameBesidesStimulus.narrow {l : List Field} {s t : State} (h : SameBesidesStimulus s t)
    (hl : ∀ f ∈ stimulusFields, f ∉ l → f.same s t) : Unchanged l s t := h.unchanged.narrow hl

/-- Settles O54: each action by its guard, met or not, and each change by its frame. -/
theorem hostActions : Obligations.HostActions := by
  refine ⟨fun s k hhalt hxfer => ?_, fun s k h => if_pos h, fun s k a v hhalt hifa ha hxfer hk => ?_, fun s a v h => ?_,
    fun s a hhalt hifa ha => ?_, fun s a h => ?_, fun s hhalt hifa => ?_, fun s h => ?_, fun s => ?_, fun s p v => ?_,
    fun _ _ => rfl, fun s => ⟨_, rfl, powerOn_resets s, powerOn_kept s⟩⟩
  · exact ⟨_, if_neg (by simp [hhalt, hxfer]), rfl, rfl, rfl,
      SameBesidesStimulus.narrow rfl (by simp [stimulusFields, Field.same])⟩
  · have hallowed := (sharedWriteAllowed_iff a s).2 ⟨hhalt, hifa, ha, by simpa [hxfer] using hk⟩
    exact ⟨_, if_pos hallowed, readCell_writeCell_same .pif a v s, writeCell_outside .pif a v s,
      writeCell_unchanged .pif a v s⟩
  · refine if_neg fun hallowed => ?_
    obtain ⟨hhalt, hifa, ha, hxfer⟩ := (sharedWriteAllowed_iff a s).1 hallowed
    simp only [hhalt, hifa, hxfer, not_true, Bool.true_eq_false, Bool.false_eq_true, or_false, false_or] at h
    omega
  · exact ⟨_, if_pos ((sharedReadAllowed_iff a s).2 ⟨hhalt, hifa, ha⟩), rfl,
      SameBesidesStimulus.narrow rfl (by simp [stimulusFields, Field.same])⟩
  · refine if_neg fun hallowed => ?_
    obtain ⟨hhalt, hifa, ha⟩ := (sharedReadAllowed_iff a s).1 hallowed
    simp only [hhalt, hifa, Bool.true_eq_false, Bool.false_eq_true, false_or] at h
    omega
  · exact ⟨_, if_pos ((haltWindow_iff s).2 ⟨hhalt, hifa⟩), rfl, rfl,
      SameBesidesStimulus.narrow rfl (by simp [stimulusFields, Field.same])⟩
  · refine if_neg fun hopen => ?_
    obtain ⟨hhalt, hifa⟩ := (haltWindow_iff s).1 hopen
    simp [hhalt, hifa] at h
  · exact ⟨_, rfl, rfl, SameBesidesStimulus.narrow rfl (by simp [stimulusFields, Field.same])⟩
  · exact ⟨_, rfl, rfl, SameBesidesStimulus.narrow rfl (by simp [stimulusFields, Field.same])⟩

end Sys2Proof.Machine
end

