-- ==== Sys2Proof/Proofs/Fatal.lean ====
section
/-! The fatal action and the state it leaves (60 R370): what a step can do there, of either engine and of the host. -/

namespace Sys2Proof.Machine

/-- In `S_FATAL` a step of the PIF is one turn of the strobe, whatever the PIF had still to do (60 R370). -/
theorem engineStep_pif_fatal {s : State} (h : s.pifPc = .fatal) :
    engineStep .pif s = .next (fatalStrobe (turnTo .pif s)) := by
  have hfetch : fetchTask .pif (turnTo .pif s) = some (.pos .fatalStrobe, turnTo .pif s) := if_pos h
  exact engineStep_of_fetch hfetch

theorem fatalStrobe_logged (s : State) : Logged .pif [.write .reset 1, .write .reset 0] s (fatalStrobe s) := rfl

theorem fatalStrobe_unchanged (s : State) : Unchanged [.latch .pif .reset, .log .pif] s (fatalStrobe s) :=
  (portWrite_unchanged .pif .reset _ s).trans' (portWrite_unchanged .pif .reset _ _)

/-- Settles O50: the action by `raiseFatal_spec`, the step in `S_FATAL` as the two writes of the strobe. -/
theorem fatalAction : Obligations.FatalAction := by
  refine ⟨fun s c => ⟨_, rfl, raiseFatal_spec c s⟩, fun s h => ⟨_, engineStep_pif_fatal h, ?_, rfl, rfl, ?_⟩⟩
  · exact ((turnTo_unchanged .pif s).logged_nil (by decide)).trans (fatalStrobe_logged _)
  · exact ((turnTo_unchanged .pif s).trans (fatalStrobe_unchanged _)).mono (by decide)

/-! ## `S_FATAL` is never left -/

/-- The control state and the fatal cause stand as they stood. -/
def KeepsFatal (s t : State) : Prop := t.pifPc = s.pifPc ∧ t.fcause = s.fcause

theorem Unchanged.keepsFatal {l : List Field} {s t : State} (h : Unchanged l s t) (hpc : Field.pifPc ∉ l)
    (hcause : Field.fcause ∉ l) : KeepsFatal s t := ⟨h .pifPc hpc, h .fcause hcause⟩

/-- In `S_FATAL` the PIF only strobes, and the CIC reaches neither (60 R370, R410). -/
theorem keepsFatal_engineStep {w : Who} {s t : State} (hs : TasksOwned s) (hf : s.pifPc = .fatal)
    (h : engineStep w s = .next t) : KeepsFatal s t := by
  cases w with
  | pif =>
    rw [engineStep_pif_fatal hf] at h
    cases h
    exact ((turnTo_unchanged .pif s).trans (fatalStrobe_unchanged _)).keepsFatal (by decide) (by decide)
  | cic => exact (unchanged_engineStep hs h).keepsFatal (by decide) (by decide)

/-- Of the host's actions only power-on reaches either (60 R406). -/
theorem keepsFatal_hostAction {a : HostAct} {s t : State} (ha : a ≠ .powerOn) (hs : TasksOwned s)
    (hf : s.pifPc = .fatal) (h : hostAction a s = .next t) : KeepsFatal s t := by
  obtain e | ⟨w, _, hstep⟩ | ⟨b, x, rfl⟩ | hsame := hostAction_cases h
  · exact absurd e ha
  · exact keepsFatal_engineStep hs hf hstep
  · exact (writeCell_unchanged .pif b x s).keepsFatal (by decide) (by decide)
  · exact hsame.unchanged.keepsFatal (by decide) (by decide)

/-- Settles O58: with the notional field empty a step is the host's next action or a step of an engine, and each keeps
the control state and the cause. -/
theorem fatalIsNeverLeft : Obligations.FatalIsNeverLeft := by
  intro s t hs hf hfield hpower h
  suffices kept : KeepsFatal s t by
    obtain ⟨hpc, hcause⟩ := kept
    exact ⟨hpc.trans hf, hcause⟩
  cases hscript : s.script with
  | cons a rest =>
    rw [step_of_script hfield hscript] at h
    have ha : a ≠ .powerOn := by simpa [hscript] using hpower
    exact keepsFatal_hostAction (s := { s with script := rest }) ha hs hf h
  | nil =>
    rw [step_of_no_script hfield hscript] at h
    obtain ⟨u, hu, rfl⟩ := alternate_next h
    have kept : KeepsFatal s u := keepsFatal_engineStep hs hf hu
    exact kept

end Sys2Proof.Machine
end

