-- ==== Sys2Proof/Proofs/Interrupts.lean ====
section
/-! Interrupt entry and return, the halt, and the two services (60 R362 to R387). -/

namespace Sys2Proof.Machine

/-! ## Entry and return (60 R366, R368) -/

theorem takeInterrupt_entered (x : IntSrc) (s : State) : InterruptEntered x s (takeInterrupt x s) := by
  have hframe := takeInterrupt_unchanged x s
  cases x with
  | a => exact ⟨by simp [takeInterrupt], by simp [takeInterrupt], rfl, rfl, rfl, rfl, rfl, hframe⟩
  | b => exact ⟨by simp [takeInterrupt], by simp [takeInterrupt], rfl, rfl, rfl, rfl, rfl, hframe⟩

theorem returnInterrupt_of_served {s : State} {r : IsrRecord} (h : s.isr = some r) : returnInterrupt s =
    setCont .pif r.position { swapPointers .pif s with pifPc := r.pc, isr := none, ie := true } := by
  simp [returnInterrupt, h]

/-- With none in service the pointers are exchanged and `IE` is set (log 19). -/
theorem returnInterrupt_of_none {s : State} (h : s.isr = none) :
    returnInterrupt s = { swapPointers .pif s with ie := true } := by
  simp [returnInterrupt, h]

theorem returnInterrupt_of_none_unchanged {s : State} (h : s.isr = none) :
    Unchanged [.ptrB .pif, .ptrSB .pif, .ie] s (returnInterrupt s) :=
  returnInterrupt_of_none h ▸ (swapPointers_unchanged .pif s).trans (ie_unchanged true _)

/-- What an entry took, its return gives back; the latches and `IE` apart (60 R366, R368). -/
theorem returnInterrupt_takeInterrupt (x : IntSrc) {s : State} (h : s.isr = none) :
    Unchanged [.ifa, .ifb, .ie] s (returnInterrupt (takeInterrupt x s)) := by
  obtain ⟨_, _, _, hisr, hB, hSB, _, _⟩ := takeInterrupt_entered x s
  refine ((takeInterrupt_unchanged x s).trans (returnInterrupt_unchanged _)).narrow ?_
  rw [returnInterrupt_of_served hisr]
  have hback : (swapPointers .pif (takeInterrupt x s)).pif.B = s.pif.B := hSB
  have hsaved : (swapPointers .pif (takeInterrupt x s)).pif.SB = s.pif.SB := hB
  simp [Field.same, h, setCont, modEng, setEng, hback, hsaved]

/-- Settles O49: entry and return by what each changes, the end of a service by what `settle` keeps. -/
theorem interruptEntryAndReturn : Obligations.InterruptEntryAndReturn := by
  refine ⟨fun s x => ⟨_, rfl, takeInterrupt_entered x s⟩, fun s r hr => ?_, fun s x => ?_,
    fun s t u x ht hu hnone => ?_, fun s hnone => ?_⟩
  · refine ⟨returnInterrupt s, rfl, ?_⟩
    have hframe := returnInterrupt_unchanged s
    rw [returnInterrupt_of_served hr] at hframe ⊢
    exact ⟨rfl, rfl, rfl, rfl, rfl, rfl, hframe.mono (by simp)⟩
  · exact ⟨_, rfl, settle_unchanged_carry .pif false s,
      fun hserved => settle_keeps_pointers false s (Option.isSome_iff_ne_none.2 hserved)⟩
  · cases ht
    cases hu
    refine ⟨returnInterrupt_takeInterrupt x hnone, ?_⟩
    obtain ⟨_, _, _, hisr, _⟩ := takeInterrupt_entered x s
    rw [returnInterrupt_of_served hisr]
    rfl
  · refine ⟨returnInterrupt s, rfl, ?_⟩
    have hframe := returnInterrupt_of_none_unchanged hnone
    rw [returnInterrupt_of_none hnone] at hframe ⊢
    exact ⟨rfl, rfl, rfl, hframe⟩

/-! ## `POLL` (60 R364, R365) -/

/-- Source `x` is pending and enabled. -/
def Requests (x : IntSrc) (s : State) : Prop :=
  match x with
  | .a => s.ifa = true ∧ intEnabled .a s = true
  | .b => s.ifb = true ∧ intEnabled .b s = true

theorem pollInterrupts_a {s : State} (hie : s.ie = true) (hisr : s.isr = none) (ha : Requests .a s) :
    pollInterrupts s = takeInterrupt .a s := (if_pos ⟨hie, hisr⟩).trans (if_pos ha)

theorem pollInterrupts_b {s : State} (hie : s.ie = true) (hisr : s.isr = none) (ha : ¬Requests .a s)
    (hb : Requests .b s) : pollInterrupts s = takeInterrupt .b s :=
  (if_pos ⟨hie, hisr⟩).trans ((if_neg ha).trans (if_pos hb))

theorem pollInterrupts_masked {s : State} (h : s.ie = false ∨ s.isr ≠ none) : pollInterrupts s = s :=
  if_neg fun ⟨hie, hisr⟩ => h.elim (ne_true_of_eq_false · hie) (· hisr)

theorem pollInterrupts_idle {s : State} (ha : ¬Requests .a s) (hb : ¬Requests .b s) : pollInterrupts s = s := by
  by_cases h : s.ie = true ∧ s.isr = none
  · exact (if_pos h).trans ((if_neg ha).trans (if_neg hb))
  · exact if_neg h

theorem not_requests_a {s : State} (h : (s.ifa && bitOf s.pifLatch.inten 0) = false) : ¬Requests .a s := by
  simpa [Requests, intEnabled] using h

theorem not_requests_b {s : State} (h : (s.ifb && bitOf s.pifLatch.inten 1) = false) : ¬Requests .b s := by
  simpa [Requests, intEnabled] using h

/-- Settles O48: which source requests, A first, where `IE` is set and none is in service. -/
theorem pollTakesOneInterrupt : Obligations.PollTakesOneInterrupt := by
  refine fun s => ⟨fun hie hisr hifa hen => ?_, fun hie hisr ha hifb hen => ?_, fun h => congrArg Host.Outcome.next ?_⟩
  · exact ⟨_, congrArg Host.Outcome.next (pollInterrupts_a hie hisr ⟨hifa, hen⟩), takeInterrupt_entered .a s⟩
  · exact ⟨_, congrArg Host.Outcome.next (pollInterrupts_b hie hisr (not_requests_a ha) ⟨hifb, hen⟩),
      takeInterrupt_entered .b s⟩
  · obtain hie | hisr | ⟨ha, hb⟩ := h
    · exact pollInterrupts_masked (.inl hie)
    · exact pollInterrupts_masked (.inr hisr)
    · exact pollInterrupts_idle (not_requests_a ha) (not_requests_b hb)

/-! ## The halt (60 R380, R381) -/

theorem beginHalt_unchanged (s : State) : Unchanged [.haltPc, .pifPc, .halted] s (beginHalt s) :=
  Unchanged.narrow (pifControl_unchanged s _ _ _ _ _ _ _) (by simp [Field.same, beginHalt])

theorem endHalt_unchanged (s : State) : Unchanged [.ifa, .halted, .pifPc] s (endHalt s) :=
  Unchanged.narrow (pifControl_unchanged s _ _ _ _ _ _ _) (by simp [Field.same, endHalt])

/-- A halted PIF waits while `IFA` is clear (60 R380). -/
theorem engineStep_pif_halted {s : State} (hhalt : s.halted = true) (hpc : s.pifPc ≠ .fatal) (hifa : s.ifa = false) :
    engineStep .pif s = .next { s with active := .pif } :=
  engineStep_of_no_task (by simp [fetchTask, fetchPif, hhalt, hpc, hifa])

/-- `IFA` alone wakes a halted PIF (60 R380). -/
theorem engineStep_pif_wake {s : State} (hhalt : s.halted = true) (hpc : s.pifPc ≠ .fatal) (hifa : s.ifa = true) :
    engineStep .pif s = .next (endHalt (turnTo .pif s)) := by
  have hfetch : fetchTask .pif (turnTo .pif s) = some (.pos .wake, turnTo .pif s) := by
    simp [fetchTask, fetchPif, turnTo, hhalt, hpc, hifa]
  exact engineStep_of_fetch hfetch

/-- Settles O51: `HALT` and its end by what each changes, the acknowledgment by its port write before them. -/
theorem haltAndAcknowledge : Obligations.HaltAndAcknowledge := by
  refine ⟨fun s => ⟨_, rfl, rfl, rfl, rfl, beginHalt_unchanged s⟩, fun s => ?_, fun _ => engineStep_pif_halted,
    fun s hhalt hpc hifa => ?_⟩
  · exact ⟨_, rfl, rfl, rfl, rfl, rfl, rfl, (portWrite_unchanged .pif .jbCtrl _ s).trans (beginHalt_unchanged _)⟩
  · exact ⟨_, engineStep_pif_wake hhalt hpc hifa, rfl, rfl, rfl, rfl,
      ((turnTo_unchanged .pif s).trans (endHalt_unchanged _)).mono (by decide)⟩

/-! ## Interrupt A (60 R382 to R385) -/

/-- The two bits of the kind read select the service (30 R110). -/
theorem xkindInstr_decodeXkind (v : Nibble) : xkindInstr (decodeXkind v) =
    if bitOf v 1 then (if bitOf v 0 then .xkindWrite64 else .xkindRead64)
      else (if bitOf v 0 then .xkindWrite4 else .xkindRead4) := by
  unfold decodeXkind
  split <;> simp [*, xkindInstr]

/-- A 64-byte read that asks for a challenge: marked where the boot is complete, else a transfer (60 R383). -/
theorem challengeAsked_served (s : State) : ChallengeServed s (challengeAsked s) := by
  unfold ChallengeServed
  split
  · next hrun =>
    rw [show challengeAsked s = setBit .pif Config.stMain bitChalPend s from if_pos hrun]
    exact ⟨fun i _ => cellBit_setBit .pif _ _ i s, setBit_outside .pif _ _ s, setBit_unchanged .pif _ _ s⟩
  · next hrun =>
    rw [show challengeAsked s = joybusService s from if_neg hrun]
    exact ⟨push_cont .pif _ s, push_unchanged .pif _ s⟩

theorem exec_pifIntA (s : State) : exec .pifIntA s = .next (push .pif
    [.op (xkindInstr (decodeXkind (portRead .pif .jbStatus s).1)), .pos (.serviceEnd .a), .op .intReturn]
    (portRead .pif .jbStatus s).2) := rfl

theorem writeServed_parse {s : State} (h : cellBit .pif Config.cmdCmd 0 s = true) :
    writeServed s = push .pif [.op .pifJoybusParse] s := if_pos h

theorem writeServed_over {s : State} (h : ¬cellBit .pif Config.cmdCmd 0 s = true) : writeServed s = s := if_neg h

theorem exec_xkindRead64_challenge {s : State} (h : cellBit .pif Config.cmdCmd 1 s = true) :
    exec .xkindRead64 s = .next (challengeAsked s) := congrArg Host.Outcome.next (if_pos h)

theorem exec_xkindRead64_transfer {s : State} (h : ¬cellBit .pif Config.cmdCmd 1 s = true) :
    exec .xkindRead64 s = .next (joybusService s) := congrArg Host.Outcome.next (if_neg h)

theorem inServiceA_of_isr {s : State} {r : IsrRecord} (hr : s.isr = some r) (ha : r.src = .a) :
    inServiceA s = true := by
  simp [inServiceA, hr, ha]

/-- Settles O52: the dispatch on the kind by one port read and a push, each service by its push or its two branches, the
flags by an Interrupt A in service. -/
theorem serviceOfInterruptA : Obligations.ServiceOfInterruptA := by
  refine ⟨fun s => ?_, fun s => continues_of_push rfl, fun i hi s => ?_, fun s => ?_, fun s => ?_,
    fun s r hr ha => ?_, fun s r hr ha => ?_⟩
  · have hread := turned_portRead .jbStatus s
    refine ⟨_, (portRead .pif .jbStatus s).1, exec_pifIntA s, rfl, ?_⟩
    rw [xkindInstr_decodeXkind]
    obtain ⟨hlog, hcont, hframe⟩ := hread.after (turned_push _ _)
    exact ⟨hlog, hcont, hframe.mono (by decide)⟩
  · simp only [List.mem_cons, List.not_mem_nil, or_false] at hi
    obtain rfl | rfl := hi
    · exact continues_of_push rfl
    · exact continues_of_push rfl
  · refine ⟨_, rfl, ?_⟩
    rw [resume]
    by_cases hparse : cellBit .pif Config.cmdCmd 0 s = true
    · rw [writeServed_parse hparse, if_pos hparse]
      exact ⟨push_unchanged .pif _ s, push_cont .pif _ s⟩
    · rw [writeServed_over hparse, if_neg hparse]
      exact ⟨Unchanged.refl _ s, rfl⟩
  · by_cases hchal : cellBit .pif Config.cmdCmd 1 s = true
    · exact ⟨_, exec_xkindRead64_challenge hchal, (if_pos hchal).symm ▸ challengeAsked_served s⟩
    · exact ⟨_, exec_xkindRead64_transfer hchal,
        (if_neg hchal).symm ▸ ⟨push_cont .pif _ s, push_unchanged .pif _ s⟩⟩
  · exact continues_of_push (congrArg Host.Outcome.next (if_pos (inServiceA_of_isr hr ha)))
  · exact ⟨_, congrArg Host.Outcome.next (if_pos (inServiceA_of_isr hr ha)), challengeAsked_served s⟩

/-! ## Interrupt B (60 R387) -/

/-- The port writes of Interrupt B: itself off, the pre-reset signal up. -/
def preResetRaised (s : State) : State := portWrite .pif .reset 2 (portWrite .pif .inten 1 s)

theorem turned_preResetRaised (s : State) : Turned [.write .inten 1, .write .reset 2] []
    [.latch .pif .inten, .latch .pif .reset, .log .pif] s (preResetRaised s) :=
  ((turned_portWrite .inten 1 s).after (turned_portWrite .reset 2 _)).mono (by decide)

/-- Settles O53: one bit cleared, two port writes, and the rest of the service put first. -/
theorem serviceOfInterruptB : Obligations.ServiceOfInterruptB := by
  intro s
  have hclear := resetBit_unchanged .pif Config.stMain bitRunning s
  have hrest := (turned_preResetRaised (resetBit .pif Config.stMain bitRunning s)).after
    (turned_push [.pos (.serviceEnd .b), .op .intReturn] _)
  obtain ⟨hlog, hcont, hframe⟩ := (hclear.turned (by decide) (by decide)).after hrest
  refine ⟨_, rfl, fun i hi => ?_, (resetBit_outside .pif _ _ s).of_unchanged hrest.frame (by decide), hlog, rfl, rfl,
    hcont, hframe.mono (by decide)⟩
  exact (hrest.frame.cellBit (by decide) Config.stMain i).trans (cellBit_resetBit hi .pif Config.stMain bitRunning s)

end Sys2Proof.Machine
end

