-- ==== Sys2Proof/Proofs/PollPoints.lean ====
section
/-! Where an interrupt comes into service and where `IE` comes to be set (60 R362, R364): every other task leaves the
in-service record as it is and sets no `IE`. -/

namespace Sys2Proof.Machine

/-- The in-service record is as it was, and `IE` has not come to be set. -/
def InterruptsKept (s t : State) : Prop := t.isr = s.isr ∧ (t.ie = true → s.ie = true)

theorem InterruptsKept.refl (s : State) : InterruptsKept s s := ⟨rfl, id⟩

theorem InterruptsKept.trans {s t u : State} (h : InterruptsKept s t) (k : InterruptsKept t u) :
    InterruptsKept s u := by
  obtain ⟨hisr, hie⟩ := h
  obtain ⟨kisr, kie⟩ := k
  exact ⟨kisr.trans hisr, hie ∘ kie⟩

theorem InterruptsKept.ite {c : Prop} [Decidable c] {s t u : State} (ht : InterruptsKept s t)
    (hu : InterruptsKept s u) : InterruptsKept s (if c then t else u) := by
  split
  · exact ht
  · exact hu

theorem Unchanged.interruptsKept {l : List Field} {s t : State} (h : Unchanged l s t) (hisr : Field.isr ∉ l)
    (hie : Field.ie ∉ l) : InterruptsKept s t := ⟨h .isr hisr, fun e => (h .ie hie).symm.trans e⟩

/-- The CIC reaches neither, and so neither is reached by what both engines do on the link (60 R358, R410). -/
theorem interruptsKept_of_edits {s t : State} (h : Edits s .cic t) : InterruptsKept s t :=
  (unchanged_of_edits h).interruptsKept (by decide) (by decide)

/-! ## The shared operations -/

/-- Cells, registers, the position and the value delivered are an engine's own. -/
theorem interruptsKept_modEng (w : Who) (f : Engine → Engine) (s : State) : InterruptsKept s (modEng w f s) := by
  cases w <;> exact ⟨rfl, id⟩

theorem interruptsKept_push (w : Who) (ts : List Task) (s : State) : InterruptsKept s (push w ts s) :=
  interruptsKept_modEng w _ s

theorem interruptsKept_portWrite (w : Who) (p : Port) (x : Nibble) (s : State) :
    InterruptsKept s (portWrite w p x s) := (portWrite_unchanged w p x s).interruptsKept (by simp) (by simp)

theorem interruptsKept_portRead (w : Who) (p : Port) (s : State) : InterruptsKept s (portRead w p s).2 :=
  (portRead_unchanged w p s).interruptsKept (by simp [portSupply]) (by simp [portSupply])

theorem interruptsKept_settle (w : Who) (k : Bool) (s : State) : InterruptsKept s (settle w k s) :=
  (settle_unchanged_carry w k s).interruptsKept (by simp [scratchRegisters]) (by simp [scratchRegisters])

theorem interruptsKept_mem {w : Who} {s t : State} (h : Unchanged [.mem w] s t) : InterruptsKept s t :=
  h.interruptsKept (by simp) (by simp)

/-- A change of memory by a composite operation, then its registers at any value. -/
theorem interruptsKept_settle_mem {w : Who} {k : Bool} {s t : State} (h : Unchanged [.mem w] s t) :
    InterruptsKept s (settle w k t) := (interruptsKept_mem h).trans (interruptsKept_settle w k t)

theorem interruptsKept_tickTimer (T : Timer) (s : State) : InterruptsKept s (tickTimer T s).2 :=
  interruptsKept_mem (tickTimer_unchanged T s)

/-- The fatal action clears `IE` (60 R370). -/
theorem interruptsKept_raiseFatal (c : FatalCause) (s : State) : InterruptsKept s (raiseFatal c s) :=
  ⟨rfl, fun e => nomatch e⟩

theorem interruptsKept_beginHalt (s : State) : InterruptsKept s (beginHalt s) :=
  (beginHalt_unchanged s).interruptsKept (by decide) (by decide)

theorem interruptsKept_pifPc (pc : PifPc) (s : State) : InterruptsKept s { s with pifPc := pc } :=
  (pifPc_unchanged pc s).interruptsKept (by decide) (by decide)

/-! ## The serial link -/

theorem interruptsKept_bitExchange (w v u : Who) (s : State) : InterruptsKept s (bitExchange w v (dropTask u s)) :=
  interruptsKept_of_edits (edits_bitExchange (.dropTask .refl))

theorem interruptsKept_ackTurn (w : Who) (s : State) : InterruptsKept s (ackTurn w s) :=
  .ite (interruptsKept_bitExchange _ _ _ s) <| .ite (interruptsKept_push w _ s) <|
    (interruptsKept_portRead w .cic s).trans (.ite (interruptsKept_portWrite w _ _ _) (interruptsKept_push w _ _))

theorem interruptsKept_readBitTurn (w : Who) (s : State) : InterruptsKept s (readBitTurn w s) :=
  .ite (.ite (interruptsKept_bitExchange _ _ _ s) (interruptsKept_push w _ s)) <|
    interruptsKept_of_edits (.deliver (.setC (.linkWrite (.linkRead (.linkWrite .refl)))))

theorem interruptsKept_takeNibbleBit (w : Who) (left : Nat) (acc : Nibble) (s : State) :
    InterruptsKept s (takeNibbleBit w left acc s) := by
  cases left with
  | zero => exact interruptsKept_modEng w _ s
  | succ k => exact interruptsKept_push w _ s

/-! ## The boot sequencer and the security loop of the PIF -/

theorem interruptsKept_judgeHello (a b : Bool) (s : State) : InterruptsKept s (judgeHello a b s) :=
  .ite (interruptsKept_modEng .pif _ s) (interruptsKept_raiseFatal _ s)

theorem interruptsKept_handshakeSeen (h : Handshake) (s : State) : InterruptsKept s (handshakeSeen h s) := by
  cases h with
  | lockout =>
    obtain ⟨_, _, _, _, _, hframe⟩ := lockoutSeen_done s
    exact hframe.interruptsKept (by decide) (by decide)
  | getChecksum =>
    obtain ⟨_, _, _, _, hframe⟩ := getChecksumSeen_done s
    exact hframe.interruptsKept (by decide) (by decide)
  | checkChecksum => exact .ite (interruptsKept_pifPc .bootTimerGate s) (interruptsKept_push .pif _ s)

theorem interruptsKept_awaitTest (h : Handshake) (s : State) : InterruptsKept s (awaitTest h s) :=
  .ite ((interruptsKept_push .pif _ s).trans (interruptsKept_handshakeSeen h _)) (interruptsKept_push .pif _ s)

theorem interruptsKept_checksumDecoded (s : State) : InterruptsKept s (checksumDecoded s) :=
  interruptsKept_settle_mem (decodePasses_unchanged 4 .pif Config.cksWin s)

theorem interruptsKept_gateTest (s : State) : InterruptsKept s (gateTest s) :=
  .ite (interruptsKept_push .pif _ s) <| (interruptsKept_tickTimer .boot s).trans <|
    .ite (interruptsKept_raiseFatal _ _) (interruptsKept_push .pif _ _)

theorem interruptsKept_runTest (s : State) : InterruptsKept s (runTest s) :=
  .ite ((interruptsKept_pifPc .resetting s).trans (interruptsKept_settle .pif false _)) <|
    .ite ((interruptsKept_pifPc .challengePending s).trans (interruptsKept_push .pif _ _)) (interruptsKept_push .pif _ s)

theorem interruptsKept_compareKeyed (s : State) : InterruptsKept s (compareKeyed s) := by
  rw [compareKeyed_eq]
  exact ((roundsOver_unchanged s).interruptsKept (by decide) (by decide)).trans (interruptsKept_push .pif _ _)

theorem interruptsKept_compareCheck (i : Nibble) (s : State) : InterruptsKept s (compareCheck i s) :=
  .ite (interruptsKept_raiseFatal _ s) <| .ite (interruptsKept_settle .pif false s) (interruptsKept_push .pif _ s)

theorem interruptsKept_challengeVerify (sent : List Nibble) (s : State) :
    InterruptsKept s (challengeVerify sent s) :=
  .ite ((interruptsKept_mem (resetBit_unchanged .pif _ _ s)).trans (interruptsKept_push .pif _ _))
    (interruptsKept_raiseFatal _ s)

theorem interruptsKept_resetWait (s : State) : InterruptsKept s (resetWait s) :=
  (interruptsKept_portRead .pif .cic s).trans <| .ite (interruptsKept_push .pif _ _) <|
    (interruptsKept_tickTimer .reset _).trans (.ite (interruptsKept_raiseFatal _ _) (interruptsKept_push .pif _ _))

theorem interruptsKept_enterRunning {s t : State} (h : exec .pifEnterRunning s = .next t) : InterruptsKept s t := by
  rw [exec_pifEnterRunning] at h
  cases h
  exact (((portWrite_unchanged .pif .inten 3 s).trans (keyedRunning_unchanged _ _)).trans
    (enterSteady_unchanged _)).interruptsKept (by decide) (by decide)

theorem interruptsKept_checksumCompare {s t : State} (h : exec .pifChecksumCompare s = .next t) :
    InterruptsKept s t := by
  by_cases heq : checksumOfCic s = checksumOfCpu s
  · rw [exec_checksumCompare_equal heq] at h
    cases h
    exact interruptsKept_settle .pif false s
  · rw [exec_checksumCompare_unequal heq] at h
    cases h
    exact interruptsKept_raiseFatal _ s

/-! ## The services -/

theorem interruptsKept_challengeAsked (s : State) : InterruptsKept s (challengeAsked s) :=
  .ite (interruptsKept_mem (setBit_unchanged .pif _ _ s)) (interruptsKept_push .pif _ s)

theorem interruptsKept_writeServed (s : State) : InterruptsKept s (writeServed s) :=
  .ite (interruptsKept_push .pif _ s) (.refl s)

/-! ## The JoyBus multiplexer -/

theorem interruptsKept_applyItem (i : JbItem) (s : State) : InterruptsKept s (applyItem i s) :=
  (applyItem_unchanged i s).interruptsKept (by decide) (by decide)

theorem interruptsKept_transfer {s t : State} (h : exec .pifJoybusTransfer s = .next t) : InterruptsKept s t := by
  by_cases hch : chSel (portRead .pif .jbChSel s).1 < 5
  · rw [exec_pifJoybusTransfer_served (ch := ⟨_, hch⟩) rfl] at h
    cases h
    exact (interruptsKept_portRead .pif .jbChSel s).trans (interruptsKept_push .pif _ _)
  · rw [exec_pifJoybusTransfer_refused (Nat.not_lt.1 hch)] at h
    cases h

theorem interruptsKept_waitReady {s t : State} (h : exec .jbWaitReady s = .next t) : InterruptsKept s t := by
  have hstatus := interruptsKept_portRead .pif .jbStatus s
  have herror := hstatus.trans (interruptsKept_portRead .pif .jbError _)
  have hover (v : Byte) (u : State) : InterruptsKept u (waitOver v u) :=
    (interruptsKept_modEng .pif _ u).trans (interruptsKept_settle .pif false _)
  by_cases hready : jbReady (statusRead s).1 = true
  · rw [exec_jbWaitReady_ready hready] at h
    cases h
    exact hstatus.trans (hover _ _)
  · rw [exec_jbWaitReady_not_ready hready] at h
    split at h
    · cases h
      exact herror.trans (hover _ _)
    · cases h
      exact herror.trans (interruptsKept_push .pif _ _)

theorem interruptsKept_txLoop (rq d : Addr) (n rxc : Nat) (s : State) : InterruptsKept s (txLoop rq d n rxc s) :=
  (txLoop_unchanged rq d n rxc s).interruptsKept (by decide) (by decide)

theorem interruptsKept_channelFailed (rq : Addr) (s : State) : InterruptsKept s (channelFailed rq s) :=
  (turned_channelFailed rq s).frame.interruptsKept (by decide) (by decide)

theorem interruptsKept_txByte (rq d : Addr) (n rxc : Nat) (s : State) : InterruptsKept s (txByte rq d n rxc s) :=
  .ite (((interruptsKept_portWrite .pif _ _ s).trans (interruptsKept_portWrite .pif _ _ _)).trans
    (interruptsKept_txLoop _ _ n rxc _)) (interruptsKept_channelFailed rq s)

theorem interruptsKept_rxByte (rq d : Addr) (n : Nat) (s : State) : InterruptsKept s (rxByte rq d n s) := by
  by_cases hok : s.pif.ret = 0
  · rw [rxByte_ok hok]
    exact ((turned_receiveByte d s).frame.trans (rxLoop_unchanged _ _ n _)).interruptsKept (by decide) (by decide)
  · rw [rxByte_failed hok]
    exact interruptsKept_channelFailed rq s

theorem interruptsKept_channelServed (ch : Fin 5) (s : State) : InterruptsKept s (channelServed ch s) :=
  .ite (interruptsKept_settle .pif false s) (interruptsKept_push .pif _ s)

/-! ## Every task but those that take, end or enable interrupts -/

/-- An operation that neither takes nor ends an interrupt. -/
theorem interruptsKept_exec {i : Instr} {s t : State} (hpoll : i ≠ .poll) (hentry : ∀ x, i ≠ .intEntry x)
    (hreturn : i ≠ .intReturn) (h : exec i s = .next t) : InterruptsKept s t := by
  have cicOwn (hown : opOwner i = some .cic) : InterruptsKept s t := by
    have hanswers := exec_answers i s
    rw [hown, h] at hanswers
    exact interruptsKept_of_edits hanswers.edits
  cases i with
  | poll => exact absurd rfl hpoll
  | intEntry x => exact absurd rfl (hentry x)
  | intReturn => exact absurd rfl hreturn
  | ciccmdCompare | ciccmdChallenge | ciccmdReset | ciccmdReserved | resetCounter | cicMain | cicCompare | cicChallenge
  | cicReset => exact cicOwn rfl
  | cmdBit2 => cases h; exact .refl s
  | read _ | write _ _ | bitTest _ _ | bitSet _ _ | bitReset _ _ | swap | incPage | incFull | setPointer _ | add4 _ _
  | com4 _ | sub4 _ _ | readNibble | writeNibble _ => cases h; exact interruptsKept_modEng s.active _ s
  | adc4 _ _ => cases h; exact interruptsKept_of_edits (.deliver (.setC .refl))
  | inc8 a =>
    cases h
    obtain ⟨_, _, hmem, _⟩ := incByte_spec s.active a s
    exact (interruptsKept_mem hmem).trans (interruptsKept_modEng _ _ _)
  | portRead p => cases h; exact (interruptsKept_portRead _ p s).trans (interruptsKept_modEng _ _ _)
  | portWrite p x => cases h; exact interruptsKept_portWrite _ p x s
  | writeBit _ => cases h; exact (interruptsKept_portWrite _ _ _ s).trans (interruptsKept_push _ _ _)
  | readBit => cases h; exact interruptsKept_readBitTurn _ s
  | readBuf a n | writeBuf a n =>
    simp only [exec, execReadBuf, execWriteBuf] at h
    split at h
    · cases h; exact .refl s
    · cases h; exact interruptsKept_push _ _ s
  | decodeRound _ | encodeRound _ | compareRound _ | complementAll _ =>
    cases h; exact interruptsKept_settle_mem (writeCells_unchanged _ _ _ s)
  | challengeTransform _ =>
    cases h; exact (interruptsKept_settle_mem (writeCells_unchanged _ _ _ s)).trans (interruptsKept_modEng _ _ _)
  | cmdLockout => cases h; exact .ite (interruptsKept_handshakeSeen .lockout s) (.refl s)
  | cmdGetChecksum => cases h; exact .ite (interruptsKept_handshakeSeen .getChecksum s) (.refl s)
  | cmdCheckChecksum => cases h; exact .ite (interruptsKept_handshakeSeen .checkChecksum s) (.refl s)
  | cmdAck | jbRx _ => cases h; exact interruptsKept_modEng .pif _ s
  | cmdJoybus | cmdTerminate => cases h; exact .ite (interruptsKept_push .pif _ s) (.refl s)
  | cmdChallenge => cases h; exact .ite (interruptsKept_challengeAsked s) (.refl s)
  | xkindRead64 => cases h; exact .ite (interruptsKept_challengeAsked s) (interruptsKept_push .pif _ s)
  | xkindRead4 | xkindWrite4 | xkindWrite64 | pifAwaitLockout | pifAwaitChecksum | pifAwaitAck | pifChecksumExchange
  | pifRunningLoop | pifCompareExchange | pifChallengeExchange => cases h; exact interruptsKept_push .pif _ s
  | hello00 | hello01 | hello10 | hello11 => cases h; exact interruptsKept_judgeHello _ _ s
  | jbSkip => cases h; exact interruptsKept_applyItem .skip s
  | jbReset => cases h; exact interruptsKept_applyItem .reset s
  | jbStop => cases h; exact interruptsKept_applyItem .stop s
  | jbNop => cases h; exact interruptsKept_applyItem .nop s
  | jbXfer tx rx => cases h; exact interruptsKept_applyItem (.xfer tx rx) s
  | frame tx rx _ _ => cases h; exact .ite (interruptsKept_applyItem (.xfer tx rx) s) (.refl s)
  | jbcIdle | jbcTx | jbcRx | jbcReset | jbcXferAck => cases h; exact interruptsKept_portWrite .pif _ _ s
  | pifStartup | jbChannelReset =>
    cases h; exact (interruptsKept_portWrite .pif _ _ s).trans (interruptsKept_push .pif _ _)
  | pifChecksumCompare => exact interruptsKept_checksumCompare h
  | pifBootTimerGate =>
    cases h; exact (interruptsKept_mem (initTimer_unchanged .boot _ s)).trans (interruptsKept_push .pif _ _)
  | pifEnterRunning => exact interruptsKept_enterRunning h
  | pifResetting => cases h; exact ⟨rfl, fun e => nomatch e⟩
  | pifJoybusParse =>
    cases h
    exact ((parsed_unchanged s).interruptsKept (by decide) (by decide)).trans (interruptsKept_settle .pif false _)
  | pifJoybusTransfer => exact interruptsKept_transfer h
  | jbChannelExchange ch =>
    cases h; exact (interruptsKept_portWrite .pif _ _ s).trans (interruptsKept_txLoop _ _ _ _ _)
  | jbWaitReady => exact interruptsKept_waitReady h
  | jbError rq =>
    cases h
    exact ((recordError_unchanged rq s).interruptsKept (by decide) (by decide)).trans
      (interruptsKept_settle .pif false _)
  | fatal c => cases h; exact interruptsKept_raiseFatal c s
  | halt => cases h; exact interruptsKept_beginHalt s
  | ackTransfer =>
    cases h; exact (interruptsKept_portWrite .pif .jbCtrl jbcXferAck s).trans (interruptsKept_beginHalt _)
  | pifIntA => cases h; exact (interruptsKept_portRead .pif .jbStatus s).trans (interruptsKept_push .pif _ _)
  | pifIntB =>
    cases h
    exact ((interruptsKept_mem (resetBit_unchanged .pif _ _ s)).trans
      ((turned_preResetRaised _).frame.interruptsKept (by decide) (by decide))).trans (interruptsKept_push .pif _ _)
  | timerInit T v => cases h; exact interruptsKept_mem (initTimer_unchanged T v s)
  | timerTick T => cases h; exact (interruptsKept_tickTimer T s).trans (interruptsKept_modEng .pif _ _)

/-- An inner position other than the end of `PIF.Startup`. -/
theorem interruptsKept_resume {p : Pos} (hseed : p ≠ .seedReceived) (s : State) : InterruptsKept s (resume p s) := by
  have cicOwn (hown : p.owner = some .cic) : InterruptsKept s (resume p s) := by
    have hedits := edits_resume p s
    rw [hown] at hedits
    exact interruptsKept_of_edits hedits
  cases p with
  | seedReceived => exact absurd rfl hseed
  | helloSent | seedSent | cicKey | cicIdle | selectFirst | selectSecond _ | compareGot _ _ | comparePut _ _
  | challengeSent | resetCount _ _ | resetCounted => exact cicOwn rfl
  | ackWait => exact interruptsKept_ackTurn s.active s
  | nibbleBits left acc => exact interruptsKept_takeNibbleBit s.active left acc s
  | storeNibble _ => exact interruptsKept_modEng s.active _ s
  | settle => exact interruptsKept_settle s.active false s
  | helloFirst | helloSecond _ | challengeSend => exact interruptsKept_push .pif _ s
  | challengeReturned => exact (interruptsKept_pifPc .running s).trans (interruptsKept_push .pif _ _)
  | awaitTest x => exact interruptsKept_awaitTest x s
  | checksumReceived => exact interruptsKept_checksumDecoded s
  | checksumPassed => exact interruptsKept_pifPc .bootTimerGate s
  | wake => exact (endHalt_unchanged s).interruptsKept (by decide) (by decide)
  | gateTest => exact interruptsKept_gateTest s
  | runTest => exact interruptsKept_runTest s
  | compareKeyed => exact interruptsKept_compareKeyed s
  | compareCheck i => exact interruptsKept_compareCheck i s
  | challengeVerify sent => exact interruptsKept_challengeVerify sent s
  | resetSelected => exact (interruptsKept_mem (initTimer_unchanged .reset _ s)).trans (interruptsKept_push .pif _ _)
  | resetWait => exact interruptsKept_resetWait s
  | resetReady =>
    obtain ⟨_, _, _, _, _, _, hframe⟩ := resetReady_spec s
    exact hframe.interruptsKept (by decide) (by decide)
  | channelServed ch => exact interruptsKept_channelServed ch s
  | channelResetEnd => exact (turned_exchangeEnd s).frame.interruptsKept (by decide) (by decide)
  | txByte rq d n rxc => exact interruptsKept_txByte rq d n rxc s
  | rxByte rq d n => exact interruptsKept_rxByte rq d n s
  | writeServed => exact interruptsKept_writeServed s
  | serviceEnd _ => exact interruptsKept_settle .pif false s
  | fatalStrobe => exact (fatalStrobe_unchanged s).interruptsKept (by decide) (by decide)

/-! ## The tasks that take, end or enable interrupts -/

/-- A `POLL` or an entry sets no `IE` (60 R364, R366). -/
theorem ie_pollInterrupts {s : State} (h : (pollInterrupts s).ie = true) : s.ie = true := by
  by_cases hie : s.ie = true
  · exact hie
  · rwa [pollInterrupts_masked (.inl (eq_false_of_ne_true hie))] at h

theorem ie_takeInterrupt (x : IntSrc) (s : State) : (takeInterrupt x s).ie = false := by
  obtain ⟨_, _, hie, _⟩ := takeInterrupt_entered x s
  exact hie

/-- A return puts nothing into service (60 R368). -/
theorem isr_returnInterrupt {s : State} (h : s.isr = none) : (returnInterrupt s).isr = none := by
  rw [returnInterrupt_of_none h, ← h]
  exact swapPointers_isr .pif s

/-- The end of `PIF.Startup` sets `IE` and leaves the in-service record (42 R208). -/
theorem isr_startupFinish (s : State) : (startupFinish s).isr = s.isr := by
  rw [startupFinish_eq, openHandshake_unchanged _ .isr (by decide), decodePasses_unchanged _ _ _ s .isr (by decide)]

/-- What a task does to the interrupt state: nothing, or it is one of the two that take an interrupt, or of the two that
set `IE`. -/
theorem runTask_interrupts {x : Task} {s t : State} (h : runTask x s = .next t) : InterruptsKept s t ∨
    ((x = .op .poll ∨ ∃ y, x = .op (.intEntry y)) ∧ (t.ie = true → s.ie = true)) ∨
    ((x = .pos .seedReceived ∨ x = .op .intReturn) ∧ (s.isr = none → t.isr = none)) := by
  cases x with
  | op i =>
    by_cases hpoll : i = .poll
    · subst hpoll; cases h; exact .inr (.inl ⟨.inl rfl, ie_pollInterrupts⟩)
    by_cases hentry : ∃ y, i = .intEntry y
    · obtain ⟨y, rfl⟩ := hentry
      cases h
      exact .inr (.inl ⟨.inr ⟨y, rfl⟩, fun e => absurd e (ne_true_of_eq_false (ie_takeInterrupt y s))⟩)
    by_cases hreturn : i = .intReturn
    · subst hreturn; cases h; exact .inr (.inr ⟨.inr rfl, isr_returnInterrupt⟩)
    exact .inl (interruptsKept_exec hpoll (fun y e => hentry ⟨y, e⟩) hreturn h)
  | pos p =>
    cases h
    by_cases hseed : p = .seedReceived
    · subst hseed; exact .inr (.inr ⟨.inl rfl, (isr_startupFinish s).trans⟩)
    · exact .inl (interruptsKept_resume hseed s)

/-- Settles O60: of the three kinds of `runTask_interrupts`, one takes no interrupt and one sets no `IE`. -/
theorem interruptsOnlyAtPollPoints : Obligations.InterruptsOnlyAtPollPoints := by
  intro s u x h
  obtain ⟨hisr, hie⟩ | ⟨htask, hie⟩ | ⟨htask, hisr⟩ := runTask_interrupts h
  · exact ⟨fun hnone hserved => absurd (hisr.trans hnone) hserved, fun hclear hset =>
      absurd (hie hset) (ne_true_of_eq_false hclear)⟩
  · exact ⟨fun _ _ => htask, fun hclear hset => absurd (hie hset) (ne_true_of_eq_false hclear)⟩
  · exact ⟨fun hnone hserved => absurd (hisr hnone) hserved, fun _ _ => htask⟩

end Sys2Proof.Machine
end
